-- ==== Sys2Proof/Word.lean ====
section
/-! DEFINITION. The words of the block: the byte of its registers and buffers, and the two bit fields that name a
drive unit and a head (R7, R9, R30). -/

namespace Sys2Proof

/-- Every register, operand and transferred value is one byte (R9, R45). -/
abbrev Byte := BitVec 8

/-- A unit number, 0 to 3: two bits of the unit/head byte (R30, R61). -/
abbrev UnitNo := BitVec 2

/-- A head number, 0 or 1: one bit of the unit/head byte (R30, R61). -/
abbrev HeadNo := BitVec 1

end Sys2Proof
end

