-- ==== Sys2Proof/Config.lean ====
section
/-! DEFINITION. What is fixed for one machine: the parameters of R7 and R8, the closed set of error codes (R154), the
drive configuration a host supplies at construction (R37, R181), and the free values: the parameters the spec leaves
open and the backend answers nothing has scripted (R11). -/

namespace Sys2Proof

/-- The error codes a drive operation may answer, a closed set of eight (R101, R154). -/
inductive ErrorCode where
  | ok
  | seekFailed
  | noAddressMark
  | noData
  | dataError
  | noMatchingSector
  | notReady
  | readOnly
deriving DecidableEq, Repr, Inhabited

/-- The kind of a drive (R37). -/
inductive DriveKind where
  | none
  | inch3
  | inch3half
  | inch5quarter
deriving DecidableEq, Repr

/-- What the host supplies for a slot that holds a Drive (R37, R181). -/
structure DriveConfig where
  kind          : DriveKind
  headCount     : Nat
  cylinderCount : Nat
  readOnly      : Bool
  attached      : Bool
deriving DecidableEq, Repr

/-- `NUM_UNITS` (R7). -/
def Config.numUnits : Nat := 4

/-- `CMD_CAP` (R7). -/
def Config.cmdCap : Nat := 16

/-- `RES_CAP` (R7). -/
def Config.resCap : Nat := 16

/-- `EXEC_CAP` (R7). -/
def Config.execCap : Nat := 8192

/-- `STRAY_READ_VALUE`, fixed by the spec's decision D14 (R8, R92). -/
def Config.strayReadValue : Byte := 0xFF

/-- How far `SHORT_DELAY` lies above 1: a free value, for the spec leaves the delay open but for the bound 1 (R8, D40;
log entry 3). -/
opaque Config.shortDelayAboveOne : Nat

/-- How far `LONG_DELAY` lies above 1: a free value (R8, D40; log entry 3). -/
opaque Config.longDelayAboveOne : Nat

/-- `SHORT_DELAY`, in ticks, at least 1 (R8). -/
def Config.shortDelay : Nat := Config.shortDelayAboveOne + 1

/-- `LONG_DELAY`, in ticks, at least 1 (R8). -/
def Config.longDelay : Nat := Config.longDelayAboveOne + 1

/-- The code of the n-th unscripted backend answer: a free value (R11, R101; log entry 2). -/
opaque Config.freeCode : Nat → ErrorCode

/-- The answer of the n-th unscripted call when it is `ready()`: a free value (log entry 2). -/
opaque Config.freeReady : Nat → Bool

/-- Byte k of the n-th unscripted backend answer: a free value (log entry 2). -/
opaque Config.freeByte : Nat → Nat → Byte

/-- The length the n-th unscripted call returns when it is `readTrack`: a free value (log entry 2). -/
opaque Config.freeLength : Nat → Nat

/-- The slot configuration of State.reset: DESIGN CHOICE, the spec's own fixture F0 (95_test_vectors.md section 0);
the spec leaves it to each machine (R181, D45), and `State.construct` takes any (log entry 4). -/
def Config.slots : Vector (Option DriveConfig) 4 :=
  #v[some ⟨.inch3, 2, 40, false, true⟩,
     some ⟨.inch5quarter, 2, 80, false, true⟩,
     Option.none,
     some ⟨.inch3half, 2, 80, false, false⟩]

end Sys2Proof
end

