-- ==== Sys2Proof/Syntax.lean ====
section
/-! DEFINITION. The instructions of the block: its commands, one constructor per command id of R31 and R58, with every
bit of every command byte kept as an operand (R59, R61 to R67), also the bits the spec says are ignored (R71, R72). -/

namespace Sys2Proof

/-- The three flag bits of the opcode byte (R59). -/
structure OpFlags where
  /-- MT, bit 7: multi-track. -/
  mt : Bool
  /-- MF, bit 6: MFM mode. -/
  mf : Bool
  /-- SK, bit 5: skip deleted-data sectors. -/
  sk : Bool
deriving DecidableEq, Repr

/-- The unit/head byte (R61): bits 7:3, which no rule reads, bit 2, the head, and bits 1:0, the unit. -/
structure UnitHead where
  ignored : BitVec 5
  hd      : HeadNo
  us      : UnitNo
deriving DecidableEq, Repr

/-- The sector identifier C, H, R, N of format F9 (R60, R67) and of the seven-byte result (R130). -/
structure SectorId where
  c : Byte
  h : Byte
  r : Byte
  n : Byte
deriving DecidableEq, Repr

/-- A command with its operand bytes. The 17 rows INVALID of the opcode table are ONE command id (R31, R70): `invalid`
carries the five code bits, and WellFormed says which they may be. -/
inductive Instr where
  /-- READ TRACK, F9, code 0x02 (R136). -/
  | readTrack (f : OpFlags) (uh : UnitHead) (id : SectorId) (eot gpl dtl : Byte)
  /-- SPECIFY, F3S, code 0x03 (R64, R118). -/
  | specify (f : OpFlags) (srtHut hltNd : Byte)
  /-- SENSE DRIVE STATUS, F2, code 0x04 (R119). -/
  | senseDriveStatus (f : OpFlags) (uh : UnitHead)
  /-- WRITE DATA, F9, code 0x05 (R134). -/
  | writeData (f : OpFlags) (uh : UnitHead) (id : SectorId) (eot gpl dtl : Byte)
  /-- READ DATA, F9, code 0x06 (R132). -/
  | readData (f : OpFlags) (uh : UnitHead) (id : SectorId) (eot gpl dtl : Byte)
  /-- RECALIBRATE, F2, code 0x07 (R122). -/
  | recalibrate (f : OpFlags) (uh : UnitHead)
  /-- SENSE INTERRUPT STATUS, F1, code 0x08 (R120, R121). -/
  | senseInterruptStatus (f : OpFlags)
  /-- WRITE DELETED DATA, F9, code 0x09 (R135). -/
  | writeDeletedData (f : OpFlags) (uh : UnitHead) (id : SectorId) (eot gpl dtl : Byte)
  /-- READ ID, F2, code 0x0A (R138). -/
  | readId (f : OpFlags) (uh : UnitHead)
  /-- READ DELETED DATA, F9, code 0x0C (R133). -/
  | readDeletedData (f : OpFlags) (uh : UnitHead) (id : SectorId) (eot gpl dtl : Byte)
  /-- FORMAT TRACK, F6, code 0x0D (R66, R140). -/
  | formatTrack (f : OpFlags) (uh : UnitHead) (n sc gpl d : Byte)
  /-- SEEK, F3K, code 0x0F (R65, R123). -/
  | seek (f : OpFlags) (uh : UnitHead) (ncn : Byte)
  /-- SCAN EQUAL, F9, code 0x11 (R145). -/
  | scanEqual (f : OpFlags) (uh : UnitHead) (id : SectorId) (eot gpl dtl : Byte)
  /-- SCAN LOW OR EQUAL, F9, code 0x19 (R146). -/
  | scanLowOrEqual (f : OpFlags) (uh : UnitHead) (id : SectorId) (eot gpl dtl : Byte)
  /-- SCAN HIGH OR EQUAL, F9, code 0x1D (R147). -/
  | scanHighOrEqual (f : OpFlags) (uh : UnitHead) (id : SectorId) (eot gpl dtl : Byte)
  /-- INVALID, F1, every other code (R70, R125). -/
  | invalid (f : OpFlags) (code : BitVec 5)
deriving DecidableEq, Repr

end Sys2Proof
end

