-- ==== Sys2Proof/WellFormed.lean ====
section
/-! DEFINITION. Which instructions exist: every operand value of a valid command does, and an INVALID command carries
one of the 17 codes of R70. -/

namespace Sys2Proof

/-- The codes of the 15 valid commands (R58). -/
def validCodes : List (BitVec 5) :=
  [0x02, 0x03, 0x04, 0x05, 0x06, 0x07, 0x08, 0x09, 0x0A, 0x0C, 0x0D, 0x0F, 0x11, 0x19, 0x1D]

/-- The 17 unrecognized codes, as R70 lists them. -/
def invalidCodes : List (BitVec 5) :=
  [0x00, 0x01, 0x0B, 0x0E, 0x10, 0x12, 0x13, 0x14, 0x15, 0x16, 0x17, 0x18, 0x1A, 0x1B, 0x1C, 0x1E, 0x1F]

/-- An instruction the encoding admits. -/
def Instr.wellFormed : Instr → Bool
  | .readTrack _ _ _ _ _ _ => true
  | .specify _ _ _ => true
  | .senseDriveStatus _ _ => true
  | .writeData _ _ _ _ _ _ => true
  | .readData _ _ _ _ _ _ => true
  | .recalibrate _ _ => true
  | .senseInterruptStatus _ => true
  | .writeDeletedData _ _ _ _ _ _ => true
  | .readId _ _ => true
  | .readDeletedData _ _ _ _ _ _ => true
  | .formatTrack _ _ _ _ _ _ => true
  | .seek _ _ _ => true
  | .scanEqual _ _ _ _ _ _ => true
  | .scanLowOrEqual _ _ _ _ _ _ => true
  | .scanHighOrEqual _ _ _ _ _ _ => true
  | .invalid _ code => invalidCodes.contains code

end Sys2Proof
end

