-- ==== Sys2Proof/Decode.lean ====
section
/-! DEFINITION. Decoding and encoding of commands (R57 to R74): the opcode map, the byte count and direction of each
command, the decoder, and the encoder written from the same tables. -/

namespace Sys2Proof

/-- The command ids (R31), other than "none". -/
inductive CommandId where
  | readTrack
  | specify
  | senseDriveStatus
  | writeData
  | readData
  | recalibrate
  | senseInterruptStatus
  | writeDeletedData
  | readId
  | readDeletedData
  | formatTrack
  | seek
  | scanEqual
  | scanLowOrEqual
  | scanHighOrEqual
  | invalid
deriving DecidableEq, Repr

/-- The direction of an Execution phase (R69). -/
inductive Direction where
  | controllerToHost
  | hostToController
deriving DecidableEq, Repr

/-- Why bytes are no command: none at all, or fewer than the first byte's count asks for (R57). -/
inductive DecodeError where
  | noBytes
  | tooFewBytes
deriving DecidableEq, Repr

/-- `op5`, the command selector `b[4:0]` of the opcode byte (R58, R59). -/
def op5 (b : Byte) : BitVec 5 := b.extractLsb' 0 5

/-- The opcode map (R58): every value not listed is INVALID (R70). -/
def commandId (code : BitVec 5) : CommandId :=
  match code.toNat with
  | 0x02 => .readTrack
  | 0x03 => .specify
  | 0x04 => .senseDriveStatus
  | 0x05 => .writeData
  | 0x06 => .readData
  | 0x07 => .recalibrate
  | 0x08 => .senseInterruptStatus
  | 0x09 => .writeDeletedData
  | 0x0A => .readId
  | 0x0C => .readDeletedData
  | 0x0D => .formatTrack
  | 0x0F => .seek
  | 0x11 => .scanEqual
  | 0x19 => .scanLowOrEqual
  | 0x1D => .scanHighOrEqual
  | _ => .invalid

/-- `cmdCount`, the total byte count of a command, opcode inclusive (R58). -/
def cmdCount : CommandId → Nat
  | .readTrack => 9
  | .specify => 3
  | .senseDriveStatus => 2
  | .writeData => 9
  | .readData => 9
  | .recalibrate => 2
  | .senseInterruptStatus => 1
  | .writeDeletedData => 9
  | .readId => 2
  | .readDeletedData => 9
  | .formatTrack => 6
  | .seek => 3
  | .scanEqual => 9
  | .scanLowOrEqual => 9
  | .scanHighOrEqual => 9
  | .invalid => 1

/-- The direction of a command's Execution phase, none where it has no Execution phase (R58, R69). -/
def transferDirection : CommandId → Option Direction
  | .readTrack => some .controllerToHost
  | .specify => none
  | .senseDriveStatus => none
  | .writeData => some .hostToController
  | .readData => some .controllerToHost
  | .recalibrate => none
  | .senseInterruptStatus => none
  | .writeDeletedData => some .hostToController
  | .readId => none
  | .readDeletedData => some .controllerToHost
  | .formatTrack => some .hostToController
  | .seek => none
  | .scanEqual => some .hostToController
  | .scanLowOrEqual => some .hostToController
  | .scanHighOrEqual => some .hostToController
  | .invalid => none

/-- The flag bits of the opcode byte: MT bit 7, MF bit 6, SK bit 5 (R59). -/
def opFlags (b : Byte) : OpFlags := ⟨b.getLsbD 7, b.getLsbD 6, b.getLsbD 5⟩

/-- The unit/head byte taken apart: unit `b[1:0]`, head `b[2]`, the rest ignored (R61). -/
def unitHead (b : Byte) : UnitHead := ⟨b.extractLsb' 3 5, b.extractLsb' 2 1, b.extractLsb' 0 2⟩

/-- The bytes C, H, R, N of format F9: command bytes 2 to 5 (R67). -/
def sectorIdOf (cmd : Nat → Byte) : SectorId := ⟨cmd 2, cmd 3, cmd 4, cmd 5⟩

/-- The instruction that command id and command bytes stand for, by the formats F1 to F9 (R62 to R67). -/
def assemble (id : CommandId) (cmd : Nat → Byte) : Instr :=
  let f := opFlags (cmd 0)
  let uh := unitHead (cmd 1)
  match id with
  | .readTrack => .readTrack f uh (sectorIdOf cmd) (cmd 6) (cmd 7) (cmd 8)
  | .specify => .specify f (cmd 1) (cmd 2)
  | .senseDriveStatus => .senseDriveStatus f uh
  | .writeData => .writeData f uh (sectorIdOf cmd) (cmd 6) (cmd 7) (cmd 8)
  | .readData => .readData f uh (sectorIdOf cmd) (cmd 6) (cmd 7) (cmd 8)
  | .recalibrate => .recalibrate f uh
  | .senseInterruptStatus => .senseInterruptStatus f
  | .writeDeletedData => .writeDeletedData f uh (sectorIdOf cmd) (cmd 6) (cmd 7) (cmd 8)
  | .readId => .readId f uh
  | .readDeletedData => .readDeletedData f uh (sectorIdOf cmd) (cmd 6) (cmd 7) (cmd 8)
  | .formatTrack => .formatTrack f uh (cmd 2) (cmd 3) (cmd 4) (cmd 5)
  | .seek => .seek f uh (cmd 2)
  | .scanEqual => .scanEqual f uh (sectorIdOf cmd) (cmd 6) (cmd 7) (cmd 8)
  | .scanLowOrEqual => .scanLowOrEqual f uh (sectorIdOf cmd) (cmd 6) (cmd 7) (cmd 8)
  | .scanHighOrEqual => .scanHighOrEqual f uh (sectorIdOf cmd) (cmd 6) (cmd 7) (cmd 8)
  | .invalid => .invalid f (op5 (cmd 0))

/-- The decoder, total on any bytes: the first byte fixes the command and how many bytes it takes (R57); the bytes
after them are returned. -/
def decode : List Byte → Except DecodeError (Instr × List Byte)
  | [] => .error .noBytes
  | b :: rest =>
    let id := commandId (op5 b)
    if (b :: rest).length < cmdCount id then .error .tooFewBytes
    else .ok (assemble id (fun k => (b :: rest).getD k 0), (b :: rest).drop (cmdCount id))

/-- The opcode byte of flags and code (R59). -/
def opByte (f : OpFlags) (code : BitVec 5) : Byte :=
  BitVec.ofBool f.mt ++ BitVec.ofBool f.mf ++ BitVec.ofBool f.sk ++ code

/-- The unit/head byte (R61). -/
def unitHeadByte (uh : UnitHead) : Byte := uh.ignored ++ uh.hd ++ uh.us

/-- Format F9 (R67). -/
def encodeF9 (f : OpFlags) (code : BitVec 5) (uh : UnitHead) (id : SectorId) (eot gpl dtl : Byte) : List Byte :=
  [opByte f code, unitHeadByte uh, id.c, id.h, id.r, id.n, eot, gpl, dtl]

/-- The command bytes of an instruction, in the order the host writes them (R58, R62 to R67). -/
def encode : Instr → List Byte
  | .readTrack f uh id eot gpl dtl => encodeF9 f 0x02 uh id eot gpl dtl
  | .specify f srtHut hltNd => [opByte f 0x03, srtHut, hltNd]
  | .senseDriveStatus f uh => [opByte f 0x04, unitHeadByte uh]
  | .writeData f uh id eot gpl dtl => encodeF9 f 0x05 uh id eot gpl dtl
  | .readData f uh id eot gpl dtl => encodeF9 f 0x06 uh id eot gpl dtl
  | .recalibrate f uh => [opByte f 0x07, unitHeadByte uh]
  | .senseInterruptStatus f => [opByte f 0x08]
  | .writeDeletedData f uh id eot gpl dtl => encodeF9 f 0x09 uh id eot gpl dtl
  | .readId f uh => [opByte f 0x0A, unitHeadByte uh]
  | .readDeletedData f uh id eot gpl dtl => encodeF9 f 0x0C uh id eot gpl dtl
  | .formatTrack f uh n sc gpl d => [opByte f 0x0D, unitHeadByte uh, n, sc, gpl, d]
  | .seek f uh ncn => [opByte f 0x0F, unitHeadByte uh, ncn]
  | .scanEqual f uh id eot gpl dtl => encodeF9 f 0x11 uh id eot gpl dtl
  | .scanLowOrEqual f uh id eot gpl dtl => encodeF9 f 0x19 uh id eot gpl dtl
  | .scanHighOrEqual f uh id eot gpl dtl => encodeF9 f 0x1D uh id eot gpl dtl
  | .invalid f code => [opByte f code]

/-- The command id of an instruction (R31). -/
def Instr.commandId : Instr → CommandId
  | .readTrack _ _ _ _ _ _ => .readTrack
  | .specify _ _ _ => .specify
  | .senseDriveStatus _ _ => .senseDriveStatus
  | .writeData _ _ _ _ _ _ => .writeData
  | .readData _ _ _ _ _ _ => .readData
  | .recalibrate _ _ => .recalibrate
  | .senseInterruptStatus _ => .senseInterruptStatus
  | .writeDeletedData _ _ _ _ _ _ => .writeDeletedData
  | .readId _ _ => .readId
  | .readDeletedData _ _ _ _ _ _ => .readDeletedData
  | .formatTrack _ _ _ _ _ _ => .formatTrack
  | .seek _ _ _ => .seek
  | .scanEqual _ _ _ _ _ _ => .scanEqual
  | .scanLowOrEqual _ _ _ _ _ _ => .scanLowOrEqual
  | .scanHighOrEqual _ _ _ _ _ _ => .scanHighOrEqual
  | .invalid _ _ => .invalid

/-- The byte count of the longest command (R57). -/
def longestCommand : Nat := 9

/-- The command bytes of an instruction whose lowest `nbits` bits are `w`, bit 0 the least significant bit of the
first byte; every byte above them is 0. -/
def tableBytes (nbits w : Nat) : List Byte :=
  (List.range longestCommand).map fun k => BitVec.ofNat 8 (w % 2 ^ nbits / 256 ^ k)

/-- The instruction the decoder reads from the bits `w`, numbered as the opcode table numbers them. -/
def decodeTableWord (nbits w : Nat) : Option Instr :=
  match decode (tableBytes nbits w) with
  | .ok (i, _) => some i
  | .error _ => none

end Sys2Proof
end

