-- ==== Sys2Proof/Machine/State.lean ====
section
/-! DEFINITION. The state of the controller and its four drive slots (R15 to R43), the host's operations and the
backend's calls and answers as plain data (R11, R44, R100), the reasons a step can stop, and the state at reset. -/

namespace Sys2Proof.Machine

open Sys2Proof

/-- The four phases (R16). -/
inductive Phase where
  | idle
  | command
  | execution
  | result
deriving DecidableEq, Repr

/-- The pending interrupt (R34). -/
inductive InterruptKind where
  | none
  | resultReady
  | execByteReady
  | seekEnd
deriving DecidableEq, Repr

/-- A buffer: address and byte pairs in one canonical form, addresses strictly rising, no byte equal to what an
unlisted address reads as (0x00, the value R42 gives). -/
abbrev Memory := List Host.Cell

/-- One physical drive unit (R37). -/
structure Drive where
  kind            : DriveKind
  headCount       : Nat
  cylinderCount   : Nat
  readOnly        : Bool
  motorOn         : Bool
  currentCylinder : Nat
  attached        : Bool
deriving DecidableEq, Repr

/-- The arguments of `readSector` and `writeSector` other than the buffer (R100). -/
structure SectorArgs where
  xCyl        : Byte
  xHead       : Byte
  head        : HeadNo
  sector      : Byte
  len         : Nat
  deletedFlag : Bool
  skipDeleted : Bool
  mfm         : Bool
  multiTrack  : Bool
deriving DecidableEq, Repr

/-- A call of a backend operation with its arguments (R100); a write's and a format's buffer is given by its bytes. -/
inductive Call where
  | seekCylinder (n : Byte)
  | readSectorId (head : HeadNo) (sequence : Nat)
  | readSector (a : SectorArgs)
  | writeSector (a : SectorArgs) (buf : List Byte)
  | readTrack (xCyl xHead : Byte) (head : HeadNo) (capacity : Nat)
  | formatTrack (head : HeadNo) (sectorCount : Byte) (descriptors : List Byte) (fillerByte : Byte)
  | driveStatus
  | ready
  | eject
deriving DecidableEq, Repr

/-- An answer of a backend (R100). `readTrack`'s returned length is the number of bytes delivered (log entry 9). -/
inductive Answer where
  /-- A code alone: `seekCylinder`, `writeSector`, `formatTrack`. -/
  | code (e : ErrorCode)
  /-- `readSectorId`: a code and the header, read only on Ok. -/
  | header (e : ErrorCode) (id : SectorId)
  /-- `readSector` and `readTrack`: a code and the bytes delivered. -/
  | data (e : ErrorCode) (bytes : List Byte)
  /-- `driveStatus()`. -/
  | status (b : Byte)
  /-- `ready()`. -/
  | isReady (r : Bool)
  /-- `eject()`, which answers nothing. -/
  | nothing
  /-- A code outside the closed vocabulary, by its number: outside the contract of R101. -/
  | foreign (raw : Nat)
deriving DecidableEq, Repr

/-- One entry of the event history (R39): a backend call with its answer, or a `Notify` (R11). -/
inductive Event where
  | call (u : UnitNo) (c : Call) (a : Answer)
  | irq (level : Bool)
deriving DecidableEq, Repr

/-- What the host may do (R44, R172), and the two things it may not, so that they can be refused by name (R152). -/
inductive HostOp where
  | readStatus
  | readData
  | writeData (b : Byte)
  /-- Bit u for unit u; bits above bit 3 are ignored (R47). -/
  | setMotor (mask : Byte)
  | tick
  | reset
  | insert (u : UnitNo)
  | eject (u : UnitNo)
  /-- A write to the STATUS selector (R49). -/
  | writeStatus (b : Byte)
  /-- An operation called from inside the callback or while another one runs (R54). -/
  | reenter (op : HostOp)
deriving DecidableEq, Repr

/-- The state. The names are those of R16 to R39, the buffers `cmd`, `res` and `exec` being called `cmdBuf`, `resBuf` and
`execBuf`; the last four fields are the model's own (log entries 1, 2, 6). The main status register is a function of the
state and not stored (R18). -/
structure State where
  phase               : Phase
  status0             : Byte
  status1             : Byte
  status2             : Byte
  status3             : Byte
  spec1               : Byte
  spec2               : Byte
  cmdBuf              : Memory
  cmdLength           : Nat
  cmdPosition         : Nat
  resBuf              : Memory
  resLength           : Nat
  resPosition         : Nat
  execBuf             : Memory
  execLength          : Nat
  execPosition        : Nat
  selectedUnit        : UnitNo
  selectedHead        : HeadNo
  pendingOpcode       : Option CommandId
  writeDeletedFlag    : Bool
  rotatingSectorIndex : Nat
  interruptState      : InterruptKind
  ticksRemaining      : Nat
  irqLine             : Bool
  slots               : Vector (Option Drive) 4
  events              : List Event
  /-- The model's own: the host's operations still to come, the next one first. -/
  hostOps             : List HostOp
  /-- The model's own: the backend answers still to come, the next one first. -/
  answers             : List Answer
  /-- The model's own: how many calls the free values of Config have answered. -/
  freeCalls           : Nat
  /-- The model's own: the byte the last host operation returned, none where it returns nothing. -/
  reply               : Option Byte
deriving DecidableEq, Repr

/-- Why the model stops in a state that no run reaches. The block itself has no fault (R152, R153). -/
inductive Fault where
  /-- Raised by a data-register access whose buffer index lies at or beyond the buffer's capacity, which R50 and R98 say
  never happens. Safe: the model stops. -/
  | bufferIndex
  /-- Raised by the dispatch, a transfer or an abort with `pendingOpcode = none` in a phase that always has one. Safe: the
  model stops. -/
  | noCommand
deriving DecidableEq, Repr

/-- What the model has no step for. -/
inductive Refusal where
  /-- Raised by an arm of `exec` that has no meaning yet. Safe: the model stops. -/
  | notModelled (mnemonic : String)
  /-- Raised by `ask` on a scripted backend answer outside the contract of R101. Safe: the spec refuses it (R152). -/
  | backendContract
  /-- Raised by `insert` and `eject` where R171 does not allow them. Safe: the spec refuses it (R152). -/
  | mediaSwap
  /-- Raised by a write to the STATUS selector. Safe: the spec refuses it (R49, R152). -/
  | statusWrite
  /-- Raised by an operation called from inside another one. Safe: the spec refuses it (R54, R152). -/
  | reentrantCall
deriving DecidableEq, Repr

/-- A drive as constructed or after a reset: its configuration, motor off, at cylinder 0 (R43, R181). -/
def Drive.construct (c : DriveConfig) : Drive where
  kind := c.kind
  headCount := c.headCount
  cylinderCount := c.cylinderCount
  readOnly := c.readOnly
  motorOn := false
  currentCylinder := 0
  attached := c.attached

/-- The construction state of a machine with this slot configuration: the values of R42 and R43, an empty event history
(R181), and nothing for the host or the backends to do yet. -/
def State.construct (slots : Vector (Option DriveConfig) 4) : State where
  phase := .idle
  status0 := 0x00
  status1 := 0x00
  status2 := 0x00
  status3 := 0x00
  spec1 := 0x00
  spec2 := 0x00
  cmdBuf := []
  cmdLength := 0
  cmdPosition := 0
  resBuf := []
  resLength := 0
  resPosition := 0
  execBuf := []
  execLength := 0
  execPosition := 0
  selectedUnit := 0
  selectedHead := 0
  pendingOpcode := none
  writeDeletedFlag := false
  rotatingSectorIndex := 0
  interruptState := .none
  ticksRemaining := 0
  irqLine := false
  slots := #v[slots[0].map Drive.construct, slots[1].map Drive.construct, slots[2].map Drive.construct,
              slots[3].map Drive.construct]
  events := []
  hostOps := []
  answers := []
  freeCalls := 0
  reply := none

/-- The machine right after reset (R42, R43, R181), with the slot configuration of Config (log entry 4). -/
def State.reset : State := State.construct Config.slots

end Sys2Proof.Machine
end

