-- ==== Sys2Proof/Machine/Ops.lean ====
section
/-! DEFINITION. The named operations over the buffers, the drive slots, the backend oracle, the interrupt line and the
phases, each the pseudocode of one rule. They are what every command's meaning and every host operation is made of. -/

namespace Sys2Proof.Machine

open Sys2Proof

/-! ### Outcomes -/

/-- An operation's outcome: a value, a fault or a refusal. -/
abbrev Result (α : Type) := Host.Outcome α Fault Refusal

/-- Statements take effect in the order written (R10): go on from a value, stop at a fault or a refusal. -/
def andThen {α β : Type} (o : Result α) (f : α → Result β) : Result β :=
  match o with
  | .next a => f a
  | .fault r => .fault r
  | .refused r => .refused r

/-! ### Buffers (R26 to R28, R50) -/

/-- What an unlisted address reads as: the reset contents R42 gives. -/
def Memory.unlisted : Byte := 0x00

/-- The byte at an address. -/
def Memory.read : Memory → Nat → Byte
  | [], _ => Memory.unlisted
  | (x, v) :: rest, a => if x = a then v else Memory.read rest a

/-- Put a byte before the cells `rest`, or leave it unlisted where it is what an unlisted address reads as. -/
def Memory.cell (a : Nat) (b : Byte) (rest : Memory) : Memory :=
  if b = Memory.unlisted then rest else (a, b) :: rest

/-- Write one byte, keeping the canonical form. -/
def Memory.write : Memory → Nat → Byte → Memory
  | [], a, b => Memory.cell a b []
  | (x, v) :: rest, a, b =>
    if a < x then Memory.cell a b ((x, v) :: rest)
    else if a = x then Memory.cell a b rest
    else (x, v) :: Memory.write rest a b

/-- Write bytes at rising addresses, first byte first (R45). -/
def Memory.writeBytes : Memory → Nat → List Byte → Memory
  | m, _, [] => m
  | m, a, b :: bytes => Memory.writeBytes (Memory.write m a b) (a + 1) bytes

/-- The bytes 0 to `n - 1`, in order (R45). -/
def Memory.firstBytes (m : Memory) (n : Nat) : List Byte :=
  (List.range n).map (Memory.read m)

/-- The canonical form from address `lo` on, below capacity `cap`. -/
def Memory.wfFrom : Nat → Nat → Memory → Bool
  | _, _, [] => true
  | lo, cap, (a, b) :: rest =>
    decide (lo ≤ a) && decide (a < cap) && decide (b ≠ Memory.unlisted) && Memory.wfFrom (a + 1) cap rest

/-- The canonical form of a buffer of capacity `cap`: addresses below it strictly rising, no listed byte equal to what an
unlisted address reads as. -/
def Memory.wf (cap : Nat) (m : Memory) : Bool := Memory.wfFrom 0 cap m

/-! ### Drive slots (R36, R37) -/

/-- The Drive in slot `u`, if any. -/
def State.drive (s : State) (u : UnitNo) : Option Drive :=
  s.slots.get ⟨u.toNat, u.isLt⟩

/-- The state with slot `u` holding `d`. -/
def State.setDrive (s : State) (u : UnitNo) (d : Drive) : State :=
  { s with slots := s.slots.set u.toNat (some d) u.isLt }

/-! ### Notify and the backend oracle (R11, R39, R100, R101) -/

/-- Append an event to the history (R39). -/
def record (e : Event) (s : State) : State :=
  { s with events := s.events ++ [e] }

/-- `Notify(level)` (R11). -/
def notify (level : Bool) (s : State) : State :=
  record (.irq level) s

/-- The contract of R101: the answer has the form of the operation's answers, its code is in the closed vocabulary, and
`readSector` delivers exactly `len` bytes. -/
def Answer.inContract (c : Call) (a : Answer) : Bool :=
  match c, a with
  | .seekCylinder _, .code _ => true
  | .readSectorId _ _, .header _ _ => true
  | .readSector args, .data _ bytes => decide (bytes.length = args.len)
  | .writeSector _ _, .code _ => true
  | .readTrack _ _ _ _, .data _ _ => true
  | .formatTrack _ _ _ _, .code _ => true
  | .driveStatus, .status _ => true
  | .ready, .isReady _ => true
  | .eject, .nothing => true
  | _, _ => false

/-- The n-th unscripted answer, built of free values (log entry 2): anything the contract allows. -/
def freeAnswer (n : Nat) : Call → Answer
  | .seekCylinder _ => .code (Config.freeCode n)
  | .readSectorId _ _ =>
    .header (Config.freeCode n) ⟨Config.freeByte n 0, Config.freeByte n 1, Config.freeByte n 2, Config.freeByte n 3⟩
  | .readSector args => .data (Config.freeCode n) ((List.range args.len).map (Config.freeByte n))
  | .writeSector _ _ => .code (Config.freeCode n)
  | .readTrack _ _ _ _ => .data (Config.freeCode n) ((List.range (Config.freeLength n)).map (Config.freeByte n))
  | .formatTrack _ _ _ _ => .code (Config.freeCode n)
  | .driveStatus => .status (Config.freeByte n 0)
  | .ready => .isReady (Config.freeReady n)
  | .eject => .nothing

/-- The scripted answers still to come after one is taken (log entry 2). -/
def takeAnswer (rest : List Answer) (s : State) : State :=
  { s with answers := rest }

/-- One more unscripted answer given (log entry 2). -/
def countFreeCall (s : State) : State :=
  { s with freeCalls := s.freeCalls + 1 }

/-- A call of operation `c` on the backend of slot `u` (R11): the next scripted answer, or a free one where none is
scripted; recorded with its answer in the event history. A scripted answer outside the contract is refused (R101). -/
def ask (u : UnitNo) (c : Call) (s : State) : Result (Answer × State) :=
  match s.answers with
  | [] =>
    .next (freeAnswer s.freeCalls c,
      record (.call u c (freeAnswer s.freeCalls c)) (countFreeCall s))
  | a :: rest =>
    if a.inContract c then .next (a, record (.call u c a) (takeAnswer rest s))
    else .refused .backendContract

/-- The code of an answer (read only from answers in contract that have one). -/
def Answer.errorCode : Answer → ErrorCode
  | .code e => e
  | .header e _ => e
  | .data e _ => e
  | .status _ => .ok
  | .isReady _ => .ok
  | .nothing => .ok
  | .foreign _ => .notReady

/-- The bytes an answer delivers. -/
def Answer.bytes : Answer → List Byte
  | .code _ => []
  | .header _ _ => []
  | .data _ bytes => bytes
  | .status _ => []
  | .isReady _ => []
  | .nothing => []
  | .foreign _ => []

/-- The header an answer of `readSectorId` gives. -/
def Answer.sectorId : Answer → SectorId
  | .code _ => ⟨0, 0, 0, 0⟩
  | .header _ id => id
  | .data _ _ => ⟨0, 0, 0, 0⟩
  | .status _ => ⟨0, 0, 0, 0⟩
  | .isReady _ => ⟨0, 0, 0, 0⟩
  | .nothing => ⟨0, 0, 0, 0⟩
  | .foreign _ => ⟨0, 0, 0, 0⟩

/-- The byte an answer of `driveStatus()` gives. -/
def Answer.statusByte : Answer → Byte
  | .code _ => 0
  | .header _ _ => 0
  | .data _ _ => 0
  | .status b => b
  | .isReady _ => 0
  | .nothing => 0
  | .foreign _ => 0

/-- The answer of `ready()`. -/
def Answer.readiness : Answer → Bool
  | .code _ => false
  | .header _ _ => false
  | .data _ _ => false
  | .status _ => false
  | .isReady r => r
  | .nothing => false
  | .foreign _ => false

/-! ### Interrupts (R155 to R161): the block's whole exception mechanism -/

/-- `Arm(k, t)` for ResultReady and ExecByteReady: it never displaces a pending SeekEnd (R157, R158). -/
def arm (k : InterruptKind) (t : Nat) (s : State) : State :=
  if s.interruptState = .seekEnd then s
  else { s with interruptState := k, ticksRemaining := t }

/-- `ArmSeekEnd()` (R158); the line is left as it is. -/
def armSeekEnd (s : State) : State :=
  { s with interruptState := .seekEnd, ticksRemaining := Config.shortDelay }

/-- `ArmOnCompletion()`, the last step of every data-register access (R157). -/
def armOnCompletion (s : State) : State :=
  match s.phase with
  | .execution => arm .execByteReady Config.shortDelay s
  | .result => arm .resultReady Config.shortDelay s
  | .command => s
  | .idle => s

/-- Lower the line, with `Notify(false)`, if it is asserted (R160, R161, R178). -/
def lowerLine (s : State) : State :=
  if s.irqLine then { notify false s with irqLine := false } else s

/-- `ClearInterrupt()` (R161). -/
def clearInterrupt (s : State) : State :=
  lowerLine { s with interruptState := .none, ticksRemaining := 0 }

/-- `AckOnAccess()`, the first step of every data-register access (R160): all but a SeekEnd is acknowledged. -/
def ackOnAccess (s : State) : State :=
  match s.interruptState with
  | .resultReady => clearInterrupt s
  | .execByteReady => clearInterrupt s
  | .seekEnd => s
  | .none => s

/-- `tick()` (R159). -/
def tick (s : State) : State :=
  if s.ticksRemaining = 0 then s
  else if s.ticksRemaining = 1 then { notify true { s with ticksRemaining := 0 } with irqLine := true }
  else { s with ticksRemaining := s.ticksRemaining - 1 }

/-! ### Phase entries (R84, R85) and the command state -/

/-- `OpenResult(bytes)` (R84). -/
def openResult (bytes : List Byte) (s : State) : State :=
  { s with
    resBuf := s.resBuf.writeBytes 0 bytes
    resPosition := 0
    resLength := bytes.length
    cmdLength := 0
    execLength := 0
    phase := .result }

/-- `EndCommand()`, the return to Idle (R85). -/
def endCommand (s : State) : State :=
  { s with
    phase := .idle
    pendingOpcode := none
    cmdLength := 0
    execLength := 0
    resLength := 0 }

/-- The Execution phase opened for `n` bytes (R86); the caller finalizes at once where `n` is 0. -/
def beginExecution (n : Nat) (s : State) : State :=
  { s with
    execPosition := 0
    execLength := n
    cmdLength := 0
    phase := .execution }

/-- The dispatch of any command other than READ ID restarts the header rotation (R83, R139). -/
def restartRotation (s : State) : State :=
  { s with rotatingSectorIndex := 0 }

/-- The index of the next READ ID after one has used `n` (R33, R139). -/
def setRotation (n : Nat) (s : State) : State :=
  { s with rotatingSectorIndex := n }

/-- The two bytes of SPECIFY (R25, R118). -/
def setParams (srtHut hltNd : Byte) (s : State) : State :=
  { s with spec1 := srtHut, spec2 := hltNd }

/-- `status3 <- b` (R23, R119). -/
def setStatus3 (b : Byte) (s : State) : State :=
  { s with status3 := b }

/-- `selectedUnit` and `selectedHead` from the unit/head byte (R30, R61). -/
def select (uh : UnitHead) (s : State) : State :=
  { s with selectedUnit := uh.us, selectedHead := uh.hd }

/-- Bytes a backend delivered, into the execution buffer from index 0 (R106, R108). -/
def fillExec (bytes : List Byte) (s : State) : State :=
  { s with execBuf := s.execBuf.writeBytes 0 bytes }

/-- The value a host operation returns (R44; log entry 6). -/
def deliver (v : Byte) (s : State) : State :=
  { s with reply := some v }

end Sys2Proof.Machine
end

