-- ==== Sys2Proof/Machine/Operands.lean ====
section
/-! DEFINITION. The operand forms of the commands: the transfer length (R68, R129), the arguments of `readSector` and
`writeSector` (R128), and the fields of the SPECIFY bytes (R25, R64). -/

namespace Sys2Proof.Machine

open Sys2Proof

/-- `SectorLen(N, DTL)` (R68): DTL where N is 0, else `128 << N` clamped to the execution buffer. -/
def sectorLen (n dtl : Byte) : Nat :=
  if n = 0 then dtl.toNat else min (128 <<< n.toNat) Config.execCap

/-- The length of a FORMAT TRACK's Execution: four bytes a sector descriptor (R68, R141). -/
def formatLen (sc : Byte) : Nat := 4 * sc.toNat

/-- The arguments of a `readSector` call: SK is passed as skipDeleted (R128, R132, R133, R143). -/
def readArgs (deleted : Bool) (f : OpFlags) (id : SectorId) (len : Nat) (s : State) : SectorArgs where
  xCyl := id.c
  xHead := id.h
  head := s.selectedHead
  sector := id.r
  len := len
  deletedFlag := deleted
  skipDeleted := f.sk
  mfm := f.mf
  multiTrack := f.mt

/-- The arguments of a `writeSector` call: SK is not passed (R71, R128, R134). -/
def writeArgs (f : OpFlags) (id : SectorId) (len : Nat) (s : State) : SectorArgs where
  xCyl := id.c
  xHead := id.h
  head := s.selectedHead
  sector := id.r
  len := len
  deletedFlag := s.writeDeletedFlag
  skipDeleted := false
  mfm := f.mf
  multiTrack := f.mt

/-- SRT, `spec1[7:4]` (R25). -/
def State.stepRate (s : State) : BitVec 4 := s.spec1.extractLsb' 4 4

/-- HUT, `spec1[3:0]` (R25). -/
def State.headUnload (s : State) : BitVec 4 := s.spec1.extractLsb' 0 4

/-- HLT, `spec2[7:1]` (R25). -/
def State.headLoad (s : State) : BitVec 7 := s.spec2.extractLsb' 1 7

/-- ND, `spec2[0]` (R25). -/
def State.nonDma (s : State) : Bool := s.spec2.getLsbD 0

end Sys2Proof.Machine
end

