-- ==== Sys2Proof/Machine/Flags.lean ====
section
/-! DEFINITION. The status registers: the main status register (R17 to R19), the base values (R40), the translation of
error codes (R111, R112), the scan field of status2 (R144), and the status3 byte's composition (R110). -/

namespace Sys2Proof.Machine

open Sys2Proof

/-- RQM, bit 7 of the MSR (R17). -/
def msrRqm : Byte := 0x80

/-- DIO, bit 6 of the MSR (R17). -/
def msrDio : Byte := 0x40

/-- EXM, bit 5 of the MSR (R17). -/
def msrExm : Byte := 0x20

/-- CB, bit 4 of the MSR (R17). -/
def msrCb : Byte := 0x10

/-- The direction of the pending command's Execution phase (R69). -/
def State.direction (s : State) : Option Direction :=
  match s.pendingOpcode with
  | none => none
  | some id => transferDirection id

/-- `mainStatus` (R18): the drive-busy bits always read 0 (R19). -/
def State.mainStatus (s : State) : Byte :=
  match s.phase with
  | .idle => msrRqm
  | .command => msrRqm ||| msrCb
  | .execution =>
    if s.direction = some .controllerToHost then msrRqm ||| msrDio ||| msrExm ||| msrCb
    else msrRqm ||| msrExm ||| msrCb
  | .result => msrRqm ||| msrDio ||| msrCb

/-- The head and unit bits of status0 and status3 (R20, R23): `(h << 2) | u`. -/
def selectionBits (h : HeadNo) (u : UnitNo) : Byte :=
  (h.setWidth 8 <<< 2) ||| u.setWidth 8

/-- `BaseStatus()` (R40). -/
def baseStatus (s : State) : State :=
  { s with status0 := selectionBits s.selectedHead s.selectedUnit, status1 := 0x00, status2 := 0x00 }

/-- The status deltas of an error code (R111). -/
structure Deltas where
  d0 : Byte
  d1 : Byte
  d2 : Byte
deriving DecidableEq, Repr

/-- `Translate(code)` (R111). -/
def deltasOf : ErrorCode → Deltas
  | .ok => ⟨0x00, 0x00, 0x00⟩
  | .notReady => ⟨0x48, 0x00, 0x00⟩
  | .seekFailed => ⟨0x40, 0x00, 0x02⟩
  | .noAddressMark => ⟨0x40, 0x00, 0x01⟩
  | .noData => ⟨0x40, 0x04, 0x00⟩
  | .dataError => ⟨0x00, 0x20, 0x20⟩
  | .noMatchingSector => ⟨0x40, 0x82, 0x00⟩
  | .readOnly => ⟨0x40, 0x02, 0x00⟩

/-- `ApplyError(code)` (R112). -/
def applyError (e : ErrorCode) (s : State) : State :=
  { s with
    status0 := s.status0 ||| (deltasOf e).d0
    status1 := s.status1 ||| (deltasOf e).d1
    status2 := s.status2 ||| (deltasOf e).d2 }

/-- SE, the seek-end bit of status0 (R20, R124). -/
def setSeekEnd (s : State) : State :=
  { s with status0 := s.status0 ||| 0x20 }

/-- The interrupt-code bits a motor-stop abort forces in status0 (R165). -/
def setAborted (s : State) : State :=
  { s with status0 := s.status0 ||| 0xC0 }

/-- SH set: "still matching" (R143). -/
def scanBegin (s : State) : State :=
  { s with status2 := s.status2 ||| 0x08 }

/-- SH cleared: a byte differed in the direction the command accepts (R144). -/
def scanUnequal (s : State) : State :=
  { s with status2 := s.status2 &&& ~~~0x08 }

/-- `NotSatisfied()` (R144): SH cleared, SN set. -/
def scanNotSatisfied (s : State) : State :=
  { s with status2 := (s.status2 &&& ~~~0x08) ||| 0x04 }

/-- Whether an instruction is one of the three SCAN commands (R87). -/
def isScan : Instr → Bool
  | .readTrack _ _ _ _ _ _ => false
  | .specify _ _ _ => false
  | .senseDriveStatus _ _ => false
  | .writeData _ _ _ _ _ _ => false
  | .readData _ _ _ _ _ _ => false
  | .recalibrate _ _ => false
  | .senseInterruptStatus _ => false
  | .writeDeletedData _ _ _ _ _ _ => false
  | .readId _ _ => false
  | .readDeletedData _ _ _ _ _ _ => false
  | .formatTrack _ _ _ _ _ _ => false
  | .seek _ _ _ => false
  | .scanEqual _ _ _ _ _ _ => true
  | .scanLowOrEqual _ _ _ _ _ _ => true
  | .scanHighOrEqual _ _ _ _ _ _ => true
  | .invalid _ _ => false

/-- Whether a SCAN command accepts a sector byte `db` that differs from the host byte `hb` (R144, R145 to R147). -/
def scanAccepts (i : Instr) (hb db : Byte) : Bool :=
  match i with
  | .readTrack _ _ _ _ _ _ => false
  | .specify _ _ _ => false
  | .senseDriveStatus _ _ => false
  | .writeData _ _ _ _ _ _ => false
  | .readData _ _ _ _ _ _ => false
  | .recalibrate _ _ => false
  | .senseInterruptStatus _ => false
  | .writeDeletedData _ _ _ _ _ _ => false
  | .readId _ _ => false
  | .readDeletedData _ _ _ _ _ _ => false
  | .formatTrack _ _ _ _ _ _ => false
  | .seek _ _ _ => false
  | .scanEqual _ _ _ _ _ _ => false
  | .scanLowOrEqual _ _ _ _ _ _ => decide (db < hb)
  | .scanHighOrEqual _ _ _ _ _ _ => decide (hb < db)
  | .invalid _ _ => false

/-- `ScanCompare(hb, db)` (R144): 0xFF on either side is a wildcard match; the comparison is unsigned. -/
def scanCompare (i : Instr) (hb db : Byte) (s : State) : State :=
  if hb = 0xFF ∨ db = 0xFF then s
  else if db = hb then s
  else if scanAccepts i hb db then scanUnequal s
  else scanNotSatisfied s

/-- The composition of status3 (R110): the backend's bits 7:3, the selection, and, where `forced`, RY = 0 and WP = 1. -/
def status3Byte (ds : Byte) (h : HeadNo) (u : UnitNo) (forced : Bool) : Byte :=
  if forced then (((ds &&& 0xF8) ||| selectionBits h u) &&& ~~~0x20) ||| 0x40
  else (ds &&& 0xF8) ||| selectionBits h u

end Sys2Proof.Machine
end

