-- ==== Sys2Proof/Machine/DriveLayer.lean ====
section
/-! DEFINITION. The Drive layer (41_drive_interface.md): the checks a Drive makes before it asks its backend, and the
operations the controller calls on a unit. -/

namespace Sys2Proof.Machine

open Sys2Proof

/-- `Usable(u)` (R102). -/
def State.usable (s : State) (u : UnitNo) : Bool :=
  match s.drive u with
  | none => false
  | some d => decide (d.kind ≠ .none) && d.attached

/-- The motor condition of readiness: the motor runs, or the drive is a 5.25" drive (R103). -/
def State.spinning (s : State) (u : UnitNo) : Bool :=
  match s.drive u with
  | none => false
  | some d => d.motorOn || decide (d.kind = .inch5quarter)

/-- Whether a Drive refuses writes (R107, R109). -/
def State.writeProtected (s : State) (u : UnitNo) : Bool :=
  match s.drive u with
  | none => false
  | some d => d.readOnly

/-- `DriveReady(u)` (R103): the backend is asked only where the first two conditions hold. -/
def driveReady (u : UnitNo) (s : State) : Result (Bool × State) :=
  if s.usable u && s.spinning u then
    andThen (ask u .ready s) fun r => .next (r.1.readiness, r.2)
  else .next (false, s)

/-- The cylinder a Drive records after a successful seek (R104). -/
def setCylinder (u : UnitNo) (n : Byte) (s : State) : State :=
  match s.drive u with
  | none => s
  | some d => s.setDrive u { d with currentCylinder := n.toNat }

/-- `Seek(u, n)` (R104): the cylinder changes on Ok only. -/
def seekTo (u : UnitNo) (n : Byte) (s : State) : Result (ErrorCode × State) :=
  if s.usable u then
    andThen (ask u (.seekCylinder n) s) fun r =>
      if r.1.errorCode = .ok then .next (r.1.errorCode, setCylinder u n r.2)
      else .next (r.1.errorCode, r.2)
  else .next (.notReady, s)

/-- `ReadId(u, head, seq)` (R105). -/
def readSectorHeader (u : UnitNo) (head : HeadNo) (seq : Nat) (s : State) : Result ((ErrorCode × SectorId) × State) :=
  if s.usable u then
    andThen (ask u (.readSectorId head seq) s) fun r => .next ((r.1.errorCode, r.1.sectorId), r.2)
  else .next ((.notReady, ⟨0, 0, 0, 0⟩), s)

/-- `ReadSector(u, ...)` (R106): the delivered bytes fill the execution buffer whatever the code. -/
def readSector (u : UnitNo) (args : SectorArgs) (s : State) : Result (ErrorCode × State) :=
  if s.usable u then
    andThen (ask u (.readSector args) s) fun r => .next (r.1.errorCode, fillExec r.1.bytes r.2)
  else .next (.notReady, s)

/-- `WriteSector(u, ...)` (R107): a read-only Drive answers ReadOnly and its backend is not asked. -/
def writeSector (u : UnitNo) (args : SectorArgs) (s : State) : Result (ErrorCode × State) :=
  if s.usable u then
    if s.writeProtected u then .next (.readOnly, s)
    else
      andThen (ask u (.writeSector args (s.execBuf.firstBytes args.len)) s) fun r => .next (r.1.errorCode, r.2)
  else .next (.notReady, s)

/-- `ReadTrack(u, ...)` (R108): the length is clamped to the execution buffer. -/
def readWholeTrack (u : UnitNo) (xCyl xHead : Byte) (head : HeadNo) (s : State) : Result ((ErrorCode × Nat) × State) :=
  if s.usable u then
    andThen (ask u (.readTrack xCyl xHead head Config.execCap) s) fun r =>
      .next ((r.1.errorCode, min r.1.bytes.length Config.execCap), fillExec (r.1.bytes.take Config.execCap) r.2)
  else .next ((.notReady, 0), s)

/-- `FormatTrack(u, head, sectorCount, fillerByte)` (R109). -/
def formatWholeTrack (u : UnitNo) (head : HeadNo) (sc filler : Byte) (s : State) : Result (ErrorCode × State) :=
  if s.usable u then
    if s.writeProtected u then .next (.readOnly, s)
    else
      andThen (ask u (.formatTrack head sc (s.execBuf.firstBytes (formatLen sc)) filler) s) fun r =>
        .next (r.1.errorCode, r.2)
  else .next (.notReady, s)

/-- Whether status3 is forced to not-ready and write-protected: the slot holds neither a running drive nor a 5.25" drive
(R110). -/
def State.status3Forced (s : State) (u : UnitNo) : Bool := !s.spinning u

/-- `DriveStatusByte(u, h)` (R110): 0x00 stands for the backend's byte of an unusable slot. -/
def driveStatusByte (u : UnitNo) (h : HeadNo) (s : State) : Result (Byte × State) :=
  if s.usable u then
    andThen (ask u .driveStatus s) fun r => .next (status3Byte r.1.statusByte h u (s.status3Forced u), r.2)
  else .next (status3Byte 0x00 h u (s.status3Forced u), s)

/-- The cylinder a slot reports: what its Drive records, 0 for an unusable slot (R120, R131). -/
def State.reportedCylinder (s : State) (u : UnitNo) : Byte :=
  if s.usable u then
    match s.drive u with
    | none => 0
    | some d => BitVec.ofNat 8 d.currentCylinder
  else 0

end Sys2Proof.Machine
end

