-- ==== Sys2Proof/Machine/Phases.lean ====
section
/-! DEFINITION. The seven-byte result (R130, R131), the finish actions and the end of the Execution phase (R86, R89), the
motor-stop abort (R165), and the first step of every data command (R127). -/

namespace Sys2Proof.Machine

open Sys2Proof

/-- `FallbackHeader(n)` (R131). -/
def fallbackHeader (n : Byte) (s : State) : SectorId where
  c := s.reportedCylinder s.selectedUnit
  h := s.selectedHead.setWidth 8
  r := 0x00
  n := n

/-- The header of a command's seven-byte result (R130): the command's own C, H, R, N, or the fallback header. READ ID's row
is its error row; the status-only commands have no seven-byte result and no run asks for theirs (log entry 13). -/
def resultHeader (i : Instr) (s : State) : SectorId :=
  match i with
  | .readTrack _ _ id _ _ _ => id
  | .specify _ _ _ => fallbackHeader 0x00 s
  | .senseDriveStatus _ _ => fallbackHeader 0x00 s
  | .writeData _ _ id _ _ _ => id
  | .readData _ _ id _ _ _ => id
  | .recalibrate _ _ => fallbackHeader 0x00 s
  | .senseInterruptStatus _ => fallbackHeader 0x00 s
  | .writeDeletedData _ _ id _ _ _ => id
  | .readId _ _ => fallbackHeader 0x00 s
  | .readDeletedData _ _ id _ _ _ => id
  | .formatTrack _ _ n _ _ _ => fallbackHeader n s
  | .seek _ _ _ => fallbackHeader 0x00 s
  | .scanEqual _ _ id _ _ _ => id
  | .scanLowOrEqual _ _ id _ _ _ => id
  | .scanHighOrEqual _ _ id _ _ _ => id
  | .invalid _ _ => fallbackHeader 0x00 s

/-- `Result7(hdr)` (R130). -/
def result7 (hdr : SectorId) (s : State) : List Byte :=
  [s.status0, s.status1, s.status2, hdr.c, hdr.h, hdr.r, hdr.n]

/-- Open the Result phase with a command's seven bytes (R84, R130). -/
def openResult7 (i : Instr) (s : State) : State :=
  openResult (result7 (resultHeader i s) s) s

/-- The Result of a data command that meets an error before its Execution phase (R113, R127, R132). -/
def failCommand (i : Instr) (e : ErrorCode) (s : State) : State :=
  openResult7 i (applyError e s)

/-- `writeDeletedFlag <- b` (R32, R134, R135, R165). -/
def setWriteDeleted (b : Bool) (s : State) : State :=
  { s with writeDeletedFlag := b }

/-- `FinishWrite()` (R134, R135). -/
def finishWrite (f : OpFlags) (id : SectorId) (dtl : Byte) (s : State) : Result State :=
  andThen (writeSector s.selectedUnit (writeArgs f id (sectorLen id.n dtl) s) s) fun r =>
    .next (setWriteDeleted false (applyError r.1 r.2))

/-- `FinishFormat()` (R142). -/
def finishFormat (sc d : Byte) (s : State) : Result State :=
  andThen (formatWholeTrack s.selectedUnit s.selectedHead sc d s) fun r => .next (applyError r.1 r.2)

/-- `FinishAction` (R89): a write and a format have one, a read and a scan have none. -/
def finishAction (i : Instr) (s : State) : Result State :=
  match i with
  | .readTrack _ _ _ _ _ _ => .next s
  | .specify _ _ _ => .next s
  | .senseDriveStatus _ _ => .next s
  | .writeData f _ id _ _ dtl => finishWrite f id dtl s
  | .readData _ _ _ _ _ _ => .next s
  | .recalibrate _ _ => .next s
  | .senseInterruptStatus _ => .next s
  | .writeDeletedData f _ id _ _ dtl => finishWrite f id dtl s
  | .readId _ _ => .next s
  | .readDeletedData _ _ _ _ _ _ => .next s
  | .formatTrack _ _ _ sc _ d => finishFormat sc d s
  | .seek _ _ _ => .next s
  | .scanEqual _ _ _ _ _ _ => .next s
  | .scanLowOrEqual _ _ _ _ _ _ => .next s
  | .scanHighOrEqual _ _ _ _ _ _ => .next s
  | .invalid _ _ => .next s

/-- `FinalizeExecution()` (R89). -/
def finalizeExecution (i : Instr) (s : State) : Result State :=
  andThen (finishAction i s) fun t => .next (openResult7 i t)

/-- `OpenExecution(n)` (R86): a zero-length Execution finalizes at once (R94). -/
def openExecution (i : Instr) (n : Nat) (s : State) : Result State :=
  if n = 0 then finalizeExecution i (beginExecution n s) else .next (beginExecution n s)

/-- `MotorAbort()` (R165): no finish action. -/
def motorAbort (i : Instr) (s : State) : State :=
  openResult7 i (setWriteDeleted false (setAborted s))

/-- `DataSetup()` (R127), of every data command; whether the drive is ready. -/
def dataSetup (uh : UnitHead) (s : State) : Result (Bool × State) :=
  driveReady uh.us (baseStatus (select uh s))

/-- The dispatch of READ DATA, READ DELETED DATA and, up to its opening, of the SCAN commands (R132, R133, R143): the
sector is read before the Execution phase opens, and an error skips that phase. `begin` is what is done to the state on
success before the phase opens. -/
def dispatchRead (i : Instr) (deleted : Bool) (begin : State → State) (f : OpFlags) (uh : UnitHead) (id : SectorId)
    (dtl : Byte) (s : State) : Result State :=
  andThen (dataSetup uh s) fun r =>
    if r.1 then
      andThen (readSector uh.us (readArgs deleted f id (sectorLen id.n dtl) r.2) r.2) fun q =>
        if q.1 = .ok then openExecution i (sectorLen id.n dtl) (begin (applyError q.1 q.2))
        else .next (failCommand i q.1 q.2)
    else .next (failCommand i .notReady r.2)

/-- The dispatch of WRITE DATA and WRITE DELETED DATA (R134, R135). -/
def dispatchWrite (i : Instr) (deleted : Bool) (uh : UnitHead) (id : SectorId) (dtl : Byte) (s : State) : Result State :=
  andThen (dataSetup uh s) fun r =>
    if r.1 then openExecution i (sectorLen id.n dtl) (setWriteDeleted deleted r.2)
    else .next (failCommand i .notReady r.2)

/-- `SeekCommon(n)` (R124), after the selection and the base status of RECALIBRATE and SEEK (R122, R123). -/
def seekCommon (n : Byte) (s : State) : Result State :=
  andThen (driveReady s.selectedUnit s) fun r =>
    andThen (if r.1 then seekTo s.selectedUnit n r.2 else .next (.notReady, r.2)) fun q =>
      .next (endCommand (armSeekEnd (applyError q.1 (setSeekEnd q.2))))

end Sys2Proof.Machine
end

