-- ==== Sys2Proof/Machine/DataCommands.lean ====
section
/-! DEFINITION. The data commands (43_data_commands.md): one meaning each, run at dispatch (R83). -/

namespace Sys2Proof.Machine

open Sys2Proof

/-- READ TRACK (R136, R137): the Execution is as long as the track the backend returned; no flag is passed. -/
def execReadTrack (f : OpFlags) (uh : UnitHead) (id : SectorId) (eot gpl dtl : Byte) (s : State) :
    Host.Outcome State Fault Refusal :=
  andThen (dataSetup uh (restartRotation s)) fun r =>
    if r.1 then
      andThen (readWholeTrack uh.us id.c id.h uh.hd r.2) fun q =>
        if q.1.1 = .ok then openExecution (.readTrack f uh id eot gpl dtl) q.1.2 (applyError q.1.1 q.2)
        else .next (failCommand (.readTrack f uh id eot gpl dtl) q.1.1 q.2)
    else .next (failCommand (.readTrack f uh id eot gpl dtl) .notReady r.2)

/-- WRITE DATA (R134). -/
def execWriteData (f : OpFlags) (uh : UnitHead) (id : SectorId) (eot gpl dtl : Byte) (s : State) :
    Host.Outcome State Fault Refusal :=
  dispatchWrite (.writeData f uh id eot gpl dtl) false uh id dtl (restartRotation s)

/-- READ DATA (R132): `deletedFlag = false`. -/
def execReadData (f : OpFlags) (uh : UnitHead) (id : SectorId) (eot gpl dtl : Byte) (s : State) :
    Host.Outcome State Fault Refusal :=
  dispatchRead (.readData f uh id eot gpl dtl) false (fun t => t) f uh id dtl (restartRotation s)

/-- WRITE DELETED DATA (R135): `writeDeletedFlag` is set for its Execution. -/
def execWriteDeletedData (f : OpFlags) (uh : UnitHead) (id : SectorId) (eot gpl dtl : Byte) (s : State) :
    Host.Outcome State Fault Refusal :=
  dispatchWrite (.writeDeletedData f uh id eot gpl dtl) true uh id dtl (restartRotation s)

/-- READ ID (R138, R139): the header the backend returns for the rotating index, which each call advances; the index is not
restarted. -/
def execReadId (f : OpFlags) (uh : UnitHead) (s : State) : Host.Outcome State Fault Refusal :=
  andThen (dataSetup uh s) fun r =>
    if r.1 then
      andThen (readSectorHeader uh.us uh.hd r.2.rotatingSectorIndex r.2) fun q =>
        if q.1.1 = .ok then
          .next (openResult (result7 q.1.2 q.2) (setRotation (r.2.rotatingSectorIndex + 1) q.2))
        else
          .next (failCommand (.readId f uh) q.1.1 (setRotation (r.2.rotatingSectorIndex + 1) q.2))
    else .next (failCommand (.readId f uh) .notReady r.2)

/-- READ DELETED DATA (R133): `deletedFlag = true`. -/
def execReadDeletedData (f : OpFlags) (uh : UnitHead) (id : SectorId) (eot gpl dtl : Byte) (s : State) :
    Host.Outcome State Fault Refusal :=
  dispatchRead (.readDeletedData f uh id eot gpl dtl) true (fun t => t) f uh id dtl (restartRotation s)

/-- FORMAT TRACK (R140, R141). -/
def execFormatTrack (f : OpFlags) (uh : UnitHead) (n sc gpl d : Byte) (s : State) : Host.Outcome State Fault Refusal :=
  andThen (dataSetup uh (restartRotation s)) fun r =>
    if r.1 then openExecution (.formatTrack f uh n sc gpl d) (formatLen sc) r.2
    else .next (failCommand (.formatTrack f uh n sc gpl d) .notReady r.2)

/-- SCAN EQUAL (R143, R145). -/
def execScanEqual (f : OpFlags) (uh : UnitHead) (id : SectorId) (eot gpl dtl : Byte) (s : State) :
    Host.Outcome State Fault Refusal :=
  dispatchRead (.scanEqual f uh id eot gpl dtl) false scanBegin f uh id dtl (restartRotation s)

/-- SCAN LOW OR EQUAL (R143, R146). -/
def execScanLowOrEqual (f : OpFlags) (uh : UnitHead) (id : SectorId) (eot gpl dtl : Byte) (s : State) :
    Host.Outcome State Fault Refusal :=
  dispatchRead (.scanLowOrEqual f uh id eot gpl dtl) false scanBegin f uh id dtl (restartRotation s)

/-- SCAN HIGH OR EQUAL (R143, R147). -/
def execScanHighOrEqual (f : OpFlags) (uh : UnitHead) (id : SectorId) (eot gpl dtl : Byte) (s : State) :
    Host.Outcome State Fault Refusal :=
  dispatchRead (.scanHighOrEqual f uh id eot gpl dtl) false scanBegin f uh id dtl (restartRotation s)

end Sys2Proof.Machine
end

