-- ==== Sys2Proof/Machine/StatusCommands.lean ====
section
/-! DEFINITION. The status-only commands (42_status_commands.md): one meaning each, run at dispatch (R83, R117). -/

namespace Sys2Proof.Machine

open Sys2Proof

/-- SPECIFY (R118): the two parameter bytes are stored, and the controller returns to Idle. -/
def execSpecify (_f : OpFlags) (srtHut hltNd : Byte) (s : State) : Host.Outcome State Fault Refusal :=
  .next (endCommand (setParams srtHut hltNd (restartRotation s)))

/-- SENSE DRIVE STATUS (R119): no readiness test, one result byte, status3. -/
def execSenseDriveStatus (_f : OpFlags) (uh : UnitHead) (s : State) : Host.Outcome State Fault Refusal :=
  andThen (driveStatusByte uh.us uh.hd (select uh (restartRotation s))) fun r =>
    .next (openResult [r.1] (setStatus3 r.1 r.2))

/-- SENSE INTERRUPT STATUS (R120, R121): with a SeekEnd pending, status0 and the selected unit's cylinder, and the
interrupt is cleared; else the byte 0x80. -/
def execSenseInterruptStatus (_f : OpFlags) (s : State) : Host.Outcome State Fault Refusal :=
  if s.interruptState = .seekEnd then
    .next (openResult [s.status0, s.reportedCylinder s.selectedUnit] (clearInterrupt (restartRotation s)))
  else .next (openResult [0x80] (restartRotation s))

/-- RECALIBRATE (R122): seek to cylinder 0. -/
def execRecalibrate (_f : OpFlags) (uh : UnitHead) (s : State) : Host.Outcome State Fault Refusal :=
  seekCommon 0x00 (baseStatus (select uh (restartRotation s)))

/-- SEEK (R123): seek to NCN. -/
def execSeek (_f : OpFlags) (uh : UnitHead) (ncn : Byte) (s : State) : Host.Outcome State Fault Refusal :=
  seekCommon ncn (baseStatus (select uh (restartRotation s)))

/-- INVALID (R125): the constant result byte 0x80, no drive touched, no status register written. -/
def execInvalid (_f : OpFlags) (_code : BitVec 5) (s : State) : Host.Outcome State Fault Refusal :=
  .next (openResult [0x80] (restartRotation s))

end Sys2Proof.Machine
end

