-- ==== Sys2Proof/Machine/Dispatch.lean ====
section
/-! DEFINITION. The dispatch of a command whose bytes are complete (R83): one arm per constructor. -/

namespace Sys2Proof.Machine

open Sys2Proof

def exec (i : Instr) (s : State) : Host.Outcome State Fault Refusal :=
  match i with
  | .readTrack f uh id eot gpl dtl => Sys2Proof.Machine.execReadTrack f uh id eot gpl dtl s
  | .specify f srtHut hltNd => Sys2Proof.Machine.execSpecify f srtHut hltNd s
  | .senseDriveStatus f uh => Sys2Proof.Machine.execSenseDriveStatus f uh s
  | .writeData f uh id eot gpl dtl => Sys2Proof.Machine.execWriteData f uh id eot gpl dtl s
  | .readData f uh id eot gpl dtl => Sys2Proof.Machine.execReadData f uh id eot gpl dtl s
  | .recalibrate f uh => Sys2Proof.Machine.execRecalibrate f uh s
  | .senseInterruptStatus f => Sys2Proof.Machine.execSenseInterruptStatus f s
  | .writeDeletedData f uh id eot gpl dtl => Sys2Proof.Machine.execWriteDeletedData f uh id eot gpl dtl s
  | .readId f uh => Sys2Proof.Machine.execReadId f uh s
  | .readDeletedData f uh id eot gpl dtl => Sys2Proof.Machine.execReadDeletedData f uh id eot gpl dtl s
  | .formatTrack f uh n sc gpl d => Sys2Proof.Machine.execFormatTrack f uh n sc gpl d s
  | .seek f uh ncn => Sys2Proof.Machine.execSeek f uh ncn s
  | .scanEqual f uh id eot gpl dtl => Sys2Proof.Machine.execScanEqual f uh id eot gpl dtl s
  | .scanLowOrEqual f uh id eot gpl dtl => Sys2Proof.Machine.execScanLowOrEqual f uh id eot gpl dtl s
  | .scanHighOrEqual f uh id eot gpl dtl => Sys2Proof.Machine.execScanHighOrEqual f uh id eot gpl dtl s
  | .invalid f code => Sys2Proof.Machine.execInvalid f code s

end Sys2Proof.Machine
end

