-- ==== Sys2Proof/Machine/Protocol.lean ====
section
/-! DEFINITION. The host operations (40_protocol.md, 60_exceptions.md, 70_reset_and_hazards.md): the data-register accesses
that move the controller through its phases, the motor control, reset and media swap. -/

namespace Sys2Proof.Machine

open Sys2Proof

/-- The command in the command buffer: the pending id with the bytes written so far (R26, R31). -/
def State.pendingInstr (s : State) : Option Instr :=
  match s.pendingOpcode with
  | none => none
  | some id => some (assemble id (Memory.read s.cmdBuf))

/-- Go on with the command in the command buffer; a state without one, which no run reaches here, is a fault. -/
def withPending (s : State) (k : Instr → Result State) : Result State :=
  match s.pendingInstr with
  | none => .fault .noCommand
  | some i => k i

/-- `Dispatch()` (R83). -/
def dispatch (s : State) : Result State :=
  withPending s fun i => exec i s

/-- `StartCommand(b)` up to its dispatch (R81). -/
def acceptOpcode (b : Byte) (s : State) : State :=
  { s with
    cmdBuf := s.cmdBuf.write 0 b
    pendingOpcode := some (commandId (op5 b))
    cmdPosition := 1
    cmdLength := cmdCount (commandId (op5 b)) - 1
    phase := .command }

/-- `AppendCommand(b)` up to its dispatch (R82). -/
def acceptOperand (b : Byte) (s : State) : State :=
  { s with
    cmdBuf := s.cmdBuf.write s.cmdPosition b
    cmdPosition := s.cmdPosition + 1
    cmdLength := s.cmdLength - 1 }

/-- Dispatch once the declared byte count is received (R81, R82, R83). -/
def dispatchIfComplete (s : State) : Result State :=
  if s.cmdLength = 0 then dispatch s else .next s

/-- `StartCommand(b)` (R80, R81). -/
def startCommand (b : Byte) (s : State) : Result State :=
  dispatchIfComplete (acceptOpcode b s)

/-- `AppendCommand(b)` (R82). -/
def appendCommand (b : Byte) (s : State) : Result State :=
  if s.cmdPosition < Config.cmdCap then dispatchIfComplete (acceptOperand b s)
  else .fault .bufferIndex

/-- One Execution byte is transferred (R87, R88). -/
def advanceExec (s : State) : State :=
  { s with execPosition := s.execPosition + 1, execLength := s.execLength - 1 }

/-- Finalize where no Execution byte remains (R87, R88, R89). -/
def finalizeIfDone (i : Instr) (s : State) : Result State :=
  if s.execLength = 0 then finalizeExecution i s else .next s

/-- What a host byte does in Execution (R87): a SCAN compares it with the sector byte, any other command stores it. -/
def takeExecByte (i : Instr) (b : Byte) (s : State) : State :=
  if isScan i then scanCompare i b (s.execBuf.read s.execPosition) s
  else { s with execBuf := s.execBuf.write s.execPosition b }

/-- `ExecWrite(b)` (R87). -/
def execWrite (b : Byte) (s : State) : Result State :=
  withPending s fun i =>
    if s.execPosition < Config.execCap then finalizeIfDone i (advanceExec (takeExecByte i b s))
    else .fault .bufferIndex

/-- `ExecRead()` (R88). -/
def execRead (s : State) : Result State :=
  withPending s fun i =>
    if s.execPosition < Config.execCap then
      finalizeIfDone i (advanceExec (deliver (s.execBuf.read s.execPosition) s))
    else .fault .bufferIndex

/-- One result byte is transferred (R90). -/
def advanceResult (s : State) : State :=
  { s with resPosition := s.resPosition + 1, resLength := s.resLength - 1 }

/-- Return to Idle where no result byte remains (R90, R91). -/
def endIfRead (s : State) : State :=
  if s.resLength = 0 then endCommand s else s

/-- `ResultRead()` (R90). -/
def resultRead (s : State) : Result State :=
  if s.resPosition < Config.resCap then
    .next (endIfRead (advanceResult (deliver (s.resBuf.read s.resPosition) s)))
  else .fault .bufferIndex

/-- `StrayRead()` (R92). -/
def strayRead (s : State) : Result State := .next (deliver Config.strayReadValue s)

/-- `StrayWrite(b)` (R93): the byte is discarded. -/
def strayWrite (s : State) : Result State := .next s

/-- The phase's own part of `writeData(b)` (R78). -/
def writePhase (b : Byte) (s : State) : Result State :=
  match s.phase with
  | .idle => startCommand b s
  | .command => appendCommand b s
  | .execution => if s.direction = some .hostToController then execWrite b s else strayWrite s
  | .result => strayWrite s

/-- The phase's own part of `readData()` (R79). -/
def readPhase (s : State) : Result State :=
  match s.phase with
  | .execution => if s.direction = some .controllerToHost then execRead s else strayRead s
  | .result => resultRead s
  | .idle => strayRead s
  | .command => strayRead s

/-- `writeData(b)` (R78). -/
def writeData (b : Byte) (s : State) : Result State :=
  andThen (writePhase b (ackOnAccess s)) fun t => .next (armOnCompletion t)

/-- `readData()` (R79). -/
def readData (s : State) : Result State :=
  andThen (readPhase (ackOnAccess s)) fun t => .next (armOnCompletion t)

/-- `readStatus()` (R77). -/
def readStatus (s : State) : State := deliver s.mainStatus s

/-! ### Motor control (R162 to R165) -/

/-- The motor bit of unit `u` (R162). -/
def motorBit (mask : Byte) (u : UnitNo) : Bool := mask.getLsbD u.toNat

/-- Whether the mask changes the motor of a Drive (R162). -/
def Drive.motorChanges (d : Option Drive) (on : Bool) : Bool :=
  match d with
  | none => false
  | some d => decide (d.motorOn ≠ on)

/-- A slot with its Drive's motor set; an empty slot stays empty (R162). -/
def Drive.withMotor (d : Option Drive) (on : Bool) : Option Drive :=
  match d with
  | none => none
  | some d => some { d with motorOn := on }

/-- Whether the mask changes any present drive's motor: `changed` of R162. -/
def motorsChanged (mask : Byte) (s : State) : Bool :=
  Drive.motorChanges (s.drive 0) (motorBit mask 0) || Drive.motorChanges (s.drive 1) (motorBit mask 1) ||
  Drive.motorChanges (s.drive 2) (motorBit mask 2) || Drive.motorChanges (s.drive 3) (motorBit mask 3)

/-- Whether the mask stops the selected drive's motor in Execution: `abort` of R162 (R164). -/
def motorStopAborts (mask : Byte) (s : State) : Bool :=
  match s.drive s.selectedUnit with
  | none => false
  | some d => d.motorOn && !motorBit mask s.selectedUnit && decide (s.phase = .execution)

/-- The motors set by the mask (R162). -/
def setMotors (mask : Byte) (s : State) : State :=
  { s with
    slots := #v[Drive.withMotor (s.drive 0) (motorBit mask 0), Drive.withMotor (s.drive 1) (motorBit mask 1),
                Drive.withMotor (s.drive 2) (motorBit mask 2), Drive.withMotor (s.drive 3) (motorBit mask 3)] }

/-- The motor-change interrupt (R162, R163). -/
def armMotorChange (changed : Bool) (s : State) : State :=
  if changed then arm .resultReady Config.longDelay s else s

/-- `setMotor(mask)` (R162): motor state, then abort, then arming (R166). -/
def setMotor (mask : Byte) (s : State) : Result State :=
  andThen
    (if motorStopAborts mask s then withPending (setMotors mask s) fun i => .next (motorAbort i (setMotors mask s))
     else .next (setMotors mask s))
    fun t => .next (armMotorChange (motorsChanged mask s) t)

/-! ### Reset and media swap (R171, R178) -/

/-- A slot after reset: motor off, cylinder 0, the rest kept (R43, R178). -/
def Drive.reset (d : Option Drive) : Option Drive :=
  match d with
  | none => none
  | some d => some { d with motorOn := false, currentCylinder := 0 }

/-- `reset()` (R178): the controller's values of R42, the drives' of R43, the event history kept; the host's and the
backends' scripts and the last reply are the model's own and stay. -/
def resetMachine (s : State) : State :=
  { State.construct (Vector.replicate 4 none) with
    slots := #v[Drive.reset (s.drive 0), Drive.reset (s.drive 1), Drive.reset (s.drive 2), Drive.reset (s.drive 3)]
    events := (lowerLine s).events
    hostOps := s.hostOps
    answers := s.answers
    freeCalls := s.freeCalls
    reply := s.reply }

/-- Whether R171 allows a media swap on unit `u`. -/
def swapAllowed (u : UnitNo) (s : State) : Bool :=
  match s.drive u with
  | none => false
  | some _ => decide (s.phase = .idle) || decide (s.selectedUnit ≠ u)

/-- `d[u].attached <- b` (R171). -/
def setAttached (u : UnitNo) (b : Bool) (s : State) : State :=
  match s.drive u with
  | none => s
  | some d => s.setDrive u { d with attached := b }

/-- `insert(u, backend)` (R171). -/
def insertMedia (u : UnitNo) (s : State) : Result State :=
  if swapAllowed u s then .next (setAttached u true s) else .refused .mediaSwap

/-- `eject(u)` (R115, R171): the Drive's `eject()` is called and recorded (log entry 10). -/
def ejectMedia (u : UnitNo) (s : State) : Result State :=
  if swapAllowed u s then .next (setAttached u false (record (.call u .eject .nothing) s)) else .refused .mediaSwap

/-! ### One host operation -/

/-- One host operation (R44, R48, R172), and the host behaviour the model has no step for (R152). -/
def perform (op : HostOp) (s : State) : Result State :=
  match op with
  | .readStatus => .next (readStatus s)
  | .readData => readData s
  | .writeData b => writeData b s
  | .setMotor mask => setMotor mask s
  | .tick => .next (tick s)
  | .reset => .next (resetMachine s)
  | .insert u => insertMedia u s
  | .eject u => ejectMedia u s
  | .writeStatus _ => .refused .statusWrite
  | .reenter _ => .refused .reentrantCall

/-- The host's next operation taken off its list, and no reply yet (log entries 1, 6). -/
def takeOp (rest : List HostOp) (s : State) : State :=
  { s with hostOps := rest, reply := none }

/-- The host's next operation, taken off its list; with none to come the controller waits, without a timeout (R6, R192;
log entry 1). -/
def hostStep (s : State) : Result State :=
  match s.hostOps with
  | [] => .next s
  | op :: rest => perform op (takeOp rest s)

/-- `s` with all command bytes but the last received, the last one being the host's next operation, so that the next
step dispatches the command (log entry 7). A command of one byte starts from Idle. -/
def loadCommand (bytes : List Byte) (s : State) : State :=
  let id := commandId (op5 (bytes.getD 0 0))
  let n := cmdCount id
  { s with
    phase := if n = 1 then .idle else .command
    cmdBuf := s.cmdBuf.writeBytes 0 (bytes.take (n - 1))
    cmdPosition := if n = 1 then s.cmdPosition else n - 1
    cmdLength := if n = 1 then 0 else 1
    resLength := 0
    execLength := 0
    pendingOpcode := if n = 1 then none else some id
    hostOps := .writeData (bytes.getD (n - 1) 0) :: s.hostOps }

end Sys2Proof.Machine
end

