-- ==== Sys2Proof/Machine/Step.lean ====
section
/-! DEFINITION. The step: one host operation (R6, R14). -/

namespace Sys2Proof.Machine

open Sys2Proof

/-- One step of the machine: the host's next operation (R6, R48; log entry 1). -/
def step (s : State) : Host.Outcome State Fault Refusal := hostStep s

/-- `s` with the command whose lowest `nbits` bits are `w` about to be dispatched by the next step (log entry 7). -/
def State.withFetchWord (s : State) (nbits w : Nat) : State := loadCommand (tableBytes nbits w) s

end Sys2Proof.Machine
end

