-- ==== Sys2Proof/Safety.lean ====
section
/-! DEFINITION. The terms the claims use: the opcode map (R58), the invariant of the controller (R16, R26 to R35), the status
bits the block never sets (R20 to R22), what a Result phase holds (R27, R84), the frames of a step, and what the host
observes. -/

namespace Sys2Proof.Machine

open Sys2Proof

/-! ### The opcode map -/

/-- The rows of R58's table: code, command, `cmdCount`, Execution direction. -/
def opcodeMap : List (BitVec 5 × CommandId × Nat × Option Direction) :=
  [(0x02, .readTrack, 9, some .controllerToHost), (0x03, .specify, 3, none), (0x04, .senseDriveStatus, 2, none),
    (0x05, .writeData, 9, some .hostToController), (0x06, .readData, 9, some .controllerToHost),
    (0x07, .recalibrate, 2, none), (0x08, .senseInterruptStatus, 1, none),
    (0x09, .writeDeletedData, 9, some .hostToController), (0x0A, .readId, 2, none),
    (0x0C, .readDeletedData, 9, some .controllerToHost), (0x0D, .formatTrack, 6, some .hostToController),
    (0x0F, .seek, 3, none), (0x11, .scanEqual, 9, some .hostToController),
    (0x19, .scanLowOrEqual, 9, some .hostToController), (0x1D, .scanHighOrEqual, 9, some .hostToController)]

/-! ### Operands of a command -/

/-- The unit/head byte of a command that has one (R61, R63, R65 to R67). -/
def unitHeadOf : Instr → Option UnitHead
  | .readTrack _ uh _ _ _ _ => some uh
  | .specify _ _ _ => none
  | .senseDriveStatus _ uh => some uh
  | .writeData _ uh _ _ _ _ => some uh
  | .readData _ uh _ _ _ _ => some uh
  | .recalibrate _ uh => some uh
  | .senseInterruptStatus _ => none
  | .writeDeletedData _ uh _ _ _ _ => some uh
  | .readId _ uh => some uh
  | .readDeletedData _ uh _ _ _ _ => some uh
  | .formatTrack _ uh _ _ _ _ => some uh
  | .seek _ uh _ => some uh
  | .scanEqual _ uh _ _ _ _ => some uh
  | .scanLowOrEqual _ uh _ _ _ _ => some uh
  | .scanHighOrEqual _ uh _ _ _ _ => some uh
  | .invalid _ _ => none

/-- The data commands, those with a seven-byte result (R58, R127). -/
def isDataCommand : Instr → Bool
  | .readTrack _ _ _ _ _ _ => true
  | .specify _ _ _ => false
  | .senseDriveStatus _ _ => false
  | .writeData _ _ _ _ _ _ => true
  | .readData _ _ _ _ _ _ => true
  | .recalibrate _ _ => false
  | .senseInterruptStatus _ => false
  | .writeDeletedData _ _ _ _ _ _ => true
  | .readId _ _ => true
  | .readDeletedData _ _ _ _ _ _ => true
  | .formatTrack _ _ _ _ _ _ => true
  | .seek _ _ _ => false
  | .scanEqual _ _ _ _ _ _ => true
  | .scanLowOrEqual _ _ _ _ _ _ => true
  | .scanHighOrEqual _ _ _ _ _ _ => true
  | .invalid _ _ => false

/-- The transfer length the command bytes alone fix (R129, R141); READ TRACK's is the backend's (R137). -/
def fixedTransfer : Instr → Option Nat
  | .readTrack _ _ _ _ _ _ => none
  | .specify _ _ _ => none
  | .senseDriveStatus _ _ => none
  | .writeData _ _ id _ _ dtl => some (sectorLen id.n dtl)
  | .readData _ _ id _ _ dtl => some (sectorLen id.n dtl)
  | .recalibrate _ _ => none
  | .senseInterruptStatus _ => none
  | .writeDeletedData _ _ id _ _ dtl => some (sectorLen id.n dtl)
  | .readId _ _ => none
  | .readDeletedData _ _ id _ _ dtl => some (sectorLen id.n dtl)
  | .formatTrack _ _ _ sc _ _ => some (formatLen sc)
  | .seek _ _ _ => none
  | .scanEqual _ _ id _ _ dtl => some (sectorLen id.n dtl)
  | .scanLowOrEqual _ _ id _ _ dtl => some (sectorLen id.n dtl)
  | .scanHighOrEqual _ _ id _ _ dtl => some (sectorLen id.n dtl)
  | .invalid _ _ => none

/-- The cylinder RECALIBRATE and SEEK go to (R122, R123). -/
def seekTarget : Instr → Option Byte
  | .readTrack _ _ _ _ _ _ => none
  | .specify _ _ _ => none
  | .senseDriveStatus _ _ => none
  | .writeData _ _ _ _ _ _ => none
  | .readData _ _ _ _ _ _ => none
  | .recalibrate _ _ => some 0x00
  | .senseInterruptStatus _ => none
  | .writeDeletedData _ _ _ _ _ _ => none
  | .readId _ _ => none
  | .readDeletedData _ _ _ _ _ _ => none
  | .formatTrack _ _ _ _ _ _ => none
  | .seek _ _ ncn => some ncn
  | .scanEqual _ _ _ _ _ _ => none
  | .scanLowOrEqual _ _ _ _ _ _ => none
  | .scanHighOrEqual _ _ _ _ _ _ => none
  | .invalid _ _ => none

/-- The five commands that read a sector at their dispatch, with their operands and their `deletedFlag` (R132, R133,
R143). -/
def readsSector : Instr → Option (OpFlags × UnitHead × SectorId × Byte × Bool)
  | .readTrack _ _ _ _ _ _ => none
  | .specify _ _ _ => none
  | .senseDriveStatus _ _ => none
  | .writeData _ _ _ _ _ _ => none
  | .readData f uh id _ _ dtl => some (f, uh, id, dtl, false)
  | .recalibrate _ _ => none
  | .senseInterruptStatus _ => none
  | .writeDeletedData _ _ _ _ _ _ => none
  | .readId _ _ => none
  | .readDeletedData f uh id _ _ dtl => some (f, uh, id, dtl, true)
  | .formatTrack _ _ _ _ _ _ => none
  | .seek _ _ _ => none
  | .scanEqual f uh id _ _ dtl => some (f, uh, id, dtl, false)
  | .scanLowOrEqual f uh id _ _ dtl => some (f, uh, id, dtl, false)
  | .scanHighOrEqual f uh id _ _ dtl => some (f, uh, id, dtl, false)
  | .invalid _ _ => none

/-- The two commands that write a sector when their Execution ends, with their operands and their `deletedFlag` (R134,
R135). -/
def writesSector : Instr → Option (OpFlags × UnitHead × SectorId × Byte × Bool)
  | .readTrack _ _ _ _ _ _ => none
  | .specify _ _ _ => none
  | .senseDriveStatus _ _ => none
  | .writeData f uh id _ _ dtl => some (f, uh, id, dtl, false)
  | .readData _ _ _ _ _ _ => none
  | .recalibrate _ _ => none
  | .senseInterruptStatus _ => none
  | .writeDeletedData f uh id _ _ dtl => some (f, uh, id, dtl, true)
  | .readId _ _ => none
  | .readDeletedData _ _ _ _ _ _ => none
  | .formatTrack _ _ _ _ _ _ => none
  | .seek _ _ _ => none
  | .scanEqual _ _ _ _ _ _ => none
  | .scanLowOrEqual _ _ _ _ _ _ => none
  | .scanHighOrEqual _ _ _ _ _ _ => none
  | .invalid _ _ => none

/-! ### The invariant -/

/-- The three buffers are in canonical form, below their capacities (R50). -/
structure State.BuffersWf (s : State) : Prop where
  cmd : Memory.wf Config.cmdCap s.cmdBuf = true
  res : Memory.wf Config.resCap s.resBuf = true
  exec : Memory.wf Config.execCap s.execBuf = true

/-- The invariant of the controller: what holds in every state a run reaches, and every step keeps. -/
structure State.Inv (s : State) : Prop where
  /-- The buffers are canonical. -/
  buffers : s.BuffersWf
  /-- In Idle there is no opcode, and no buffer's length counts (R29, R31). -/
  idle : s.phase = .idle → s.pendingOpcode = none ∧ s.cmdLength = 0 ∧ s.execLength = 0 ∧ s.resLength = 0
  /-- Outside Idle the pending opcode is that of the first command byte (R31). -/
  latched : s.phase ≠ .idle → s.pendingOpcode = some (commandId (op5 (s.cmdBuf.read 0)))
  /-- Command: bytes received and bytes expected make the opcode's count (R26). -/
  command : s.phase = .command → 1 ≤ s.cmdPosition ∧ 1 ≤ s.cmdLength ∧
    s.cmdPosition + s.cmdLength = cmdCount (commandId (op5 (s.cmdBuf.read 0))) ∧ s.execLength = 0 ∧ s.resLength = 0
  /-- Execution: the command has a direction, a byte is still to come, and the transfer fits the buffer (R28, R98). -/
  execution : s.phase = .execution → s.direction ≠ none ∧ 1 ≤ s.execLength ∧
    s.execPosition + s.execLength ≤ Config.execCap ∧ s.cmdLength = 0 ∧ s.resLength = 0
  /-- Execution: bytes transferred and bytes to come make the length the command fixes (R28). -/
  transfer : s.phase = .execution → ∀ i n, s.pendingInstr = some i → fixedTransfer i = some n →
    s.execPosition + s.execLength = n
  /-- Result: a byte is still to be read, of one, two or seven (R27). -/
  result : s.phase = .result → 1 ≤ s.resLength ∧
    (s.resPosition + s.resLength = 1 ∨ s.resPosition + s.resLength = 2 ∨ s.resPosition + s.resLength = 7) ∧
    s.cmdLength = 0 ∧ s.execLength = 0
  /-- A countdown runs only for a pending interrupt (R34). -/
  countdown : 0 < s.ticksRemaining → s.interruptState ≠ .none
  /-- The line is asserted only for a pending interrupt (R35). -/
  line : s.irqLine = true → s.interruptState ≠ .none
  /-- The flag is set exactly during a WRITE DELETED DATA's Execution (R32). -/
  deleted : s.writeDeletedFlag = true ↔ s.phase = .execution ∧ s.pendingOpcode = some .writeDeletedData
  /-- A cylinder is only ever set from a command byte (R120). -/
  cylinders : ∀ u d, s.drive u = some d → d.currentCylinder ≤ 255

/-- The status bits the block never sets are clear (R20, R21, R22), and the scan field is none of "matching" and "not
satisfied" at once (R144). -/
structure State.StatusInv (s : State) : Prop where
  st0 : s.status0 &&& 0x10 = 0
  st1 : s.status1 &&& 0x59 = 0
  st2 : s.status2 &&& 0xD0 = 0
  scan : s.status2 &&& 0x0C ≠ 0x0C

/-- The level after one more event: a `Notify` sets it, a call leaves it. -/
def levelAfter (level : Bool) : Event → Bool
  | .irq l => l
  | .call _ _ _ => level

/-- The level of the last `Notify` in a history, false if there is none (R35). -/
def lastLevel (es : List Event) : Bool := es.foldl levelAfter false

/-! ### What a phase holds -/

/-- The Result phase stands at its first byte and holds exactly these (R27, R84). -/
structure ResultHolds (bytes : List Byte) (t : State) : Prop where
  phase : t.phase = .result
  position : t.resPosition = 0
  length : t.resLength = bytes.length
  bytes : t.resBuf.firstBytes bytes.length = bytes
  cmdLength : t.cmdLength = 0
  execLength : t.execLength = 0

/-- An Execution phase stands at its first byte, with `n` bytes to transfer (R28, R86). -/
structure ExecutionOpen (n : Nat) (t : State) : Prop where
  phase : t.phase = .execution
  position : t.execPosition = 0
  length : t.execLength = n
  cmdLength : t.cmdLength = 0

/-- The controller is back in Idle: no opcode, no byte expected or due (R85). -/
structure BackInIdle (t : State) : Prop where
  phase : t.phase = .idle
  opcode : t.pendingOpcode = none
  cmdLength : t.cmdLength = 0
  execLength : t.execLength = 0
  resLength : t.resLength = 0

/-- status0, status1 and status2 at once. -/
def statusOf (s : State) : Byte × Byte × Byte := (s.status0, s.status1, s.status2)

/-- The base status of a command with this unit/head byte with an error code's bits (R40, R111, R112). -/
def baseWith (uh : UnitHead) (e : ErrorCode) : Byte × Byte × Byte :=
  (selectionBits uh.hd uh.us ||| (deltasOf e).d0, (deltasOf e).d1, (deltasOf e).d2)

/-- The seven bytes of a result with these status bytes and this header (R130). -/
def sevenBytes (st : Byte × Byte × Byte) (hdr : SectorId) : List Byte :=
  [st.1, st.2.1, st.2.2, hdr.c, hdr.h, hdr.r, hdr.n]

/-! ### Frames: what a step leaves unchanged -/

/-- The command buffer and the opcode, as the dispatching access left them. -/
structure KeepsCommand (s t : State) : Prop where
  cmdBuf : ∀ a, t.cmdBuf.read a = s.cmdBuf.read a
  cmdPosition : t.cmdPosition = s.cmdPosition
  pendingOpcode : t.pendingOpcode = s.pendingOpcode

/-- The specify parameters (R25). -/
structure KeepsParams (s t : State) : Prop where
  spec1 : t.spec1 = s.spec1
  spec2 : t.spec2 = s.spec2

/-- The interrupt state, countdown and line (R34, R35). -/
structure KeepsInterrupt (s t : State) : Prop where
  interruptState : t.interruptState = s.interruptState
  ticksRemaining : t.ticksRemaining = s.ticksRemaining
  irqLine : t.irqLine = s.irqLine

/-- The model's own host side: the operations to come and the last reply. -/
structure KeepsHostSide (s t : State) : Prop where
  hostOps : t.hostOps = s.hostOps
  reply : t.reply = s.reply

/-- Every byte of the execution buffer. -/
structure KeepsExecBuf (s t : State) : Prop where
  execBuf : ∀ a, t.execBuf.read a = s.execBuf.read a
  execPosition : t.execPosition = s.execPosition

/-- Every byte of the result buffer from index `k` on. -/
def KeepsResFrom (k : Nat) (s t : State) : Prop := ∀ a, k ≤ a → t.resBuf.read a = s.resBuf.read a

/-- Everything of the protocol: the phase, the opcode and the three buffers with their counters. -/
structure KeepsProtocol (s t : State) : Prop where
  phase : t.phase = s.phase
  pendingOpcode : t.pendingOpcode = s.pendingOpcode
  cmdBuf : t.cmdBuf = s.cmdBuf
  cmdLength : t.cmdLength = s.cmdLength
  cmdPosition : t.cmdPosition = s.cmdPosition
  resBuf : t.resBuf = s.resBuf
  resLength : t.resLength = s.resLength
  resPosition : t.resPosition = s.resPosition
  execBuf : t.execBuf = s.execBuf
  execLength : t.execLength = s.execLength
  execPosition : t.execPosition = s.execPosition

/-- The registers of the commands: status, parameters, selection, deleted flag, rotation. -/
structure KeepsRegisters (s t : State) : Prop where
  status : statusOf t = statusOf s
  status3 : t.status3 = s.status3
  spec1 : t.spec1 = s.spec1
  spec2 : t.spec2 = s.spec2
  selectedUnit : t.selectedUnit = s.selectedUnit
  selectedHead : t.selectedHead = s.selectedHead
  writeDeletedFlag : t.writeDeletedFlag = s.writeDeletedFlag
  rotatingSectorIndex : t.rotatingSectorIndex = s.rotatingSectorIndex

/-- The backend is not asked: nothing is recorded, no answer taken. -/
structure AsksNothing (s t : State) : Prop where
  events : t.events = s.events
  answers : t.answers = s.answers
  freeCalls : t.freeCalls = s.freeCalls

/-- What every data command's dispatch leaves alone, whatever its outcome: all but the status registers 0 to 2, the
selection, the phase with its lengths, the rotation, the deleted flag, the history and scripts, and the bytes of the result
and execution buffers that it writes. -/
structure DataFrame (uh : UnitHead) (s t : State) : Prop where
  command : KeepsCommand s t
  params : KeepsParams s t
  interrupt : KeepsInterrupt s t
  host : KeepsHostSide s t
  status3 : t.status3 = s.status3
  slots : t.slots = s.slots
  unit : t.selectedUnit = uh.us
  head : t.selectedHead = uh.hd
  result : KeepsResFrom 7 s t

/-- What the accesses of an Execution phase leave alone, its last one among them: all but the status registers 0 to 2, the
deleted flag, the phase with its counters, the execution buffer, the first seven bytes of the result buffer, the interrupt, the
history and the scripts (R87 to R89). -/
structure ExecutionFrame (s t : State) : Prop where
  command : KeepsCommand s t
  params : KeepsParams s t
  status3 : t.status3 = s.status3
  slots : t.slots = s.slots
  unit : t.selectedUnit = s.selectedUnit
  head : t.selectedHead = s.selectedHead
  rotation : t.rotatingSectorIndex = s.rotatingSectorIndex
  result : KeepsResFrom 7 s t

/-- A host byte is stored at the current index of the execution buffer, and no other byte changes (R87). -/
structure StoresExecByte (b : Byte) (s t : State) : Prop where
  stored : t.execBuf.read s.execPosition = b
  others : ∀ a, a ≠ s.execPosition → t.execBuf.read a = s.execBuf.read a
  position : t.execPosition = s.execPosition + 1

/-! ### What the host observes -/

/-- What an access's acknowledgement records: `Irq(false)` where it lowers the line (R160). -/
def ackEvents (s : State) : List Event :=
  if (s.interruptState = .resultReady ∨ s.interruptState = .execByteReady) ∧ s.irqLine = true then [.irq false] else []

/-- The replies of the next `k` host operations, none for an operation without one, and the state after them; none where
a step stops. -/
def observe : Nat → State → Option (List (Option Byte) × State)
  | 0, s => some ([], s)
  | k + 1, s =>
    match step s with
    | .next t =>
      match observe k t with
      | none => none
      | some (rs, u) => some (t.reply :: rs, u)
    | .fault _ => none
    | .refused _ => none

/-- Whether an event is a backend call. -/
def Event.isCall : Event → Bool
  | .call _ _ _ => true
  | .irq _ => false

/-- The state with everything the countdown touches blanked: the ticks, the line and the `Irq` events (R191). -/
def eraseTimer (s : State) : State :=
  { s with
    ticksRemaining := 0
    irqLine := false
    events := s.events.filter Event.isCall }

/-- A step's outcome with the same blanked in its next state. -/
def erasedOutcome : Result State → Result State
  | .next t => .next (eraseTimer t)
  | .fault r => .fault r
  | .refused r => .refused r

end Sys2Proof.Machine
end

