-- ==== Sys2Proof/Certificates/Slice0/Obligations.lean ====
section
/-! DEFINITION. The statements for the provers, from the numbered rules of spec/. Where a clause rests on one of the spec's own
decisions (its marks "decision: see 92_eei_decisions.md Dn" and "from general knowledge"), the docstring names it. -/

open Sys2Proof Sys2Proof.Machine

/-! ### Encoding -/

/-- Decoding the bytes of a well-formed command gives it back, with every operand at every value, and leaves what follows
(R57 to R71; the code values and layouts are decisions D6, D7, D9). -/
def Obligations.DecodeEncodeRoundTrip : Prop :=
  ∀ (i : Instr) (rest : List Byte), i.wellFormed = true → decode (encode i ++ rest) = .ok (i, rest)

/-- Every decoded instruction is well-formed, and its bytes are exactly the bytes read: no bit is dropped (R57 to R71; D6,
D7, D9). -/
def Obligations.EncodeOfDecode : Prop :=
  ∀ (bytes : List Byte) (i : Instr) (rest : List Byte),
    decode bytes = .ok (i, rest) → encode i ++ rest = bytes ∧ i.wellFormed = true

/-- For each of the 15 commands and for INVALID, command bytes written out from R58, R59, R61 to R67 and R70 decode to the
command they stand for. The code values, the places of the flag and unit/head bits and the order of the fields are the spec's
decisions D6, D7 and D9, that the upper three bits never matter decision D8 (log entry 14). -/
def Obligations.WrittenOutWordsDecode : Prop :=
  decode [0x42, 0x01, 0x10, 0x01, 0x02, 0x03, 0x09, 0x2A, 0xFF] =
    .ok (.readTrack ⟨false, true, false⟩ ⟨0, 0, 1⟩ ⟨0x10, 0x01, 0x02, 0x03⟩ 0x09 0x2A 0xFF, []) ∧
  decode [0x03, 0xDF, 0x02] = .ok (.specify ⟨false, false, false⟩ 0xDF 0x02, []) ∧
  decode [0x04, 0x05] = .ok (.senseDriveStatus ⟨false, false, false⟩ ⟨0, 1, 1⟩, []) ∧
  decode [0xC5, 0x04, 0x11, 0x01, 0x03, 0x02, 0x08, 0x1B, 0x80] =
    .ok (.writeData ⟨true, true, false⟩ ⟨0, 1, 0⟩ ⟨0x11, 0x01, 0x03, 0x02⟩ 0x08 0x1B 0x80, []) ∧
  decode [0x46, 0x06, 0x10, 0x01, 0x02, 0x03, 0x09, 0x2A, 0xFF] =
    .ok (.readData ⟨false, true, false⟩ ⟨0, 1, 2⟩ ⟨0x10, 0x01, 0x02, 0x03⟩ 0x09 0x2A 0xFF, []) ∧
  decode [0x07, 0x03] = .ok (.recalibrate ⟨false, false, false⟩ ⟨0, 0, 3⟩, []) ∧
  decode [0x88, 0x55] = .ok (.senseInterruptStatus ⟨true, false, false⟩, [0x55]) ∧
  decode [0x49, 0x02, 0x12, 0x00, 0x04, 0x01, 0x07, 0x0E, 0x40] =
    .ok (.writeDeletedData ⟨false, true, false⟩ ⟨0, 0, 2⟩ ⟨0x12, 0x00, 0x04, 0x01⟩ 0x07 0x0E 0x40, []) ∧
  decode [0x4A, 0x04] = .ok (.readId ⟨false, true, false⟩ ⟨0, 1, 0⟩, []) ∧
  decode [0x2C, 0x07, 0x13, 0x01, 0x05, 0x02, 0x06, 0x2A, 0x20] =
    .ok (.readDeletedData ⟨false, false, true⟩ ⟨0, 1, 3⟩ ⟨0x13, 0x01, 0x05, 0x02⟩ 0x06 0x2A 0x20, []) ∧
  decode [0x4D, 0x00, 0x02, 0x01, 0x52, 0xE5] =
    .ok (.formatTrack ⟨false, true, false⟩ ⟨0, 0, 0⟩ 0x02 0x01 0x52 0xE5, []) ∧
  decode [0x8F, 0xFB, 0x27] = .ok (.seek ⟨true, false, false⟩ ⟨0x1F, 0, 3⟩ 0x27, []) ∧
  decode [0x71, 0x01, 0x14, 0x00, 0x06, 0x03, 0x05, 0x2A, 0x10] =
    .ok (.scanEqual ⟨false, true, true⟩ ⟨0, 0, 1⟩ ⟨0x14, 0x00, 0x06, 0x03⟩ 0x05 0x2A 0x10, []) ∧
  decode [0xF9, 0x05, 0x15, 0x01, 0x07, 0x02, 0x04, 0x2A, 0x08] =
    .ok (.scanLowOrEqual ⟨true, true, true⟩ ⟨0, 1, 1⟩ ⟨0x15, 0x01, 0x07, 0x02⟩ 0x04 0x2A 0x08, []) ∧
  decode [0x1D, 0x06, 0x16, 0x01, 0x08, 0x01, 0x03, 0x2A, 0x04] =
    .ok (.scanHighOrEqual ⟨false, false, false⟩ ⟨0, 1, 2⟩ ⟨0x16, 0x01, 0x08, 0x01⟩ 0x03 0x2A 0x04, []) ∧
  decode [0xE0] = .ok (.invalid ⟨true, true, true⟩ 0x00, [])

/-- The opcode map (R58): each code's command, byte count and Execution direction, every other code being INVALID, of one byte
(R70); and the first byte alone, by its low five bits, fixes the command and how many bytes it takes, whatever bytes follow
(R57, R70). The code values but 0x03, 0x04 and the invalid 0x00, and the byte counts of READ DELETED DATA and WRITE DELETED
DATA, are general knowledge (decision D6), that the upper three bits never matter is decision D8 (log entry 14). -/
def Obligations.FirstByteFixesCommand : Prop :=
  (∀ code id count direction, (code, id, count, direction) ∈ opcodeMap →
    commandId code = id ∧ cmdCount id = count ∧ transferDirection id = direction) ∧
  (∀ code, (∀ row ∈ opcodeMap, row.1 ≠ code) → commandId code = .invalid) ∧
  cmdCount .invalid = 1 ∧ transferDirection .invalid = none ∧
  ∀ (b : Byte) (rest : List Byte),
    (op5 b).toNat = b.toNat % 32 ∧
    (cmdCount (commandId (op5 b)) ≤ rest.length + 1 →
      ∃ i, decode (b :: rest) = .ok (i, rest.drop (cmdCount (commandId (op5 b)) - 1)) ∧ i.commandId = commandId (op5 b)) ∧
    (rest.length + 1 < cmdCount (commandId (op5 b)) → decode (b :: rest) = .error .tooFewBytes) ∧
    (commandId (op5 b) = .invalid ↔ op5 b ∈ invalidCodes)

/-! ### The step and the Command phase -/

/-- A step runs the decoded command: the write of its last byte acknowledges, stores the byte, is `exec` of the command, and
arms on completion; a one-byte command does the same from Idle (R78, R81 to R83). -/
def Obligations.StepRunsDecodedCommand : Prop :=
  (∀ (s : State) (b : Byte) (rest : List HostOp) (i : Instr), s.Inv → s.hostOps = .writeData b :: rest →
    s.phase = .command → s.cmdLength = 1 →
    decode ((s.cmdBuf.write s.cmdPosition b).firstBytes (s.cmdPosition + 1)) = .ok (i, []) →
    step s = andThen (exec i (acceptOperand b (ackOnAccess (takeOp rest s))))
      (fun t => .next (armOnCompletion t))) ∧
  (∀ (s : State) (b : Byte) (rest : List HostOp) (i : Instr), s.BuffersWf → s.hostOps = .writeData b :: rest →
    s.phase = .idle → decode [b] = .ok (i, []) →
    step s = andThen (exec i (acceptOpcode b (ackOnAccess (takeOp rest s))))
      (fun t => .next (armOnCompletion t)))

/-- `AppendCommand` (R82): the byte goes to the next index, the counters move by one, and the command is dispatched when none
is left to come; under the controller's invariant the position stays at most 9. As a step: a byte written in Command phase that
is not the last is acknowledged and appended, the controller stays in Command phase with its opcode, and nothing else changes;
what is armed then is said by `AccessArmsByPhase`, the last byte's step by `StepRunsDecodedCommand`. -/
def Obligations.AppendCommandStoresByte : Prop :=
  (∀ (s : State) (b : Byte), s.BuffersWf → s.cmdPosition < Config.cmdCap →
    ∃ t, t.cmdBuf.read s.cmdPosition = b ∧ (∀ a, a ≠ s.cmdPosition → t.cmdBuf.read a = s.cmdBuf.read a) ∧
      t.cmdPosition = s.cmdPosition + 1 ∧ t.cmdLength = s.cmdLength - 1 ∧
      t = { s with cmdBuf := t.cmdBuf, cmdPosition := t.cmdPosition, cmdLength := t.cmdLength } ∧
      (t.cmdLength ≠ 0 → appendCommand b s = .next t) ∧ (t.cmdLength = 0 → appendCommand b s = dispatch t) ∧
      (s.Inv → s.phase = .command → t.cmdPosition ≤ 9)) ∧
  (∀ (s : State) (b : Byte) (rest : List HostOp), s.Inv → s.hostOps = .writeData b :: rest → s.phase = .command →
    s.cmdLength ≠ 1 →
    ∃ t, step s = .next t ∧ t.phase = .command ∧ t.pendingOpcode = s.pendingOpcode ∧
      t.cmdBuf.read s.cmdPosition = b ∧ (∀ a, a ≠ s.cmdPosition → t.cmdBuf.read a = s.cmdBuf.read a) ∧
      t.cmdPosition = s.cmdPosition + 1 ∧ t.cmdLength + 1 = s.cmdLength ∧ t.cmdLength ≠ 0 ∧
      t.execBuf = s.execBuf ∧ t.execPosition = s.execPosition ∧ t.execLength = s.execLength ∧
      t.resBuf = s.resBuf ∧ t.resPosition = s.resPosition ∧ t.resLength = s.resLength ∧ KeepsRegisters s t ∧
      t.slots = s.slots ∧ t.answers = s.answers ∧ t.events = s.events ++ ackEvents s ∧ t.hostOps = rest ∧ t.reply = none)

/-- From Idle a first byte that asks for more opens the Command phase, and nothing is armed (R80, R81, R157; that nothing is
armed in Command phase is decision D15, the MSR value 0x90 decision D2). The other registers, the drives and the other two
buffers stay. -/
def Obligations.OpcodeOpensCommandPhase : Prop :=
  ∀ (s : State) (b : Byte) (rest : List HostOp), s.BuffersWf → s.hostOps = .writeData b :: rest → s.phase = .idle →
    1 < cmdCount (commandId (op5 b)) →
    ∃ t, step s = .next t ∧ t.phase = .command ∧ t.mainStatus = 0x90 ∧ t.pendingOpcode = some (commandId (op5 b)) ∧
      t.cmdBuf.read 0 = b ∧ (∀ a, a ≠ 0 → t.cmdBuf.read a = s.cmdBuf.read a) ∧ t.cmdPosition = 1 ∧
      t.cmdPosition + t.cmdLength = cmdCount (commandId (op5 b)) ∧
      t.interruptState = (if s.interruptState = .seekEnd then .seekEnd else .none) ∧
      t.events = s.events ++ ackEvents s ∧ t.answers = s.answers ∧ t.slots = s.slots ∧ KeepsRegisters s t ∧
      KeepsExecBuf s t ∧ t.resBuf = s.resBuf ∧ t.resPosition = s.resPosition

/-! ### Status-only commands -/

/-- SPECIFY (R118): the two bytes are stored, the controller is Idle with no result byte, and nothing else changes (the index
of READ ID restarts, as at every dispatch but READ ID's, R83). -/
def Obligations.SpecifyStoresItsParameters : Prop :=
  ∀ (f : OpFlags) (srtHut hltNd : Byte) (s : State),
    ∃ t, exec (.specify f srtHut hltNd) s = .next t ∧ t.spec1 = srtHut ∧ t.spec2 = hltNd ∧
      t.stepRate = srtHut.extractLsb' 4 4 ∧ t.headUnload = srtHut.extractLsb' 0 4 ∧
      t.headLoad = hltNd.extractLsb' 1 7 ∧ t.nonDma = hltNd.getLsbD 0 ∧
      BackInIdle t ∧ t.mainStatus = 0x80 ∧ KeepsInterrupt s t ∧ statusOf t = statusOf s ∧ t.status3 = s.status3 ∧
      t.selectedUnit = s.selectedUnit ∧ t.selectedHead = s.selectedHead ∧ t.slots = s.slots ∧ AsksNothing s t ∧
      t.writeDeletedFlag = s.writeDeletedFlag ∧ t.rotatingSectorIndex = 0 ∧ KeepsHostSide s t ∧
      t.cmdBuf = s.cmdBuf ∧ t.resBuf = s.resBuf ∧ t.execBuf = s.execBuf ∧
      t.cmdPosition = s.cmdPosition ∧ t.resPosition = s.resPosition ∧ t.execPosition = s.execPosition ∧
      ∃ b, encode (.specify f srtHut hltNd) = [b, srtHut, hltNd] ∧ op5 b = 0x03

/-- INVALID (R125): one result byte 0x80, no drive access. That no status register is written is the spec's decision D32, that
the selection stays decision D34. -/
def Obligations.InvalidCommandAnswers0x80 : Prop :=
  ∀ (f : OpFlags) (code : BitVec 5) (s : State), s.BuffersWf →
    ∃ t, exec (.invalid f code) s = .next t ∧ ResultHolds [0x80] t ∧ AsksNothing s t ∧ t.slots = s.slots ∧
      KeepsResFrom 1 s t ∧ KeepsExecBuf s t ∧ KeepsCommand s t ∧ KeepsInterrupt s t ∧ KeepsHostSide s t ∧
      t.rotatingSectorIndex = 0 ∧ KeepsRegisters { s with rotatingSectorIndex := 0 } t

/-- SENSE INTERRUPT STATUS with a SeekEnd pending (R120, R161): status0 and the selected unit's cylinder, and the interrupt is
cleared, with `Irq(false)` if the line was asserted. That pending counts a SeekEnd not yet asserted is the spec's decision
D18; the cylinder 0 of an unusable slot and status0 as it stands are decision D33. -/
def Obligations.SenseInterruptReportsSeekEnd : Prop :=
  ∀ (f : OpFlags) (s : State), s.BuffersWf → s.interruptState = .seekEnd →
    ∃ t, exec (.senseInterruptStatus f) s = .next t ∧
      ResultHolds [s.status0,
        match s.drive s.selectedUnit with
        | none => 0
        | some d => if s.usable s.selectedUnit then BitVec.ofNat 8 d.currentCylinder else 0] t ∧
      t.interruptState = .none ∧ t.ticksRemaining = 0 ∧ t.irqLine = false ∧
      t.events = s.events ++ (if s.irqLine then [.irq false] else []) ∧ t.answers = s.answers ∧ t.slots = s.slots ∧
      KeepsResFrom 2 s t ∧ KeepsExecBuf s t ∧ KeepsCommand s t ∧ KeepsHostSide s t ∧
      KeepsRegisters { s with rotatingSectorIndex := 0 } t

/-- SENSE INTERRUPT STATUS with no SeekEnd pending (R121): written from Idle, it answers the one byte 0x80; a pending
ResultReady or ExecByteReady (a motor change's too) is acknowledged by the access, and ResultReady is armed by its completion.
No status register is written. -/
def Obligations.SenseInterruptWithoutSeekEnd : Prop :=
  ∀ (s : State) (b : Byte) (rest : List HostOp), s.BuffersWf → s.hostOps = .writeData b :: rest → s.phase = .idle →
    commandId (op5 b) = .senseInterruptStatus → s.interruptState ≠ .seekEnd →
    ∃ t, step s = .next t ∧ ResultHolds [0x80] t ∧ statusOf t = statusOf s ∧ t.status3 = s.status3 ∧
      t.events = s.events ++ ackEvents s ∧ t.interruptState = .resultReady ∧ t.ticksRemaining = Config.shortDelay ∧
      t.slots = s.slots ∧ t.hostOps = rest

/-- SENSE DRIVE STATUS of a usable slot (R119, R110): one `driveStatus()` call, whose byte gives bits 7:3, the selection bits
2:0, with RY cleared and WP set for a stopped drive that is not 5.25". The bit positions are decision D4, the reading of the
forcing sentence decision D23, the replaced low bits decision D24. -/
def Obligations.SenseDriveStatusOfUsableSlot : Prop :=
  ∀ (f : OpFlags) (uh : UnitHead) (s : State) (d : Drive) (b : Byte) (q : List Answer), s.BuffersWf →
    s.drive uh.us = some d → d.kind ≠ .none → d.attached = true → s.answers = .status b :: q →
    ∃ t st3, exec (.senseDriveStatus f uh) s = .next t ∧
      st3 = (if d.kind ≠ .inch5quarter ∧ d.motorOn = false
        then (((b &&& 0xF8) ||| (uh.hd.setWidth 8 <<< 2) ||| uh.us.setWidth 8) &&& 0xDF) ||| 0x40
        else (b &&& 0xF8) ||| (uh.hd.setWidth 8 <<< 2) ||| uh.us.setWidth 8) ∧
      t.status3 = st3 ∧ ResultHolds [st3] t ∧ t.answers = q ∧
      t.events = s.events ++ [.call uh.us .driveStatus (.status b)] ∧ t.selectedUnit = uh.us ∧ t.selectedHead = uh.hd

/-- SENSE DRIVE STATUS of a slot that is not usable, that is empty, of kind none or without a backend (R102, R119, R110; that
kind none counts so is decision D22): no call; the backend's byte counts as 0x00 (decision D24), and RY is cleared and WP set
unless the slot holds a running or a 5.25" drive (decision D23). The bit positions are decision D4. -/
def Obligations.SenseDriveStatusOfUnusableSlot : Prop :=
  ∀ (f : OpFlags) (uh : UnitHead) (s : State), s.BuffersWf →
    (∀ d, s.drive uh.us = some d → d.kind = .none ∨ d.attached = false) →
    ∃ t st3, exec (.senseDriveStatus f uh) s = .next t ∧
      st3 = (if s.spinning uh.us then (uh.hd.setWidth 8 <<< 2) ||| uh.us.setWidth 8
        else 0x40 ||| (uh.hd.setWidth 8 <<< 2) ||| uh.us.setWidth 8) ∧
      t.status3 = st3 ∧ ResultHolds [st3] t ∧ AsksNothing s t ∧ t.selectedUnit = uh.us ∧ t.selectedHead = uh.hd

/-- RECALIBRATE and SEEK on a ready drive (R122 to R124, R104): `ready()` then `seekCylinder`; status0 to status2 are the base
values with SE and the code's bits; the cylinder is recorded on Ok only (decision D25); SeekEnd is armed with SHORT_DELAY
whatever the code (decision D17); the controller is Idle. The readiness condition is decisions D22 and D47, the base status
decision D5. -/
def Obligations.SeekOnReadyDrive : Prop :=
  ∀ (i : Instr) (uh : UnitHead) (n : Byte) (s : State) (d : Drive) (e : ErrorCode) (q : List Answer),
    seekTarget i = some n → unitHeadOf i = some uh → s.drive uh.us = some d → s.usable uh.us = true →
    s.spinning uh.us = true → s.answers = .isReady true :: .code e :: q →
    ∃ t, exec i s = .next t ∧ BackInIdle t ∧
      statusOf t = ((baseWith uh e).1 ||| 0x20, (baseWith uh e).2.1, (baseWith uh e).2.2) ∧
      t.drive uh.us = some (if e = .ok then { d with currentCylinder := n.toNat } else d) ∧
      (∀ v, v ≠ uh.us → t.drive v = s.drive v) ∧
      t.interruptState = .seekEnd ∧ t.ticksRemaining = Config.shortDelay ∧ t.irqLine = s.irqLine ∧ t.answers = q ∧
      t.events = s.events ++ [.call uh.us .ready (.isReady true), .call uh.us (.seekCylinder n) (.code e)] ∧
      t.selectedUnit = uh.us ∧ t.selectedHead = uh.hd

/-- RECALIBRATE and SEEK on a drive that is not ready (R102, R103, R114, R122 to R124): the selection is written, NotReady and
SE are set, no media operation is asked, SeekEnd is armed and the line stays. An empty slot, one of kind none, one without a backend and a stopped drive other than 5.25" are not ready, and no call
is made; otherwise `ready()` is asked (decisions D22, D47, D17). The base status is decision D5. -/
def Obligations.SeekOnDriveNotReady : Prop :=
  ∀ (i : Instr) (uh : UnitHead) (n : Byte) (s : State), seekTarget i = some n → unitHeadOf i = some uh →
    ((∀ d, s.drive uh.us = some d → d.kind = .none ∨ d.attached = false ∨ d.motorOn = false ∧ d.kind ≠ .inch5quarter) →
      ∃ t, exec i s = .next t ∧ BackInIdle t ∧
        statusOf t = ((selectionBits uh.hd uh.us ||| 0x48) ||| 0x20, 0x00, 0x00) ∧ t.slots = s.slots ∧ AsksNothing s t ∧
        t.interruptState = .seekEnd ∧ t.ticksRemaining = Config.shortDelay ∧ t.irqLine = s.irqLine ∧
        t.selectedUnit = uh.us ∧ t.selectedHead = uh.hd) ∧
    (∀ q, s.usable uh.us = true → s.spinning uh.us = true → s.answers = .isReady false :: q →
      ∃ t, exec i s = .next t ∧ BackInIdle t ∧
        statusOf t = ((selectionBits uh.hd uh.us ||| 0x48) ||| 0x20, 0x00, 0x00) ∧ t.slots = s.slots ∧ t.answers = q ∧
        t.events = s.events ++ [.call uh.us .ready (.isReady false)] ∧
        t.interruptState = .seekEnd ∧ t.ticksRemaining = Config.shortDelay ∧ t.irqLine = s.irqLine ∧
        t.selectedUnit = uh.us ∧ t.selectedHead = uh.hd)

/-! ### Data commands -/

/-- A data command whose drive is not ready opens Result at once with its seven bytes, NotReady's bits over the base status,
and asks no media operation: no call at all where the slot is empty, of kind none or without a backend, or holds a stopped
drive other than 5.25", the one `ready()` call where the backend answers false (R102, R103, R114, R127, R130; decisions D5,
D22, D31, D47). READ ID leaves its index where it was (R139, decision D30); every other command restarts it (R83). -/
def Obligations.DataCommandOnDriveNotReady : Prop :=
  ∀ (i : Instr) (uh : UnitHead) (s : State), isDataCommand i = true → unitHeadOf i = some uh → s.BuffersWf →
    ((∀ d, s.drive uh.us = some d → d.kind = .none ∨ d.attached = false ∨ d.motorOn = false ∧ d.kind ≠ .inch5quarter) →
      ∃ t, exec i s = .next t ∧
        ResultHolds (sevenBytes (baseWith uh .notReady) (resultHeader i (select uh s))) t ∧
        statusOf t = baseWith uh .notReady ∧ AsksNothing s t ∧ KeepsExecBuf s t ∧
        t.writeDeletedFlag = s.writeDeletedFlag ∧
        t.rotatingSectorIndex = (if i.commandId = .readId then s.rotatingSectorIndex else 0)) ∧
    (∀ q, s.usable uh.us = true → s.spinning uh.us = true → s.answers = .isReady false :: q →
      ∃ t, exec i s = .next t ∧
        ResultHolds (sevenBytes (baseWith uh .notReady) (resultHeader i (select uh s))) t ∧
        statusOf t = baseWith uh .notReady ∧ t.answers = q ∧
        t.events = s.events ++ [.call uh.us .ready (.isReady false)] ∧ KeepsExecBuf s t ∧
        t.writeDeletedFlag = s.writeDeletedFlag ∧
        t.rotatingSectorIndex = (if i.commandId = .readId then s.rotatingSectorIndex else 0))

/-- READ DATA, READ DELETED DATA and the SCAN commands whose sector is read without error (R106, R129, R132, R133, R143): the
call's arguments, the delivered bytes in the execution buffer, and an Execution phase of their number; a SCAN starts as "still
matching"; a length of 0 goes to Result at once (R94). The number is DTL where N is 0, else 128 times 2 to the N, at most 8192
(R68). Decisions D5, D7 (flags), D10 (length), D12, D13, D28, D29, D47. -/
def Obligations.ReadCommandsOpenExecution : Prop :=
  ∀ (i : Instr) (f : OpFlags) (uh : UnitHead) (id : SectorId) (dtl : Byte) (deleted : Bool) (s : State)
    (bytes : List Byte) (q : List Answer),
    readsSector i = some (f, uh, id, dtl, deleted) → s.BuffersWf → s.usable uh.us = true → s.spinning uh.us = true →
    s.answers = .isReady true :: .data .ok bytes :: q →
    bytes.length = (if id.n = 0 then dtl.toNat else min (128 * 2 ^ id.n.toNat) 8192) →
    ∃ t, exec i s = .next t ∧
      statusOf t = (selectionBits uh.hd uh.us, 0x00, if isScan i then 0x08 else 0x00) ∧
      t.execBuf.firstBytes bytes.length = bytes ∧ t.answers = q ∧
      t.events = s.events ++ [.call uh.us .ready (.isReady true),
        .call uh.us (.readSector ⟨id.c, id.h, uh.hd, id.r, bytes.length, deleted, f.sk, f.mf, f.mt⟩) (.data .ok bytes)] ∧
      t.writeDeletedFlag = s.writeDeletedFlag ∧
      (bytes.length ≠ 0 → ExecutionOpen bytes.length t) ∧
      (bytes.length = 0 → ResultHolds (sevenBytes (statusOf t) id) t)

/-- The same commands when the sector's code is an error (R111, R113, R132): no Execution; Result with the code's bits over
the base status and the command's own C, H, R, N. The calls made are `ready()` and the one `readSector`, with the arguments of
R128 (decisions D5, D7, D10, D12, D29, D47). -/
def Obligations.ReadCommandsReportErrors : Prop :=
  ∀ (i : Instr) (f : OpFlags) (uh : UnitHead) (id : SectorId) (dtl : Byte) (deleted : Bool) (s : State) (e : ErrorCode)
    (bytes : List Byte) (q : List Answer),
    readsSector i = some (f, uh, id, dtl, deleted) → s.BuffersWf → s.usable uh.us = true → s.spinning uh.us = true →
    s.answers = .isReady true :: .data e bytes :: q → bytes.length = sectorLen id.n dtl → e ≠ .ok →
    ∃ t, exec i s = .next t ∧ ResultHolds (sevenBytes (baseWith uh e) id) t ∧ statusOf t = baseWith uh e ∧ t.answers = q ∧
      t.events = s.events ++ [.call uh.us .ready (.isReady true),
        .call uh.us (.readSector ⟨id.c, id.h, uh.hd, id.r, bytes.length, deleted, f.sk, f.mf, f.mt⟩) (.data e bytes)] ∧
      t.writeDeletedFlag = s.writeDeletedFlag

/-- WRITE DATA and WRITE DELETED DATA on a ready drive (R134, R135): an Execution phase of the sector's length with only
`ready()` asked, `writeDeletedFlag` set for the deleted form alone. The length is DTL where N is 0, else 128 times 2 to the N,
at most 8192 (R68, R129). Decisions D5, D10, D47, D52. -/
def Obligations.WriteCommandsOpenExecution : Prop :=
  ∀ (i : Instr) (f : OpFlags) (uh : UnitHead) (id : SectorId) (dtl : Byte) (deleted : Bool) (s : State) (q : List Answer)
    (len : Nat),
    writesSector i = some (f, uh, id, dtl, deleted) → s.usable uh.us = true → s.spinning uh.us = true →
    s.answers = .isReady true :: q → len = (if id.n = 0 then dtl.toNat else min (128 * 2 ^ id.n.toNat) 8192) → len ≠ 0 →
    ∃ t, exec i s = .next t ∧ ExecutionOpen len t ∧ statusOf t = (selectionBits uh.hd uh.us, 0x00, 0x00) ∧
      t.writeDeletedFlag = deleted ∧ t.answers = q ∧ t.events = s.events ++ [.call uh.us .ready (.isReady true)] ∧
      (∀ a, t.execBuf.read a = s.execBuf.read a)

/-- WRITE DATA and WRITE DELETED DATA of length 0 (R94, R107, R134, R135): `writeSector` with no bytes is asked within the
dispatch, and the Result follows at once; a read-only Drive answers ReadOnly there, and its backend is not asked; decisions D5,
D10, D13, D26, D52. -/
def Obligations.WriteOfLengthZeroWritesAtOnce : Prop :=
  ∀ (i : Instr) (f : OpFlags) (uh : UnitHead) (id : SectorId) (dtl : Byte) (deleted : Bool) (s : State)
    (q : List Answer),
    writesSector i = some (f, uh, id, dtl, deleted) → s.BuffersWf → s.usable uh.us = true → s.spinning uh.us = true →
    s.answers = .isReady true :: q → sectorLen id.n dtl = 0 →
    (∀ e q', s.writeProtected uh.us = false → q = .code e :: q' →
      ∃ t, exec i s = .next t ∧ ResultHolds (sevenBytes (baseWith uh e) id) t ∧ statusOf t = baseWith uh e ∧
        t.writeDeletedFlag = false ∧ t.answers = q' ∧
        t.events = s.events ++ [.call uh.us .ready (.isReady true),
          .call uh.us (.writeSector ⟨id.c, id.h, uh.hd, id.r, 0, deleted, false, f.mf, f.mt⟩ []) (.code e)]) ∧
    (s.writeProtected uh.us = true →
      ∃ t, exec i s = .next t ∧ ResultHolds (sevenBytes (baseWith uh .readOnly) id) t ∧
        statusOf t = (selectionBits uh.hd uh.us ||| 0x40, 0x02, 0x00) ∧ t.writeDeletedFlag = false ∧ t.answers = q ∧
        t.events = s.events ++ [.call uh.us .ready (.isReady true)])

/-- READ TRACK on a ready drive (R108, R136, R137): the track's bytes, clamped to the buffer's 8192 (decision D27), fill the
execution buffer, whose bytes beyond them stay, and size the Execution phase; no byte gives the Result at once (D13); an
error's code gives it without Execution (D12). The base status is decision D5. -/
def Obligations.ReadTrackOpensExecution : Prop :=
  ∀ (f : OpFlags) (uh : UnitHead) (id : SectorId) (eot gpl dtl : Byte) (s : State) (e : ErrorCode) (bytes : List Byte)
    (q : List Answer),
    s.BuffersWf → s.usable uh.us = true → s.spinning uh.us = true → s.answers = .isReady true :: .data e bytes :: q →
    ∃ t, exec (.readTrack f uh id eot gpl dtl) s = .next t ∧ statusOf t = baseWith uh e ∧ t.answers = q ∧
      t.events = s.events ++ [.call uh.us .ready (.isReady true),
        .call uh.us (.readTrack id.c id.h uh.hd 8192) (.data e bytes)] ∧
      t.execBuf.firstBytes (bytes.take 8192).length = bytes.take 8192 ∧
      (∀ a, min bytes.length 8192 ≤ a → t.execBuf.read a = s.execBuf.read a) ∧
      (e = .ok ∧ bytes ≠ [] → ExecutionOpen (min bytes.length 8192) t) ∧
      (e ≠ .ok ∨ bytes = [] → ResultHolds (sevenBytes (baseWith uh e) id) t)

/-- READ ID on a ready drive (R105, R138, R139): `readSectorId` is asked with the rotating index, which then advances by one;
the seven bytes hold the returned header on Ok and the fallback header otherwise; decisions D5, D30, D31. -/
def Obligations.ReadIdReturnsHeader : Prop :=
  ∀ (f : OpFlags) (uh : UnitHead) (s : State) (e : ErrorCode) (hdr : SectorId) (q : List Answer),
    s.BuffersWf → s.usable uh.us = true → s.spinning uh.us = true → s.answers = .isReady true :: .header e hdr :: q →
    ∃ t, exec (.readId f uh) s = .next t ∧
      ResultHolds (sevenBytes (baseWith uh e)
        (if e = .ok then hdr else ⟨s.reportedCylinder uh.us, uh.hd.setWidth 8, 0x00, 0x00⟩)) t ∧
      statusOf t = baseWith uh e ∧ t.answers = q ∧
      t.events = s.events ++ [.call uh.us .ready (.isReady true),
        .call uh.us (.readSectorId uh.hd s.rotatingSectorIndex) (.header e hdr)] ∧
      t.rotatingSectorIndex = s.rotatingSectorIndex + 1

/-- FORMAT TRACK on a ready drive (R109, R140 to R142): an Execution phase of four bytes a sector; with no sector,
`formatTrack` is asked within the dispatch and the Result follows at once; a read-only Drive answers ReadOnly there, and its
backend is not asked; decisions D5, D13, D26, D31. -/
def Obligations.FormatTrackOpensExecution : Prop :=
  ∀ (f : OpFlags) (uh : UnitHead) (n sc gpl d : Byte) (s : State) (q : List Answer),
    s.BuffersWf → s.usable uh.us = true → s.spinning uh.us = true → s.answers = .isReady true :: q →
    (sc ≠ 0 →
      ∃ t, exec (.formatTrack f uh n sc gpl d) s = .next t ∧ ExecutionOpen (4 * sc.toNat) t ∧
        statusOf t = (selectionBits uh.hd uh.us, 0x00, 0x00) ∧ t.answers = q ∧
        t.events = s.events ++ [.call uh.us .ready (.isReady true)] ∧ (∀ a, t.execBuf.read a = s.execBuf.read a)) ∧
    (∀ e q', sc = 0 → s.writeProtected uh.us = false → q = .code e :: q' →
      ∃ t, exec (.formatTrack f uh n sc gpl d) s = .next t ∧
        ResultHolds (sevenBytes (baseWith uh e) ⟨s.reportedCylinder uh.us, uh.hd.setWidth 8, 0x00, n⟩) t ∧
        statusOf t = baseWith uh e ∧ t.answers = q' ∧
        t.events = s.events ++ [.call uh.us .ready (.isReady true),
          .call uh.us (.formatTrack uh.hd 0x00 [] d) (.code e)]) ∧
    (sc = 0 → s.writeProtected uh.us = true →
      ∃ t, exec (.formatTrack f uh n sc gpl d) s = .next t ∧
        ResultHolds (sevenBytes (baseWith uh .readOnly) ⟨s.reportedCylinder uh.us, uh.hd.setWidth 8, 0x00, n⟩) t ∧
        statusOf t = (selectionBits uh.hd uh.us ||| 0x40, 0x02, 0x00) ∧ t.answers = q ∧
        t.events = s.events ++ [.call uh.us .ready (.isReady true)])

/-! ### Frames of the commands -/

/-- What the ten data commands leave unchanged at their dispatch, whatever its outcome (R24, R30, R83): all registers but
status0 to status2, the selection and the rotation; every byte of the result buffer from index 7 on, all of it where the
Execution phase opens (R86); every byte of the execution buffer outside those a read stores (for READ TRACK the bytes of the
answer in the history, at most 8192), all of it for the commands that store none. That status3 stays is the spec's decision D5, who writes the selection decision D34 (log
entry 14). -/
def Obligations.DataCommandFrame : Prop :=
  ∀ (i : Instr) (uh : UnitHead) (s t : State), isDataCommand i = true → unitHeadOf i = some uh → exec i s = .next t →
    DataFrame uh s t ∧
    (t.phase = .execution → t.resBuf = s.resBuf ∧ t.resPosition = s.resPosition) ∧
    ((∀ f id eot gpl dtl, i ≠ .readTrack f uh id eot gpl dtl) → readsSector i = none →
      ∀ a, t.execBuf.read a = s.execBuf.read a) ∧
    (∀ f uh' id dtl del, readsSector i = some (f, uh', id, dtl, del) →
      ∀ a, sectorLen id.n dtl ≤ a → t.execBuf.read a = s.execBuf.read a) ∧
    (∀ f id eot gpl dtl, i = .readTrack f uh id eot gpl dtl →
      ∀ a, (∀ e bytes, .call uh.us (.readTrack id.c id.h uh.hd 8192) (.data e bytes) ∈ t.events.drop s.events.length →
        min bytes.length 8192 ≤ a) → t.execBuf.read a = s.execBuf.read a) ∧
    ((∀ f, i ≠ .readId f uh) → t.rotatingSectorIndex = 0) ∧
    (writesSector i = none → t.writeDeletedFlag = s.writeDeletedFlag)

/-- What the six status-only commands leave unchanged (R24, R30, R117): every byte of the command and execution buffers and of
the result buffer from index 2 on, from index 1 on but for the two bytes of SENSE INTERRUPT STATUS, and all of it for SPECIFY,
RECALIBRATE and SEEK, which have no result byte (R85); the parameters but for SPECIFY; status0 to status2 and the drives but
for RECALIBRATE and SEEK, which move at most the selected drive's cylinder; status3 but for SENSE DRIVE STATUS; the selection, which the commands with a
unit/head byte take from it (R30); the interrupt but for the three that act on it, of which only SENSE INTERRUPT STATUS acts on
the line. Who writes the status registers is the spec's decisions
D5 and D32, when the cylinder moves decision D25, who writes the selection decision D34 (log entry 14). -/
def Obligations.StatusCommandFrame : Prop :=
  ∀ (i : Instr) (s t : State), isDataCommand i = false → exec i s = .next t →
    KeepsHostSide s t ∧ t.cmdBuf = s.cmdBuf ∧ t.cmdPosition = s.cmdPosition ∧ KeepsExecBuf s t ∧ KeepsResFrom 2 s t ∧
    ((∀ f, i ≠ .senseInterruptStatus f) ∨ s.interruptState ≠ .seekEnd → KeepsResFrom 1 s t) ∧
    ((∃ f a b, i = .specify f a b) ∨ seekTarget i ≠ none → t.resBuf = s.resBuf ∧ t.resPosition = s.resPosition) ∧
    t.writeDeletedFlag = s.writeDeletedFlag ∧ t.rotatingSectorIndex = 0 ∧
    (t.phase = .result → t.pendingOpcode = s.pendingOpcode) ∧
    ((∀ f a b, i ≠ .specify f a b) → KeepsParams s t) ∧
    (seekTarget i = none → statusOf t = statusOf s ∧ t.slots = s.slots) ∧
    (∀ uh v, unitHeadOf i = some uh → v ≠ uh.us → t.drive v = s.drive v) ∧
    (∀ uh, unitHeadOf i = some uh → t.drive uh.us = s.drive uh.us ∨
      ∃ d n, s.drive uh.us = some d ∧ seekTarget i = some n ∧ t.drive uh.us = some { d with currentCylinder := n.toNat }) ∧
    ((∀ f uh, i ≠ .senseDriveStatus f uh) → t.status3 = s.status3) ∧
    (unitHeadOf i = none → t.selectedUnit = s.selectedUnit ∧ t.selectedHead = s.selectedHead) ∧
    (∀ uh, unitHeadOf i = some uh → t.selectedUnit = uh.us ∧ t.selectedHead = uh.hd) ∧
    ((∀ f, i ≠ .senseInterruptStatus f) → t.irqLine = s.irqLine) ∧
    (seekTarget i = none → (∀ f, i ≠ .senseInterruptStatus f) → KeepsInterrupt s t)

/-- With no backend answer scripted every command completes, whatever the free answers are: it ends in Idle, Execution or Result
(R11, R83, R113, R152; the free answers are the model's own, log entry 2). -/
def Obligations.EveryCommandCompletesUnscripted : Prop :=
  ∀ (i : Instr) (s : State), s.answers = [] → ∃ t, exec i s = .next t ∧ t.phase ≠ .command ∧ t.answers = []

/-- `Translate` is the table, and an error code sets exactly its bits, by OR, and nothing else (R111, R112). -/
def Obligations.ErrorCodesSetTableBits : Prop :=
  (deltasOf .ok = ⟨0x00, 0x00, 0x00⟩ ∧ deltasOf .notReady = ⟨0x48, 0x00, 0x00⟩ ∧
    deltasOf .seekFailed = ⟨0x40, 0x00, 0x02⟩ ∧ deltasOf .noAddressMark = ⟨0x40, 0x00, 0x01⟩ ∧
    deltasOf .noData = ⟨0x40, 0x04, 0x00⟩ ∧ deltasOf .dataError = ⟨0x00, 0x20, 0x20⟩ ∧
    deltasOf .noMatchingSector = ⟨0x40, 0x82, 0x00⟩ ∧ deltasOf .readOnly = ⟨0x40, 0x02, 0x00⟩) ∧
  ∀ s : State,
    applyError .ok s = s ∧
    applyError .notReady s = { s with status0 := s.status0 ||| 0x48 } ∧
    applyError .seekFailed s = { s with status0 := s.status0 ||| 0x40, status2 := s.status2 ||| 0x02 } ∧
    applyError .noAddressMark s = { s with status0 := s.status0 ||| 0x40, status2 := s.status2 ||| 0x01 } ∧
    applyError .noData s = { s with status0 := s.status0 ||| 0x40, status1 := s.status1 ||| 0x04 } ∧
    applyError .dataError s = { s with status1 := s.status1 ||| 0x20, status2 := s.status2 ||| 0x20 } ∧
    applyError .noMatchingSector s = { s with status0 := s.status0 ||| 0x40, status1 := s.status1 ||| 0x82 } ∧
    applyError .readOnly s = { s with status0 := s.status0 ||| 0x40, status1 := s.status1 ||| 0x02 }

/-! ### The Execution phase -/

/-- A host byte in the Execution of a WRITE or a FORMAT that is not the last (R87): it is stored at the current index, the
counters move by one, and ExecByteReady is armed unless a SeekEnd is pending (decision D16). -/
def Obligations.ExecutionStoresHostByte : Prop :=
  ∀ (s : State) (b : Byte) (rest : List HostOp) (i : Instr), s.Inv → s.hostOps = .writeData b :: rest →
    s.phase = .execution →
    (s.pendingOpcode = some .writeData ∨ s.pendingOpcode = some .writeDeletedData ∨ s.pendingOpcode = some .formatTrack) →
    s.pendingInstr = some i → s.execLength ≠ 1 →
    ∃ t, step s = .next t ∧ t.execBuf.read s.execPosition = b ∧
      (∀ a, a ≠ s.execPosition → t.execBuf.read a = s.execBuf.read a) ∧
      t.execPosition = s.execPosition + 1 ∧ t.execLength = s.execLength - 1 ∧ t.phase = .execution ∧
      t.events = s.events ++ ackEvents s ∧ t.answers = s.answers ∧ t.slots = s.slots ∧ KeepsRegisters s t ∧
      KeepsCommand s t ∧ t.resBuf = s.resBuf ∧ t.resPosition = s.resPosition ∧
      (s.interruptState ≠ .seekEnd → t.interruptState = .execByteReady ∧ t.ticksRemaining = Config.shortDelay)

/-- The last byte of a WRITE DATA or WRITE DELETED DATA (R87, R89, R107, R134, R135): it is stored, `writeSector` is asked with
all the bytes, the code's bits are set, the deleted flag is cleared and the Result opens with the command's C, H, R, N; a
read-only Drive answers ReadOnly and its backend is not asked (decision D26; the flag's lifetime is decision D52). Every other
register, drive, command byte, execution byte and result byte stays. -/
def Obligations.LastWriteByteWritesSector : Prop :=
  ∀ (s : State) (b : Byte) (rest : List HostOp) (i : Instr) (f : OpFlags) (uh : UnitHead) (id : SectorId) (dtl : Byte)
    (deleted : Bool), s.Inv → s.hostOps = .writeData b :: rest → s.phase = .execution → s.execLength = 1 →
    s.pendingInstr = some i → writesSector i = some (f, uh, id, dtl, deleted) → s.usable s.selectedUnit = true →
    (∀ e q, s.writeProtected s.selectedUnit = false → s.answers = .code e :: q →
      ∃ t, step s = .next t ∧
        statusOf t = (s.status0 ||| (deltasOf e).d0, s.status1 ||| (deltasOf e).d1, s.status2 ||| (deltasOf e).d2) ∧
        ResultHolds (sevenBytes (statusOf t) id) t ∧ t.writeDeletedFlag = false ∧ t.answers = q ∧
        StoresExecByte b s t ∧ ExecutionFrame s t ∧
        t.events = s.events ++ ackEvents s ++ [.call s.selectedUnit
          (.writeSector ⟨id.c, id.h, s.selectedHead, id.r, sectorLen id.n dtl, deleted, false, f.mf, f.mt⟩
            ((s.execBuf.firstBytes s.execPosition) ++ [b])) (.code e)]) ∧
    (s.writeProtected s.selectedUnit = true →
      ∃ t, step s = .next t ∧ statusOf t = (s.status0 ||| 0x40, s.status1 ||| 0x02, s.status2) ∧
        ResultHolds (sevenBytes (statusOf t) id) t ∧ t.writeDeletedFlag = false ∧ t.answers = s.answers ∧
        StoresExecByte b s t ∧ ExecutionFrame s t ∧ t.events = s.events ++ ackEvents s)

/-- The last byte of a FORMAT TRACK (R109, R141, R142): `formatTrack` is asked with all the descriptor bytes, and the Result
opens with the fallback header (decision D31); a read-only Drive answers ReadOnly and its backend is not asked (decision
D26). Every other register, drive, command byte, execution byte and result byte stays. -/
def Obligations.LastFormatByteFormats : Prop :=
  ∀ (s : State) (b : Byte) (rest : List HostOp) (f : OpFlags) (uh : UnitHead) (n sc gpl d : Byte), s.Inv →
    s.hostOps = .writeData b :: rest → s.phase = .execution → s.execLength = 1 →
    s.pendingInstr = some (.formatTrack f uh n sc gpl d) → s.usable s.selectedUnit = true →
    (∀ e q, s.writeProtected s.selectedUnit = false → s.answers = .code e :: q →
      ∃ t, step s = .next t ∧
        statusOf t = (s.status0 ||| (deltasOf e).d0, s.status1 ||| (deltasOf e).d1, s.status2 ||| (deltasOf e).d2) ∧
        ResultHolds (sevenBytes (statusOf t)
          ⟨s.reportedCylinder s.selectedUnit, s.selectedHead.setWidth 8, 0x00, n⟩) t ∧ t.answers = q ∧
        t.writeDeletedFlag = s.writeDeletedFlag ∧ StoresExecByte b s t ∧ ExecutionFrame s t ∧
        t.events = s.events ++ ackEvents s ++ [.call s.selectedUnit
          (.formatTrack s.selectedHead sc (s.execBuf.firstBytes s.execPosition ++ [b]) d) (.code e)]) ∧
    (s.writeProtected s.selectedUnit = true →
      ∃ t, step s = .next t ∧ statusOf t = (s.status0 ||| 0x40, s.status1 ||| 0x02, s.status2) ∧
        ResultHolds (sevenBytes (statusOf t)
          ⟨s.reportedCylinder s.selectedUnit, s.selectedHead.setWidth 8, 0x00, n⟩) t ∧ t.answers = s.answers ∧
        t.writeDeletedFlag = s.writeDeletedFlag ∧ StoresExecByte b s t ∧ ExecutionFrame s t ∧
        t.events = s.events ++ ackEvents s)

/-- A host byte in the Execution of a SCAN that is not the last (R87, R144): it is compared with the sector byte at the current
index and not stored; nothing changes but status2, as the comparison says, the counters and the interrupt. The bits and the
direction of the comparison are general knowledge (decision D28, log entry 14). -/
def Obligations.ScanComparesHostByte : Prop :=
  ∀ (s : State) (b : Byte) (rest : List HostOp) (i : Instr), s.Inv → s.hostOps = .writeData b :: rest →
    s.phase = .execution → s.pendingInstr = some i → isScan i = true → s.execLength ≠ 1 →
    ∃ t, step s = .next t ∧ t.execBuf = s.execBuf ∧ t.execPosition = s.execPosition + 1 ∧
      t.execLength = s.execLength - 1 ∧ t.phase = .execution ∧ t.status0 = s.status0 ∧ t.status1 = s.status1 ∧
      ExecutionFrame s t ∧ t.writeDeletedFlag = s.writeDeletedFlag ∧ t.resBuf = s.resBuf ∧ t.resPosition = s.resPosition ∧
      t.answers = s.answers ∧ t.events = s.events ++ ackEvents s ∧
      t.status2 =
        (if b = 0xFF ∨ s.execBuf.read s.execPosition = 0xFF ∨ s.execBuf.read s.execPosition = b then s.status2
         else if s.pendingOpcode = some .scanLowOrEqual ∧ s.execBuf.read s.execPosition < b ∨
             s.pendingOpcode = some .scanHighOrEqual ∧ b < s.execBuf.read s.execPosition then s.status2 &&& 0xF7
         else (s.status2 &&& 0xF7) ||| 0x04)

/-- The last byte of a SCAN (R87, R89, R144, R148): it is compared like the others, and the Result opens with the status as the
comparison leaves it and the command's C, H, R, N; no backend is asked, and nothing else changes. The bits are general knowledge (decision
D28). -/
def Obligations.LastScanByteOpensResult : Prop :=
  ∀ (s : State) (b : Byte) (rest : List HostOp) (i : Instr) (f : OpFlags) (uh : UnitHead) (id : SectorId) (dtl : Byte)
    (deleted : Bool), s.Inv → s.hostOps = .writeData b :: rest → s.phase = .execution → s.execLength = 1 →
    s.pendingInstr = some i → isScan i = true → readsSector i = some (f, uh, id, dtl, deleted) →
    ∃ t, step s = .next t ∧ ResultHolds (sevenBytes (statusOf t) id) t ∧ t.status0 = s.status0 ∧ t.status1 = s.status1 ∧
      t.status2 =
        (if b = 0xFF ∨ s.execBuf.read s.execPosition = 0xFF ∨ s.execBuf.read s.execPosition = b then s.status2
         else if s.pendingOpcode = some .scanLowOrEqual ∧ s.execBuf.read s.execPosition < b ∨
             s.pendingOpcode = some .scanHighOrEqual ∧ b < s.execBuf.read s.execPosition then s.status2 &&& 0xF7
         else (s.status2 &&& 0xF7) ||| 0x04) ∧
      t.execBuf = s.execBuf ∧ t.execPosition = s.execPosition + 1 ∧ ExecutionFrame s t ∧
      t.writeDeletedFlag = s.writeDeletedFlag ∧ t.answers = s.answers ∧ t.events = s.events ++ ackEvents s

/-- The scan field after all bytes, from "still matching" (R144 to R147): SCAN EQUAL ends at "matching" exactly when every pair
is equal or has a wildcard, else at "not satisfied"; SCAN LOW OR EQUAL and SCAN HIGH OR EQUAL end at "not satisfied" exactly
when some pair fails their condition, else at "matching" when all are equal or wildcards, else at neither. The bits and the
direction of the comparison are general knowledge (decision D28). -/
def Obligations.ScanFieldOfAllBytes : Prop :=
  ∀ (i : Instr) (pairs : List (Byte × Byte)) (s : State), isScan i = true → s.status2 &&& 0x0C = 0x08 →
    let matching := fun p : Byte × Byte => p.1 = 0xFF ∨ p.2 = 0xFF ∨ p.1 = p.2
    let accepted := fun p : Byte × Byte =>
      i.commandId = .scanLowOrEqual ∧ p.2 < p.1 ∨ i.commandId = .scanHighOrEqual ∧ p.1 < p.2
    let t := pairs.foldl (fun u p => scanCompare i p.1 p.2 u) s
    t.status2 &&& 0x0C =
      (if ∀ p ∈ pairs, matching p then 0x08 else if ∀ p ∈ pairs, matching p ∨ accepted p then 0x00 else 0x04) ∧
    t.status2 &&& 0xF3 = s.status2 &&& 0xF3

/-- A read-direction Execution, that of READ DATA, READ DELETED DATA or READ TRACK (R58, R69). One read that is not the last,
whatever the host does next (R88): it returns the byte at the current index and moves the counters by one, and ExecByteReady is
armed unless a SeekEnd is pending (decision D16). All reads together (R88, R89): as many as bytes are to come return those bytes
in order, and the last one opens the Result with its seven bytes. No backend is asked, and no other register, drive, buffer byte
or command byte changes. The main status values 0xF0 of Execution and 0xD0 of Result are the spec's decision D2 (log entry
14). -/
def Obligations.ExecutionDeliversItsBytes : Prop :=
  (∀ (s : State) (rest : List HostOp), s.Inv → s.hostOps = .readData :: rest → s.phase = .execution →
    (s.pendingOpcode = some .readData ∨ s.pendingOpcode = some .readDeletedData ∨ s.pendingOpcode = some .readTrack) →
    s.execLength ≠ 1 →
    ∃ t, step s = .next t ∧ t.reply = some (s.execBuf.read s.execPosition) ∧ t.phase = .execution ∧ t.mainStatus = 0xF0 ∧
      t.execPosition = s.execPosition + 1 ∧ t.execLength + 1 = s.execLength ∧ t.execLength ≠ 0 ∧ t.execBuf = s.execBuf ∧
      t.resBuf = s.resBuf ∧ t.resPosition = s.resPosition ∧ t.resLength = s.resLength ∧ t.cmdLength = s.cmdLength ∧
      KeepsRegisters s t ∧ KeepsCommand s t ∧ t.slots = s.slots ∧ t.answers = s.answers ∧
      t.events = s.events ++ ackEvents s ∧ t.hostOps = rest ∧
      (s.interruptState ≠ .seekEnd → t.interruptState = .execByteReady ∧ t.ticksRemaining = Config.shortDelay)) ∧
  (∀ (s : State) (rest : List HostOp) (i : Instr), s.Inv → s.phase = .execution →
    (s.pendingOpcode = some .readData ∨ s.pendingOpcode = some .readDeletedData ∨ s.pendingOpcode = some .readTrack) →
    s.pendingInstr = some i →
    s.hostOps = List.replicate s.execLength .readData ++ rest →
    ∃ t, observe s.execLength s =
        some ((List.range s.execLength).map (fun k => some (s.execBuf.read (s.execPosition + k))), t) ∧
      ResultHolds (sevenBytes (statusOf s) (resultHeader i s)) t ∧ statusOf t = statusOf s ∧ t.mainStatus = 0xD0 ∧
      t.hostOps = rest ∧ ExecutionFrame s t ∧ t.execBuf = s.execBuf ∧ t.execPosition = s.execPosition + s.execLength ∧
      t.writeDeletedFlag = s.writeDeletedFlag ∧ t.answers = s.answers ∧ t.events = s.events ++ ackEvents s)

/-! ### The Result phase and stray accesses -/

/-- A read in Result (R90, R91): it returns the byte at the current index and moves the counters by one; at zero remaining the
controller is Idle, its opcode cleared, with no interrupt armed. -/
def Obligations.ResultReadDeliversOneByte : Prop :=
  ∀ (s : State) (rest : List HostOp), s.hostOps = .readData :: rest → s.phase = .result →
    s.resPosition < Config.resCap →
    ∃ t, step s = .next t ∧ t.reply = some (s.resBuf.read s.resPosition) ∧ t.resPosition = s.resPosition + 1 ∧
      t.resLength = s.resLength - 1 ∧ t.resBuf = s.resBuf ∧
      (s.resLength - 1 = 0 → BackInIdle t ∧ t.mainStatus = 0x80 ∧
        t.interruptState = (if s.interruptState = .seekEnd then .seekEnd else .none)) ∧
      (s.resLength - 1 ≠ 0 → t.phase = .result ∧ t.pendingOpcode = s.pendingOpcode) ∧
      t.slots = s.slots ∧ KeepsRegisters s t ∧ t.events = s.events ++ ackEvents s ∧ t.answers = s.answers ∧
      t.cmdBuf = s.cmdBuf ∧ t.cmdPosition = s.cmdPosition ∧ KeepsExecBuf s t

/-- The Result phase terminates (R96): exactly as many reads as bytes are due return exactly those bytes in order and leave the
main status register at 0x80. -/
def Obligations.ResultPhaseDeliversAndEnds : Prop :=
  ∀ (s : State) (rest : List HostOp), s.Inv → s.phase = .result →
    s.hostOps = List.replicate s.resLength .readData ++ rest →
    ∃ t, observe s.resLength s =
        some ((List.range s.resLength).map (fun k => some (s.resBuf.read (s.resPosition + k))), t) ∧
      BackInIdle t ∧ t.mainStatus = 0x80 ∧ t.hostOps = rest

/-- Accesses in the wrong direction (R92, R93, R78, R79): a read with no byte due returns 0xFF, a write with none expected is
discarded, and neither changes the phase, a buffer or a counter; both still acknowledge. The value 0xFF and "no change" are
the spec's decision D14. -/
def Obligations.StrayAccessesTransferNothing : Prop :=
  (∀ (s : State) (rest : List HostOp), s.hostOps = .readData :: rest →
    (s.phase = .idle ∨ s.phase = .command ∨ s.phase = .execution ∧ s.pendingOpcode ≠ some .readData ∧
      s.pendingOpcode ≠ some .readDeletedData ∧ s.pendingOpcode ≠ some .readTrack) →
    ∃ t, step s = .next t ∧ t.reply = some 0xFF ∧ KeepsProtocol s t ∧ KeepsRegisters s t ∧ t.slots = s.slots ∧
      t.events = s.events ++ ackEvents s ∧ t.answers = s.answers) ∧
  (∀ (s : State) (b : Byte) (rest : List HostOp), s.hostOps = .writeData b :: rest →
    (s.phase = .result ∨ s.phase = .execution ∧ s.pendingOpcode ≠ some .writeData ∧
      s.pendingOpcode ≠ some .writeDeletedData ∧ s.pendingOpcode ≠ some .formatTrack ∧ s.pendingOpcode ≠ some .scanEqual ∧
      s.pendingOpcode ≠ some .scanLowOrEqual ∧ s.pendingOpcode ≠ some .scanHighOrEqual) →
    ∃ t, step s = .next t ∧ t.reply = none ∧ KeepsProtocol s t ∧ KeepsRegisters s t ∧ t.slots = s.slots ∧
      t.events = s.events ++ ackEvents s ∧ t.answers = s.answers)

/-! ### readStatus and the interrupts -/

/-- `readStatus` (R77): it returns the main status register and changes nothing. -/
def Obligations.ReadStatusChangesNothing : Prop :=
  ∀ (s : State) (rest : List HostOp), s.hostOps = .readStatus :: rest →
    step s = .next { s with hostOps := rest, reply := some s.mainStatus }

/-- The main status register of each phase (R18, R19), in Execution by the pending command's direction (R69), and the phase it
implies (R16). Only 0x80 is the source's own value;
the others are decisions D1, D2 and, for the drive-busy bits, D3. -/
def Obligations.MainStatusOfEachPhase : Prop :=
  (∀ s : State,
    (s.direction = some .controllerToHost ↔
      s.pendingOpcode = some .readData ∨ s.pendingOpcode = some .readDeletedData ∨ s.pendingOpcode = some .readTrack) ∧
    (s.direction = some .hostToController ↔
      s.pendingOpcode = some .writeData ∨ s.pendingOpcode = some .writeDeletedData ∨ s.pendingOpcode = some .formatTrack ∨
      s.pendingOpcode = some .scanEqual ∨ s.pendingOpcode = some .scanLowOrEqual ∨
      s.pendingOpcode = some .scanHighOrEqual) ∧
    (s.phase = .execution →
      s.pendingOpcode = some .readData ∨ s.pendingOpcode = some .readDeletedData ∨ s.pendingOpcode = some .readTrack →
      s.mainStatus = 0xF0) ∧
    (s.phase = .execution →
      s.pendingOpcode = some .writeData ∨ s.pendingOpcode = some .writeDeletedData ∨ s.pendingOpcode = some .formatTrack ∨
      s.pendingOpcode = some .scanEqual ∨ s.pendingOpcode = some .scanLowOrEqual ∨ s.pendingOpcode = some .scanHighOrEqual →
      s.mainStatus = 0xB0) ∧
    (s.phase = .idle → s.mainStatus = 0x80) ∧ (s.phase = .command → s.mainStatus = 0x90) ∧
    (s.phase = .result → s.mainStatus = 0xD0) ∧
    (s.phase = .execution → s.direction = some .controllerToHost → s.mainStatus = 0xF0) ∧
    (s.phase = .execution → s.direction = some .hostToController → s.mainStatus = 0xB0) ∧
    s.mainStatus &&& 0x0F = 0 ∧ s.mainStatus.getLsbD 7 = true) ∧
  (∀ s t : State, s.mainStatus = t.mainStatus → s.phase = t.phase)

/-- `AckOnAccess` (R160): a pending ResultReady or ExecByteReady, asserted or still counting, is cancelled and an asserted line
lowered with `Irq(false)`; a SeekEnd is left alone; it is the first step of every data-register access (a step from the
acknowledged state is the same step), a stray one too, and `readStatus` does not acknowledge. -/
def Obligations.AccessAcknowledges : Prop :=
  (∀ s : State, (s.interruptState = .resultReady ∨ s.interruptState = .execByteReady) →
    ackOnAccess s = { s with
      interruptState := .none, ticksRemaining := 0, irqLine := false,
      events := if s.irqLine then s.events ++ [.irq false] else s.events }) ∧
  (∀ s : State, (s.interruptState = .seekEnd ∨ s.interruptState = .none) → ackOnAccess s = s) ∧
  (∀ (s t : State) (rest : List HostOp) (op : HostOp), (op = .readData ∨ ∃ b, op = .writeData b) →
    s.hostOps = op :: rest → step s = step (ackOnAccess s) ∧ (step s = .next t → (s.events ++ ackEvents s) <+: t.events)) ∧
  (∀ (s t : State) (rest : List HostOp), s.hostOps = .readStatus :: rest → step s = .next t →
    KeepsInterrupt s t ∧ t.events = s.events)

/-- `tick` (R159): it counts down, and at zero asserts the line with `Irq(true)`; with no countdown it does nothing. That the
interrupt stays pending, and that a tick with nothing to count does nothing, is the spec's decision D48. -/
def Obligations.TickCountsDown : Prop :=
  ∀ (s : State) (rest : List HostOp), s.hostOps = .tick :: rest →
    (s.ticksRemaining = 0 → step s = .next { s with hostOps := rest, reply := none }) ∧
    (s.ticksRemaining = 1 → step s = .next { s with
      hostOps := rest, reply := none, ticksRemaining := 0, irqLine := true, events := s.events ++ [.irq true] }) ∧
    (∀ k, s.ticksRemaining = k + 2 → step s = .next { s with hostOps := rest, reply := none, ticksRemaining := k + 1 })

/-- After a data-register access the phase decides the armed interrupt (R157, R158): ExecByteReady in Execution, ResultReady in
Result, with SHORT_DELAY, unless a SeekEnd pending before the access still is (decision D16); nothing in Command (decision D15)
and Idle but such a SeekEnd, and the one that a RECALIBRATE or SEEK armed at its dispatch. -/
def Obligations.AccessArmsByPhase : Prop :=
  ∀ (s t : State) (rest : List HostOp) (op : HostOp), (op = .readData ∨ ∃ b, op = .writeData b) →
    s.hostOps = op :: rest → step s = .next t →
    (t.phase = .execution →
      s.interruptState = .seekEnd ∧ t.interruptState = .seekEnd ∨
      t.interruptState = .execByteReady ∧ t.ticksRemaining = Config.shortDelay) ∧
    (t.phase = .result →
      s.interruptState = .seekEnd ∧ t.interruptState = .seekEnd ∨
      t.interruptState = .resultReady ∧ t.ticksRemaining = Config.shortDelay) ∧
    (t.phase = .command → s.interruptState = .seekEnd ∧ t.interruptState = .seekEnd ∨ t.interruptState = .none) ∧
    (t.phase = .idle →
      (s.interruptState = .seekEnd ∨
        s.phase = .command ∧ (s.pendingOpcode = some .recalibrate ∨ s.pendingOpcode = some .seek)) ∧
        t.interruptState = .seekEnd ∨
      t.interruptState = .none)

/-- A pending SeekEnd, and an asserted line with it, survives every host operation but the write of SENSE INTERRUPT STATUS and
a reset (R99, R126, R158; that arming does not displace it is decision D16, for a motor change decision D20). -/
def Obligations.SeekEndSurvivesAllButSenseInterrupt : Prop :=
  ∀ s t : State, s.Inv → s.interruptState = .seekEnd → step s = .next t →
    (∀ rest, s.hostOps ≠ .reset :: rest) →
    (∀ b rest, s.hostOps = .writeData b :: rest → s.phase = .idle → commandId (op5 b) ≠ .senseInterruptStatus) →
    t.interruptState = .seekEnd ∧ (s.irqLine = true → t.irqLine = true)

/-! ### Motor control, reset, media swap -/

/-- The motor-stop abort (R162, R164, R165): stopping the selected drive's motor in Execution opens the seven-byte Result at
once with status0 bits 0xC0 set, without a finish action, the deleted flag cleared, and ResultReady armed with LONG_DELAY
unless a SeekEnd is pending. Every present drive's motor takes its bit; the other registers, the command, the execution buffer
and the result buffer beyond the seven bytes stay. Decisions D20, D21, D50, D51. -/
def Obligations.MotorStopAbortsExecution : Prop :=
  ∀ (s : State) (mask : Byte) (rest : List HostOp) (i : Instr) (d : Drive), s.BuffersWf →
    s.hostOps = .setMotor mask :: rest → s.phase = .execution → s.pendingInstr = some i →
    s.drive s.selectedUnit = some d → d.motorOn = true → mask.getLsbD s.selectedUnit.toNat = false →
    ∃ t, step s = .next t ∧
      ResultHolds (sevenBytes (s.status0 ||| 0xC0, s.status1, s.status2) (resultHeader i s)) t ∧
      statusOf t = (s.status0 ||| 0xC0, s.status1, s.status2) ∧ t.writeDeletedFlag = false ∧ AsksNothing s t ∧
      KeepsRegisters { s with status0 := s.status0 ||| 0xC0, writeDeletedFlag := false } t ∧ KeepsCommand s t ∧
      t.execBuf = s.execBuf ∧ t.execPosition = s.execPosition ∧ KeepsResFrom 7 s t ∧ t.hostOps = rest ∧
      (∀ u, t.drive u = (s.drive u).map (fun d => { d with motorOn := mask.getLsbD u.toNat })) ∧
      t.drive s.selectedUnit = some { d with motorOn := false } ∧
      (s.interruptState = .seekEnd → KeepsInterrupt s t) ∧
      (s.interruptState ≠ .seekEnd → t.interruptState = .resultReady ∧ t.ticksRemaining = Config.longDelay ∧
        t.irqLine = s.irqLine)

/-- `setMotor` where nothing is aborted (R162, R163): each present drive's motor takes its bit, empty slots stay empty, and a
change arms ResultReady with LONG_DELAY unless a SeekEnd is pending; no change arms nothing. Decisions D20, D49, D50. -/
def Obligations.SetMotorWithoutAbort : Prop :=
  ∀ (s : State) (mask : Byte) (rest : List HostOp), s.hostOps = .setMotor mask :: rest →
    (∀ d, s.drive s.selectedUnit = some d → d.motorOn = true → mask.getLsbD s.selectedUnit.toNat = false →
      s.phase ≠ .execution) →
    ∃ t, step s = .next t ∧
      (∀ u, t.drive u = (s.drive u).map (fun d => { d with motorOn := mask.getLsbD u.toNat })) ∧
      KeepsProtocol s t ∧ KeepsRegisters s t ∧ AsksNothing s t ∧ t.irqLine = s.irqLine ∧
      ((∀ u d, s.drive u = some d → d.motorOn = mask.getLsbD u.toNat) ∨ s.interruptState = .seekEnd →
        KeepsInterrupt s t) ∧
      ((∃ u d, s.drive u = some d ∧ d.motorOn ≠ mask.getLsbD u.toNat) → s.interruptState ≠ .seekEnd →
        t.interruptState = .resultReady ∧ t.ticksRemaining = Config.longDelay)

/-- `reset` (R178, R179, R42, R43): every controller field at its reset value, the motors off at cylinder 0, configuration and
media kept, the history kept and `Irq(false)` appended if the line was asserted, no backend asked. The values other than Idle
and 0x80 are the spec's decision D36, the notification decision D37. -/
def Obligations.ResetRestoresDefaults : Prop :=
  ∀ (s : State) (rest : List HostOp), s.hostOps = .reset :: rest →
    ∃ t, step s = .next t ∧ t.mainStatus = 0x80 ∧
      t = { State.construct (Vector.replicate 4 none) with
        slots := t.slots, events := s.events ++ (if s.irqLine then [.irq false] else []), hostOps := rest,
        answers := s.answers, freeCalls := s.freeCalls, reply := none } ∧
      (∀ u, t.drive u = (s.drive u).map (fun d => { d with motorOn := false, currentCylinder := 0 }))

/-- Media swap (R171): where the slot holds a Drive and the controller is Idle or another unit is selected, `insert` attaches
and `eject` records its call and detaches, changing nothing else; elsewhere both are refused (decision D38). That `eject`
records its call also for a Drive without a backend is the model's choice (log entry 10, DEDUCED). -/
def Obligations.MediaSwapOnlyWhereAllowed : Prop :=
  ∀ (s : State) (u : UnitNo) (rest : List HostOp),
    (∀ d, s.drive u = some d → (s.phase = .idle ∨ s.selectedUnit ≠ u) →
      (s.hostOps = .insert u :: rest →
        ∃ t, step s = .next t ∧ t.drive u = some { d with attached := true } ∧ (∀ v, v ≠ u → t.drive v = s.drive v) ∧
          t = { s with slots := t.slots, hostOps := rest, reply := none }) ∧
      (s.hostOps = .eject u :: rest →
        ∃ t, step s = .next t ∧ t.drive u = some { d with attached := false } ∧ (∀ v, v ≠ u → t.drive v = s.drive v) ∧
          t = { s with
            slots := t.slots, events := s.events ++ [.call u .eject .nothing], hostOps := rest, reply := none })) ∧
    ((s.drive u = none ∨ s.phase ≠ .idle ∧ s.selectedUnit = u) →
      (s.hostOps = .insert u :: rest ∨ s.hostOps = .eject u :: rest) → step s = .refused .mediaSwap)

/-- The other host behaviour without a step (R49, R54, R152): a write to the STATUS selector and a nested call are refused
(decision D39). -/
def Obligations.ExcludedHostBehaviourIsRefused : Prop :=
  ∀ (s : State) (rest : List HostOp),
    (∀ b, s.hostOps = .writeStatus b :: rest → step s = .refused .statusWrite) ∧
    (∀ op, s.hostOps = .reenter op :: rest → step s = .refused .reentrantCall)

/-! ### Invariants and whole-machine rules -/

/-- The construction state (R42, R43, R181): Idle with MSR 0x80, every register, counter and buffer byte zero, no opcode, no
interrupt, an empty history, the configured drives with their motors off at cylinder 0. The source gives Idle and 0x80 alone;
the other values are the spec's decision D36. -/
def Obligations.ConstructionValues : Prop :=
  ∀ cfg : Vector (Option DriveConfig) 4, ∃ t, t = State.construct cfg ∧
    BackInIdle t ∧ t.mainStatus = 0x80 ∧ statusOf t = (0x00, 0x00, 0x00) ∧ t.status3 = 0x00 ∧ t.spec1 = 0x00 ∧ t.spec2 = 0x00 ∧
    (∀ a, t.cmdBuf.read a = 0x00 ∧ t.resBuf.read a = 0x00 ∧ t.execBuf.read a = 0x00) ∧ t.cmdPosition = 0 ∧
    t.resPosition = 0 ∧ t.execPosition = 0 ∧ t.selectedUnit = 0 ∧ t.selectedHead = 0 ∧ t.writeDeletedFlag = false ∧
    t.rotatingSectorIndex = 0 ∧ t.interruptState = .none ∧ t.ticksRemaining = 0 ∧ t.irqLine = false ∧ t.events = [] ∧
    (∀ u : UnitNo, t.drive u = cfg[u.toNat].map (fun c =>
      ⟨c.kind, c.headCount, c.cylinderCount, c.readOnly, false, 0, c.attached⟩))

/-- The construction state of every slot configuration meets the invariants (R42, R43, R181; the values are decision D36). -/
def Obligations.ConstructionMeetsInvariants : Prop :=
  ∀ cfg : Vector (Option DriveConfig) 4,
    (State.construct cfg).Inv ∧ (State.construct cfg).StatusInv ∧
    (State.construct cfg).irqLine = lastLevel (State.construct cfg).events

/-- Every step keeps the invariant of the controller (R16, R26 to R35, R98), from every state that meets it. -/
def Obligations.StepKeepsInvariant : Prop :=
  ∀ s t : State, s.Inv → step s = .next t → t.Inv

/-- Every step keeps the status bits that the block never sets clear, and the scan field out of its fourth value (R20 to R22,
R144; the positions are decision D4). -/
def Obligations.StepKeepsUnusedStatusBitsClear : Prop :=
  ∀ s t : State, s.StatusInv → step s = .next t → t.StatusInv

/-- The line is the level of the last notification (R35; decision D19): every step keeps it so. -/
def Obligations.LineIsLastNotification : Prop :=
  ∀ s t : State, s.irqLine = lastLevel s.events → step s = .next t → t.irqLine = lastLevel t.events

/-- A step performs exactly the first of the host's operations, and with none to come it waits (R6; how operations reach the
machine is the model's choice, log entry 1). The event history only grows (R39), and a backend is called only for a usable slot (R102; decision D22), but for the host's
own `eject` (R171). -/
def Obligations.HistoryGrowsByCallsOnUsableSlots : Prop :=
  ∀ s t : State, step s = .next t →
    t.hostOps = s.hostOps.tail ∧ (s.hostOps = [] → t = s) ∧
    ∃ new, t.events = s.events ++ new ∧
      ∀ u c a, .call u c a ∈ new → s.usable u = true ∨ c = .eject ∧ s.hostOps.head? = some (.eject u)

/-- The controller never faults, and refuses only what R152 lists (R101, R113, R152, R153, R171; decisions D38, D39; that the
check is made as an answer is used is log entry 11): a scripted answer outside the contract of the call that it answers, where
any answer within that contract, with nothing scripted after it, lets the step go on and is recorded; a media swap the rule
does not allow; a write to STATUS; a nested call. -/
def Obligations.ControllerNeverFaults : Prop :=
  ∀ s : State, s.Inv →
    let contract := fun (c : Call) (a : Answer) =>
      (∃ n e, c = .seekCylinder n ∧ a = .code e) ∨ (∃ h k e id, c = .readSectorId h k ∧ a = .header e id) ∨
      (∃ g e bytes, c = .readSector g ∧ a = .data e bytes ∧ bytes.length = g.len) ∨
      (∃ g bytes e, c = .writeSector g bytes ∧ a = .code e) ∨
      (∃ x y h k e bytes, c = .readTrack x y h k ∧ a = .data e bytes) ∨
      (∃ h sc bytes filler e, c = .formatTrack h sc bytes filler ∧ a = .code e) ∨
      (∃ b, c = .driveStatus ∧ a = .status b) ∨ (∃ r, c = .ready ∧ a = .isReady r) ∨ c = .eject ∧ a = .nothing
    (∀ r, step s ≠ .fault r) ∧
    (∀ r, step s = .refused r →
      r = .backendContract ∧ (∃ used a rest u c, s.answers = used ++ a :: rest ∧ ¬contract c a ∧
        ∀ a', contract c a' →
          ∃ t, step { s with answers := used ++ [a'] } = .next t ∧ .call u c a' ∈ t.events.drop s.events.length) ∨
      r = .mediaSwap ∧ (∃ u, (s.hostOps.head? = some (.insert u) ∨ s.hostOps.head? = some (.eject u)) ∧
        (s.drive u = none ∨ s.phase ≠ .idle ∧ s.selectedUnit = u)) ∨
      r = .statusWrite ∧ (∃ b, s.hostOps.head? = some (.writeStatus b)) ∨
      r = .reentrantCall ∧ (∃ op, s.hostOps.head? = some (.reenter op)))

/-- Phases follow each other in order (R76, R97): without a reset, Execution is not entered from Idle, it is left only to
Result, and Result is left only to Idle; and while a phase lasts, its buffer's position only rises and position plus length
stays (R29). -/
def Obligations.PhasesFollowInOrder : Prop :=
  ∀ s t : State, s.Inv → step s = .next t → (∀ rest, s.hostOps ≠ .reset :: rest) →
    (s.phase = .idle → t.phase ≠ .execution) ∧
    (s.phase = .execution → t.phase = .execution ∨ t.phase = .result) ∧
    (s.phase = .result → t.phase = .result ∨ t.phase = .idle) ∧
    (s.phase = .command → t.phase = .command →
      s.cmdPosition ≤ t.cmdPosition ∧ t.cmdPosition + t.cmdLength = s.cmdPosition + s.cmdLength) ∧
    (s.phase = .execution → t.phase = .execution →
      s.execPosition ≤ t.execPosition ∧ t.execPosition + t.execLength = s.execPosition + s.execLength) ∧
    (s.phase = .result → t.phase = .result →
      s.resPosition ≤ t.resPosition ∧ t.resPosition + t.resLength = s.resPosition + s.resLength)

/-- Nothing but the interrupt line depends on the countdown (R191): two states that differ only in ticks, line and `Irq` events
step to the same outcome, up to ticks, line and `Irq` events. -/
def Obligations.OutcomesDoNotDependOnTicks : Prop :=
  ∀ s s' : State, eraseTimer s = eraseTimer s' → erasedOutcome (step s) = erasedOutcome (step s')

/-! ### The formulas the statements above use -/

/-- `SectorLen(N, DTL)` (R68): DTL where N is 0, else 128 times 2 to the N, at most 8192. The override at N = 0 and the base 128
are general knowledge, the clamp is the spec's own (decision D10, log entry 14). -/
def Obligations.SectorLengthFormula : Prop :=
  (∀ dtl : Byte, sectorLen 0 dtl = dtl.toNat) ∧
  (∀ n dtl : Byte, n ≠ 0 → sectorLen n dtl = min (128 * 2 ^ n.toNat) 8192)

/-- What makes a slot usable, spinning and write-protected, in the fields of its Drive (R102, R103, R107, R109): it is usable
exactly if it holds a Drive of a kind other than none with a backend, spins exactly if it holds a running or a 5.25" drive, and
is write-protected exactly if it holds a read-only Drive. Decisions D22, D26 (log entry 14). -/
def Obligations.DriveConditions : Prop :=
  ∀ (s : State) (u : UnitNo),
    (s.usable u = true ↔ ∃ d, s.drive u = some d ∧ d.kind ≠ .none ∧ d.attached = true) ∧
    (s.spinning u = true ↔ ∃ d, s.drive u = some d ∧ (d.motorOn = true ∨ d.kind = .inch5quarter)) ∧
    (s.writeProtected u = true ↔ ∃ d, s.drive u = some d ∧ d.readOnly = true)

/-- The base status and the header of a seven-byte result (R40, R130, R131): the head in bit 2 and the unit in bits 1:0; the
command's own C, H, R, N for the commands that carry them; else the reported cylinder, the head, 0, and FORMAT TRACK's N or 0;
the reported cylinder is the Drive's, 0 for an unusable slot. Decisions D5, D31, D33 (log entry 14). -/
def Obligations.ResultFormulas : Prop :=
  (∀ (h : HeadNo) (u : UnitNo), selectionBits h u = BitVec.ofNat 8 (4 * h.toNat + u.toNat)) ∧
  ∀ s : State,
    (∀ i f uh id dtl deleted, readsSector i = some (f, uh, id, dtl, deleted) ∨ writesSector i = some (f, uh, id, dtl, deleted) →
      resultHeader i s = id) ∧
    (∀ f uh id eot gpl dtl, resultHeader (.readTrack f uh id eot gpl dtl) s = id) ∧
    (∀ f uh, resultHeader (.readId f uh) s =
      ⟨s.reportedCylinder s.selectedUnit, s.selectedHead.setWidth 8, 0x00, 0x00⟩) ∧
    (∀ f uh n sc gpl d, resultHeader (.formatTrack f uh n sc gpl d) s =
      ⟨s.reportedCylinder s.selectedUnit, s.selectedHead.setWidth 8, 0x00, n⟩) ∧
    (∀ u d, s.drive u = some d → s.usable u = true → s.reportedCylinder u = BitVec.ofNat 8 d.currentCylinder) ∧
    (∀ u, s.usable u = false → s.reportedCylinder u = 0x00)
end

