-- ==== Sys2Proof/Laws/Memory.lean ====
section
/-! SUPPORT. The laws of the buffers: a read after a write, a write leaves every other byte alone, and every buffer operation
keeps the canonical form. -/

namespace Sys2Proof.Machine

open Sys2Proof

theorem Memory.wfFrom_cons {lo cap a : Nat} {b : Byte} {rest : Memory} :
    Memory.wfFrom lo cap ((a, b) :: rest) = true ↔
      lo ≤ a ∧ a < cap ∧ b ≠ Memory.unlisted ∧ Memory.wfFrom (a + 1) cap rest = true := by
  simp [Memory.wfFrom, and_assoc]

theorem Memory.wfFrom_mono {lo lo' cap : Nat} {m : Memory} (h : lo' ≤ lo) (hm : Memory.wfFrom lo cap m = true) :
    Memory.wfFrom lo' cap m = true := by
  cases m with
  | nil => rfl
  | cons c rest =>
    obtain ⟨a, b⟩ := c
    rw [Memory.wfFrom_cons] at hm ⊢
    exact ⟨h.trans hm.1, hm.2⟩

theorem Memory.read_below {lo cap a : Nat} {m : Memory} (hm : Memory.wfFrom lo cap m = true) (h : a < lo) :
    m.read a = Memory.unlisted := by
  induction m generalizing lo with
  | nil => rfl
  | cons c rest ih =>
    obtain ⟨x, v⟩ := c
    rw [Memory.wfFrom_cons] at hm
    rw [Memory.read, if_neg (by omega)]
    exact ih hm.2.2.2 (by omega)

theorem Memory.read_beyond {lo cap a : Nat} {m : Memory} (hm : Memory.wfFrom lo cap m = true) (h : cap ≤ a) :
    m.read a = Memory.unlisted := by
  induction m generalizing lo with
  | nil => rfl
  | cons c rest ih =>
    obtain ⟨x, v⟩ := c
    rw [Memory.wfFrom_cons] at hm
    rw [Memory.read, if_neg (by omega)]
    exact ih hm.2.2.2

theorem Memory.read_cell_other {a a' : Nat} {b : Byte} {rest : Memory} (h : a' ≠ a) :
    (Memory.cell a b rest).read a' = rest.read a' := by
  unfold Memory.cell
  split
  · rfl
  · rw [Memory.read, if_neg (Ne.symm h)]

theorem Memory.read_cell_same {cap a : Nat} {b : Byte} {rest : Memory} (h : Memory.wfFrom (a + 1) cap rest = true) :
    (Memory.cell a b rest).read a = b := by
  unfold Memory.cell
  split
  · next hb => rw [hb]; exact Memory.read_below h (Nat.lt_succ_self a)
  · rw [Memory.read, if_pos rfl]

/-- A write leaves every other byte alone. -/
theorem Memory.read_write_other {a a' : Nat} {b : Byte} (m : Memory) (h : a' ≠ a) :
    (m.write a b).read a' = m.read a' := by
  induction m with
  | nil => exact Memory.read_cell_other h
  | cons c rest ih =>
    obtain ⟨x, v⟩ := c
    rw [Memory.write]
    split
    · exact Memory.read_cell_other h
    · split
      · next hx => rw [Memory.read_cell_other h, Memory.read, if_neg (by omega)]
      · rw [Memory.read, Memory.read, ih]

/-- A read after a write to the same place gives the value written. -/
theorem Memory.read_write_same {lo cap a : Nat} {b : Byte} {m : Memory} (hm : Memory.wfFrom lo cap m = true) :
    (m.write a b).read a = b := by
  induction m generalizing lo with
  | nil => exact Memory.read_cell_same (cap := a + 1) rfl
  | cons c rest ih =>
    obtain ⟨x, v⟩ := c
    have hc := Memory.wfFrom_cons.1 hm
    rw [Memory.write]
    split
    · next hx => exact Memory.read_cell_same (Memory.wfFrom_cons.2 ⟨by omega, hc.2⟩)
    · split
      · next hx => exact Memory.read_cell_same (hx ▸ hc.2.2.2)
      · rw [Memory.read, if_neg (by omega)]
        exact ih hc.2.2.2

theorem Memory.wfFrom_cell {lo cap a : Nat} {b : Byte} {rest : Memory} (hlo : lo ≤ a) (ha : a < cap)
    (h : Memory.wfFrom (a + 1) cap rest = true) : Memory.wfFrom lo cap (Memory.cell a b rest) = true := by
  unfold Memory.cell
  split
  · exact Memory.wfFrom_mono (by omega) h
  · next hb => exact Memory.wfFrom_cons.2 ⟨hlo, ha, hb, h⟩

theorem Memory.wfFrom_write {lo cap a : Nat} {b : Byte} {m : Memory} (hlo : lo ≤ a) (ha : a < cap)
    (hm : Memory.wfFrom lo cap m = true) : Memory.wfFrom lo cap (m.write a b) = true := by
  induction m generalizing lo with
  | nil => exact Memory.wfFrom_cell hlo ha rfl
  | cons c rest ih =>
    obtain ⟨x, v⟩ := c
    have hc := Memory.wfFrom_cons.1 hm
    rw [Memory.write]
    split
    · next hx => exact Memory.wfFrom_cell hlo ha (Memory.wfFrom_cons.2 ⟨by omega, hc.2⟩)
    · split
      · next hx => exact Memory.wfFrom_cell hlo ha (hx ▸ hc.2.2.2)
      · exact Memory.wfFrom_cons.2 ⟨hc.1, hc.2.1, hc.2.2.1, ih (by omega) hc.2.2.2⟩

/-- A write below the capacity keeps the canonical form. -/
theorem Memory.wf_write {cap a : Nat} {b : Byte} {m : Memory} (ha : a < cap) (hm : m.wf cap = true) :
    (m.write a b).wf cap = true :=
  Memory.wfFrom_write (Nat.zero_le a) ha hm

/-- Writing bytes below the capacity keeps the canonical form. -/
theorem Memory.wf_writeBytes {cap a : Nat} {m : Memory} (bytes : List Byte) (ha : a + bytes.length ≤ cap)
    (hm : m.wf cap = true) : (m.writeBytes a bytes).wf cap = true := by
  induction bytes generalizing m a with
  | nil => exact hm
  | cons b bytes ih =>
    simp only [List.length_cons] at ha
    exact ih (by omega) (Memory.wf_write (by omega) hm)

/-- Writing bytes leaves every byte outside them alone. -/
theorem Memory.read_writeBytes_outside {a a' : Nat} (bytes : List Byte) (m : Memory)
    (h : a' < a ∨ a + bytes.length ≤ a') : (m.writeBytes a bytes).read a' = m.read a' := by
  induction bytes generalizing m a with
  | nil => rfl
  | cons b bytes ih =>
    simp only [List.length_cons] at h
    rw [Memory.writeBytes, ih _ (by omega), Memory.read_write_other _ (by omega)]

/-- Byte k of the bytes written stands at their start plus k. -/
theorem Memory.read_writeBytes_inside {cap a k : Nat} (bytes : List Byte) {m : Memory} (hm : m.wf cap = true)
    (ha : a + bytes.length ≤ cap) (hk : k < bytes.length) : (m.writeBytes a bytes).read (a + k) = bytes[k] := by
  induction bytes generalizing m a k with
  | nil => simp at hk
  | cons b bytes ih =>
    simp only [List.length_cons] at ha hk
    rw [Memory.writeBytes]
    cases k with
    | zero =>
      rw [Memory.read_writeBytes_outside _ _ (by omega), Nat.add_zero, List.getElem_cons_zero]
      exact Memory.read_write_same hm
    | succ k =>
      have := ih (m := m.write a b) (a := a + 1) (k := k) (Memory.wf_write (by omega) hm) (by omega) (by omega)
      rw [List.getElem_cons_succ, ← this]
      congr 1
      omega

@[simp] theorem Memory.firstBytes_length (m : Memory) (n : Nat) : (m.firstBytes n).length = n := by
  simp [Memory.firstBytes]

@[simp] theorem Memory.firstBytes_getElem (m : Memory) (n k : Nat) (h : k < (m.firstBytes n).length) :
    (m.firstBytes n)[k] = m.read k := by
  simp [Memory.firstBytes]

/-- The bytes written from index 0 are the first bytes read. -/
theorem Memory.firstBytes_writeBytes {cap : Nat} (bytes : List Byte) {m : Memory} (hm : m.wf cap = true)
    (h : bytes.length ≤ cap) : (m.writeBytes 0 bytes).firstBytes bytes.length = bytes := by
  apply List.ext_getElem
  · simp
  · intro k h1 h2
    rw [Memory.firstBytes_getElem]
    have := Memory.read_writeBytes_inside (a := 0) bytes hm (by omega) h2
    simpa using this

end Sys2Proof.Machine
end

