-- ==== Sys2Proof/Laws/State.lean ====
section
/-! SUPPORT. The fields of the state after each named update: one lemma per field, so that no proof unfolds a record update. -/

namespace Sys2Proof.Machine

open Sys2Proof


/-! `record` -/

@[simp] theorem record_phase (e : Event) (s : State) : (record e s).phase = s.phase := (rfl)
@[simp] theorem record_status0 (e : Event) (s : State) : (record e s).status0 = s.status0 := (rfl)
@[simp] theorem record_status1 (e : Event) (s : State) : (record e s).status1 = s.status1 := (rfl)
@[simp] theorem record_status2 (e : Event) (s : State) : (record e s).status2 = s.status2 := (rfl)
@[simp] theorem record_status3 (e : Event) (s : State) : (record e s).status3 = s.status3 := (rfl)
@[simp] theorem record_spec1 (e : Event) (s : State) : (record e s).spec1 = s.spec1 := (rfl)
@[simp] theorem record_spec2 (e : Event) (s : State) : (record e s).spec2 = s.spec2 := (rfl)
@[simp] theorem record_cmdBuf (e : Event) (s : State) : (record e s).cmdBuf = s.cmdBuf := (rfl)
@[simp] theorem record_cmdLength (e : Event) (s : State) : (record e s).cmdLength = s.cmdLength := (rfl)
@[simp] theorem record_cmdPosition (e : Event) (s : State) : (record e s).cmdPosition = s.cmdPosition := (rfl)
@[simp] theorem record_resBuf (e : Event) (s : State) : (record e s).resBuf = s.resBuf := (rfl)
@[simp] theorem record_resLength (e : Event) (s : State) : (record e s).resLength = s.resLength := (rfl)
@[simp] theorem record_resPosition (e : Event) (s : State) : (record e s).resPosition = s.resPosition := (rfl)
@[simp] theorem record_execBuf (e : Event) (s : State) : (record e s).execBuf = s.execBuf := (rfl)
@[simp] theorem record_execLength (e : Event) (s : State) : (record e s).execLength = s.execLength := (rfl)
@[simp] theorem record_execPosition (e : Event) (s : State) : (record e s).execPosition = s.execPosition := (rfl)
@[simp] theorem record_selectedUnit (e : Event) (s : State) : (record e s).selectedUnit = s.selectedUnit := (rfl)
@[simp] theorem record_selectedHead (e : Event) (s : State) : (record e s).selectedHead = s.selectedHead := (rfl)
@[simp] theorem record_pendingOpcode (e : Event) (s : State) : (record e s).pendingOpcode = s.pendingOpcode := (rfl)
@[simp] theorem record_writeDeletedFlag (e : Event) (s : State) : (record e s).writeDeletedFlag = s.writeDeletedFlag := (rfl)
@[simp] theorem record_rotatingSectorIndex (e : Event) (s : State) : (record e s).rotatingSectorIndex = s.rotatingSectorIndex := (rfl)
@[simp] theorem record_interruptState (e : Event) (s : State) : (record e s).interruptState = s.interruptState := (rfl)
@[simp] theorem record_ticksRemaining (e : Event) (s : State) : (record e s).ticksRemaining = s.ticksRemaining := (rfl)
@[simp] theorem record_irqLine (e : Event) (s : State) : (record e s).irqLine = s.irqLine := (rfl)
@[simp] theorem record_slots (e : Event) (s : State) : (record e s).slots = s.slots := (rfl)
@[simp] theorem record_events (e : Event) (s : State) : (record e s).events = s.events ++ [e] := (rfl)
@[simp] theorem record_hostOps (e : Event) (s : State) : (record e s).hostOps = s.hostOps := (rfl)
@[simp] theorem record_answers (e : Event) (s : State) : (record e s).answers = s.answers := (rfl)
@[simp] theorem record_freeCalls (e : Event) (s : State) : (record e s).freeCalls = s.freeCalls := (rfl)
@[simp] theorem record_reply (e : Event) (s : State) : (record e s).reply = s.reply := (rfl)

/-! `notify` -/

@[simp] theorem notify_phase (l : Bool) (s : State) : (notify l s).phase = s.phase := (rfl)
@[simp] theorem notify_status0 (l : Bool) (s : State) : (notify l s).status0 = s.status0 := (rfl)
@[simp] theorem notify_status1 (l : Bool) (s : State) : (notify l s).status1 = s.status1 := (rfl)
@[simp] theorem notify_status2 (l : Bool) (s : State) : (notify l s).status2 = s.status2 := (rfl)
@[simp] theorem notify_status3 (l : Bool) (s : State) : (notify l s).status3 = s.status3 := (rfl)
@[simp] theorem notify_spec1 (l : Bool) (s : State) : (notify l s).spec1 = s.spec1 := (rfl)
@[simp] theorem notify_spec2 (l : Bool) (s : State) : (notify l s).spec2 = s.spec2 := (rfl)
@[simp] theorem notify_cmdBuf (l : Bool) (s : State) : (notify l s).cmdBuf = s.cmdBuf := (rfl)
@[simp] theorem notify_cmdLength (l : Bool) (s : State) : (notify l s).cmdLength = s.cmdLength := (rfl)
@[simp] theorem notify_cmdPosition (l : Bool) (s : State) : (notify l s).cmdPosition = s.cmdPosition := (rfl)
@[simp] theorem notify_resBuf (l : Bool) (s : State) : (notify l s).resBuf = s.resBuf := (rfl)
@[simp] theorem notify_resLength (l : Bool) (s : State) : (notify l s).resLength = s.resLength := (rfl)
@[simp] theorem notify_resPosition (l : Bool) (s : State) : (notify l s).resPosition = s.resPosition := (rfl)
@[simp] theorem notify_execBuf (l : Bool) (s : State) : (notify l s).execBuf = s.execBuf := (rfl)
@[simp] theorem notify_execLength (l : Bool) (s : State) : (notify l s).execLength = s.execLength := (rfl)
@[simp] theorem notify_execPosition (l : Bool) (s : State) : (notify l s).execPosition = s.execPosition := (rfl)
@[simp] theorem notify_selectedUnit (l : Bool) (s : State) : (notify l s).selectedUnit = s.selectedUnit := (rfl)
@[simp] theorem notify_selectedHead (l : Bool) (s : State) : (notify l s).selectedHead = s.selectedHead := (rfl)
@[simp] theorem notify_pendingOpcode (l : Bool) (s : State) : (notify l s).pendingOpcode = s.pendingOpcode := (rfl)
@[simp] theorem notify_writeDeletedFlag (l : Bool) (s : State) : (notify l s).writeDeletedFlag = s.writeDeletedFlag := (rfl)
@[simp] theorem notify_rotatingSectorIndex (l : Bool) (s : State) : (notify l s).rotatingSectorIndex = s.rotatingSectorIndex := (rfl)
@[simp] theorem notify_interruptState (l : Bool) (s : State) : (notify l s).interruptState = s.interruptState := (rfl)
@[simp] theorem notify_ticksRemaining (l : Bool) (s : State) : (notify l s).ticksRemaining = s.ticksRemaining := (rfl)
@[simp] theorem notify_irqLine (l : Bool) (s : State) : (notify l s).irqLine = s.irqLine := (rfl)
@[simp] theorem notify_slots (l : Bool) (s : State) : (notify l s).slots = s.slots := (rfl)
@[simp] theorem notify_events (l : Bool) (s : State) : (notify l s).events = s.events ++ [.irq l] := (rfl)
@[simp] theorem notify_hostOps (l : Bool) (s : State) : (notify l s).hostOps = s.hostOps := (rfl)
@[simp] theorem notify_answers (l : Bool) (s : State) : (notify l s).answers = s.answers := (rfl)
@[simp] theorem notify_freeCalls (l : Bool) (s : State) : (notify l s).freeCalls = s.freeCalls := (rfl)
@[simp] theorem notify_reply (l : Bool) (s : State) : (notify l s).reply = s.reply := (rfl)

/-! `armSeekEnd` -/

@[simp] theorem armSeekEnd_phase (s : State) : (armSeekEnd s).phase = s.phase := (rfl)
@[simp] theorem armSeekEnd_status0 (s : State) : (armSeekEnd s).status0 = s.status0 := (rfl)
@[simp] theorem armSeekEnd_status1 (s : State) : (armSeekEnd s).status1 = s.status1 := (rfl)
@[simp] theorem armSeekEnd_status2 (s : State) : (armSeekEnd s).status2 = s.status2 := (rfl)
@[simp] theorem armSeekEnd_status3 (s : State) : (armSeekEnd s).status3 = s.status3 := (rfl)
@[simp] theorem armSeekEnd_spec1 (s : State) : (armSeekEnd s).spec1 = s.spec1 := (rfl)
@[simp] theorem armSeekEnd_spec2 (s : State) : (armSeekEnd s).spec2 = s.spec2 := (rfl)
@[simp] theorem armSeekEnd_cmdBuf (s : State) : (armSeekEnd s).cmdBuf = s.cmdBuf := (rfl)
@[simp] theorem armSeekEnd_cmdLength (s : State) : (armSeekEnd s).cmdLength = s.cmdLength := (rfl)
@[simp] theorem armSeekEnd_cmdPosition (s : State) : (armSeekEnd s).cmdPosition = s.cmdPosition := (rfl)
@[simp] theorem armSeekEnd_resBuf (s : State) : (armSeekEnd s).resBuf = s.resBuf := (rfl)
@[simp] theorem armSeekEnd_resLength (s : State) : (armSeekEnd s).resLength = s.resLength := (rfl)
@[simp] theorem armSeekEnd_resPosition (s : State) : (armSeekEnd s).resPosition = s.resPosition := (rfl)
@[simp] theorem armSeekEnd_execBuf (s : State) : (armSeekEnd s).execBuf = s.execBuf := (rfl)
@[simp] theorem armSeekEnd_execLength (s : State) : (armSeekEnd s).execLength = s.execLength := (rfl)
@[simp] theorem armSeekEnd_execPosition (s : State) : (armSeekEnd s).execPosition = s.execPosition := (rfl)
@[simp] theorem armSeekEnd_selectedUnit (s : State) : (armSeekEnd s).selectedUnit = s.selectedUnit := (rfl)
@[simp] theorem armSeekEnd_selectedHead (s : State) : (armSeekEnd s).selectedHead = s.selectedHead := (rfl)
@[simp] theorem armSeekEnd_pendingOpcode (s : State) : (armSeekEnd s).pendingOpcode = s.pendingOpcode := (rfl)
@[simp] theorem armSeekEnd_writeDeletedFlag (s : State) : (armSeekEnd s).writeDeletedFlag = s.writeDeletedFlag := (rfl)
@[simp] theorem armSeekEnd_rotatingSectorIndex (s : State) : (armSeekEnd s).rotatingSectorIndex = s.rotatingSectorIndex := (rfl)
@[simp] theorem armSeekEnd_interruptState (s : State) : (armSeekEnd s).interruptState = .seekEnd := (rfl)
@[simp] theorem armSeekEnd_ticksRemaining (s : State) : (armSeekEnd s).ticksRemaining = Config.shortDelay := (rfl)
@[simp] theorem armSeekEnd_irqLine (s : State) : (armSeekEnd s).irqLine = s.irqLine := (rfl)
@[simp] theorem armSeekEnd_slots (s : State) : (armSeekEnd s).slots = s.slots := (rfl)
@[simp] theorem armSeekEnd_events (s : State) : (armSeekEnd s).events = s.events := (rfl)
@[simp] theorem armSeekEnd_hostOps (s : State) : (armSeekEnd s).hostOps = s.hostOps := (rfl)
@[simp] theorem armSeekEnd_answers (s : State) : (armSeekEnd s).answers = s.answers := (rfl)
@[simp] theorem armSeekEnd_freeCalls (s : State) : (armSeekEnd s).freeCalls = s.freeCalls := (rfl)
@[simp] theorem armSeekEnd_reply (s : State) : (armSeekEnd s).reply = s.reply := (rfl)

/-! `openResult` -/

@[simp] theorem openResult_phase (bs : List Byte) (s : State) : (openResult bs s).phase = .result := (rfl)
@[simp] theorem openResult_status0 (bs : List Byte) (s : State) : (openResult bs s).status0 = s.status0 := (rfl)
@[simp] theorem openResult_status1 (bs : List Byte) (s : State) : (openResult bs s).status1 = s.status1 := (rfl)
@[simp] theorem openResult_status2 (bs : List Byte) (s : State) : (openResult bs s).status2 = s.status2 := (rfl)
@[simp] theorem openResult_status3 (bs : List Byte) (s : State) : (openResult bs s).status3 = s.status3 := (rfl)
@[simp] theorem openResult_spec1 (bs : List Byte) (s : State) : (openResult bs s).spec1 = s.spec1 := (rfl)
@[simp] theorem openResult_spec2 (bs : List Byte) (s : State) : (openResult bs s).spec2 = s.spec2 := (rfl)
@[simp] theorem openResult_cmdBuf (bs : List Byte) (s : State) : (openResult bs s).cmdBuf = s.cmdBuf := (rfl)
@[simp] theorem openResult_cmdLength (bs : List Byte) (s : State) : (openResult bs s).cmdLength = 0 := (rfl)
@[simp] theorem openResult_cmdPosition (bs : List Byte) (s : State) : (openResult bs s).cmdPosition = s.cmdPosition := (rfl)
@[simp] theorem openResult_resBuf (bs : List Byte) (s : State) : (openResult bs s).resBuf = s.resBuf.writeBytes 0 bs := (rfl)
@[simp] theorem openResult_resLength (bs : List Byte) (s : State) : (openResult bs s).resLength = bs.length := (rfl)
@[simp] theorem openResult_resPosition (bs : List Byte) (s : State) : (openResult bs s).resPosition = 0 := (rfl)
@[simp] theorem openResult_execBuf (bs : List Byte) (s : State) : (openResult bs s).execBuf = s.execBuf := (rfl)
@[simp] theorem openResult_execLength (bs : List Byte) (s : State) : (openResult bs s).execLength = 0 := (rfl)
@[simp] theorem openResult_execPosition (bs : List Byte) (s : State) : (openResult bs s).execPosition = s.execPosition := (rfl)
@[simp] theorem openResult_selectedUnit (bs : List Byte) (s : State) : (openResult bs s).selectedUnit = s.selectedUnit := (rfl)
@[simp] theorem openResult_selectedHead (bs : List Byte) (s : State) : (openResult bs s).selectedHead = s.selectedHead := (rfl)
@[simp] theorem openResult_pendingOpcode (bs : List Byte) (s : State) : (openResult bs s).pendingOpcode = s.pendingOpcode := (rfl)
@[simp] theorem openResult_writeDeletedFlag (bs : List Byte) (s : State) : (openResult bs s).writeDeletedFlag = s.writeDeletedFlag := (rfl)
@[simp] theorem openResult_rotatingSectorIndex (bs : List Byte) (s : State) : (openResult bs s).rotatingSectorIndex = s.rotatingSectorIndex := (rfl)
@[simp] theorem openResult_interruptState (bs : List Byte) (s : State) : (openResult bs s).interruptState = s.interruptState := (rfl)
@[simp] theorem openResult_ticksRemaining (bs : List Byte) (s : State) : (openResult bs s).ticksRemaining = s.ticksRemaining := (rfl)
@[simp] theorem openResult_irqLine (bs : List Byte) (s : State) : (openResult bs s).irqLine = s.irqLine := (rfl)
@[simp] theorem openResult_slots (bs : List Byte) (s : State) : (openResult bs s).slots = s.slots := (rfl)
@[simp] theorem openResult_events (bs : List Byte) (s : State) : (openResult bs s).events = s.events := (rfl)
@[simp] theorem openResult_hostOps (bs : List Byte) (s : State) : (openResult bs s).hostOps = s.hostOps := (rfl)
@[simp] theorem openResult_answers (bs : List Byte) (s : State) : (openResult bs s).answers = s.answers := (rfl)
@[simp] theorem openResult_freeCalls (bs : List Byte) (s : State) : (openResult bs s).freeCalls = s.freeCalls := (rfl)
@[simp] theorem openResult_reply (bs : List Byte) (s : State) : (openResult bs s).reply = s.reply := (rfl)

/-! `endCommand` -/

@[simp] theorem endCommand_phase (s : State) : (endCommand s).phase = .idle := (rfl)
@[simp] theorem endCommand_status0 (s : State) : (endCommand s).status0 = s.status0 := (rfl)
@[simp] theorem endCommand_status1 (s : State) : (endCommand s).status1 = s.status1 := (rfl)
@[simp] theorem endCommand_status2 (s : State) : (endCommand s).status2 = s.status2 := (rfl)
@[simp] theorem endCommand_status3 (s : State) : (endCommand s).status3 = s.status3 := (rfl)
@[simp] theorem endCommand_spec1 (s : State) : (endCommand s).spec1 = s.spec1 := (rfl)
@[simp] theorem endCommand_spec2 (s : State) : (endCommand s).spec2 = s.spec2 := (rfl)
@[simp] theorem endCommand_cmdBuf (s : State) : (endCommand s).cmdBuf = s.cmdBuf := (rfl)
@[simp] theorem endCommand_cmdLength (s : State) : (endCommand s).cmdLength = 0 := (rfl)
@[simp] theorem endCommand_cmdPosition (s : State) : (endCommand s).cmdPosition = s.cmdPosition := (rfl)
@[simp] theorem endCommand_resBuf (s : State) : (endCommand s).resBuf = s.resBuf := (rfl)
@[simp] theorem endCommand_resLength (s : State) : (endCommand s).resLength = 0 := (rfl)
@[simp] theorem endCommand_resPosition (s : State) : (endCommand s).resPosition = s.resPosition := (rfl)
@[simp] theorem endCommand_execBuf (s : State) : (endCommand s).execBuf = s.execBuf := (rfl)
@[simp] theorem endCommand_execLength (s : State) : (endCommand s).execLength = 0 := (rfl)
@[simp] theorem endCommand_execPosition (s : State) : (endCommand s).execPosition = s.execPosition := (rfl)
@[simp] theorem endCommand_selectedUnit (s : State) : (endCommand s).selectedUnit = s.selectedUnit := (rfl)
@[simp] theorem endCommand_selectedHead (s : State) : (endCommand s).selectedHead = s.selectedHead := (rfl)
@[simp] theorem endCommand_pendingOpcode (s : State) : (endCommand s).pendingOpcode = none := (rfl)
@[simp] theorem endCommand_writeDeletedFlag (s : State) : (endCommand s).writeDeletedFlag = s.writeDeletedFlag := (rfl)
@[simp] theorem endCommand_rotatingSectorIndex (s : State) : (endCommand s).rotatingSectorIndex = s.rotatingSectorIndex := (rfl)
@[simp] theorem endCommand_interruptState (s : State) : (endCommand s).interruptState = s.interruptState := (rfl)
@[simp] theorem endCommand_ticksRemaining (s : State) : (endCommand s).ticksRemaining = s.ticksRemaining := (rfl)
@[simp] theorem endCommand_irqLine (s : State) : (endCommand s).irqLine = s.irqLine := (rfl)
@[simp] theorem endCommand_slots (s : State) : (endCommand s).slots = s.slots := (rfl)
@[simp] theorem endCommand_events (s : State) : (endCommand s).events = s.events := (rfl)
@[simp] theorem endCommand_hostOps (s : State) : (endCommand s).hostOps = s.hostOps := (rfl)
@[simp] theorem endCommand_answers (s : State) : (endCommand s).answers = s.answers := (rfl)
@[simp] theorem endCommand_freeCalls (s : State) : (endCommand s).freeCalls = s.freeCalls := (rfl)
@[simp] theorem endCommand_reply (s : State) : (endCommand s).reply = s.reply := (rfl)

/-! `beginExecution` -/

@[simp] theorem beginExecution_phase (n : Nat) (s : State) : (beginExecution n s).phase = .execution := (rfl)
@[simp] theorem beginExecution_status0 (n : Nat) (s : State) : (beginExecution n s).status0 = s.status0 := (rfl)
@[simp] theorem beginExecution_status1 (n : Nat) (s : State) : (beginExecution n s).status1 = s.status1 := (rfl)
@[simp] theorem beginExecution_status2 (n : Nat) (s : State) : (beginExecution n s).status2 = s.status2 := (rfl)
@[simp] theorem beginExecution_status3 (n : Nat) (s : State) : (beginExecution n s).status3 = s.status3 := (rfl)
@[simp] theorem beginExecution_spec1 (n : Nat) (s : State) : (beginExecution n s).spec1 = s.spec1 := (rfl)
@[simp] theorem beginExecution_spec2 (n : Nat) (s : State) : (beginExecution n s).spec2 = s.spec2 := (rfl)
@[simp] theorem beginExecution_cmdBuf (n : Nat) (s : State) : (beginExecution n s).cmdBuf = s.cmdBuf := (rfl)
@[simp] theorem beginExecution_cmdLength (n : Nat) (s : State) : (beginExecution n s).cmdLength = 0 := (rfl)
@[simp] theorem beginExecution_cmdPosition (n : Nat) (s : State) : (beginExecution n s).cmdPosition = s.cmdPosition := (rfl)
@[simp] theorem beginExecution_resBuf (n : Nat) (s : State) : (beginExecution n s).resBuf = s.resBuf := (rfl)
@[simp] theorem beginExecution_resLength (n : Nat) (s : State) : (beginExecution n s).resLength = s.resLength := (rfl)
@[simp] theorem beginExecution_resPosition (n : Nat) (s : State) : (beginExecution n s).resPosition = s.resPosition := (rfl)
@[simp] theorem beginExecution_execBuf (n : Nat) (s : State) : (beginExecution n s).execBuf = s.execBuf := (rfl)
@[simp] theorem beginExecution_execLength (n : Nat) (s : State) : (beginExecution n s).execLength = n := (rfl)
@[simp] theorem beginExecution_execPosition (n : Nat) (s : State) : (beginExecution n s).execPosition = 0 := (rfl)
@[simp] theorem beginExecution_selectedUnit (n : Nat) (s : State) : (beginExecution n s).selectedUnit = s.selectedUnit := (rfl)
@[simp] theorem beginExecution_selectedHead (n : Nat) (s : State) : (beginExecution n s).selectedHead = s.selectedHead := (rfl)
@[simp] theorem beginExecution_pendingOpcode (n : Nat) (s : State) : (beginExecution n s).pendingOpcode = s.pendingOpcode := (rfl)
@[simp] theorem beginExecution_writeDeletedFlag (n : Nat) (s : State) : (beginExecution n s).writeDeletedFlag = s.writeDeletedFlag := (rfl)
@[simp] theorem beginExecution_rotatingSectorIndex (n : Nat) (s : State) : (beginExecution n s).rotatingSectorIndex = s.rotatingSectorIndex := (rfl)
@[simp] theorem beginExecution_interruptState (n : Nat) (s : State) : (beginExecution n s).interruptState = s.interruptState := (rfl)
@[simp] theorem beginExecution_ticksRemaining (n : Nat) (s : State) : (beginExecution n s).ticksRemaining = s.ticksRemaining := (rfl)
@[simp] theorem beginExecution_irqLine (n : Nat) (s : State) : (beginExecution n s).irqLine = s.irqLine := (rfl)
@[simp] theorem beginExecution_slots (n : Nat) (s : State) : (beginExecution n s).slots = s.slots := (rfl)
@[simp] theorem beginExecution_events (n : Nat) (s : State) : (beginExecution n s).events = s.events := (rfl)
@[simp] theorem beginExecution_hostOps (n : Nat) (s : State) : (beginExecution n s).hostOps = s.hostOps := (rfl)
@[simp] theorem beginExecution_answers (n : Nat) (s : State) : (beginExecution n s).answers = s.answers := (rfl)
@[simp] theorem beginExecution_freeCalls (n : Nat) (s : State) : (beginExecution n s).freeCalls = s.freeCalls := (rfl)
@[simp] theorem beginExecution_reply (n : Nat) (s : State) : (beginExecution n s).reply = s.reply := (rfl)

/-! `restartRotation` -/

@[simp] theorem restartRotation_phase (s : State) : (restartRotation s).phase = s.phase := (rfl)
@[simp] theorem restartRotation_status0 (s : State) : (restartRotation s).status0 = s.status0 := (rfl)
@[simp] theorem restartRotation_status1 (s : State) : (restartRotation s).status1 = s.status1 := (rfl)
@[simp] theorem restartRotation_status2 (s : State) : (restartRotation s).status2 = s.status2 := (rfl)
@[simp] theorem restartRotation_status3 (s : State) : (restartRotation s).status3 = s.status3 := (rfl)
@[simp] theorem restartRotation_spec1 (s : State) : (restartRotation s).spec1 = s.spec1 := (rfl)
@[simp] theorem restartRotation_spec2 (s : State) : (restartRotation s).spec2 = s.spec2 := (rfl)
@[simp] theorem restartRotation_cmdBuf (s : State) : (restartRotation s).cmdBuf = s.cmdBuf := (rfl)
@[simp] theorem restartRotation_cmdLength (s : State) : (restartRotation s).cmdLength = s.cmdLength := (rfl)
@[simp] theorem restartRotation_cmdPosition (s : State) : (restartRotation s).cmdPosition = s.cmdPosition := (rfl)
@[simp] theorem restartRotation_resBuf (s : State) : (restartRotation s).resBuf = s.resBuf := (rfl)
@[simp] theorem restartRotation_resLength (s : State) : (restartRotation s).resLength = s.resLength := (rfl)
@[simp] theorem restartRotation_resPosition (s : State) : (restartRotation s).resPosition = s.resPosition := (rfl)
@[simp] theorem restartRotation_execBuf (s : State) : (restartRotation s).execBuf = s.execBuf := (rfl)
@[simp] theorem restartRotation_execLength (s : State) : (restartRotation s).execLength = s.execLength := (rfl)
@[simp] theorem restartRotation_execPosition (s : State) : (restartRotation s).execPosition = s.execPosition := (rfl)
@[simp] theorem restartRotation_selectedUnit (s : State) : (restartRotation s).selectedUnit = s.selectedUnit := (rfl)
@[simp] theorem restartRotation_selectedHead (s : State) : (restartRotation s).selectedHead = s.selectedHead := (rfl)
@[simp] theorem restartRotation_pendingOpcode (s : State) : (restartRotation s).pendingOpcode = s.pendingOpcode := (rfl)
@[simp] theorem restartRotation_writeDeletedFlag (s : State) : (restartRotation s).writeDeletedFlag = s.writeDeletedFlag := (rfl)
@[simp] theorem restartRotation_rotatingSectorIndex (s : State) : (restartRotation s).rotatingSectorIndex = 0 := (rfl)
@[simp] theorem restartRotation_interruptState (s : State) : (restartRotation s).interruptState = s.interruptState := (rfl)
@[simp] theorem restartRotation_ticksRemaining (s : State) : (restartRotation s).ticksRemaining = s.ticksRemaining := (rfl)
@[simp] theorem restartRotation_irqLine (s : State) : (restartRotation s).irqLine = s.irqLine := (rfl)
@[simp] theorem restartRotation_slots (s : State) : (restartRotation s).slots = s.slots := (rfl)
@[simp] theorem restartRotation_events (s : State) : (restartRotation s).events = s.events := (rfl)
@[simp] theorem restartRotation_hostOps (s : State) : (restartRotation s).hostOps = s.hostOps := (rfl)
@[simp] theorem restartRotation_answers (s : State) : (restartRotation s).answers = s.answers := (rfl)
@[simp] theorem restartRotation_freeCalls (s : State) : (restartRotation s).freeCalls = s.freeCalls := (rfl)
@[simp] theorem restartRotation_reply (s : State) : (restartRotation s).reply = s.reply := (rfl)

/-! `select` -/

@[simp] theorem select_phase (uh : UnitHead) (s : State) : (select uh s).phase = s.phase := (rfl)
@[simp] theorem select_status0 (uh : UnitHead) (s : State) : (select uh s).status0 = s.status0 := (rfl)
@[simp] theorem select_status1 (uh : UnitHead) (s : State) : (select uh s).status1 = s.status1 := (rfl)
@[simp] theorem select_status2 (uh : UnitHead) (s : State) : (select uh s).status2 = s.status2 := (rfl)
@[simp] theorem select_status3 (uh : UnitHead) (s : State) : (select uh s).status3 = s.status3 := (rfl)
@[simp] theorem select_spec1 (uh : UnitHead) (s : State) : (select uh s).spec1 = s.spec1 := (rfl)
@[simp] theorem select_spec2 (uh : UnitHead) (s : State) : (select uh s).spec2 = s.spec2 := (rfl)
@[simp] theorem select_cmdBuf (uh : UnitHead) (s : State) : (select uh s).cmdBuf = s.cmdBuf := (rfl)
@[simp] theorem select_cmdLength (uh : UnitHead) (s : State) : (select uh s).cmdLength = s.cmdLength := (rfl)
@[simp] theorem select_cmdPosition (uh : UnitHead) (s : State) : (select uh s).cmdPosition = s.cmdPosition := (rfl)
@[simp] theorem select_resBuf (uh : UnitHead) (s : State) : (select uh s).resBuf = s.resBuf := (rfl)
@[simp] theorem select_resLength (uh : UnitHead) (s : State) : (select uh s).resLength = s.resLength := (rfl)
@[simp] theorem select_resPosition (uh : UnitHead) (s : State) : (select uh s).resPosition = s.resPosition := (rfl)
@[simp] theorem select_execBuf (uh : UnitHead) (s : State) : (select uh s).execBuf = s.execBuf := (rfl)
@[simp] theorem select_execLength (uh : UnitHead) (s : State) : (select uh s).execLength = s.execLength := (rfl)
@[simp] theorem select_execPosition (uh : UnitHead) (s : State) : (select uh s).execPosition = s.execPosition := (rfl)
@[simp] theorem select_selectedUnit (uh : UnitHead) (s : State) : (select uh s).selectedUnit = uh.us := (rfl)
@[simp] theorem select_selectedHead (uh : UnitHead) (s : State) : (select uh s).selectedHead = uh.hd := (rfl)
@[simp] theorem select_pendingOpcode (uh : UnitHead) (s : State) : (select uh s).pendingOpcode = s.pendingOpcode := (rfl)
@[simp] theorem select_writeDeletedFlag (uh : UnitHead) (s : State) : (select uh s).writeDeletedFlag = s.writeDeletedFlag := (rfl)
@[simp] theorem select_rotatingSectorIndex (uh : UnitHead) (s : State) : (select uh s).rotatingSectorIndex = s.rotatingSectorIndex := (rfl)
@[simp] theorem select_interruptState (uh : UnitHead) (s : State) : (select uh s).interruptState = s.interruptState := (rfl)
@[simp] theorem select_ticksRemaining (uh : UnitHead) (s : State) : (select uh s).ticksRemaining = s.ticksRemaining := (rfl)
@[simp] theorem select_irqLine (uh : UnitHead) (s : State) : (select uh s).irqLine = s.irqLine := (rfl)
@[simp] theorem select_slots (uh : UnitHead) (s : State) : (select uh s).slots = s.slots := (rfl)
@[simp] theorem select_events (uh : UnitHead) (s : State) : (select uh s).events = s.events := (rfl)
@[simp] theorem select_hostOps (uh : UnitHead) (s : State) : (select uh s).hostOps = s.hostOps := (rfl)
@[simp] theorem select_answers (uh : UnitHead) (s : State) : (select uh s).answers = s.answers := (rfl)
@[simp] theorem select_freeCalls (uh : UnitHead) (s : State) : (select uh s).freeCalls = s.freeCalls := (rfl)
@[simp] theorem select_reply (uh : UnitHead) (s : State) : (select uh s).reply = s.reply := (rfl)

/-! `fillExec` -/

@[simp] theorem fillExec_phase (bs : List Byte) (s : State) : (fillExec bs s).phase = s.phase := (rfl)
@[simp] theorem fillExec_status0 (bs : List Byte) (s : State) : (fillExec bs s).status0 = s.status0 := (rfl)
@[simp] theorem fillExec_status1 (bs : List Byte) (s : State) : (fillExec bs s).status1 = s.status1 := (rfl)
@[simp] theorem fillExec_status2 (bs : List Byte) (s : State) : (fillExec bs s).status2 = s.status2 := (rfl)
@[simp] theorem fillExec_status3 (bs : List Byte) (s : State) : (fillExec bs s).status3 = s.status3 := (rfl)
@[simp] theorem fillExec_spec1 (bs : List Byte) (s : State) : (fillExec bs s).spec1 = s.spec1 := (rfl)
@[simp] theorem fillExec_spec2 (bs : List Byte) (s : State) : (fillExec bs s).spec2 = s.spec2 := (rfl)
@[simp] theorem fillExec_cmdBuf (bs : List Byte) (s : State) : (fillExec bs s).cmdBuf = s.cmdBuf := (rfl)
@[simp] theorem fillExec_cmdLength (bs : List Byte) (s : State) : (fillExec bs s).cmdLength = s.cmdLength := (rfl)
@[simp] theorem fillExec_cmdPosition (bs : List Byte) (s : State) : (fillExec bs s).cmdPosition = s.cmdPosition := (rfl)
@[simp] theorem fillExec_resBuf (bs : List Byte) (s : State) : (fillExec bs s).resBuf = s.resBuf := (rfl)
@[simp] theorem fillExec_resLength (bs : List Byte) (s : State) : (fillExec bs s).resLength = s.resLength := (rfl)
@[simp] theorem fillExec_resPosition (bs : List Byte) (s : State) : (fillExec bs s).resPosition = s.resPosition := (rfl)
@[simp] theorem fillExec_execBuf (bs : List Byte) (s : State) : (fillExec bs s).execBuf = s.execBuf.writeBytes 0 bs := (rfl)
@[simp] theorem fillExec_execLength (bs : List Byte) (s : State) : (fillExec bs s).execLength = s.execLength := (rfl)
@[simp] theorem fillExec_execPosition (bs : List Byte) (s : State) : (fillExec bs s).execPosition = s.execPosition := (rfl)
@[simp] theorem fillExec_selectedUnit (bs : List Byte) (s : State) : (fillExec bs s).selectedUnit = s.selectedUnit := (rfl)
@[simp] theorem fillExec_selectedHead (bs : List Byte) (s : State) : (fillExec bs s).selectedHead = s.selectedHead := (rfl)
@[simp] theorem fillExec_pendingOpcode (bs : List Byte) (s : State) : (fillExec bs s).pendingOpcode = s.pendingOpcode := (rfl)
@[simp] theorem fillExec_writeDeletedFlag (bs : List Byte) (s : State) : (fillExec bs s).writeDeletedFlag = s.writeDeletedFlag := (rfl)
@[simp] theorem fillExec_rotatingSectorIndex (bs : List Byte) (s : State) : (fillExec bs s).rotatingSectorIndex = s.rotatingSectorIndex := (rfl)
@[simp] theorem fillExec_interruptState (bs : List Byte) (s : State) : (fillExec bs s).interruptState = s.interruptState := (rfl)
@[simp] theorem fillExec_ticksRemaining (bs : List Byte) (s : State) : (fillExec bs s).ticksRemaining = s.ticksRemaining := (rfl)
@[simp] theorem fillExec_irqLine (bs : List Byte) (s : State) : (fillExec bs s).irqLine = s.irqLine := (rfl)
@[simp] theorem fillExec_slots (bs : List Byte) (s : State) : (fillExec bs s).slots = s.slots := (rfl)
@[simp] theorem fillExec_events (bs : List Byte) (s : State) : (fillExec bs s).events = s.events := (rfl)
@[simp] theorem fillExec_hostOps (bs : List Byte) (s : State) : (fillExec bs s).hostOps = s.hostOps := (rfl)
@[simp] theorem fillExec_answers (bs : List Byte) (s : State) : (fillExec bs s).answers = s.answers := (rfl)
@[simp] theorem fillExec_freeCalls (bs : List Byte) (s : State) : (fillExec bs s).freeCalls = s.freeCalls := (rfl)
@[simp] theorem fillExec_reply (bs : List Byte) (s : State) : (fillExec bs s).reply = s.reply := (rfl)

/-! `deliver` -/

@[simp] theorem deliver_phase (v : Byte) (s : State) : (deliver v s).phase = s.phase := (rfl)
@[simp] theorem deliver_status0 (v : Byte) (s : State) : (deliver v s).status0 = s.status0 := (rfl)
@[simp] theorem deliver_status1 (v : Byte) (s : State) : (deliver v s).status1 = s.status1 := (rfl)
@[simp] theorem deliver_status2 (v : Byte) (s : State) : (deliver v s).status2 = s.status2 := (rfl)
@[simp] theorem deliver_status3 (v : Byte) (s : State) : (deliver v s).status3 = s.status3 := (rfl)
@[simp] theorem deliver_spec1 (v : Byte) (s : State) : (deliver v s).spec1 = s.spec1 := (rfl)
@[simp] theorem deliver_spec2 (v : Byte) (s : State) : (deliver v s).spec2 = s.spec2 := (rfl)
@[simp] theorem deliver_cmdBuf (v : Byte) (s : State) : (deliver v s).cmdBuf = s.cmdBuf := (rfl)
@[simp] theorem deliver_cmdLength (v : Byte) (s : State) : (deliver v s).cmdLength = s.cmdLength := (rfl)
@[simp] theorem deliver_cmdPosition (v : Byte) (s : State) : (deliver v s).cmdPosition = s.cmdPosition := (rfl)
@[simp] theorem deliver_resBuf (v : Byte) (s : State) : (deliver v s).resBuf = s.resBuf := (rfl)
@[simp] theorem deliver_resLength (v : Byte) (s : State) : (deliver v s).resLength = s.resLength := (rfl)
@[simp] theorem deliver_resPosition (v : Byte) (s : State) : (deliver v s).resPosition = s.resPosition := (rfl)
@[simp] theorem deliver_execBuf (v : Byte) (s : State) : (deliver v s).execBuf = s.execBuf := (rfl)
@[simp] theorem deliver_execLength (v : Byte) (s : State) : (deliver v s).execLength = s.execLength := (rfl)
@[simp] theorem deliver_execPosition (v : Byte) (s : State) : (deliver v s).execPosition = s.execPosition := (rfl)
@[simp] theorem deliver_selectedUnit (v : Byte) (s : State) : (deliver v s).selectedUnit = s.selectedUnit := (rfl)
@[simp] theorem deliver_selectedHead (v : Byte) (s : State) : (deliver v s).selectedHead = s.selectedHead := (rfl)
@[simp] theorem deliver_pendingOpcode (v : Byte) (s : State) : (deliver v s).pendingOpcode = s.pendingOpcode := (rfl)
@[simp] theorem deliver_writeDeletedFlag (v : Byte) (s : State) : (deliver v s).writeDeletedFlag = s.writeDeletedFlag := (rfl)
@[simp] theorem deliver_rotatingSectorIndex (v : Byte) (s : State) : (deliver v s).rotatingSectorIndex = s.rotatingSectorIndex := (rfl)
@[simp] theorem deliver_interruptState (v : Byte) (s : State) : (deliver v s).interruptState = s.interruptState := (rfl)
@[simp] theorem deliver_ticksRemaining (v : Byte) (s : State) : (deliver v s).ticksRemaining = s.ticksRemaining := (rfl)
@[simp] theorem deliver_irqLine (v : Byte) (s : State) : (deliver v s).irqLine = s.irqLine := (rfl)
@[simp] theorem deliver_slots (v : Byte) (s : State) : (deliver v s).slots = s.slots := (rfl)
@[simp] theorem deliver_events (v : Byte) (s : State) : (deliver v s).events = s.events := (rfl)
@[simp] theorem deliver_hostOps (v : Byte) (s : State) : (deliver v s).hostOps = s.hostOps := (rfl)
@[simp] theorem deliver_answers (v : Byte) (s : State) : (deliver v s).answers = s.answers := (rfl)
@[simp] theorem deliver_freeCalls (v : Byte) (s : State) : (deliver v s).freeCalls = s.freeCalls := (rfl)
@[simp] theorem deliver_reply (v : Byte) (s : State) : (deliver v s).reply = some v := (rfl)

/-! `baseStatus` -/

@[simp] theorem baseStatus_phase (s : State) : (baseStatus s).phase = s.phase := (rfl)
@[simp] theorem baseStatus_status0 (s : State) : (baseStatus s).status0 = selectionBits s.selectedHead s.selectedUnit := (rfl)
@[simp] theorem baseStatus_status1 (s : State) : (baseStatus s).status1 = 0x00 := (rfl)
@[simp] theorem baseStatus_status2 (s : State) : (baseStatus s).status2 = 0x00 := (rfl)
@[simp] theorem baseStatus_status3 (s : State) : (baseStatus s).status3 = s.status3 := (rfl)
@[simp] theorem baseStatus_spec1 (s : State) : (baseStatus s).spec1 = s.spec1 := (rfl)
@[simp] theorem baseStatus_spec2 (s : State) : (baseStatus s).spec2 = s.spec2 := (rfl)
@[simp] theorem baseStatus_cmdBuf (s : State) : (baseStatus s).cmdBuf = s.cmdBuf := (rfl)
@[simp] theorem baseStatus_cmdLength (s : State) : (baseStatus s).cmdLength = s.cmdLength := (rfl)
@[simp] theorem baseStatus_cmdPosition (s : State) : (baseStatus s).cmdPosition = s.cmdPosition := (rfl)
@[simp] theorem baseStatus_resBuf (s : State) : (baseStatus s).resBuf = s.resBuf := (rfl)
@[simp] theorem baseStatus_resLength (s : State) : (baseStatus s).resLength = s.resLength := (rfl)
@[simp] theorem baseStatus_resPosition (s : State) : (baseStatus s).resPosition = s.resPosition := (rfl)
@[simp] theorem baseStatus_execBuf (s : State) : (baseStatus s).execBuf = s.execBuf := (rfl)
@[simp] theorem baseStatus_execLength (s : State) : (baseStatus s).execLength = s.execLength := (rfl)
@[simp] theorem baseStatus_execPosition (s : State) : (baseStatus s).execPosition = s.execPosition := (rfl)
@[simp] theorem baseStatus_selectedUnit (s : State) : (baseStatus s).selectedUnit = s.selectedUnit := (rfl)
@[simp] theorem baseStatus_selectedHead (s : State) : (baseStatus s).selectedHead = s.selectedHead := (rfl)
@[simp] theorem baseStatus_pendingOpcode (s : State) : (baseStatus s).pendingOpcode = s.pendingOpcode := (rfl)
@[simp] theorem baseStatus_writeDeletedFlag (s : State) : (baseStatus s).writeDeletedFlag = s.writeDeletedFlag := (rfl)
@[simp] theorem baseStatus_rotatingSectorIndex (s : State) : (baseStatus s).rotatingSectorIndex = s.rotatingSectorIndex := (rfl)
@[simp] theorem baseStatus_interruptState (s : State) : (baseStatus s).interruptState = s.interruptState := (rfl)
@[simp] theorem baseStatus_ticksRemaining (s : State) : (baseStatus s).ticksRemaining = s.ticksRemaining := (rfl)
@[simp] theorem baseStatus_irqLine (s : State) : (baseStatus s).irqLine = s.irqLine := (rfl)
@[simp] theorem baseStatus_slots (s : State) : (baseStatus s).slots = s.slots := (rfl)
@[simp] theorem baseStatus_events (s : State) : (baseStatus s).events = s.events := (rfl)
@[simp] theorem baseStatus_hostOps (s : State) : (baseStatus s).hostOps = s.hostOps := (rfl)
@[simp] theorem baseStatus_answers (s : State) : (baseStatus s).answers = s.answers := (rfl)
@[simp] theorem baseStatus_freeCalls (s : State) : (baseStatus s).freeCalls = s.freeCalls := (rfl)
@[simp] theorem baseStatus_reply (s : State) : (baseStatus s).reply = s.reply := (rfl)

/-! `applyError` -/

@[simp] theorem applyError_phase (e : ErrorCode) (s : State) : (applyError e s).phase = s.phase := (rfl)
@[simp] theorem applyError_status0 (e : ErrorCode) (s : State) : (applyError e s).status0 = s.status0 ||| (deltasOf e).d0 := (rfl)
@[simp] theorem applyError_status1 (e : ErrorCode) (s : State) : (applyError e s).status1 = s.status1 ||| (deltasOf e).d1 := (rfl)
@[simp] theorem applyError_status2 (e : ErrorCode) (s : State) : (applyError e s).status2 = s.status2 ||| (deltasOf e).d2 := (rfl)
@[simp] theorem applyError_status3 (e : ErrorCode) (s : State) : (applyError e s).status3 = s.status3 := (rfl)
@[simp] theorem applyError_spec1 (e : ErrorCode) (s : State) : (applyError e s).spec1 = s.spec1 := (rfl)
@[simp] theorem applyError_spec2 (e : ErrorCode) (s : State) : (applyError e s).spec2 = s.spec2 := (rfl)
@[simp] theorem applyError_cmdBuf (e : ErrorCode) (s : State) : (applyError e s).cmdBuf = s.cmdBuf := (rfl)
@[simp] theorem applyError_cmdLength (e : ErrorCode) (s : State) : (applyError e s).cmdLength = s.cmdLength := (rfl)
@[simp] theorem applyError_cmdPosition (e : ErrorCode) (s : State) : (applyError e s).cmdPosition = s.cmdPosition := (rfl)
@[simp] theorem applyError_resBuf (e : ErrorCode) (s : State) : (applyError e s).resBuf = s.resBuf := (rfl)
@[simp] theorem applyError_resLength (e : ErrorCode) (s : State) : (applyError e s).resLength = s.resLength := (rfl)
@[simp] theorem applyError_resPosition (e : ErrorCode) (s : State) : (applyError e s).resPosition = s.resPosition := (rfl)
@[simp] theorem applyError_execBuf (e : ErrorCode) (s : State) : (applyError e s).execBuf = s.execBuf := (rfl)
@[simp] theorem applyError_execLength (e : ErrorCode) (s : State) : (applyError e s).execLength = s.execLength := (rfl)
@[simp] theorem applyError_execPosition (e : ErrorCode) (s : State) : (applyError e s).execPosition = s.execPosition := (rfl)
@[simp] theorem applyError_selectedUnit (e : ErrorCode) (s : State) : (applyError e s).selectedUnit = s.selectedUnit := (rfl)
@[simp] theorem applyError_selectedHead (e : ErrorCode) (s : State) : (applyError e s).selectedHead = s.selectedHead := (rfl)
@[simp] theorem applyError_pendingOpcode (e : ErrorCode) (s : State) : (applyError e s).pendingOpcode = s.pendingOpcode := (rfl)
@[simp] theorem applyError_writeDeletedFlag (e : ErrorCode) (s : State) : (applyError e s).writeDeletedFlag = s.writeDeletedFlag := (rfl)
@[simp] theorem applyError_rotatingSectorIndex (e : ErrorCode) (s : State) : (applyError e s).rotatingSectorIndex = s.rotatingSectorIndex := (rfl)
@[simp] theorem applyError_interruptState (e : ErrorCode) (s : State) : (applyError e s).interruptState = s.interruptState := (rfl)
@[simp] theorem applyError_ticksRemaining (e : ErrorCode) (s : State) : (applyError e s).ticksRemaining = s.ticksRemaining := (rfl)
@[simp] theorem applyError_irqLine (e : ErrorCode) (s : State) : (applyError e s).irqLine = s.irqLine := (rfl)
@[simp] theorem applyError_slots (e : ErrorCode) (s : State) : (applyError e s).slots = s.slots := (rfl)
@[simp] theorem applyError_events (e : ErrorCode) (s : State) : (applyError e s).events = s.events := (rfl)
@[simp] theorem applyError_hostOps (e : ErrorCode) (s : State) : (applyError e s).hostOps = s.hostOps := (rfl)
@[simp] theorem applyError_answers (e : ErrorCode) (s : State) : (applyError e s).answers = s.answers := (rfl)
@[simp] theorem applyError_freeCalls (e : ErrorCode) (s : State) : (applyError e s).freeCalls = s.freeCalls := (rfl)
@[simp] theorem applyError_reply (e : ErrorCode) (s : State) : (applyError e s).reply = s.reply := (rfl)

/-! `setSeekEnd` -/

@[simp] theorem setSeekEnd_phase (s : State) : (setSeekEnd s).phase = s.phase := (rfl)
@[simp] theorem setSeekEnd_status0 (s : State) : (setSeekEnd s).status0 = s.status0 ||| 0x20 := (rfl)
@[simp] theorem setSeekEnd_status1 (s : State) : (setSeekEnd s).status1 = s.status1 := (rfl)
@[simp] theorem setSeekEnd_status2 (s : State) : (setSeekEnd s).status2 = s.status2 := (rfl)
@[simp] theorem setSeekEnd_status3 (s : State) : (setSeekEnd s).status3 = s.status3 := (rfl)
@[simp] theorem setSeekEnd_spec1 (s : State) : (setSeekEnd s).spec1 = s.spec1 := (rfl)
@[simp] theorem setSeekEnd_spec2 (s : State) : (setSeekEnd s).spec2 = s.spec2 := (rfl)
@[simp] theorem setSeekEnd_cmdBuf (s : State) : (setSeekEnd s).cmdBuf = s.cmdBuf := (rfl)
@[simp] theorem setSeekEnd_cmdLength (s : State) : (setSeekEnd s).cmdLength = s.cmdLength := (rfl)
@[simp] theorem setSeekEnd_cmdPosition (s : State) : (setSeekEnd s).cmdPosition = s.cmdPosition := (rfl)
@[simp] theorem setSeekEnd_resBuf (s : State) : (setSeekEnd s).resBuf = s.resBuf := (rfl)
@[simp] theorem setSeekEnd_resLength (s : State) : (setSeekEnd s).resLength = s.resLength := (rfl)
@[simp] theorem setSeekEnd_resPosition (s : State) : (setSeekEnd s).resPosition = s.resPosition := (rfl)
@[simp] theorem setSeekEnd_execBuf (s : State) : (setSeekEnd s).execBuf = s.execBuf := (rfl)
@[simp] theorem setSeekEnd_execLength (s : State) : (setSeekEnd s).execLength = s.execLength := (rfl)
@[simp] theorem setSeekEnd_execPosition (s : State) : (setSeekEnd s).execPosition = s.execPosition := (rfl)
@[simp] theorem setSeekEnd_selectedUnit (s : State) : (setSeekEnd s).selectedUnit = s.selectedUnit := (rfl)
@[simp] theorem setSeekEnd_selectedHead (s : State) : (setSeekEnd s).selectedHead = s.selectedHead := (rfl)
@[simp] theorem setSeekEnd_pendingOpcode (s : State) : (setSeekEnd s).pendingOpcode = s.pendingOpcode := (rfl)
@[simp] theorem setSeekEnd_writeDeletedFlag (s : State) : (setSeekEnd s).writeDeletedFlag = s.writeDeletedFlag := (rfl)
@[simp] theorem setSeekEnd_rotatingSectorIndex (s : State) : (setSeekEnd s).rotatingSectorIndex = s.rotatingSectorIndex := (rfl)
@[simp] theorem setSeekEnd_interruptState (s : State) : (setSeekEnd s).interruptState = s.interruptState := (rfl)
@[simp] theorem setSeekEnd_ticksRemaining (s : State) : (setSeekEnd s).ticksRemaining = s.ticksRemaining := (rfl)
@[simp] theorem setSeekEnd_irqLine (s : State) : (setSeekEnd s).irqLine = s.irqLine := (rfl)
@[simp] theorem setSeekEnd_slots (s : State) : (setSeekEnd s).slots = s.slots := (rfl)
@[simp] theorem setSeekEnd_events (s : State) : (setSeekEnd s).events = s.events := (rfl)
@[simp] theorem setSeekEnd_hostOps (s : State) : (setSeekEnd s).hostOps = s.hostOps := (rfl)
@[simp] theorem setSeekEnd_answers (s : State) : (setSeekEnd s).answers = s.answers := (rfl)
@[simp] theorem setSeekEnd_freeCalls (s : State) : (setSeekEnd s).freeCalls = s.freeCalls := (rfl)
@[simp] theorem setSeekEnd_reply (s : State) : (setSeekEnd s).reply = s.reply := (rfl)

/-! `setAborted` -/

@[simp] theorem setAborted_phase (s : State) : (setAborted s).phase = s.phase := (rfl)
@[simp] theorem setAborted_status0 (s : State) : (setAborted s).status0 = s.status0 ||| 0xC0 := (rfl)
@[simp] theorem setAborted_status1 (s : State) : (setAborted s).status1 = s.status1 := (rfl)
@[simp] theorem setAborted_status2 (s : State) : (setAborted s).status2 = s.status2 := (rfl)
@[simp] theorem setAborted_status3 (s : State) : (setAborted s).status3 = s.status3 := (rfl)
@[simp] theorem setAborted_spec1 (s : State) : (setAborted s).spec1 = s.spec1 := (rfl)
@[simp] theorem setAborted_spec2 (s : State) : (setAborted s).spec2 = s.spec2 := (rfl)
@[simp] theorem setAborted_cmdBuf (s : State) : (setAborted s).cmdBuf = s.cmdBuf := (rfl)
@[simp] theorem setAborted_cmdLength (s : State) : (setAborted s).cmdLength = s.cmdLength := (rfl)
@[simp] theorem setAborted_cmdPosition (s : State) : (setAborted s).cmdPosition = s.cmdPosition := (rfl)
@[simp] theorem setAborted_resBuf (s : State) : (setAborted s).resBuf = s.resBuf := (rfl)
@[simp] theorem setAborted_resLength (s : State) : (setAborted s).resLength = s.resLength := (rfl)
@[simp] theorem setAborted_resPosition (s : State) : (setAborted s).resPosition = s.resPosition := (rfl)
@[simp] theorem setAborted_execBuf (s : State) : (setAborted s).execBuf = s.execBuf := (rfl)
@[simp] theorem setAborted_execLength (s : State) : (setAborted s).execLength = s.execLength := (rfl)
@[simp] theorem setAborted_execPosition (s : State) : (setAborted s).execPosition = s.execPosition := (rfl)
@[simp] theorem setAborted_selectedUnit (s : State) : (setAborted s).selectedUnit = s.selectedUnit := (rfl)
@[simp] theorem setAborted_selectedHead (s : State) : (setAborted s).selectedHead = s.selectedHead := (rfl)
@[simp] theorem setAborted_pendingOpcode (s : State) : (setAborted s).pendingOpcode = s.pendingOpcode := (rfl)
@[simp] theorem setAborted_writeDeletedFlag (s : State) : (setAborted s).writeDeletedFlag = s.writeDeletedFlag := (rfl)
@[simp] theorem setAborted_rotatingSectorIndex (s : State) : (setAborted s).rotatingSectorIndex = s.rotatingSectorIndex := (rfl)
@[simp] theorem setAborted_interruptState (s : State) : (setAborted s).interruptState = s.interruptState := (rfl)
@[simp] theorem setAborted_ticksRemaining (s : State) : (setAborted s).ticksRemaining = s.ticksRemaining := (rfl)
@[simp] theorem setAborted_irqLine (s : State) : (setAborted s).irqLine = s.irqLine := (rfl)
@[simp] theorem setAborted_slots (s : State) : (setAborted s).slots = s.slots := (rfl)
@[simp] theorem setAborted_events (s : State) : (setAborted s).events = s.events := (rfl)
@[simp] theorem setAborted_hostOps (s : State) : (setAborted s).hostOps = s.hostOps := (rfl)
@[simp] theorem setAborted_answers (s : State) : (setAborted s).answers = s.answers := (rfl)
@[simp] theorem setAborted_freeCalls (s : State) : (setAborted s).freeCalls = s.freeCalls := (rfl)
@[simp] theorem setAborted_reply (s : State) : (setAborted s).reply = s.reply := (rfl)

/-! `scanBegin` -/

@[simp] theorem scanBegin_phase (s : State) : (scanBegin s).phase = s.phase := (rfl)
@[simp] theorem scanBegin_status0 (s : State) : (scanBegin s).status0 = s.status0 := (rfl)
@[simp] theorem scanBegin_status1 (s : State) : (scanBegin s).status1 = s.status1 := (rfl)
@[simp] theorem scanBegin_status2 (s : State) : (scanBegin s).status2 = s.status2 ||| 0x08 := (rfl)
@[simp] theorem scanBegin_status3 (s : State) : (scanBegin s).status3 = s.status3 := (rfl)
@[simp] theorem scanBegin_spec1 (s : State) : (scanBegin s).spec1 = s.spec1 := (rfl)
@[simp] theorem scanBegin_spec2 (s : State) : (scanBegin s).spec2 = s.spec2 := (rfl)
@[simp] theorem scanBegin_cmdBuf (s : State) : (scanBegin s).cmdBuf = s.cmdBuf := (rfl)
@[simp] theorem scanBegin_cmdLength (s : State) : (scanBegin s).cmdLength = s.cmdLength := (rfl)
@[simp] theorem scanBegin_cmdPosition (s : State) : (scanBegin s).cmdPosition = s.cmdPosition := (rfl)
@[simp] theorem scanBegin_resBuf (s : State) : (scanBegin s).resBuf = s.resBuf := (rfl)
@[simp] theorem scanBegin_resLength (s : State) : (scanBegin s).resLength = s.resLength := (rfl)
@[simp] theorem scanBegin_resPosition (s : State) : (scanBegin s).resPosition = s.resPosition := (rfl)
@[simp] theorem scanBegin_execBuf (s : State) : (scanBegin s).execBuf = s.execBuf := (rfl)
@[simp] theorem scanBegin_execLength (s : State) : (scanBegin s).execLength = s.execLength := (rfl)
@[simp] theorem scanBegin_execPosition (s : State) : (scanBegin s).execPosition = s.execPosition := (rfl)
@[simp] theorem scanBegin_selectedUnit (s : State) : (scanBegin s).selectedUnit = s.selectedUnit := (rfl)
@[simp] theorem scanBegin_selectedHead (s : State) : (scanBegin s).selectedHead = s.selectedHead := (rfl)
@[simp] theorem scanBegin_pendingOpcode (s : State) : (scanBegin s).pendingOpcode = s.pendingOpcode := (rfl)
@[simp] theorem scanBegin_writeDeletedFlag (s : State) : (scanBegin s).writeDeletedFlag = s.writeDeletedFlag := (rfl)
@[simp] theorem scanBegin_rotatingSectorIndex (s : State) : (scanBegin s).rotatingSectorIndex = s.rotatingSectorIndex := (rfl)
@[simp] theorem scanBegin_interruptState (s : State) : (scanBegin s).interruptState = s.interruptState := (rfl)
@[simp] theorem scanBegin_ticksRemaining (s : State) : (scanBegin s).ticksRemaining = s.ticksRemaining := (rfl)
@[simp] theorem scanBegin_irqLine (s : State) : (scanBegin s).irqLine = s.irqLine := (rfl)
@[simp] theorem scanBegin_slots (s : State) : (scanBegin s).slots = s.slots := (rfl)
@[simp] theorem scanBegin_events (s : State) : (scanBegin s).events = s.events := (rfl)
@[simp] theorem scanBegin_hostOps (s : State) : (scanBegin s).hostOps = s.hostOps := (rfl)
@[simp] theorem scanBegin_answers (s : State) : (scanBegin s).answers = s.answers := (rfl)
@[simp] theorem scanBegin_freeCalls (s : State) : (scanBegin s).freeCalls = s.freeCalls := (rfl)
@[simp] theorem scanBegin_reply (s : State) : (scanBegin s).reply = s.reply := (rfl)

/-! `scanUnequal` -/

@[simp] theorem scanUnequal_phase (s : State) : (scanUnequal s).phase = s.phase := (rfl)
@[simp] theorem scanUnequal_status0 (s : State) : (scanUnequal s).status0 = s.status0 := (rfl)
@[simp] theorem scanUnequal_status1 (s : State) : (scanUnequal s).status1 = s.status1 := (rfl)
@[simp] theorem scanUnequal_status2 (s : State) : (scanUnequal s).status2 = s.status2 &&& ~~~0x08 := (rfl)
@[simp] theorem scanUnequal_status3 (s : State) : (scanUnequal s).status3 = s.status3 := (rfl)
@[simp] theorem scanUnequal_spec1 (s : State) : (scanUnequal s).spec1 = s.spec1 := (rfl)
@[simp] theorem scanUnequal_spec2 (s : State) : (scanUnequal s).spec2 = s.spec2 := (rfl)
@[simp] theorem scanUnequal_cmdBuf (s : State) : (scanUnequal s).cmdBuf = s.cmdBuf := (rfl)
@[simp] theorem scanUnequal_cmdLength (s : State) : (scanUnequal s).cmdLength = s.cmdLength := (rfl)
@[simp] theorem scanUnequal_cmdPosition (s : State) : (scanUnequal s).cmdPosition = s.cmdPosition := (rfl)
@[simp] theorem scanUnequal_resBuf (s : State) : (scanUnequal s).resBuf = s.resBuf := (rfl)
@[simp] theorem scanUnequal_resLength (s : State) : (scanUnequal s).resLength = s.resLength := (rfl)
@[simp] theorem scanUnequal_resPosition (s : State) : (scanUnequal s).resPosition = s.resPosition := (rfl)
@[simp] theorem scanUnequal_execBuf (s : State) : (scanUnequal s).execBuf = s.execBuf := (rfl)
@[simp] theorem scanUnequal_execLength (s : State) : (scanUnequal s).execLength = s.execLength := (rfl)
@[simp] theorem scanUnequal_execPosition (s : State) : (scanUnequal s).execPosition = s.execPosition := (rfl)
@[simp] theorem scanUnequal_selectedUnit (s : State) : (scanUnequal s).selectedUnit = s.selectedUnit := (rfl)
@[simp] theorem scanUnequal_selectedHead (s : State) : (scanUnequal s).selectedHead = s.selectedHead := (rfl)
@[simp] theorem scanUnequal_pendingOpcode (s : State) : (scanUnequal s).pendingOpcode = s.pendingOpcode := (rfl)
@[simp] theorem scanUnequal_writeDeletedFlag (s : State) : (scanUnequal s).writeDeletedFlag = s.writeDeletedFlag := (rfl)
@[simp] theorem scanUnequal_rotatingSectorIndex (s : State) : (scanUnequal s).rotatingSectorIndex = s.rotatingSectorIndex := (rfl)
@[simp] theorem scanUnequal_interruptState (s : State) : (scanUnequal s).interruptState = s.interruptState := (rfl)
@[simp] theorem scanUnequal_ticksRemaining (s : State) : (scanUnequal s).ticksRemaining = s.ticksRemaining := (rfl)
@[simp] theorem scanUnequal_irqLine (s : State) : (scanUnequal s).irqLine = s.irqLine := (rfl)
@[simp] theorem scanUnequal_slots (s : State) : (scanUnequal s).slots = s.slots := (rfl)
@[simp] theorem scanUnequal_events (s : State) : (scanUnequal s).events = s.events := (rfl)
@[simp] theorem scanUnequal_hostOps (s : State) : (scanUnequal s).hostOps = s.hostOps := (rfl)
@[simp] theorem scanUnequal_answers (s : State) : (scanUnequal s).answers = s.answers := (rfl)
@[simp] theorem scanUnequal_freeCalls (s : State) : (scanUnequal s).freeCalls = s.freeCalls := (rfl)
@[simp] theorem scanUnequal_reply (s : State) : (scanUnequal s).reply = s.reply := (rfl)

/-! `scanNotSatisfied` -/

@[simp] theorem scanNotSatisfied_phase (s : State) : (scanNotSatisfied s).phase = s.phase := (rfl)
@[simp] theorem scanNotSatisfied_status0 (s : State) : (scanNotSatisfied s).status0 = s.status0 := (rfl)
@[simp] theorem scanNotSatisfied_status1 (s : State) : (scanNotSatisfied s).status1 = s.status1 := (rfl)
@[simp] theorem scanNotSatisfied_status2 (s : State) : (scanNotSatisfied s).status2 = (s.status2 &&& ~~~0x08) ||| 0x04 := (rfl)
@[simp] theorem scanNotSatisfied_status3 (s : State) : (scanNotSatisfied s).status3 = s.status3 := (rfl)
@[simp] theorem scanNotSatisfied_spec1 (s : State) : (scanNotSatisfied s).spec1 = s.spec1 := (rfl)
@[simp] theorem scanNotSatisfied_spec2 (s : State) : (scanNotSatisfied s).spec2 = s.spec2 := (rfl)
@[simp] theorem scanNotSatisfied_cmdBuf (s : State) : (scanNotSatisfied s).cmdBuf = s.cmdBuf := (rfl)
@[simp] theorem scanNotSatisfied_cmdLength (s : State) : (scanNotSatisfied s).cmdLength = s.cmdLength := (rfl)
@[simp] theorem scanNotSatisfied_cmdPosition (s : State) : (scanNotSatisfied s).cmdPosition = s.cmdPosition := (rfl)
@[simp] theorem scanNotSatisfied_resBuf (s : State) : (scanNotSatisfied s).resBuf = s.resBuf := (rfl)
@[simp] theorem scanNotSatisfied_resLength (s : State) : (scanNotSatisfied s).resLength = s.resLength := (rfl)
@[simp] theorem scanNotSatisfied_resPosition (s : State) : (scanNotSatisfied s).resPosition = s.resPosition := (rfl)
@[simp] theorem scanNotSatisfied_execBuf (s : State) : (scanNotSatisfied s).execBuf = s.execBuf := (rfl)
@[simp] theorem scanNotSatisfied_execLength (s : State) : (scanNotSatisfied s).execLength = s.execLength := (rfl)
@[simp] theorem scanNotSatisfied_execPosition (s : State) : (scanNotSatisfied s).execPosition = s.execPosition := (rfl)
@[simp] theorem scanNotSatisfied_selectedUnit (s : State) : (scanNotSatisfied s).selectedUnit = s.selectedUnit := (rfl)
@[simp] theorem scanNotSatisfied_selectedHead (s : State) : (scanNotSatisfied s).selectedHead = s.selectedHead := (rfl)
@[simp] theorem scanNotSatisfied_pendingOpcode (s : State) : (scanNotSatisfied s).pendingOpcode = s.pendingOpcode := (rfl)
@[simp] theorem scanNotSatisfied_writeDeletedFlag (s : State) : (scanNotSatisfied s).writeDeletedFlag = s.writeDeletedFlag := (rfl)
@[simp] theorem scanNotSatisfied_rotatingSectorIndex (s : State) : (scanNotSatisfied s).rotatingSectorIndex = s.rotatingSectorIndex := (rfl)
@[simp] theorem scanNotSatisfied_interruptState (s : State) : (scanNotSatisfied s).interruptState = s.interruptState := (rfl)
@[simp] theorem scanNotSatisfied_ticksRemaining (s : State) : (scanNotSatisfied s).ticksRemaining = s.ticksRemaining := (rfl)
@[simp] theorem scanNotSatisfied_irqLine (s : State) : (scanNotSatisfied s).irqLine = s.irqLine := (rfl)
@[simp] theorem scanNotSatisfied_slots (s : State) : (scanNotSatisfied s).slots = s.slots := (rfl)
@[simp] theorem scanNotSatisfied_events (s : State) : (scanNotSatisfied s).events = s.events := (rfl)
@[simp] theorem scanNotSatisfied_hostOps (s : State) : (scanNotSatisfied s).hostOps = s.hostOps := (rfl)
@[simp] theorem scanNotSatisfied_answers (s : State) : (scanNotSatisfied s).answers = s.answers := (rfl)
@[simp] theorem scanNotSatisfied_freeCalls (s : State) : (scanNotSatisfied s).freeCalls = s.freeCalls := (rfl)
@[simp] theorem scanNotSatisfied_reply (s : State) : (scanNotSatisfied s).reply = s.reply := (rfl)

/-! `setWriteDeleted` -/

@[simp] theorem setWriteDeleted_phase (b : Bool) (s : State) : (setWriteDeleted b s).phase = s.phase := (rfl)
@[simp] theorem setWriteDeleted_status0 (b : Bool) (s : State) : (setWriteDeleted b s).status0 = s.status0 := (rfl)
@[simp] theorem setWriteDeleted_status1 (b : Bool) (s : State) : (setWriteDeleted b s).status1 = s.status1 := (rfl)
@[simp] theorem setWriteDeleted_status2 (b : Bool) (s : State) : (setWriteDeleted b s).status2 = s.status2 := (rfl)
@[simp] theorem setWriteDeleted_status3 (b : Bool) (s : State) : (setWriteDeleted b s).status3 = s.status3 := (rfl)
@[simp] theorem setWriteDeleted_spec1 (b : Bool) (s : State) : (setWriteDeleted b s).spec1 = s.spec1 := (rfl)
@[simp] theorem setWriteDeleted_spec2 (b : Bool) (s : State) : (setWriteDeleted b s).spec2 = s.spec2 := (rfl)
@[simp] theorem setWriteDeleted_cmdBuf (b : Bool) (s : State) : (setWriteDeleted b s).cmdBuf = s.cmdBuf := (rfl)
@[simp] theorem setWriteDeleted_cmdLength (b : Bool) (s : State) : (setWriteDeleted b s).cmdLength = s.cmdLength := (rfl)
@[simp] theorem setWriteDeleted_cmdPosition (b : Bool) (s : State) : (setWriteDeleted b s).cmdPosition = s.cmdPosition := (rfl)
@[simp] theorem setWriteDeleted_resBuf (b : Bool) (s : State) : (setWriteDeleted b s).resBuf = s.resBuf := (rfl)
@[simp] theorem setWriteDeleted_resLength (b : Bool) (s : State) : (setWriteDeleted b s).resLength = s.resLength := (rfl)
@[simp] theorem setWriteDeleted_resPosition (b : Bool) (s : State) : (setWriteDeleted b s).resPosition = s.resPosition := (rfl)
@[simp] theorem setWriteDeleted_execBuf (b : Bool) (s : State) : (setWriteDeleted b s).execBuf = s.execBuf := (rfl)
@[simp] theorem setWriteDeleted_execLength (b : Bool) (s : State) : (setWriteDeleted b s).execLength = s.execLength := (rfl)
@[simp] theorem setWriteDeleted_execPosition (b : Bool) (s : State) : (setWriteDeleted b s).execPosition = s.execPosition := (rfl)
@[simp] theorem setWriteDeleted_selectedUnit (b : Bool) (s : State) : (setWriteDeleted b s).selectedUnit = s.selectedUnit := (rfl)
@[simp] theorem setWriteDeleted_selectedHead (b : Bool) (s : State) : (setWriteDeleted b s).selectedHead = s.selectedHead := (rfl)
@[simp] theorem setWriteDeleted_pendingOpcode (b : Bool) (s : State) : (setWriteDeleted b s).pendingOpcode = s.pendingOpcode := (rfl)
@[simp] theorem setWriteDeleted_writeDeletedFlag (b : Bool) (s : State) : (setWriteDeleted b s).writeDeletedFlag = b := (rfl)
@[simp] theorem setWriteDeleted_rotatingSectorIndex (b : Bool) (s : State) : (setWriteDeleted b s).rotatingSectorIndex = s.rotatingSectorIndex := (rfl)
@[simp] theorem setWriteDeleted_interruptState (b : Bool) (s : State) : (setWriteDeleted b s).interruptState = s.interruptState := (rfl)
@[simp] theorem setWriteDeleted_ticksRemaining (b : Bool) (s : State) : (setWriteDeleted b s).ticksRemaining = s.ticksRemaining := (rfl)
@[simp] theorem setWriteDeleted_irqLine (b : Bool) (s : State) : (setWriteDeleted b s).irqLine = s.irqLine := (rfl)
@[simp] theorem setWriteDeleted_slots (b : Bool) (s : State) : (setWriteDeleted b s).slots = s.slots := (rfl)
@[simp] theorem setWriteDeleted_events (b : Bool) (s : State) : (setWriteDeleted b s).events = s.events := (rfl)
@[simp] theorem setWriteDeleted_hostOps (b : Bool) (s : State) : (setWriteDeleted b s).hostOps = s.hostOps := (rfl)
@[simp] theorem setWriteDeleted_answers (b : Bool) (s : State) : (setWriteDeleted b s).answers = s.answers := (rfl)
@[simp] theorem setWriteDeleted_freeCalls (b : Bool) (s : State) : (setWriteDeleted b s).freeCalls = s.freeCalls := (rfl)
@[simp] theorem setWriteDeleted_reply (b : Bool) (s : State) : (setWriteDeleted b s).reply = s.reply := (rfl)

/-! `State.setDrive` -/

@[simp] theorem setDrive_phase (u : UnitNo) (d : Drive) (s : State) : (s.setDrive u d).phase = s.phase := (rfl)
@[simp] theorem setDrive_status0 (u : UnitNo) (d : Drive) (s : State) : (s.setDrive u d).status0 = s.status0 := (rfl)
@[simp] theorem setDrive_status1 (u : UnitNo) (d : Drive) (s : State) : (s.setDrive u d).status1 = s.status1 := (rfl)
@[simp] theorem setDrive_status2 (u : UnitNo) (d : Drive) (s : State) : (s.setDrive u d).status2 = s.status2 := (rfl)
@[simp] theorem setDrive_status3 (u : UnitNo) (d : Drive) (s : State) : (s.setDrive u d).status3 = s.status3 := (rfl)
@[simp] theorem setDrive_spec1 (u : UnitNo) (d : Drive) (s : State) : (s.setDrive u d).spec1 = s.spec1 := (rfl)
@[simp] theorem setDrive_spec2 (u : UnitNo) (d : Drive) (s : State) : (s.setDrive u d).spec2 = s.spec2 := (rfl)
@[simp] theorem setDrive_cmdBuf (u : UnitNo) (d : Drive) (s : State) : (s.setDrive u d).cmdBuf = s.cmdBuf := (rfl)
@[simp] theorem setDrive_cmdLength (u : UnitNo) (d : Drive) (s : State) : (s.setDrive u d).cmdLength = s.cmdLength := (rfl)
@[simp] theorem setDrive_cmdPosition (u : UnitNo) (d : Drive) (s : State) : (s.setDrive u d).cmdPosition = s.cmdPosition := (rfl)
@[simp] theorem setDrive_resBuf (u : UnitNo) (d : Drive) (s : State) : (s.setDrive u d).resBuf = s.resBuf := (rfl)
@[simp] theorem setDrive_resLength (u : UnitNo) (d : Drive) (s : State) : (s.setDrive u d).resLength = s.resLength := (rfl)
@[simp] theorem setDrive_resPosition (u : UnitNo) (d : Drive) (s : State) : (s.setDrive u d).resPosition = s.resPosition := (rfl)
@[simp] theorem setDrive_execBuf (u : UnitNo) (d : Drive) (s : State) : (s.setDrive u d).execBuf = s.execBuf := (rfl)
@[simp] theorem setDrive_execLength (u : UnitNo) (d : Drive) (s : State) : (s.setDrive u d).execLength = s.execLength := (rfl)
@[simp] theorem setDrive_execPosition (u : UnitNo) (d : Drive) (s : State) : (s.setDrive u d).execPosition = s.execPosition := (rfl)
@[simp] theorem setDrive_selectedUnit (u : UnitNo) (d : Drive) (s : State) : (s.setDrive u d).selectedUnit = s.selectedUnit := (rfl)
@[simp] theorem setDrive_selectedHead (u : UnitNo) (d : Drive) (s : State) : (s.setDrive u d).selectedHead = s.selectedHead := (rfl)
@[simp] theorem setDrive_pendingOpcode (u : UnitNo) (d : Drive) (s : State) : (s.setDrive u d).pendingOpcode = s.pendingOpcode := (rfl)
@[simp] theorem setDrive_writeDeletedFlag (u : UnitNo) (d : Drive) (s : State) : (s.setDrive u d).writeDeletedFlag = s.writeDeletedFlag := (rfl)
@[simp] theorem setDrive_rotatingSectorIndex (u : UnitNo) (d : Drive) (s : State) : (s.setDrive u d).rotatingSectorIndex = s.rotatingSectorIndex := (rfl)
@[simp] theorem setDrive_interruptState (u : UnitNo) (d : Drive) (s : State) : (s.setDrive u d).interruptState = s.interruptState := (rfl)
@[simp] theorem setDrive_ticksRemaining (u : UnitNo) (d : Drive) (s : State) : (s.setDrive u d).ticksRemaining = s.ticksRemaining := (rfl)
@[simp] theorem setDrive_irqLine (u : UnitNo) (d : Drive) (s : State) : (s.setDrive u d).irqLine = s.irqLine := (rfl)
@[simp] theorem setDrive_slots (u : UnitNo) (d : Drive) (s : State) : (s.setDrive u d).slots = s.slots.set u.toNat (some d) u.isLt := (rfl)
@[simp] theorem setDrive_events (u : UnitNo) (d : Drive) (s : State) : (s.setDrive u d).events = s.events := (rfl)
@[simp] theorem setDrive_hostOps (u : UnitNo) (d : Drive) (s : State) : (s.setDrive u d).hostOps = s.hostOps := (rfl)
@[simp] theorem setDrive_answers (u : UnitNo) (d : Drive) (s : State) : (s.setDrive u d).answers = s.answers := (rfl)
@[simp] theorem setDrive_freeCalls (u : UnitNo) (d : Drive) (s : State) : (s.setDrive u d).freeCalls = s.freeCalls := (rfl)
@[simp] theorem setDrive_reply (u : UnitNo) (d : Drive) (s : State) : (s.setDrive u d).reply = s.reply := (rfl)

/-! `acceptOpcode` -/

@[simp] theorem acceptOpcode_phase (b : Byte) (s : State) : (acceptOpcode b s).phase = .command := (rfl)
@[simp] theorem acceptOpcode_status0 (b : Byte) (s : State) : (acceptOpcode b s).status0 = s.status0 := (rfl)
@[simp] theorem acceptOpcode_status1 (b : Byte) (s : State) : (acceptOpcode b s).status1 = s.status1 := (rfl)
@[simp] theorem acceptOpcode_status2 (b : Byte) (s : State) : (acceptOpcode b s).status2 = s.status2 := (rfl)
@[simp] theorem acceptOpcode_status3 (b : Byte) (s : State) : (acceptOpcode b s).status3 = s.status3 := (rfl)
@[simp] theorem acceptOpcode_spec1 (b : Byte) (s : State) : (acceptOpcode b s).spec1 = s.spec1 := (rfl)
@[simp] theorem acceptOpcode_spec2 (b : Byte) (s : State) : (acceptOpcode b s).spec2 = s.spec2 := (rfl)
@[simp] theorem acceptOpcode_cmdBuf (b : Byte) (s : State) : (acceptOpcode b s).cmdBuf = s.cmdBuf.write 0 b := (rfl)
@[simp] theorem acceptOpcode_cmdLength (b : Byte) (s : State) : (acceptOpcode b s).cmdLength = cmdCount (commandId (op5 b)) - 1 := (rfl)
@[simp] theorem acceptOpcode_cmdPosition (b : Byte) (s : State) : (acceptOpcode b s).cmdPosition = 1 := (rfl)
@[simp] theorem acceptOpcode_resBuf (b : Byte) (s : State) : (acceptOpcode b s).resBuf = s.resBuf := (rfl)
@[simp] theorem acceptOpcode_resLength (b : Byte) (s : State) : (acceptOpcode b s).resLength = s.resLength := (rfl)
@[simp] theorem acceptOpcode_resPosition (b : Byte) (s : State) : (acceptOpcode b s).resPosition = s.resPosition := (rfl)
@[simp] theorem acceptOpcode_execBuf (b : Byte) (s : State) : (acceptOpcode b s).execBuf = s.execBuf := (rfl)
@[simp] theorem acceptOpcode_execLength (b : Byte) (s : State) : (acceptOpcode b s).execLength = s.execLength := (rfl)
@[simp] theorem acceptOpcode_execPosition (b : Byte) (s : State) : (acceptOpcode b s).execPosition = s.execPosition := (rfl)
@[simp] theorem acceptOpcode_selectedUnit (b : Byte) (s : State) : (acceptOpcode b s).selectedUnit = s.selectedUnit := (rfl)
@[simp] theorem acceptOpcode_selectedHead (b : Byte) (s : State) : (acceptOpcode b s).selectedHead = s.selectedHead := (rfl)
@[simp] theorem acceptOpcode_pendingOpcode (b : Byte) (s : State) : (acceptOpcode b s).pendingOpcode = some (commandId (op5 b)) := (rfl)
@[simp] theorem acceptOpcode_writeDeletedFlag (b : Byte) (s : State) : (acceptOpcode b s).writeDeletedFlag = s.writeDeletedFlag := (rfl)
@[simp] theorem acceptOpcode_rotatingSectorIndex (b : Byte) (s : State) : (acceptOpcode b s).rotatingSectorIndex = s.rotatingSectorIndex := (rfl)
@[simp] theorem acceptOpcode_interruptState (b : Byte) (s : State) : (acceptOpcode b s).interruptState = s.interruptState := (rfl)
@[simp] theorem acceptOpcode_ticksRemaining (b : Byte) (s : State) : (acceptOpcode b s).ticksRemaining = s.ticksRemaining := (rfl)
@[simp] theorem acceptOpcode_irqLine (b : Byte) (s : State) : (acceptOpcode b s).irqLine = s.irqLine := (rfl)
@[simp] theorem acceptOpcode_slots (b : Byte) (s : State) : (acceptOpcode b s).slots = s.slots := (rfl)
@[simp] theorem acceptOpcode_events (b : Byte) (s : State) : (acceptOpcode b s).events = s.events := (rfl)
@[simp] theorem acceptOpcode_hostOps (b : Byte) (s : State) : (acceptOpcode b s).hostOps = s.hostOps := (rfl)
@[simp] theorem acceptOpcode_answers (b : Byte) (s : State) : (acceptOpcode b s).answers = s.answers := (rfl)
@[simp] theorem acceptOpcode_freeCalls (b : Byte) (s : State) : (acceptOpcode b s).freeCalls = s.freeCalls := (rfl)
@[simp] theorem acceptOpcode_reply (b : Byte) (s : State) : (acceptOpcode b s).reply = s.reply := (rfl)

/-! `acceptOperand` -/

@[simp] theorem acceptOperand_phase (b : Byte) (s : State) : (acceptOperand b s).phase = s.phase := (rfl)
@[simp] theorem acceptOperand_status0 (b : Byte) (s : State) : (acceptOperand b s).status0 = s.status0 := (rfl)
@[simp] theorem acceptOperand_status1 (b : Byte) (s : State) : (acceptOperand b s).status1 = s.status1 := (rfl)
@[simp] theorem acceptOperand_status2 (b : Byte) (s : State) : (acceptOperand b s).status2 = s.status2 := (rfl)
@[simp] theorem acceptOperand_status3 (b : Byte) (s : State) : (acceptOperand b s).status3 = s.status3 := (rfl)
@[simp] theorem acceptOperand_spec1 (b : Byte) (s : State) : (acceptOperand b s).spec1 = s.spec1 := (rfl)
@[simp] theorem acceptOperand_spec2 (b : Byte) (s : State) : (acceptOperand b s).spec2 = s.spec2 := (rfl)
@[simp] theorem acceptOperand_cmdBuf (b : Byte) (s : State) : (acceptOperand b s).cmdBuf = s.cmdBuf.write s.cmdPosition b := (rfl)
@[simp] theorem acceptOperand_cmdLength (b : Byte) (s : State) : (acceptOperand b s).cmdLength = s.cmdLength - 1 := (rfl)
@[simp] theorem acceptOperand_cmdPosition (b : Byte) (s : State) : (acceptOperand b s).cmdPosition = s.cmdPosition + 1 := (rfl)
@[simp] theorem acceptOperand_resBuf (b : Byte) (s : State) : (acceptOperand b s).resBuf = s.resBuf := (rfl)
@[simp] theorem acceptOperand_resLength (b : Byte) (s : State) : (acceptOperand b s).resLength = s.resLength := (rfl)
@[simp] theorem acceptOperand_resPosition (b : Byte) (s : State) : (acceptOperand b s).resPosition = s.resPosition := (rfl)
@[simp] theorem acceptOperand_execBuf (b : Byte) (s : State) : (acceptOperand b s).execBuf = s.execBuf := (rfl)
@[simp] theorem acceptOperand_execLength (b : Byte) (s : State) : (acceptOperand b s).execLength = s.execLength := (rfl)
@[simp] theorem acceptOperand_execPosition (b : Byte) (s : State) : (acceptOperand b s).execPosition = s.execPosition := (rfl)
@[simp] theorem acceptOperand_selectedUnit (b : Byte) (s : State) : (acceptOperand b s).selectedUnit = s.selectedUnit := (rfl)
@[simp] theorem acceptOperand_selectedHead (b : Byte) (s : State) : (acceptOperand b s).selectedHead = s.selectedHead := (rfl)
@[simp] theorem acceptOperand_pendingOpcode (b : Byte) (s : State) : (acceptOperand b s).pendingOpcode = s.pendingOpcode := (rfl)
@[simp] theorem acceptOperand_writeDeletedFlag (b : Byte) (s : State) : (acceptOperand b s).writeDeletedFlag = s.writeDeletedFlag := (rfl)
@[simp] theorem acceptOperand_rotatingSectorIndex (b : Byte) (s : State) : (acceptOperand b s).rotatingSectorIndex = s.rotatingSectorIndex := (rfl)
@[simp] theorem acceptOperand_interruptState (b : Byte) (s : State) : (acceptOperand b s).interruptState = s.interruptState := (rfl)
@[simp] theorem acceptOperand_ticksRemaining (b : Byte) (s : State) : (acceptOperand b s).ticksRemaining = s.ticksRemaining := (rfl)
@[simp] theorem acceptOperand_irqLine (b : Byte) (s : State) : (acceptOperand b s).irqLine = s.irqLine := (rfl)
@[simp] theorem acceptOperand_slots (b : Byte) (s : State) : (acceptOperand b s).slots = s.slots := (rfl)
@[simp] theorem acceptOperand_events (b : Byte) (s : State) : (acceptOperand b s).events = s.events := (rfl)
@[simp] theorem acceptOperand_hostOps (b : Byte) (s : State) : (acceptOperand b s).hostOps = s.hostOps := (rfl)
@[simp] theorem acceptOperand_answers (b : Byte) (s : State) : (acceptOperand b s).answers = s.answers := (rfl)
@[simp] theorem acceptOperand_freeCalls (b : Byte) (s : State) : (acceptOperand b s).freeCalls = s.freeCalls := (rfl)
@[simp] theorem acceptOperand_reply (b : Byte) (s : State) : (acceptOperand b s).reply = s.reply := (rfl)

/-! `takeAnswer` -/

@[simp] theorem takeAnswer_phase (rest : List Answer) (s : State) : (takeAnswer rest s).phase = s.phase := (rfl)
@[simp] theorem takeAnswer_status0 (rest : List Answer) (s : State) : (takeAnswer rest s).status0 = s.status0 := (rfl)
@[simp] theorem takeAnswer_status1 (rest : List Answer) (s : State) : (takeAnswer rest s).status1 = s.status1 := (rfl)
@[simp] theorem takeAnswer_status2 (rest : List Answer) (s : State) : (takeAnswer rest s).status2 = s.status2 := (rfl)
@[simp] theorem takeAnswer_status3 (rest : List Answer) (s : State) : (takeAnswer rest s).status3 = s.status3 := (rfl)
@[simp] theorem takeAnswer_spec1 (rest : List Answer) (s : State) : (takeAnswer rest s).spec1 = s.spec1 := (rfl)
@[simp] theorem takeAnswer_spec2 (rest : List Answer) (s : State) : (takeAnswer rest s).spec2 = s.spec2 := (rfl)
@[simp] theorem takeAnswer_cmdBuf (rest : List Answer) (s : State) : (takeAnswer rest s).cmdBuf = s.cmdBuf := (rfl)
@[simp] theorem takeAnswer_cmdLength (rest : List Answer) (s : State) : (takeAnswer rest s).cmdLength = s.cmdLength := (rfl)
@[simp] theorem takeAnswer_cmdPosition (rest : List Answer) (s : State) : (takeAnswer rest s).cmdPosition = s.cmdPosition := (rfl)
@[simp] theorem takeAnswer_resBuf (rest : List Answer) (s : State) : (takeAnswer rest s).resBuf = s.resBuf := (rfl)
@[simp] theorem takeAnswer_resLength (rest : List Answer) (s : State) : (takeAnswer rest s).resLength = s.resLength := (rfl)
@[simp] theorem takeAnswer_resPosition (rest : List Answer) (s : State) : (takeAnswer rest s).resPosition = s.resPosition := (rfl)
@[simp] theorem takeAnswer_execBuf (rest : List Answer) (s : State) : (takeAnswer rest s).execBuf = s.execBuf := (rfl)
@[simp] theorem takeAnswer_execLength (rest : List Answer) (s : State) : (takeAnswer rest s).execLength = s.execLength := (rfl)
@[simp] theorem takeAnswer_execPosition (rest : List Answer) (s : State) : (takeAnswer rest s).execPosition = s.execPosition := (rfl)
@[simp] theorem takeAnswer_selectedUnit (rest : List Answer) (s : State) : (takeAnswer rest s).selectedUnit = s.selectedUnit := (rfl)
@[simp] theorem takeAnswer_selectedHead (rest : List Answer) (s : State) : (takeAnswer rest s).selectedHead = s.selectedHead := (rfl)
@[simp] theorem takeAnswer_pendingOpcode (rest : List Answer) (s : State) : (takeAnswer rest s).pendingOpcode = s.pendingOpcode := (rfl)
@[simp] theorem takeAnswer_writeDeletedFlag (rest : List Answer) (s : State) : (takeAnswer rest s).writeDeletedFlag = s.writeDeletedFlag := (rfl)
@[simp] theorem takeAnswer_rotatingSectorIndex (rest : List Answer) (s : State) : (takeAnswer rest s).rotatingSectorIndex = s.rotatingSectorIndex := (rfl)
@[simp] theorem takeAnswer_interruptState (rest : List Answer) (s : State) : (takeAnswer rest s).interruptState = s.interruptState := (rfl)
@[simp] theorem takeAnswer_ticksRemaining (rest : List Answer) (s : State) : (takeAnswer rest s).ticksRemaining = s.ticksRemaining := (rfl)
@[simp] theorem takeAnswer_irqLine (rest : List Answer) (s : State) : (takeAnswer rest s).irqLine = s.irqLine := (rfl)
@[simp] theorem takeAnswer_slots (rest : List Answer) (s : State) : (takeAnswer rest s).slots = s.slots := (rfl)
@[simp] theorem takeAnswer_events (rest : List Answer) (s : State) : (takeAnswer rest s).events = s.events := (rfl)
@[simp] theorem takeAnswer_hostOps (rest : List Answer) (s : State) : (takeAnswer rest s).hostOps = s.hostOps := (rfl)
@[simp] theorem takeAnswer_answers (rest : List Answer) (s : State) : (takeAnswer rest s).answers = rest := (rfl)
@[simp] theorem takeAnswer_freeCalls (rest : List Answer) (s : State) : (takeAnswer rest s).freeCalls = s.freeCalls := (rfl)
@[simp] theorem takeAnswer_reply (rest : List Answer) (s : State) : (takeAnswer rest s).reply = s.reply := (rfl)

/-! `countFreeCall` -/

@[simp] theorem countFreeCall_phase (s : State) : (countFreeCall s).phase = s.phase := (rfl)
@[simp] theorem countFreeCall_status0 (s : State) : (countFreeCall s).status0 = s.status0 := (rfl)
@[simp] theorem countFreeCall_status1 (s : State) : (countFreeCall s).status1 = s.status1 := (rfl)
@[simp] theorem countFreeCall_status2 (s : State) : (countFreeCall s).status2 = s.status2 := (rfl)
@[simp] theorem countFreeCall_status3 (s : State) : (countFreeCall s).status3 = s.status3 := (rfl)
@[simp] theorem countFreeCall_spec1 (s : State) : (countFreeCall s).spec1 = s.spec1 := (rfl)
@[simp] theorem countFreeCall_spec2 (s : State) : (countFreeCall s).spec2 = s.spec2 := (rfl)
@[simp] theorem countFreeCall_cmdBuf (s : State) : (countFreeCall s).cmdBuf = s.cmdBuf := (rfl)
@[simp] theorem countFreeCall_cmdLength (s : State) : (countFreeCall s).cmdLength = s.cmdLength := (rfl)
@[simp] theorem countFreeCall_cmdPosition (s : State) : (countFreeCall s).cmdPosition = s.cmdPosition := (rfl)
@[simp] theorem countFreeCall_resBuf (s : State) : (countFreeCall s).resBuf = s.resBuf := (rfl)
@[simp] theorem countFreeCall_resLength (s : State) : (countFreeCall s).resLength = s.resLength := (rfl)
@[simp] theorem countFreeCall_resPosition (s : State) : (countFreeCall s).resPosition = s.resPosition := (rfl)
@[simp] theorem countFreeCall_execBuf (s : State) : (countFreeCall s).execBuf = s.execBuf := (rfl)
@[simp] theorem countFreeCall_execLength (s : State) : (countFreeCall s).execLength = s.execLength := (rfl)
@[simp] theorem countFreeCall_execPosition (s : State) : (countFreeCall s).execPosition = s.execPosition := (rfl)
@[simp] theorem countFreeCall_selectedUnit (s : State) : (countFreeCall s).selectedUnit = s.selectedUnit := (rfl)
@[simp] theorem countFreeCall_selectedHead (s : State) : (countFreeCall s).selectedHead = s.selectedHead := (rfl)
@[simp] theorem countFreeCall_pendingOpcode (s : State) : (countFreeCall s).pendingOpcode = s.pendingOpcode := (rfl)
@[simp] theorem countFreeCall_writeDeletedFlag (s : State) : (countFreeCall s).writeDeletedFlag = s.writeDeletedFlag := (rfl)
@[simp] theorem countFreeCall_rotatingSectorIndex (s : State) : (countFreeCall s).rotatingSectorIndex = s.rotatingSectorIndex := (rfl)
@[simp] theorem countFreeCall_interruptState (s : State) : (countFreeCall s).interruptState = s.interruptState := (rfl)
@[simp] theorem countFreeCall_ticksRemaining (s : State) : (countFreeCall s).ticksRemaining = s.ticksRemaining := (rfl)
@[simp] theorem countFreeCall_irqLine (s : State) : (countFreeCall s).irqLine = s.irqLine := (rfl)
@[simp] theorem countFreeCall_slots (s : State) : (countFreeCall s).slots = s.slots := (rfl)
@[simp] theorem countFreeCall_events (s : State) : (countFreeCall s).events = s.events := (rfl)
@[simp] theorem countFreeCall_hostOps (s : State) : (countFreeCall s).hostOps = s.hostOps := (rfl)
@[simp] theorem countFreeCall_answers (s : State) : (countFreeCall s).answers = s.answers := (rfl)
@[simp] theorem countFreeCall_freeCalls (s : State) : (countFreeCall s).freeCalls = s.freeCalls + 1 := (rfl)
@[simp] theorem countFreeCall_reply (s : State) : (countFreeCall s).reply = s.reply := (rfl)

/-! `setRotation` -/

@[simp] theorem setRotation_phase (n : Nat) (s : State) : (setRotation n s).phase = s.phase := (rfl)
@[simp] theorem setRotation_status0 (n : Nat) (s : State) : (setRotation n s).status0 = s.status0 := (rfl)
@[simp] theorem setRotation_status1 (n : Nat) (s : State) : (setRotation n s).status1 = s.status1 := (rfl)
@[simp] theorem setRotation_status2 (n : Nat) (s : State) : (setRotation n s).status2 = s.status2 := (rfl)
@[simp] theorem setRotation_status3 (n : Nat) (s : State) : (setRotation n s).status3 = s.status3 := (rfl)
@[simp] theorem setRotation_spec1 (n : Nat) (s : State) : (setRotation n s).spec1 = s.spec1 := (rfl)
@[simp] theorem setRotation_spec2 (n : Nat) (s : State) : (setRotation n s).spec2 = s.spec2 := (rfl)
@[simp] theorem setRotation_cmdBuf (n : Nat) (s : State) : (setRotation n s).cmdBuf = s.cmdBuf := (rfl)
@[simp] theorem setRotation_cmdLength (n : Nat) (s : State) : (setRotation n s).cmdLength = s.cmdLength := (rfl)
@[simp] theorem setRotation_cmdPosition (n : Nat) (s : State) : (setRotation n s).cmdPosition = s.cmdPosition := (rfl)
@[simp] theorem setRotation_resBuf (n : Nat) (s : State) : (setRotation n s).resBuf = s.resBuf := (rfl)
@[simp] theorem setRotation_resLength (n : Nat) (s : State) : (setRotation n s).resLength = s.resLength := (rfl)
@[simp] theorem setRotation_resPosition (n : Nat) (s : State) : (setRotation n s).resPosition = s.resPosition := (rfl)
@[simp] theorem setRotation_execBuf (n : Nat) (s : State) : (setRotation n s).execBuf = s.execBuf := (rfl)
@[simp] theorem setRotation_execLength (n : Nat) (s : State) : (setRotation n s).execLength = s.execLength := (rfl)
@[simp] theorem setRotation_execPosition (n : Nat) (s : State) : (setRotation n s).execPosition = s.execPosition := (rfl)
@[simp] theorem setRotation_selectedUnit (n : Nat) (s : State) : (setRotation n s).selectedUnit = s.selectedUnit := (rfl)
@[simp] theorem setRotation_selectedHead (n : Nat) (s : State) : (setRotation n s).selectedHead = s.selectedHead := (rfl)
@[simp] theorem setRotation_pendingOpcode (n : Nat) (s : State) : (setRotation n s).pendingOpcode = s.pendingOpcode := (rfl)
@[simp] theorem setRotation_writeDeletedFlag (n : Nat) (s : State) : (setRotation n s).writeDeletedFlag = s.writeDeletedFlag := (rfl)
@[simp] theorem setRotation_rotatingSectorIndex (n : Nat) (s : State) : (setRotation n s).rotatingSectorIndex = n := (rfl)
@[simp] theorem setRotation_interruptState (n : Nat) (s : State) : (setRotation n s).interruptState = s.interruptState := (rfl)
@[simp] theorem setRotation_ticksRemaining (n : Nat) (s : State) : (setRotation n s).ticksRemaining = s.ticksRemaining := (rfl)
@[simp] theorem setRotation_irqLine (n : Nat) (s : State) : (setRotation n s).irqLine = s.irqLine := (rfl)
@[simp] theorem setRotation_slots (n : Nat) (s : State) : (setRotation n s).slots = s.slots := (rfl)
@[simp] theorem setRotation_events (n : Nat) (s : State) : (setRotation n s).events = s.events := (rfl)
@[simp] theorem setRotation_hostOps (n : Nat) (s : State) : (setRotation n s).hostOps = s.hostOps := (rfl)
@[simp] theorem setRotation_answers (n : Nat) (s : State) : (setRotation n s).answers = s.answers := (rfl)
@[simp] theorem setRotation_freeCalls (n : Nat) (s : State) : (setRotation n s).freeCalls = s.freeCalls := (rfl)
@[simp] theorem setRotation_reply (n : Nat) (s : State) : (setRotation n s).reply = s.reply := (rfl)

/-! `setParams` -/

@[simp] theorem setParams_phase (a b : Byte) (s : State) : (setParams a b s).phase = s.phase := (rfl)
@[simp] theorem setParams_status0 (a b : Byte) (s : State) : (setParams a b s).status0 = s.status0 := (rfl)
@[simp] theorem setParams_status1 (a b : Byte) (s : State) : (setParams a b s).status1 = s.status1 := (rfl)
@[simp] theorem setParams_status2 (a b : Byte) (s : State) : (setParams a b s).status2 = s.status2 := (rfl)
@[simp] theorem setParams_status3 (a b : Byte) (s : State) : (setParams a b s).status3 = s.status3 := (rfl)
@[simp] theorem setParams_spec1 (a b : Byte) (s : State) : (setParams a b s).spec1 = a := (rfl)
@[simp] theorem setParams_spec2 (a b : Byte) (s : State) : (setParams a b s).spec2 = b := (rfl)
@[simp] theorem setParams_cmdBuf (a b : Byte) (s : State) : (setParams a b s).cmdBuf = s.cmdBuf := (rfl)
@[simp] theorem setParams_cmdLength (a b : Byte) (s : State) : (setParams a b s).cmdLength = s.cmdLength := (rfl)
@[simp] theorem setParams_cmdPosition (a b : Byte) (s : State) : (setParams a b s).cmdPosition = s.cmdPosition := (rfl)
@[simp] theorem setParams_resBuf (a b : Byte) (s : State) : (setParams a b s).resBuf = s.resBuf := (rfl)
@[simp] theorem setParams_resLength (a b : Byte) (s : State) : (setParams a b s).resLength = s.resLength := (rfl)
@[simp] theorem setParams_resPosition (a b : Byte) (s : State) : (setParams a b s).resPosition = s.resPosition := (rfl)
@[simp] theorem setParams_execBuf (a b : Byte) (s : State) : (setParams a b s).execBuf = s.execBuf := (rfl)
@[simp] theorem setParams_execLength (a b : Byte) (s : State) : (setParams a b s).execLength = s.execLength := (rfl)
@[simp] theorem setParams_execPosition (a b : Byte) (s : State) : (setParams a b s).execPosition = s.execPosition := (rfl)
@[simp] theorem setParams_selectedUnit (a b : Byte) (s : State) : (setParams a b s).selectedUnit = s.selectedUnit := (rfl)
@[simp] theorem setParams_selectedHead (a b : Byte) (s : State) : (setParams a b s).selectedHead = s.selectedHead := (rfl)
@[simp] theorem setParams_pendingOpcode (a b : Byte) (s : State) : (setParams a b s).pendingOpcode = s.pendingOpcode := (rfl)
@[simp] theorem setParams_writeDeletedFlag (a b : Byte) (s : State) : (setParams a b s).writeDeletedFlag = s.writeDeletedFlag := (rfl)
@[simp] theorem setParams_rotatingSectorIndex (a b : Byte) (s : State) : (setParams a b s).rotatingSectorIndex = s.rotatingSectorIndex := (rfl)
@[simp] theorem setParams_interruptState (a b : Byte) (s : State) : (setParams a b s).interruptState = s.interruptState := (rfl)
@[simp] theorem setParams_ticksRemaining (a b : Byte) (s : State) : (setParams a b s).ticksRemaining = s.ticksRemaining := (rfl)
@[simp] theorem setParams_irqLine (a b : Byte) (s : State) : (setParams a b s).irqLine = s.irqLine := (rfl)
@[simp] theorem setParams_slots (a b : Byte) (s : State) : (setParams a b s).slots = s.slots := (rfl)
@[simp] theorem setParams_events (a b : Byte) (s : State) : (setParams a b s).events = s.events := (rfl)
@[simp] theorem setParams_hostOps (a b : Byte) (s : State) : (setParams a b s).hostOps = s.hostOps := (rfl)
@[simp] theorem setParams_answers (a b : Byte) (s : State) : (setParams a b s).answers = s.answers := (rfl)
@[simp] theorem setParams_freeCalls (a b : Byte) (s : State) : (setParams a b s).freeCalls = s.freeCalls := (rfl)
@[simp] theorem setParams_reply (a b : Byte) (s : State) : (setParams a b s).reply = s.reply := (rfl)

/-! `setStatus3` -/

@[simp] theorem setStatus3_phase (b : Byte) (s : State) : (setStatus3 b s).phase = s.phase := (rfl)
@[simp] theorem setStatus3_status0 (b : Byte) (s : State) : (setStatus3 b s).status0 = s.status0 := (rfl)
@[simp] theorem setStatus3_status1 (b : Byte) (s : State) : (setStatus3 b s).status1 = s.status1 := (rfl)
@[simp] theorem setStatus3_status2 (b : Byte) (s : State) : (setStatus3 b s).status2 = s.status2 := (rfl)
@[simp] theorem setStatus3_status3 (b : Byte) (s : State) : (setStatus3 b s).status3 = b := (rfl)
@[simp] theorem setStatus3_spec1 (b : Byte) (s : State) : (setStatus3 b s).spec1 = s.spec1 := (rfl)
@[simp] theorem setStatus3_spec2 (b : Byte) (s : State) : (setStatus3 b s).spec2 = s.spec2 := (rfl)
@[simp] theorem setStatus3_cmdBuf (b : Byte) (s : State) : (setStatus3 b s).cmdBuf = s.cmdBuf := (rfl)
@[simp] theorem setStatus3_cmdLength (b : Byte) (s : State) : (setStatus3 b s).cmdLength = s.cmdLength := (rfl)
@[simp] theorem setStatus3_cmdPosition (b : Byte) (s : State) : (setStatus3 b s).cmdPosition = s.cmdPosition := (rfl)
@[simp] theorem setStatus3_resBuf (b : Byte) (s : State) : (setStatus3 b s).resBuf = s.resBuf := (rfl)
@[simp] theorem setStatus3_resLength (b : Byte) (s : State) : (setStatus3 b s).resLength = s.resLength := (rfl)
@[simp] theorem setStatus3_resPosition (b : Byte) (s : State) : (setStatus3 b s).resPosition = s.resPosition := (rfl)
@[simp] theorem setStatus3_execBuf (b : Byte) (s : State) : (setStatus3 b s).execBuf = s.execBuf := (rfl)
@[simp] theorem setStatus3_execLength (b : Byte) (s : State) : (setStatus3 b s).execLength = s.execLength := (rfl)
@[simp] theorem setStatus3_execPosition (b : Byte) (s : State) : (setStatus3 b s).execPosition = s.execPosition := (rfl)
@[simp] theorem setStatus3_selectedUnit (b : Byte) (s : State) : (setStatus3 b s).selectedUnit = s.selectedUnit := (rfl)
@[simp] theorem setStatus3_selectedHead (b : Byte) (s : State) : (setStatus3 b s).selectedHead = s.selectedHead := (rfl)
@[simp] theorem setStatus3_pendingOpcode (b : Byte) (s : State) : (setStatus3 b s).pendingOpcode = s.pendingOpcode := (rfl)
@[simp] theorem setStatus3_writeDeletedFlag (b : Byte) (s : State) : (setStatus3 b s).writeDeletedFlag = s.writeDeletedFlag := (rfl)
@[simp] theorem setStatus3_rotatingSectorIndex (b : Byte) (s : State) : (setStatus3 b s).rotatingSectorIndex = s.rotatingSectorIndex := (rfl)
@[simp] theorem setStatus3_interruptState (b : Byte) (s : State) : (setStatus3 b s).interruptState = s.interruptState := (rfl)
@[simp] theorem setStatus3_ticksRemaining (b : Byte) (s : State) : (setStatus3 b s).ticksRemaining = s.ticksRemaining := (rfl)
@[simp] theorem setStatus3_irqLine (b : Byte) (s : State) : (setStatus3 b s).irqLine = s.irqLine := (rfl)
@[simp] theorem setStatus3_slots (b : Byte) (s : State) : (setStatus3 b s).slots = s.slots := (rfl)
@[simp] theorem setStatus3_events (b : Byte) (s : State) : (setStatus3 b s).events = s.events := (rfl)
@[simp] theorem setStatus3_hostOps (b : Byte) (s : State) : (setStatus3 b s).hostOps = s.hostOps := (rfl)
@[simp] theorem setStatus3_answers (b : Byte) (s : State) : (setStatus3 b s).answers = s.answers := (rfl)
@[simp] theorem setStatus3_freeCalls (b : Byte) (s : State) : (setStatus3 b s).freeCalls = s.freeCalls := (rfl)
@[simp] theorem setStatus3_reply (b : Byte) (s : State) : (setStatus3 b s).reply = s.reply := (rfl)

/-! `takeOp` -/

@[simp] theorem takeOp_phase (rest : List HostOp) (s : State) : (takeOp rest s).phase = s.phase := (rfl)
@[simp] theorem takeOp_status0 (rest : List HostOp) (s : State) : (takeOp rest s).status0 = s.status0 := (rfl)
@[simp] theorem takeOp_status1 (rest : List HostOp) (s : State) : (takeOp rest s).status1 = s.status1 := (rfl)
@[simp] theorem takeOp_status2 (rest : List HostOp) (s : State) : (takeOp rest s).status2 = s.status2 := (rfl)
@[simp] theorem takeOp_status3 (rest : List HostOp) (s : State) : (takeOp rest s).status3 = s.status3 := (rfl)
@[simp] theorem takeOp_spec1 (rest : List HostOp) (s : State) : (takeOp rest s).spec1 = s.spec1 := (rfl)
@[simp] theorem takeOp_spec2 (rest : List HostOp) (s : State) : (takeOp rest s).spec2 = s.spec2 := (rfl)
@[simp] theorem takeOp_cmdBuf (rest : List HostOp) (s : State) : (takeOp rest s).cmdBuf = s.cmdBuf := (rfl)
@[simp] theorem takeOp_cmdLength (rest : List HostOp) (s : State) : (takeOp rest s).cmdLength = s.cmdLength := (rfl)
@[simp] theorem takeOp_cmdPosition (rest : List HostOp) (s : State) : (takeOp rest s).cmdPosition = s.cmdPosition := (rfl)
@[simp] theorem takeOp_resBuf (rest : List HostOp) (s : State) : (takeOp rest s).resBuf = s.resBuf := (rfl)
@[simp] theorem takeOp_resLength (rest : List HostOp) (s : State) : (takeOp rest s).resLength = s.resLength := (rfl)
@[simp] theorem takeOp_resPosition (rest : List HostOp) (s : State) : (takeOp rest s).resPosition = s.resPosition := (rfl)
@[simp] theorem takeOp_execBuf (rest : List HostOp) (s : State) : (takeOp rest s).execBuf = s.execBuf := (rfl)
@[simp] theorem takeOp_execLength (rest : List HostOp) (s : State) : (takeOp rest s).execLength = s.execLength := (rfl)
@[simp] theorem takeOp_execPosition (rest : List HostOp) (s : State) : (takeOp rest s).execPosition = s.execPosition := (rfl)
@[simp] theorem takeOp_selectedUnit (rest : List HostOp) (s : State) : (takeOp rest s).selectedUnit = s.selectedUnit := (rfl)
@[simp] theorem takeOp_selectedHead (rest : List HostOp) (s : State) : (takeOp rest s).selectedHead = s.selectedHead := (rfl)
@[simp] theorem takeOp_pendingOpcode (rest : List HostOp) (s : State) : (takeOp rest s).pendingOpcode = s.pendingOpcode := (rfl)
@[simp] theorem takeOp_writeDeletedFlag (rest : List HostOp) (s : State) : (takeOp rest s).writeDeletedFlag = s.writeDeletedFlag := (rfl)
@[simp] theorem takeOp_rotatingSectorIndex (rest : List HostOp) (s : State) : (takeOp rest s).rotatingSectorIndex = s.rotatingSectorIndex := (rfl)
@[simp] theorem takeOp_interruptState (rest : List HostOp) (s : State) : (takeOp rest s).interruptState = s.interruptState := (rfl)
@[simp] theorem takeOp_ticksRemaining (rest : List HostOp) (s : State) : (takeOp rest s).ticksRemaining = s.ticksRemaining := (rfl)
@[simp] theorem takeOp_irqLine (rest : List HostOp) (s : State) : (takeOp rest s).irqLine = s.irqLine := (rfl)
@[simp] theorem takeOp_slots (rest : List HostOp) (s : State) : (takeOp rest s).slots = s.slots := (rfl)
@[simp] theorem takeOp_events (rest : List HostOp) (s : State) : (takeOp rest s).events = s.events := (rfl)
@[simp] theorem takeOp_hostOps (rest : List HostOp) (s : State) : (takeOp rest s).hostOps = rest := (rfl)
@[simp] theorem takeOp_answers (rest : List HostOp) (s : State) : (takeOp rest s).answers = s.answers := (rfl)
@[simp] theorem takeOp_freeCalls (rest : List HostOp) (s : State) : (takeOp rest s).freeCalls = s.freeCalls := (rfl)
@[simp] theorem takeOp_reply (rest : List HostOp) (s : State) : (takeOp rest s).reply = none := (rfl)

/-! `setMotors` -/

@[simp] theorem setMotors_phase (mask : Byte) (s : State) : (setMotors mask s).phase = s.phase := (rfl)
@[simp] theorem setMotors_status0 (mask : Byte) (s : State) : (setMotors mask s).status0 = s.status0 := (rfl)
@[simp] theorem setMotors_status1 (mask : Byte) (s : State) : (setMotors mask s).status1 = s.status1 := (rfl)
@[simp] theorem setMotors_status2 (mask : Byte) (s : State) : (setMotors mask s).status2 = s.status2 := (rfl)
@[simp] theorem setMotors_status3 (mask : Byte) (s : State) : (setMotors mask s).status3 = s.status3 := (rfl)
@[simp] theorem setMotors_spec1 (mask : Byte) (s : State) : (setMotors mask s).spec1 = s.spec1 := (rfl)
@[simp] theorem setMotors_spec2 (mask : Byte) (s : State) : (setMotors mask s).spec2 = s.spec2 := (rfl)
@[simp] theorem setMotors_cmdBuf (mask : Byte) (s : State) : (setMotors mask s).cmdBuf = s.cmdBuf := (rfl)
@[simp] theorem setMotors_cmdLength (mask : Byte) (s : State) : (setMotors mask s).cmdLength = s.cmdLength := (rfl)
@[simp] theorem setMotors_cmdPosition (mask : Byte) (s : State) : (setMotors mask s).cmdPosition = s.cmdPosition := (rfl)
@[simp] theorem setMotors_resBuf (mask : Byte) (s : State) : (setMotors mask s).resBuf = s.resBuf := (rfl)
@[simp] theorem setMotors_resLength (mask : Byte) (s : State) : (setMotors mask s).resLength = s.resLength := (rfl)
@[simp] theorem setMotors_resPosition (mask : Byte) (s : State) : (setMotors mask s).resPosition = s.resPosition := (rfl)
@[simp] theorem setMotors_execBuf (mask : Byte) (s : State) : (setMotors mask s).execBuf = s.execBuf := (rfl)
@[simp] theorem setMotors_execLength (mask : Byte) (s : State) : (setMotors mask s).execLength = s.execLength := (rfl)
@[simp] theorem setMotors_execPosition (mask : Byte) (s : State) : (setMotors mask s).execPosition = s.execPosition := (rfl)
@[simp] theorem setMotors_selectedUnit (mask : Byte) (s : State) : (setMotors mask s).selectedUnit = s.selectedUnit := (rfl)
@[simp] theorem setMotors_selectedHead (mask : Byte) (s : State) : (setMotors mask s).selectedHead = s.selectedHead := (rfl)
@[simp] theorem setMotors_pendingOpcode (mask : Byte) (s : State) : (setMotors mask s).pendingOpcode = s.pendingOpcode := (rfl)
@[simp] theorem setMotors_writeDeletedFlag (mask : Byte) (s : State) : (setMotors mask s).writeDeletedFlag = s.writeDeletedFlag := (rfl)
@[simp] theorem setMotors_rotatingSectorIndex (mask : Byte) (s : State) : (setMotors mask s).rotatingSectorIndex = s.rotatingSectorIndex := (rfl)
@[simp] theorem setMotors_interruptState (mask : Byte) (s : State) : (setMotors mask s).interruptState = s.interruptState := (rfl)
@[simp] theorem setMotors_ticksRemaining (mask : Byte) (s : State) : (setMotors mask s).ticksRemaining = s.ticksRemaining := (rfl)
@[simp] theorem setMotors_irqLine (mask : Byte) (s : State) : (setMotors mask s).irqLine = s.irqLine := (rfl)
@[simp] theorem setMotors_events (mask : Byte) (s : State) : (setMotors mask s).events = s.events := (rfl)
@[simp] theorem setMotors_hostOps (mask : Byte) (s : State) : (setMotors mask s).hostOps = s.hostOps := (rfl)
@[simp] theorem setMotors_answers (mask : Byte) (s : State) : (setMotors mask s).answers = s.answers := (rfl)
@[simp] theorem setMotors_freeCalls (mask : Byte) (s : State) : (setMotors mask s).freeCalls = s.freeCalls := (rfl)
@[simp] theorem setMotors_reply (mask : Byte) (s : State) : (setMotors mask s).reply = s.reply := (rfl)

/-! `advanceExec` -/

@[simp] theorem advanceExec_phase (s : State) : (advanceExec s).phase = s.phase := (rfl)
@[simp] theorem advanceExec_status0 (s : State) : (advanceExec s).status0 = s.status0 := (rfl)
@[simp] theorem advanceExec_status1 (s : State) : (advanceExec s).status1 = s.status1 := (rfl)
@[simp] theorem advanceExec_status2 (s : State) : (advanceExec s).status2 = s.status2 := (rfl)
@[simp] theorem advanceExec_status3 (s : State) : (advanceExec s).status3 = s.status3 := (rfl)
@[simp] theorem advanceExec_spec1 (s : State) : (advanceExec s).spec1 = s.spec1 := (rfl)
@[simp] theorem advanceExec_spec2 (s : State) : (advanceExec s).spec2 = s.spec2 := (rfl)
@[simp] theorem advanceExec_cmdBuf (s : State) : (advanceExec s).cmdBuf = s.cmdBuf := (rfl)
@[simp] theorem advanceExec_cmdLength (s : State) : (advanceExec s).cmdLength = s.cmdLength := (rfl)
@[simp] theorem advanceExec_cmdPosition (s : State) : (advanceExec s).cmdPosition = s.cmdPosition := (rfl)
@[simp] theorem advanceExec_resBuf (s : State) : (advanceExec s).resBuf = s.resBuf := (rfl)
@[simp] theorem advanceExec_resLength (s : State) : (advanceExec s).resLength = s.resLength := (rfl)
@[simp] theorem advanceExec_resPosition (s : State) : (advanceExec s).resPosition = s.resPosition := (rfl)
@[simp] theorem advanceExec_execBuf (s : State) : (advanceExec s).execBuf = s.execBuf := (rfl)
@[simp] theorem advanceExec_execLength (s : State) : (advanceExec s).execLength = s.execLength - 1 := (rfl)
@[simp] theorem advanceExec_execPosition (s : State) : (advanceExec s).execPosition = s.execPosition + 1 := (rfl)
@[simp] theorem advanceExec_selectedUnit (s : State) : (advanceExec s).selectedUnit = s.selectedUnit := (rfl)
@[simp] theorem advanceExec_selectedHead (s : State) : (advanceExec s).selectedHead = s.selectedHead := (rfl)
@[simp] theorem advanceExec_pendingOpcode (s : State) : (advanceExec s).pendingOpcode = s.pendingOpcode := (rfl)
@[simp] theorem advanceExec_writeDeletedFlag (s : State) : (advanceExec s).writeDeletedFlag = s.writeDeletedFlag := (rfl)
@[simp] theorem advanceExec_rotatingSectorIndex (s : State) : (advanceExec s).rotatingSectorIndex = s.rotatingSectorIndex := (rfl)
@[simp] theorem advanceExec_interruptState (s : State) : (advanceExec s).interruptState = s.interruptState := (rfl)
@[simp] theorem advanceExec_ticksRemaining (s : State) : (advanceExec s).ticksRemaining = s.ticksRemaining := (rfl)
@[simp] theorem advanceExec_irqLine (s : State) : (advanceExec s).irqLine = s.irqLine := (rfl)
@[simp] theorem advanceExec_slots (s : State) : (advanceExec s).slots = s.slots := (rfl)
@[simp] theorem advanceExec_events (s : State) : (advanceExec s).events = s.events := (rfl)
@[simp] theorem advanceExec_hostOps (s : State) : (advanceExec s).hostOps = s.hostOps := (rfl)
@[simp] theorem advanceExec_answers (s : State) : (advanceExec s).answers = s.answers := (rfl)
@[simp] theorem advanceExec_freeCalls (s : State) : (advanceExec s).freeCalls = s.freeCalls := (rfl)
@[simp] theorem advanceExec_reply (s : State) : (advanceExec s).reply = s.reply := (rfl)

/-! `advanceResult` -/

@[simp] theorem advanceResult_phase (s : State) : (advanceResult s).phase = s.phase := (rfl)
@[simp] theorem advanceResult_status0 (s : State) : (advanceResult s).status0 = s.status0 := (rfl)
@[simp] theorem advanceResult_status1 (s : State) : (advanceResult s).status1 = s.status1 := (rfl)
@[simp] theorem advanceResult_status2 (s : State) : (advanceResult s).status2 = s.status2 := (rfl)
@[simp] theorem advanceResult_status3 (s : State) : (advanceResult s).status3 = s.status3 := (rfl)
@[simp] theorem advanceResult_spec1 (s : State) : (advanceResult s).spec1 = s.spec1 := (rfl)
@[simp] theorem advanceResult_spec2 (s : State) : (advanceResult s).spec2 = s.spec2 := (rfl)
@[simp] theorem advanceResult_cmdBuf (s : State) : (advanceResult s).cmdBuf = s.cmdBuf := (rfl)
@[simp] theorem advanceResult_cmdLength (s : State) : (advanceResult s).cmdLength = s.cmdLength := (rfl)
@[simp] theorem advanceResult_cmdPosition (s : State) : (advanceResult s).cmdPosition = s.cmdPosition := (rfl)
@[simp] theorem advanceResult_resBuf (s : State) : (advanceResult s).resBuf = s.resBuf := (rfl)
@[simp] theorem advanceResult_resLength (s : State) : (advanceResult s).resLength = s.resLength - 1 := (rfl)
@[simp] theorem advanceResult_resPosition (s : State) : (advanceResult s).resPosition = s.resPosition + 1 := (rfl)
@[simp] theorem advanceResult_execBuf (s : State) : (advanceResult s).execBuf = s.execBuf := (rfl)
@[simp] theorem advanceResult_execLength (s : State) : (advanceResult s).execLength = s.execLength := (rfl)
@[simp] theorem advanceResult_execPosition (s : State) : (advanceResult s).execPosition = s.execPosition := (rfl)
@[simp] theorem advanceResult_selectedUnit (s : State) : (advanceResult s).selectedUnit = s.selectedUnit := (rfl)
@[simp] theorem advanceResult_selectedHead (s : State) : (advanceResult s).selectedHead = s.selectedHead := (rfl)
@[simp] theorem advanceResult_pendingOpcode (s : State) : (advanceResult s).pendingOpcode = s.pendingOpcode := (rfl)
@[simp] theorem advanceResult_writeDeletedFlag (s : State) : (advanceResult s).writeDeletedFlag = s.writeDeletedFlag := (rfl)
@[simp] theorem advanceResult_rotatingSectorIndex (s : State) : (advanceResult s).rotatingSectorIndex = s.rotatingSectorIndex := (rfl)
@[simp] theorem advanceResult_interruptState (s : State) : (advanceResult s).interruptState = s.interruptState := (rfl)
@[simp] theorem advanceResult_ticksRemaining (s : State) : (advanceResult s).ticksRemaining = s.ticksRemaining := (rfl)
@[simp] theorem advanceResult_irqLine (s : State) : (advanceResult s).irqLine = s.irqLine := (rfl)
@[simp] theorem advanceResult_slots (s : State) : (advanceResult s).slots = s.slots := (rfl)
@[simp] theorem advanceResult_events (s : State) : (advanceResult s).events = s.events := (rfl)
@[simp] theorem advanceResult_hostOps (s : State) : (advanceResult s).hostOps = s.hostOps := (rfl)
@[simp] theorem advanceResult_answers (s : State) : (advanceResult s).answers = s.answers := (rfl)
@[simp] theorem advanceResult_freeCalls (s : State) : (advanceResult s).freeCalls = s.freeCalls := (rfl)
@[simp] theorem advanceResult_reply (s : State) : (advanceResult s).reply = s.reply := (rfl)

/-! `arm`: what it leaves alone -/

@[simp] theorem arm_phase (k : InterruptKind) (n : Nat) (s : State) : (arm k n s).phase = s.phase := by
  unfold arm; split <;> rfl
@[simp] theorem arm_status0 (k : InterruptKind) (n : Nat) (s : State) : (arm k n s).status0 = s.status0 := by
  unfold arm; split <;> rfl
@[simp] theorem arm_status1 (k : InterruptKind) (n : Nat) (s : State) : (arm k n s).status1 = s.status1 := by
  unfold arm; split <;> rfl
@[simp] theorem arm_status2 (k : InterruptKind) (n : Nat) (s : State) : (arm k n s).status2 = s.status2 := by
  unfold arm; split <;> rfl
@[simp] theorem arm_status3 (k : InterruptKind) (n : Nat) (s : State) : (arm k n s).status3 = s.status3 := by
  unfold arm; split <;> rfl
@[simp] theorem arm_spec1 (k : InterruptKind) (n : Nat) (s : State) : (arm k n s).spec1 = s.spec1 := by
  unfold arm; split <;> rfl
@[simp] theorem arm_spec2 (k : InterruptKind) (n : Nat) (s : State) : (arm k n s).spec2 = s.spec2 := by
  unfold arm; split <;> rfl
@[simp] theorem arm_cmdBuf (k : InterruptKind) (n : Nat) (s : State) : (arm k n s).cmdBuf = s.cmdBuf := by
  unfold arm; split <;> rfl
@[simp] theorem arm_cmdLength (k : InterruptKind) (n : Nat) (s : State) : (arm k n s).cmdLength = s.cmdLength := by
  unfold arm; split <;> rfl
@[simp] theorem arm_cmdPosition (k : InterruptKind) (n : Nat) (s : State) : (arm k n s).cmdPosition = s.cmdPosition := by
  unfold arm; split <;> rfl
@[simp] theorem arm_resBuf (k : InterruptKind) (n : Nat) (s : State) : (arm k n s).resBuf = s.resBuf := by
  unfold arm; split <;> rfl
@[simp] theorem arm_resLength (k : InterruptKind) (n : Nat) (s : State) : (arm k n s).resLength = s.resLength := by
  unfold arm; split <;> rfl
@[simp] theorem arm_resPosition (k : InterruptKind) (n : Nat) (s : State) : (arm k n s).resPosition = s.resPosition := by
  unfold arm; split <;> rfl
@[simp] theorem arm_execBuf (k : InterruptKind) (n : Nat) (s : State) : (arm k n s).execBuf = s.execBuf := by
  unfold arm; split <;> rfl
@[simp] theorem arm_execLength (k : InterruptKind) (n : Nat) (s : State) : (arm k n s).execLength = s.execLength := by
  unfold arm; split <;> rfl
@[simp] theorem arm_execPosition (k : InterruptKind) (n : Nat) (s : State) : (arm k n s).execPosition = s.execPosition := by
  unfold arm; split <;> rfl
@[simp] theorem arm_selectedUnit (k : InterruptKind) (n : Nat) (s : State) : (arm k n s).selectedUnit = s.selectedUnit := by
  unfold arm; split <;> rfl
@[simp] theorem arm_selectedHead (k : InterruptKind) (n : Nat) (s : State) : (arm k n s).selectedHead = s.selectedHead := by
  unfold arm; split <;> rfl
@[simp] theorem arm_pendingOpcode (k : InterruptKind) (n : Nat) (s : State) : (arm k n s).pendingOpcode = s.pendingOpcode := by
  unfold arm; split <;> rfl
@[simp] theorem arm_writeDeletedFlag (k : InterruptKind) (n : Nat) (s : State) : (arm k n s).writeDeletedFlag = s.writeDeletedFlag := by
  unfold arm; split <;> rfl
@[simp] theorem arm_rotatingSectorIndex (k : InterruptKind) (n : Nat) (s : State) : (arm k n s).rotatingSectorIndex = s.rotatingSectorIndex := by
  unfold arm; split <;> rfl
@[simp] theorem arm_irqLine (k : InterruptKind) (n : Nat) (s : State) : (arm k n s).irqLine = s.irqLine := by
  unfold arm; split <;> rfl
@[simp] theorem arm_slots (k : InterruptKind) (n : Nat) (s : State) : (arm k n s).slots = s.slots := by
  unfold arm; split <;> rfl
@[simp] theorem arm_events (k : InterruptKind) (n : Nat) (s : State) : (arm k n s).events = s.events := by
  unfold arm; split <;> rfl
@[simp] theorem arm_hostOps (k : InterruptKind) (n : Nat) (s : State) : (arm k n s).hostOps = s.hostOps := by
  unfold arm; split <;> rfl
@[simp] theorem arm_answers (k : InterruptKind) (n : Nat) (s : State) : (arm k n s).answers = s.answers := by
  unfold arm; split <;> rfl
@[simp] theorem arm_freeCalls (k : InterruptKind) (n : Nat) (s : State) : (arm k n s).freeCalls = s.freeCalls := by
  unfold arm; split <;> rfl
@[simp] theorem arm_reply (k : InterruptKind) (n : Nat) (s : State) : (arm k n s).reply = s.reply := by
  unfold arm; split <;> rfl

/-! `lowerLine`: what it leaves alone -/

@[simp] theorem lowerLine_phase (s : State) : (lowerLine s).phase = s.phase := by
  unfold lowerLine; split <;> rfl
@[simp] theorem lowerLine_status0 (s : State) : (lowerLine s).status0 = s.status0 := by
  unfold lowerLine; split <;> rfl
@[simp] theorem lowerLine_status1 (s : State) : (lowerLine s).status1 = s.status1 := by
  unfold lowerLine; split <;> rfl
@[simp] theorem lowerLine_status2 (s : State) : (lowerLine s).status2 = s.status2 := by
  unfold lowerLine; split <;> rfl
@[simp] theorem lowerLine_status3 (s : State) : (lowerLine s).status3 = s.status3 := by
  unfold lowerLine; split <;> rfl
@[simp] theorem lowerLine_spec1 (s : State) : (lowerLine s).spec1 = s.spec1 := by
  unfold lowerLine; split <;> rfl
@[simp] theorem lowerLine_spec2 (s : State) : (lowerLine s).spec2 = s.spec2 := by
  unfold lowerLine; split <;> rfl
@[simp] theorem lowerLine_cmdBuf (s : State) : (lowerLine s).cmdBuf = s.cmdBuf := by
  unfold lowerLine; split <;> rfl
@[simp] theorem lowerLine_cmdLength (s : State) : (lowerLine s).cmdLength = s.cmdLength := by
  unfold lowerLine; split <;> rfl
@[simp] theorem lowerLine_cmdPosition (s : State) : (lowerLine s).cmdPosition = s.cmdPosition := by
  unfold lowerLine; split <;> rfl
@[simp] theorem lowerLine_resBuf (s : State) : (lowerLine s).resBuf = s.resBuf := by
  unfold lowerLine; split <;> rfl
@[simp] theorem lowerLine_resLength (s : State) : (lowerLine s).resLength = s.resLength := by
  unfold lowerLine; split <;> rfl
@[simp] theorem lowerLine_resPosition (s : State) : (lowerLine s).resPosition = s.resPosition := by
  unfold lowerLine; split <;> rfl
@[simp] theorem lowerLine_execBuf (s : State) : (lowerLine s).execBuf = s.execBuf := by
  unfold lowerLine; split <;> rfl
@[simp] theorem lowerLine_execLength (s : State) : (lowerLine s).execLength = s.execLength := by
  unfold lowerLine; split <;> rfl
@[simp] theorem lowerLine_execPosition (s : State) : (lowerLine s).execPosition = s.execPosition := by
  unfold lowerLine; split <;> rfl
@[simp] theorem lowerLine_selectedUnit (s : State) : (lowerLine s).selectedUnit = s.selectedUnit := by
  unfold lowerLine; split <;> rfl
@[simp] theorem lowerLine_selectedHead (s : State) : (lowerLine s).selectedHead = s.selectedHead := by
  unfold lowerLine; split <;> rfl
@[simp] theorem lowerLine_pendingOpcode (s : State) : (lowerLine s).pendingOpcode = s.pendingOpcode := by
  unfold lowerLine; split <;> rfl
@[simp] theorem lowerLine_writeDeletedFlag (s : State) : (lowerLine s).writeDeletedFlag = s.writeDeletedFlag := by
  unfold lowerLine; split <;> rfl
@[simp] theorem lowerLine_rotatingSectorIndex (s : State) : (lowerLine s).rotatingSectorIndex = s.rotatingSectorIndex := by
  unfold lowerLine; split <;> rfl
@[simp] theorem lowerLine_interruptState (s : State) : (lowerLine s).interruptState = s.interruptState := by
  unfold lowerLine; split <;> rfl
@[simp] theorem lowerLine_ticksRemaining (s : State) : (lowerLine s).ticksRemaining = s.ticksRemaining := by
  unfold lowerLine; split <;> rfl
@[simp] theorem lowerLine_slots (s : State) : (lowerLine s).slots = s.slots := by
  unfold lowerLine; split <;> rfl
@[simp] theorem lowerLine_hostOps (s : State) : (lowerLine s).hostOps = s.hostOps := by
  unfold lowerLine; split <;> rfl
@[simp] theorem lowerLine_answers (s : State) : (lowerLine s).answers = s.answers := by
  unfold lowerLine; split <;> rfl
@[simp] theorem lowerLine_freeCalls (s : State) : (lowerLine s).freeCalls = s.freeCalls := by
  unfold lowerLine; split <;> rfl
@[simp] theorem lowerLine_reply (s : State) : (lowerLine s).reply = s.reply := by
  unfold lowerLine; split <;> rfl

/-! `clearInterrupt`: what it leaves alone -/

@[simp] theorem clearInterrupt_phase (s : State) : (clearInterrupt s).phase = s.phase := by
  simp [clearInterrupt]
@[simp] theorem clearInterrupt_status0 (s : State) : (clearInterrupt s).status0 = s.status0 := by
  simp [clearInterrupt]
@[simp] theorem clearInterrupt_status1 (s : State) : (clearInterrupt s).status1 = s.status1 := by
  simp [clearInterrupt]
@[simp] theorem clearInterrupt_status2 (s : State) : (clearInterrupt s).status2 = s.status2 := by
  simp [clearInterrupt]
@[simp] theorem clearInterrupt_status3 (s : State) : (clearInterrupt s).status3 = s.status3 := by
  simp [clearInterrupt]
@[simp] theorem clearInterrupt_spec1 (s : State) : (clearInterrupt s).spec1 = s.spec1 := by
  simp [clearInterrupt]
@[simp] theorem clearInterrupt_spec2 (s : State) : (clearInterrupt s).spec2 = s.spec2 := by
  simp [clearInterrupt]
@[simp] theorem clearInterrupt_cmdBuf (s : State) : (clearInterrupt s).cmdBuf = s.cmdBuf := by
  simp [clearInterrupt]
@[simp] theorem clearInterrupt_cmdLength (s : State) : (clearInterrupt s).cmdLength = s.cmdLength := by
  simp [clearInterrupt]
@[simp] theorem clearInterrupt_cmdPosition (s : State) : (clearInterrupt s).cmdPosition = s.cmdPosition := by
  simp [clearInterrupt]
@[simp] theorem clearInterrupt_resBuf (s : State) : (clearInterrupt s).resBuf = s.resBuf := by
  simp [clearInterrupt]
@[simp] theorem clearInterrupt_resLength (s : State) : (clearInterrupt s).resLength = s.resLength := by
  simp [clearInterrupt]
@[simp] theorem clearInterrupt_resPosition (s : State) : (clearInterrupt s).resPosition = s.resPosition := by
  simp [clearInterrupt]
@[simp] theorem clearInterrupt_execBuf (s : State) : (clearInterrupt s).execBuf = s.execBuf := by
  simp [clearInterrupt]
@[simp] theorem clearInterrupt_execLength (s : State) : (clearInterrupt s).execLength = s.execLength := by
  simp [clearInterrupt]
@[simp] theorem clearInterrupt_execPosition (s : State) : (clearInterrupt s).execPosition = s.execPosition := by
  simp [clearInterrupt]
@[simp] theorem clearInterrupt_selectedUnit (s : State) : (clearInterrupt s).selectedUnit = s.selectedUnit := by
  simp [clearInterrupt]
@[simp] theorem clearInterrupt_selectedHead (s : State) : (clearInterrupt s).selectedHead = s.selectedHead := by
  simp [clearInterrupt]
@[simp] theorem clearInterrupt_pendingOpcode (s : State) : (clearInterrupt s).pendingOpcode = s.pendingOpcode := by
  simp [clearInterrupt]
@[simp] theorem clearInterrupt_writeDeletedFlag (s : State) : (clearInterrupt s).writeDeletedFlag = s.writeDeletedFlag := by
  simp [clearInterrupt]
@[simp] theorem clearInterrupt_rotatingSectorIndex (s : State) : (clearInterrupt s).rotatingSectorIndex = s.rotatingSectorIndex := by
  simp [clearInterrupt]
@[simp] theorem clearInterrupt_slots (s : State) : (clearInterrupt s).slots = s.slots := by
  simp [clearInterrupt]
@[simp] theorem clearInterrupt_hostOps (s : State) : (clearInterrupt s).hostOps = s.hostOps := by
  simp [clearInterrupt]
@[simp] theorem clearInterrupt_answers (s : State) : (clearInterrupt s).answers = s.answers := by
  simp [clearInterrupt]
@[simp] theorem clearInterrupt_freeCalls (s : State) : (clearInterrupt s).freeCalls = s.freeCalls := by
  simp [clearInterrupt]
@[simp] theorem clearInterrupt_reply (s : State) : (clearInterrupt s).reply = s.reply := by
  simp [clearInterrupt]

/-! `ackOnAccess`: what it leaves alone -/

@[simp] theorem ackOnAccess_phase (s : State) : (ackOnAccess s).phase = s.phase := by
  unfold ackOnAccess; split <;> simp
@[simp] theorem ackOnAccess_status0 (s : State) : (ackOnAccess s).status0 = s.status0 := by
  unfold ackOnAccess; split <;> simp
@[simp] theorem ackOnAccess_status1 (s : State) : (ackOnAccess s).status1 = s.status1 := by
  unfold ackOnAccess; split <;> simp
@[simp] theorem ackOnAccess_status2 (s : State) : (ackOnAccess s).status2 = s.status2 := by
  unfold ackOnAccess; split <;> simp
@[simp] theorem ackOnAccess_status3 (s : State) : (ackOnAccess s).status3 = s.status3 := by
  unfold ackOnAccess; split <;> simp
@[simp] theorem ackOnAccess_spec1 (s : State) : (ackOnAccess s).spec1 = s.spec1 := by
  unfold ackOnAccess; split <;> simp
@[simp] theorem ackOnAccess_spec2 (s : State) : (ackOnAccess s).spec2 = s.spec2 := by
  unfold ackOnAccess; split <;> simp
@[simp] theorem ackOnAccess_cmdBuf (s : State) : (ackOnAccess s).cmdBuf = s.cmdBuf := by
  unfold ackOnAccess; split <;> simp
@[simp] theorem ackOnAccess_cmdLength (s : State) : (ackOnAccess s).cmdLength = s.cmdLength := by
  unfold ackOnAccess; split <;> simp
@[simp] theorem ackOnAccess_cmdPosition (s : State) : (ackOnAccess s).cmdPosition = s.cmdPosition := by
  unfold ackOnAccess; split <;> simp
@[simp] theorem ackOnAccess_resBuf (s : State) : (ackOnAccess s).resBuf = s.resBuf := by
  unfold ackOnAccess; split <;> simp
@[simp] theorem ackOnAccess_resLength (s : State) : (ackOnAccess s).resLength = s.resLength := by
  unfold ackOnAccess; split <;> simp
@[simp] theorem ackOnAccess_resPosition (s : State) : (ackOnAccess s).resPosition = s.resPosition := by
  unfold ackOnAccess; split <;> simp
@[simp] theorem ackOnAccess_execBuf (s : State) : (ackOnAccess s).execBuf = s.execBuf := by
  unfold ackOnAccess; split <;> simp
@[simp] theorem ackOnAccess_execLength (s : State) : (ackOnAccess s).execLength = s.execLength := by
  unfold ackOnAccess; split <;> simp
@[simp] theorem ackOnAccess_execPosition (s : State) : (ackOnAccess s).execPosition = s.execPosition := by
  unfold ackOnAccess; split <;> simp
@[simp] theorem ackOnAccess_selectedUnit (s : State) : (ackOnAccess s).selectedUnit = s.selectedUnit := by
  unfold ackOnAccess; split <;> simp
@[simp] theorem ackOnAccess_selectedHead (s : State) : (ackOnAccess s).selectedHead = s.selectedHead := by
  unfold ackOnAccess; split <;> simp
@[simp] theorem ackOnAccess_pendingOpcode (s : State) : (ackOnAccess s).pendingOpcode = s.pendingOpcode := by
  unfold ackOnAccess; split <;> simp
@[simp] theorem ackOnAccess_writeDeletedFlag (s : State) : (ackOnAccess s).writeDeletedFlag = s.writeDeletedFlag := by
  unfold ackOnAccess; split <;> simp
@[simp] theorem ackOnAccess_rotatingSectorIndex (s : State) : (ackOnAccess s).rotatingSectorIndex = s.rotatingSectorIndex := by
  unfold ackOnAccess; split <;> simp
@[simp] theorem ackOnAccess_slots (s : State) : (ackOnAccess s).slots = s.slots := by
  unfold ackOnAccess; split <;> simp
@[simp] theorem ackOnAccess_hostOps (s : State) : (ackOnAccess s).hostOps = s.hostOps := by
  unfold ackOnAccess; split <;> simp
@[simp] theorem ackOnAccess_answers (s : State) : (ackOnAccess s).answers = s.answers := by
  unfold ackOnAccess; split <;> simp
@[simp] theorem ackOnAccess_freeCalls (s : State) : (ackOnAccess s).freeCalls = s.freeCalls := by
  unfold ackOnAccess; split <;> simp
@[simp] theorem ackOnAccess_reply (s : State) : (ackOnAccess s).reply = s.reply := by
  unfold ackOnAccess; split <;> simp

/-! `armOnCompletion`: what it leaves alone -/

@[simp] theorem armOnCompletion_phase (s : State) : (armOnCompletion s).phase = s.phase := by
  unfold armOnCompletion; split <;> simp
@[simp] theorem armOnCompletion_status0 (s : State) : (armOnCompletion s).status0 = s.status0 := by
  unfold armOnCompletion; split <;> simp
@[simp] theorem armOnCompletion_status1 (s : State) : (armOnCompletion s).status1 = s.status1 := by
  unfold armOnCompletion; split <;> simp
@[simp] theorem armOnCompletion_status2 (s : State) : (armOnCompletion s).status2 = s.status2 := by
  unfold armOnCompletion; split <;> simp
@[simp] theorem armOnCompletion_status3 (s : State) : (armOnCompletion s).status3 = s.status3 := by
  unfold armOnCompletion; split <;> simp
@[simp] theorem armOnCompletion_spec1 (s : State) : (armOnCompletion s).spec1 = s.spec1 := by
  unfold armOnCompletion; split <;> simp
@[simp] theorem armOnCompletion_spec2 (s : State) : (armOnCompletion s).spec2 = s.spec2 := by
  unfold armOnCompletion; split <;> simp
@[simp] theorem armOnCompletion_cmdBuf (s : State) : (armOnCompletion s).cmdBuf = s.cmdBuf := by
  unfold armOnCompletion; split <;> simp
@[simp] theorem armOnCompletion_cmdLength (s : State) : (armOnCompletion s).cmdLength = s.cmdLength := by
  unfold armOnCompletion; split <;> simp
@[simp] theorem armOnCompletion_cmdPosition (s : State) : (armOnCompletion s).cmdPosition = s.cmdPosition := by
  unfold armOnCompletion; split <;> simp
@[simp] theorem armOnCompletion_resBuf (s : State) : (armOnCompletion s).resBuf = s.resBuf := by
  unfold armOnCompletion; split <;> simp
@[simp] theorem armOnCompletion_resLength (s : State) : (armOnCompletion s).resLength = s.resLength := by
  unfold armOnCompletion; split <;> simp
@[simp] theorem armOnCompletion_resPosition (s : State) : (armOnCompletion s).resPosition = s.resPosition := by
  unfold armOnCompletion; split <;> simp
@[simp] theorem armOnCompletion_execBuf (s : State) : (armOnCompletion s).execBuf = s.execBuf := by
  unfold armOnCompletion; split <;> simp
@[simp] theorem armOnCompletion_execLength (s : State) : (armOnCompletion s).execLength = s.execLength := by
  unfold armOnCompletion; split <;> simp
@[simp] theorem armOnCompletion_execPosition (s : State) : (armOnCompletion s).execPosition = s.execPosition := by
  unfold armOnCompletion; split <;> simp
@[simp] theorem armOnCompletion_selectedUnit (s : State) : (armOnCompletion s).selectedUnit = s.selectedUnit := by
  unfold armOnCompletion; split <;> simp
@[simp] theorem armOnCompletion_selectedHead (s : State) : (armOnCompletion s).selectedHead = s.selectedHead := by
  unfold armOnCompletion; split <;> simp
@[simp] theorem armOnCompletion_pendingOpcode (s : State) : (armOnCompletion s).pendingOpcode = s.pendingOpcode := by
  unfold armOnCompletion; split <;> simp
@[simp] theorem armOnCompletion_writeDeletedFlag (s : State) : (armOnCompletion s).writeDeletedFlag = s.writeDeletedFlag := by
  unfold armOnCompletion; split <;> simp
@[simp] theorem armOnCompletion_rotatingSectorIndex (s : State) : (armOnCompletion s).rotatingSectorIndex = s.rotatingSectorIndex := by
  unfold armOnCompletion; split <;> simp
@[simp] theorem armOnCompletion_irqLine (s : State) : (armOnCompletion s).irqLine = s.irqLine := by
  unfold armOnCompletion; split <;> simp
@[simp] theorem armOnCompletion_slots (s : State) : (armOnCompletion s).slots = s.slots := by
  unfold armOnCompletion; split <;> simp
@[simp] theorem armOnCompletion_events (s : State) : (armOnCompletion s).events = s.events := by
  unfold armOnCompletion; split <;> simp
@[simp] theorem armOnCompletion_hostOps (s : State) : (armOnCompletion s).hostOps = s.hostOps := by
  unfold armOnCompletion; split <;> simp
@[simp] theorem armOnCompletion_answers (s : State) : (armOnCompletion s).answers = s.answers := by
  unfold armOnCompletion; split <;> simp
@[simp] theorem armOnCompletion_freeCalls (s : State) : (armOnCompletion s).freeCalls = s.freeCalls := by
  unfold armOnCompletion; split <;> simp
@[simp] theorem armOnCompletion_reply (s : State) : (armOnCompletion s).reply = s.reply := by
  unfold armOnCompletion; split <;> simp

/-! `tick`: what it leaves alone -/

@[simp] theorem tick_phase (s : State) : (tick s).phase = s.phase := by
  unfold tick; repeat' split
  all_goals rfl
@[simp] theorem tick_status0 (s : State) : (tick s).status0 = s.status0 := by
  unfold tick; repeat' split
  all_goals rfl
@[simp] theorem tick_status1 (s : State) : (tick s).status1 = s.status1 := by
  unfold tick; repeat' split
  all_goals rfl
@[simp] theorem tick_status2 (s : State) : (tick s).status2 = s.status2 := by
  unfold tick; repeat' split
  all_goals rfl
@[simp] theorem tick_status3 (s : State) : (tick s).status3 = s.status3 := by
  unfold tick; repeat' split
  all_goals rfl
@[simp] theorem tick_spec1 (s : State) : (tick s).spec1 = s.spec1 := by
  unfold tick; repeat' split
  all_goals rfl
@[simp] theorem tick_spec2 (s : State) : (tick s).spec2 = s.spec2 := by
  unfold tick; repeat' split
  all_goals rfl
@[simp] theorem tick_cmdBuf (s : State) : (tick s).cmdBuf = s.cmdBuf := by
  unfold tick; repeat' split
  all_goals rfl
@[simp] theorem tick_cmdLength (s : State) : (tick s).cmdLength = s.cmdLength := by
  unfold tick; repeat' split
  all_goals rfl
@[simp] theorem tick_cmdPosition (s : State) : (tick s).cmdPosition = s.cmdPosition := by
  unfold tick; repeat' split
  all_goals rfl
@[simp] theorem tick_resBuf (s : State) : (tick s).resBuf = s.resBuf := by
  unfold tick; repeat' split
  all_goals rfl
@[simp] theorem tick_resLength (s : State) : (tick s).resLength = s.resLength := by
  unfold tick; repeat' split
  all_goals rfl
@[simp] theorem tick_resPosition (s : State) : (tick s).resPosition = s.resPosition := by
  unfold tick; repeat' split
  all_goals rfl
@[simp] theorem tick_execBuf (s : State) : (tick s).execBuf = s.execBuf := by
  unfold tick; repeat' split
  all_goals rfl
@[simp] theorem tick_execLength (s : State) : (tick s).execLength = s.execLength := by
  unfold tick; repeat' split
  all_goals rfl
@[simp] theorem tick_execPosition (s : State) : (tick s).execPosition = s.execPosition := by
  unfold tick; repeat' split
  all_goals rfl
@[simp] theorem tick_selectedUnit (s : State) : (tick s).selectedUnit = s.selectedUnit := by
  unfold tick; repeat' split
  all_goals rfl
@[simp] theorem tick_selectedHead (s : State) : (tick s).selectedHead = s.selectedHead := by
  unfold tick; repeat' split
  all_goals rfl
@[simp] theorem tick_pendingOpcode (s : State) : (tick s).pendingOpcode = s.pendingOpcode := by
  unfold tick; repeat' split
  all_goals rfl
@[simp] theorem tick_writeDeletedFlag (s : State) : (tick s).writeDeletedFlag = s.writeDeletedFlag := by
  unfold tick; repeat' split
  all_goals rfl
@[simp] theorem tick_rotatingSectorIndex (s : State) : (tick s).rotatingSectorIndex = s.rotatingSectorIndex := by
  unfold tick; repeat' split
  all_goals rfl
@[simp] theorem tick_interruptState (s : State) : (tick s).interruptState = s.interruptState := by
  unfold tick; repeat' split
  all_goals rfl
@[simp] theorem tick_slots (s : State) : (tick s).slots = s.slots := by
  unfold tick; repeat' split
  all_goals rfl
@[simp] theorem tick_hostOps (s : State) : (tick s).hostOps = s.hostOps := by
  unfold tick; repeat' split
  all_goals rfl
@[simp] theorem tick_answers (s : State) : (tick s).answers = s.answers := by
  unfold tick; repeat' split
  all_goals rfl
@[simp] theorem tick_freeCalls (s : State) : (tick s).freeCalls = s.freeCalls := by
  unfold tick; repeat' split
  all_goals rfl
@[simp] theorem tick_reply (s : State) : (tick s).reply = s.reply := by
  unfold tick; repeat' split
  all_goals rfl

/-! `scanCompare`: what it leaves alone -/

@[simp] theorem scanCompare_phase (i : Instr) (hb db : Byte) (s : State) : (scanCompare i hb db s).phase = s.phase := by
  unfold scanCompare; repeat' split
  all_goals rfl
@[simp] theorem scanCompare_status0 (i : Instr) (hb db : Byte) (s : State) : (scanCompare i hb db s).status0 = s.status0 := by
  unfold scanCompare; repeat' split
  all_goals rfl
@[simp] theorem scanCompare_status1 (i : Instr) (hb db : Byte) (s : State) : (scanCompare i hb db s).status1 = s.status1 := by
  unfold scanCompare; repeat' split
  all_goals rfl
@[simp] theorem scanCompare_status3 (i : Instr) (hb db : Byte) (s : State) : (scanCompare i hb db s).status3 = s.status3 := by
  unfold scanCompare; repeat' split
  all_goals rfl
@[simp] theorem scanCompare_spec1 (i : Instr) (hb db : Byte) (s : State) : (scanCompare i hb db s).spec1 = s.spec1 := by
  unfold scanCompare; repeat' split
  all_goals rfl
@[simp] theorem scanCompare_spec2 (i : Instr) (hb db : Byte) (s : State) : (scanCompare i hb db s).spec2 = s.spec2 := by
  unfold scanCompare; repeat' split
  all_goals rfl
@[simp] theorem scanCompare_cmdBuf (i : Instr) (hb db : Byte) (s : State) : (scanCompare i hb db s).cmdBuf = s.cmdBuf := by
  unfold scanCompare; repeat' split
  all_goals rfl
@[simp] theorem scanCompare_cmdLength (i : Instr) (hb db : Byte) (s : State) : (scanCompare i hb db s).cmdLength = s.cmdLength := by
  unfold scanCompare; repeat' split
  all_goals rfl
@[simp] theorem scanCompare_cmdPosition (i : Instr) (hb db : Byte) (s : State) : (scanCompare i hb db s).cmdPosition = s.cmdPosition := by
  unfold scanCompare; repeat' split
  all_goals rfl
@[simp] theorem scanCompare_resBuf (i : Instr) (hb db : Byte) (s : State) : (scanCompare i hb db s).resBuf = s.resBuf := by
  unfold scanCompare; repeat' split
  all_goals rfl
@[simp] theorem scanCompare_resLength (i : Instr) (hb db : Byte) (s : State) : (scanCompare i hb db s).resLength = s.resLength := by
  unfold scanCompare; repeat' split
  all_goals rfl
@[simp] theorem scanCompare_resPosition (i : Instr) (hb db : Byte) (s : State) : (scanCompare i hb db s).resPosition = s.resPosition := by
  unfold scanCompare; repeat' split
  all_goals rfl
@[simp] theorem scanCompare_execBuf (i : Instr) (hb db : Byte) (s : State) : (scanCompare i hb db s).execBuf = s.execBuf := by
  unfold scanCompare; repeat' split
  all_goals rfl
@[simp] theorem scanCompare_execLength (i : Instr) (hb db : Byte) (s : State) : (scanCompare i hb db s).execLength = s.execLength := by
  unfold scanCompare; repeat' split
  all_goals rfl
@[simp] theorem scanCompare_execPosition (i : Instr) (hb db : Byte) (s : State) : (scanCompare i hb db s).execPosition = s.execPosition := by
  unfold scanCompare; repeat' split
  all_goals rfl
@[simp] theorem scanCompare_selectedUnit (i : Instr) (hb db : Byte) (s : State) : (scanCompare i hb db s).selectedUnit = s.selectedUnit := by
  unfold scanCompare; repeat' split
  all_goals rfl
@[simp] theorem scanCompare_selectedHead (i : Instr) (hb db : Byte) (s : State) : (scanCompare i hb db s).selectedHead = s.selectedHead := by
  unfold scanCompare; repeat' split
  all_goals rfl
@[simp] theorem scanCompare_pendingOpcode (i : Instr) (hb db : Byte) (s : State) : (scanCompare i hb db s).pendingOpcode = s.pendingOpcode := by
  unfold scanCompare; repeat' split
  all_goals rfl
@[simp] theorem scanCompare_writeDeletedFlag (i : Instr) (hb db : Byte) (s : State) : (scanCompare i hb db s).writeDeletedFlag = s.writeDeletedFlag := by
  unfold scanCompare; repeat' split
  all_goals rfl
@[simp] theorem scanCompare_rotatingSectorIndex (i : Instr) (hb db : Byte) (s : State) : (scanCompare i hb db s).rotatingSectorIndex = s.rotatingSectorIndex := by
  unfold scanCompare; repeat' split
  all_goals rfl
@[simp] theorem scanCompare_interruptState (i : Instr) (hb db : Byte) (s : State) : (scanCompare i hb db s).interruptState = s.interruptState := by
  unfold scanCompare; repeat' split
  all_goals rfl
@[simp] theorem scanCompare_ticksRemaining (i : Instr) (hb db : Byte) (s : State) : (scanCompare i hb db s).ticksRemaining = s.ticksRemaining := by
  unfold scanCompare; repeat' split
  all_goals rfl
@[simp] theorem scanCompare_irqLine (i : Instr) (hb db : Byte) (s : State) : (scanCompare i hb db s).irqLine = s.irqLine := by
  unfold scanCompare; repeat' split
  all_goals rfl
@[simp] theorem scanCompare_slots (i : Instr) (hb db : Byte) (s : State) : (scanCompare i hb db s).slots = s.slots := by
  unfold scanCompare; repeat' split
  all_goals rfl
@[simp] theorem scanCompare_events (i : Instr) (hb db : Byte) (s : State) : (scanCompare i hb db s).events = s.events := by
  unfold scanCompare; repeat' split
  all_goals rfl
@[simp] theorem scanCompare_hostOps (i : Instr) (hb db : Byte) (s : State) : (scanCompare i hb db s).hostOps = s.hostOps := by
  unfold scanCompare; repeat' split
  all_goals rfl
@[simp] theorem scanCompare_answers (i : Instr) (hb db : Byte) (s : State) : (scanCompare i hb db s).answers = s.answers := by
  unfold scanCompare; repeat' split
  all_goals rfl
@[simp] theorem scanCompare_freeCalls (i : Instr) (hb db : Byte) (s : State) : (scanCompare i hb db s).freeCalls = s.freeCalls := by
  unfold scanCompare; repeat' split
  all_goals rfl
@[simp] theorem scanCompare_reply (i : Instr) (hb db : Byte) (s : State) : (scanCompare i hb db s).reply = s.reply := by
  unfold scanCompare; repeat' split
  all_goals rfl

/-! `takeExecByte`: what it leaves alone -/

@[simp] theorem takeExecByte_phase (i : Instr) (b : Byte) (s : State) : (takeExecByte i b s).phase = s.phase := by
  unfold takeExecByte; split <;> simp
@[simp] theorem takeExecByte_status0 (i : Instr) (b : Byte) (s : State) : (takeExecByte i b s).status0 = s.status0 := by
  unfold takeExecByte; split <;> simp
@[simp] theorem takeExecByte_status1 (i : Instr) (b : Byte) (s : State) : (takeExecByte i b s).status1 = s.status1 := by
  unfold takeExecByte; split <;> simp
@[simp] theorem takeExecByte_status3 (i : Instr) (b : Byte) (s : State) : (takeExecByte i b s).status3 = s.status3 := by
  unfold takeExecByte; split <;> simp
@[simp] theorem takeExecByte_spec1 (i : Instr) (b : Byte) (s : State) : (takeExecByte i b s).spec1 = s.spec1 := by
  unfold takeExecByte; split <;> simp
@[simp] theorem takeExecByte_spec2 (i : Instr) (b : Byte) (s : State) : (takeExecByte i b s).spec2 = s.spec2 := by
  unfold takeExecByte; split <;> simp
@[simp] theorem takeExecByte_cmdBuf (i : Instr) (b : Byte) (s : State) : (takeExecByte i b s).cmdBuf = s.cmdBuf := by
  unfold takeExecByte; split <;> simp
@[simp] theorem takeExecByte_cmdLength (i : Instr) (b : Byte) (s : State) : (takeExecByte i b s).cmdLength = s.cmdLength := by
  unfold takeExecByte; split <;> simp
@[simp] theorem takeExecByte_cmdPosition (i : Instr) (b : Byte) (s : State) : (takeExecByte i b s).cmdPosition = s.cmdPosition := by
  unfold takeExecByte; split <;> simp
@[simp] theorem takeExecByte_resBuf (i : Instr) (b : Byte) (s : State) : (takeExecByte i b s).resBuf = s.resBuf := by
  unfold takeExecByte; split <;> simp
@[simp] theorem takeExecByte_resLength (i : Instr) (b : Byte) (s : State) : (takeExecByte i b s).resLength = s.resLength := by
  unfold takeExecByte; split <;> simp
@[simp] theorem takeExecByte_resPosition (i : Instr) (b : Byte) (s : State) : (takeExecByte i b s).resPosition = s.resPosition := by
  unfold takeExecByte; split <;> simp
@[simp] theorem takeExecByte_execLength (i : Instr) (b : Byte) (s : State) : (takeExecByte i b s).execLength = s.execLength := by
  unfold takeExecByte; split <;> simp
@[simp] theorem takeExecByte_execPosition (i : Instr) (b : Byte) (s : State) : (takeExecByte i b s).execPosition = s.execPosition := by
  unfold takeExecByte; split <;> simp
@[simp] theorem takeExecByte_selectedUnit (i : Instr) (b : Byte) (s : State) : (takeExecByte i b s).selectedUnit = s.selectedUnit := by
  unfold takeExecByte; split <;> simp
@[simp] theorem takeExecByte_selectedHead (i : Instr) (b : Byte) (s : State) : (takeExecByte i b s).selectedHead = s.selectedHead := by
  unfold takeExecByte; split <;> simp
@[simp] theorem takeExecByte_pendingOpcode (i : Instr) (b : Byte) (s : State) : (takeExecByte i b s).pendingOpcode = s.pendingOpcode := by
  unfold takeExecByte; split <;> simp
@[simp] theorem takeExecByte_writeDeletedFlag (i : Instr) (b : Byte) (s : State) : (takeExecByte i b s).writeDeletedFlag = s.writeDeletedFlag := by
  unfold takeExecByte; split <;> simp
@[simp] theorem takeExecByte_rotatingSectorIndex (i : Instr) (b : Byte) (s : State) : (takeExecByte i b s).rotatingSectorIndex = s.rotatingSectorIndex := by
  unfold takeExecByte; split <;> simp
@[simp] theorem takeExecByte_interruptState (i : Instr) (b : Byte) (s : State) : (takeExecByte i b s).interruptState = s.interruptState := by
  unfold takeExecByte; split <;> simp
@[simp] theorem takeExecByte_ticksRemaining (i : Instr) (b : Byte) (s : State) : (takeExecByte i b s).ticksRemaining = s.ticksRemaining := by
  unfold takeExecByte; split <;> simp
@[simp] theorem takeExecByte_irqLine (i : Instr) (b : Byte) (s : State) : (takeExecByte i b s).irqLine = s.irqLine := by
  unfold takeExecByte; split <;> simp
@[simp] theorem takeExecByte_slots (i : Instr) (b : Byte) (s : State) : (takeExecByte i b s).slots = s.slots := by
  unfold takeExecByte; split <;> simp
@[simp] theorem takeExecByte_events (i : Instr) (b : Byte) (s : State) : (takeExecByte i b s).events = s.events := by
  unfold takeExecByte; split <;> simp
@[simp] theorem takeExecByte_hostOps (i : Instr) (b : Byte) (s : State) : (takeExecByte i b s).hostOps = s.hostOps := by
  unfold takeExecByte; split <;> simp
@[simp] theorem takeExecByte_answers (i : Instr) (b : Byte) (s : State) : (takeExecByte i b s).answers = s.answers := by
  unfold takeExecByte; split <;> simp
@[simp] theorem takeExecByte_freeCalls (i : Instr) (b : Byte) (s : State) : (takeExecByte i b s).freeCalls = s.freeCalls := by
  unfold takeExecByte; split <;> simp
@[simp] theorem takeExecByte_reply (i : Instr) (b : Byte) (s : State) : (takeExecByte i b s).reply = s.reply := by
  unfold takeExecByte; split <;> simp

/-! `endIfRead`: what it leaves alone -/

@[simp] theorem endIfRead_status0 (s : State) : (endIfRead s).status0 = s.status0 := by
  unfold endIfRead; split <;> rfl
@[simp] theorem endIfRead_status1 (s : State) : (endIfRead s).status1 = s.status1 := by
  unfold endIfRead; split <;> rfl
@[simp] theorem endIfRead_status2 (s : State) : (endIfRead s).status2 = s.status2 := by
  unfold endIfRead; split <;> rfl
@[simp] theorem endIfRead_status3 (s : State) : (endIfRead s).status3 = s.status3 := by
  unfold endIfRead; split <;> rfl
@[simp] theorem endIfRead_spec1 (s : State) : (endIfRead s).spec1 = s.spec1 := by
  unfold endIfRead; split <;> rfl
@[simp] theorem endIfRead_spec2 (s : State) : (endIfRead s).spec2 = s.spec2 := by
  unfold endIfRead; split <;> rfl
@[simp] theorem endIfRead_cmdBuf (s : State) : (endIfRead s).cmdBuf = s.cmdBuf := by
  unfold endIfRead; split <;> rfl
@[simp] theorem endIfRead_cmdPosition (s : State) : (endIfRead s).cmdPosition = s.cmdPosition := by
  unfold endIfRead; split <;> rfl
@[simp] theorem endIfRead_resBuf (s : State) : (endIfRead s).resBuf = s.resBuf := by
  unfold endIfRead; split <;> rfl
@[simp] theorem endIfRead_resPosition (s : State) : (endIfRead s).resPosition = s.resPosition := by
  unfold endIfRead; split <;> rfl
@[simp] theorem endIfRead_execBuf (s : State) : (endIfRead s).execBuf = s.execBuf := by
  unfold endIfRead; split <;> rfl
@[simp] theorem endIfRead_execPosition (s : State) : (endIfRead s).execPosition = s.execPosition := by
  unfold endIfRead; split <;> rfl
@[simp] theorem endIfRead_selectedUnit (s : State) : (endIfRead s).selectedUnit = s.selectedUnit := by
  unfold endIfRead; split <;> rfl
@[simp] theorem endIfRead_selectedHead (s : State) : (endIfRead s).selectedHead = s.selectedHead := by
  unfold endIfRead; split <;> rfl
@[simp] theorem endIfRead_writeDeletedFlag (s : State) : (endIfRead s).writeDeletedFlag = s.writeDeletedFlag := by
  unfold endIfRead; split <;> rfl
@[simp] theorem endIfRead_rotatingSectorIndex (s : State) : (endIfRead s).rotatingSectorIndex = s.rotatingSectorIndex := by
  unfold endIfRead; split <;> rfl
@[simp] theorem endIfRead_interruptState (s : State) : (endIfRead s).interruptState = s.interruptState := by
  unfold endIfRead; split <;> rfl
@[simp] theorem endIfRead_ticksRemaining (s : State) : (endIfRead s).ticksRemaining = s.ticksRemaining := by
  unfold endIfRead; split <;> rfl
@[simp] theorem endIfRead_irqLine (s : State) : (endIfRead s).irqLine = s.irqLine := by
  unfold endIfRead; split <;> rfl
@[simp] theorem endIfRead_slots (s : State) : (endIfRead s).slots = s.slots := by
  unfold endIfRead; split <;> rfl
@[simp] theorem endIfRead_events (s : State) : (endIfRead s).events = s.events := by
  unfold endIfRead; split <;> rfl
@[simp] theorem endIfRead_hostOps (s : State) : (endIfRead s).hostOps = s.hostOps := by
  unfold endIfRead; split <;> rfl
@[simp] theorem endIfRead_answers (s : State) : (endIfRead s).answers = s.answers := by
  unfold endIfRead; split <;> rfl
@[simp] theorem endIfRead_freeCalls (s : State) : (endIfRead s).freeCalls = s.freeCalls := by
  unfold endIfRead; split <;> rfl
@[simp] theorem endIfRead_reply (s : State) : (endIfRead s).reply = s.reply := by
  unfold endIfRead; split <;> rfl

/-! `armMotorChange`: what it leaves alone -/

@[simp] theorem armMotorChange_phase (c : Bool) (s : State) : (armMotorChange c s).phase = s.phase := by
  unfold armMotorChange; split <;> simp
@[simp] theorem armMotorChange_status0 (c : Bool) (s : State) : (armMotorChange c s).status0 = s.status0 := by
  unfold armMotorChange; split <;> simp
@[simp] theorem armMotorChange_status1 (c : Bool) (s : State) : (armMotorChange c s).status1 = s.status1 := by
  unfold armMotorChange; split <;> simp
@[simp] theorem armMotorChange_status2 (c : Bool) (s : State) : (armMotorChange c s).status2 = s.status2 := by
  unfold armMotorChange; split <;> simp
@[simp] theorem armMotorChange_status3 (c : Bool) (s : State) : (armMotorChange c s).status3 = s.status3 := by
  unfold armMotorChange; split <;> simp
@[simp] theorem armMotorChange_spec1 (c : Bool) (s : State) : (armMotorChange c s).spec1 = s.spec1 := by
  unfold armMotorChange; split <;> simp
@[simp] theorem armMotorChange_spec2 (c : Bool) (s : State) : (armMotorChange c s).spec2 = s.spec2 := by
  unfold armMotorChange; split <;> simp
@[simp] theorem armMotorChange_cmdBuf (c : Bool) (s : State) : (armMotorChange c s).cmdBuf = s.cmdBuf := by
  unfold armMotorChange; split <;> simp
@[simp] theorem armMotorChange_cmdLength (c : Bool) (s : State) : (armMotorChange c s).cmdLength = s.cmdLength := by
  unfold armMotorChange; split <;> simp
@[simp] theorem armMotorChange_cmdPosition (c : Bool) (s : State) : (armMotorChange c s).cmdPosition = s.cmdPosition := by
  unfold armMotorChange; split <;> simp
@[simp] theorem armMotorChange_resBuf (c : Bool) (s : State) : (armMotorChange c s).resBuf = s.resBuf := by
  unfold armMotorChange; split <;> simp
@[simp] theorem armMotorChange_resLength (c : Bool) (s : State) : (armMotorChange c s).resLength = s.resLength := by
  unfold armMotorChange; split <;> simp
@[simp] theorem armMotorChange_resPosition (c : Bool) (s : State) : (armMotorChange c s).resPosition = s.resPosition := by
  unfold armMotorChange; split <;> simp
@[simp] theorem armMotorChange_execBuf (c : Bool) (s : State) : (armMotorChange c s).execBuf = s.execBuf := by
  unfold armMotorChange; split <;> simp
@[simp] theorem armMotorChange_execLength (c : Bool) (s : State) : (armMotorChange c s).execLength = s.execLength := by
  unfold armMotorChange; split <;> simp
@[simp] theorem armMotorChange_execPosition (c : Bool) (s : State) : (armMotorChange c s).execPosition = s.execPosition := by
  unfold armMotorChange; split <;> simp
@[simp] theorem armMotorChange_selectedUnit (c : Bool) (s : State) : (armMotorChange c s).selectedUnit = s.selectedUnit := by
  unfold armMotorChange; split <;> simp
@[simp] theorem armMotorChange_selectedHead (c : Bool) (s : State) : (armMotorChange c s).selectedHead = s.selectedHead := by
  unfold armMotorChange; split <;> simp
@[simp] theorem armMotorChange_pendingOpcode (c : Bool) (s : State) : (armMotorChange c s).pendingOpcode = s.pendingOpcode := by
  unfold armMotorChange; split <;> simp
@[simp] theorem armMotorChange_writeDeletedFlag (c : Bool) (s : State) : (armMotorChange c s).writeDeletedFlag = s.writeDeletedFlag := by
  unfold armMotorChange; split <;> simp
@[simp] theorem armMotorChange_rotatingSectorIndex (c : Bool) (s : State) : (armMotorChange c s).rotatingSectorIndex = s.rotatingSectorIndex := by
  unfold armMotorChange; split <;> simp
@[simp] theorem armMotorChange_irqLine (c : Bool) (s : State) : (armMotorChange c s).irqLine = s.irqLine := by
  unfold armMotorChange; split <;> simp
@[simp] theorem armMotorChange_slots (c : Bool) (s : State) : (armMotorChange c s).slots = s.slots := by
  unfold armMotorChange; split <;> simp
@[simp] theorem armMotorChange_events (c : Bool) (s : State) : (armMotorChange c s).events = s.events := by
  unfold armMotorChange; split <;> simp
@[simp] theorem armMotorChange_hostOps (c : Bool) (s : State) : (armMotorChange c s).hostOps = s.hostOps := by
  unfold armMotorChange; split <;> simp
@[simp] theorem armMotorChange_answers (c : Bool) (s : State) : (armMotorChange c s).answers = s.answers := by
  unfold armMotorChange; split <;> simp
@[simp] theorem armMotorChange_freeCalls (c : Bool) (s : State) : (armMotorChange c s).freeCalls = s.freeCalls := by
  unfold armMotorChange; split <;> simp
@[simp] theorem armMotorChange_reply (c : Bool) (s : State) : (armMotorChange c s).reply = s.reply := by
  unfold armMotorChange; split <;> simp

/-! `setAttached`: what it leaves alone -/

@[simp] theorem setAttached_phase (u : UnitNo) (b : Bool) (s : State) : (setAttached u b s).phase = s.phase := by
  unfold setAttached; split <;> rfl
@[simp] theorem setAttached_status0 (u : UnitNo) (b : Bool) (s : State) : (setAttached u b s).status0 = s.status0 := by
  unfold setAttached; split <;> rfl
@[simp] theorem setAttached_status1 (u : UnitNo) (b : Bool) (s : State) : (setAttached u b s).status1 = s.status1 := by
  unfold setAttached; split <;> rfl
@[simp] theorem setAttached_status2 (u : UnitNo) (b : Bool) (s : State) : (setAttached u b s).status2 = s.status2 := by
  unfold setAttached; split <;> rfl
@[simp] theorem setAttached_status3 (u : UnitNo) (b : Bool) (s : State) : (setAttached u b s).status3 = s.status3 := by
  unfold setAttached; split <;> rfl
@[simp] theorem setAttached_spec1 (u : UnitNo) (b : Bool) (s : State) : (setAttached u b s).spec1 = s.spec1 := by
  unfold setAttached; split <;> rfl
@[simp] theorem setAttached_spec2 (u : UnitNo) (b : Bool) (s : State) : (setAttached u b s).spec2 = s.spec2 := by
  unfold setAttached; split <;> rfl
@[simp] theorem setAttached_cmdBuf (u : UnitNo) (b : Bool) (s : State) : (setAttached u b s).cmdBuf = s.cmdBuf := by
  unfold setAttached; split <;> rfl
@[simp] theorem setAttached_cmdLength (u : UnitNo) (b : Bool) (s : State) : (setAttached u b s).cmdLength = s.cmdLength := by
  unfold setAttached; split <;> rfl
@[simp] theorem setAttached_cmdPosition (u : UnitNo) (b : Bool) (s : State) : (setAttached u b s).cmdPosition = s.cmdPosition := by
  unfold setAttached; split <;> rfl
@[simp] theorem setAttached_resBuf (u : UnitNo) (b : Bool) (s : State) : (setAttached u b s).resBuf = s.resBuf := by
  unfold setAttached; split <;> rfl
@[simp] theorem setAttached_resLength (u : UnitNo) (b : Bool) (s : State) : (setAttached u b s).resLength = s.resLength := by
  unfold setAttached; split <;> rfl
@[simp] theorem setAttached_resPosition (u : UnitNo) (b : Bool) (s : State) : (setAttached u b s).resPosition = s.resPosition := by
  unfold setAttached; split <;> rfl
@[simp] theorem setAttached_execBuf (u : UnitNo) (b : Bool) (s : State) : (setAttached u b s).execBuf = s.execBuf := by
  unfold setAttached; split <;> rfl
@[simp] theorem setAttached_execLength (u : UnitNo) (b : Bool) (s : State) : (setAttached u b s).execLength = s.execLength := by
  unfold setAttached; split <;> rfl
@[simp] theorem setAttached_execPosition (u : UnitNo) (b : Bool) (s : State) : (setAttached u b s).execPosition = s.execPosition := by
  unfold setAttached; split <;> rfl
@[simp] theorem setAttached_selectedUnit (u : UnitNo) (b : Bool) (s : State) : (setAttached u b s).selectedUnit = s.selectedUnit := by
  unfold setAttached; split <;> rfl
@[simp] theorem setAttached_selectedHead (u : UnitNo) (b : Bool) (s : State) : (setAttached u b s).selectedHead = s.selectedHead := by
  unfold setAttached; split <;> rfl
@[simp] theorem setAttached_pendingOpcode (u : UnitNo) (b : Bool) (s : State) : (setAttached u b s).pendingOpcode = s.pendingOpcode := by
  unfold setAttached; split <;> rfl
@[simp] theorem setAttached_writeDeletedFlag (u : UnitNo) (b : Bool) (s : State) : (setAttached u b s).writeDeletedFlag = s.writeDeletedFlag := by
  unfold setAttached; split <;> rfl
@[simp] theorem setAttached_rotatingSectorIndex (u : UnitNo) (b : Bool) (s : State) : (setAttached u b s).rotatingSectorIndex = s.rotatingSectorIndex := by
  unfold setAttached; split <;> rfl
@[simp] theorem setAttached_interruptState (u : UnitNo) (b : Bool) (s : State) : (setAttached u b s).interruptState = s.interruptState := by
  unfold setAttached; split <;> rfl
@[simp] theorem setAttached_ticksRemaining (u : UnitNo) (b : Bool) (s : State) : (setAttached u b s).ticksRemaining = s.ticksRemaining := by
  unfold setAttached; split <;> rfl
@[simp] theorem setAttached_irqLine (u : UnitNo) (b : Bool) (s : State) : (setAttached u b s).irqLine = s.irqLine := by
  unfold setAttached; split <;> rfl
@[simp] theorem setAttached_events (u : UnitNo) (b : Bool) (s : State) : (setAttached u b s).events = s.events := by
  unfold setAttached; split <;> rfl
@[simp] theorem setAttached_hostOps (u : UnitNo) (b : Bool) (s : State) : (setAttached u b s).hostOps = s.hostOps := by
  unfold setAttached; split <;> rfl
@[simp] theorem setAttached_answers (u : UnitNo) (b : Bool) (s : State) : (setAttached u b s).answers = s.answers := by
  unfold setAttached; split <;> rfl
@[simp] theorem setAttached_freeCalls (u : UnitNo) (b : Bool) (s : State) : (setAttached u b s).freeCalls = s.freeCalls := by
  unfold setAttached; split <;> rfl
@[simp] theorem setAttached_reply (u : UnitNo) (b : Bool) (s : State) : (setAttached u b s).reply = s.reply := by
  unfold setAttached; split <;> rfl

/-! `setCylinder`: what it leaves alone -/

@[simp] theorem setCylinder_phase (u : UnitNo) (n : Byte) (s : State) : (setCylinder u n s).phase = s.phase := by
  unfold setCylinder; split <;> rfl
@[simp] theorem setCylinder_status0 (u : UnitNo) (n : Byte) (s : State) : (setCylinder u n s).status0 = s.status0 := by
  unfold setCylinder; split <;> rfl
@[simp] theorem setCylinder_status1 (u : UnitNo) (n : Byte) (s : State) : (setCylinder u n s).status1 = s.status1 := by
  unfold setCylinder; split <;> rfl
@[simp] theorem setCylinder_status2 (u : UnitNo) (n : Byte) (s : State) : (setCylinder u n s).status2 = s.status2 := by
  unfold setCylinder; split <;> rfl
@[simp] theorem setCylinder_status3 (u : UnitNo) (n : Byte) (s : State) : (setCylinder u n s).status3 = s.status3 := by
  unfold setCylinder; split <;> rfl
@[simp] theorem setCylinder_spec1 (u : UnitNo) (n : Byte) (s : State) : (setCylinder u n s).spec1 = s.spec1 := by
  unfold setCylinder; split <;> rfl
@[simp] theorem setCylinder_spec2 (u : UnitNo) (n : Byte) (s : State) : (setCylinder u n s).spec2 = s.spec2 := by
  unfold setCylinder; split <;> rfl
@[simp] theorem setCylinder_cmdBuf (u : UnitNo) (n : Byte) (s : State) : (setCylinder u n s).cmdBuf = s.cmdBuf := by
  unfold setCylinder; split <;> rfl
@[simp] theorem setCylinder_cmdLength (u : UnitNo) (n : Byte) (s : State) : (setCylinder u n s).cmdLength = s.cmdLength := by
  unfold setCylinder; split <;> rfl
@[simp] theorem setCylinder_cmdPosition (u : UnitNo) (n : Byte) (s : State) : (setCylinder u n s).cmdPosition = s.cmdPosition := by
  unfold setCylinder; split <;> rfl
@[simp] theorem setCylinder_resBuf (u : UnitNo) (n : Byte) (s : State) : (setCylinder u n s).resBuf = s.resBuf := by
  unfold setCylinder; split <;> rfl
@[simp] theorem setCylinder_resLength (u : UnitNo) (n : Byte) (s : State) : (setCylinder u n s).resLength = s.resLength := by
  unfold setCylinder; split <;> rfl
@[simp] theorem setCylinder_resPosition (u : UnitNo) (n : Byte) (s : State) : (setCylinder u n s).resPosition = s.resPosition := by
  unfold setCylinder; split <;> rfl
@[simp] theorem setCylinder_execBuf (u : UnitNo) (n : Byte) (s : State) : (setCylinder u n s).execBuf = s.execBuf := by
  unfold setCylinder; split <;> rfl
@[simp] theorem setCylinder_execLength (u : UnitNo) (n : Byte) (s : State) : (setCylinder u n s).execLength = s.execLength := by
  unfold setCylinder; split <;> rfl
@[simp] theorem setCylinder_execPosition (u : UnitNo) (n : Byte) (s : State) : (setCylinder u n s).execPosition = s.execPosition := by
  unfold setCylinder; split <;> rfl
@[simp] theorem setCylinder_selectedUnit (u : UnitNo) (n : Byte) (s : State) : (setCylinder u n s).selectedUnit = s.selectedUnit := by
  unfold setCylinder; split <;> rfl
@[simp] theorem setCylinder_selectedHead (u : UnitNo) (n : Byte) (s : State) : (setCylinder u n s).selectedHead = s.selectedHead := by
  unfold setCylinder; split <;> rfl
@[simp] theorem setCylinder_pendingOpcode (u : UnitNo) (n : Byte) (s : State) : (setCylinder u n s).pendingOpcode = s.pendingOpcode := by
  unfold setCylinder; split <;> rfl
@[simp] theorem setCylinder_writeDeletedFlag (u : UnitNo) (n : Byte) (s : State) : (setCylinder u n s).writeDeletedFlag = s.writeDeletedFlag := by
  unfold setCylinder; split <;> rfl
@[simp] theorem setCylinder_rotatingSectorIndex (u : UnitNo) (n : Byte) (s : State) : (setCylinder u n s).rotatingSectorIndex = s.rotatingSectorIndex := by
  unfold setCylinder; split <;> rfl
@[simp] theorem setCylinder_interruptState (u : UnitNo) (n : Byte) (s : State) : (setCylinder u n s).interruptState = s.interruptState := by
  unfold setCylinder; split <;> rfl
@[simp] theorem setCylinder_ticksRemaining (u : UnitNo) (n : Byte) (s : State) : (setCylinder u n s).ticksRemaining = s.ticksRemaining := by
  unfold setCylinder; split <;> rfl
@[simp] theorem setCylinder_irqLine (u : UnitNo) (n : Byte) (s : State) : (setCylinder u n s).irqLine = s.irqLine := by
  unfold setCylinder; split <;> rfl
@[simp] theorem setCylinder_events (u : UnitNo) (n : Byte) (s : State) : (setCylinder u n s).events = s.events := by
  unfold setCylinder; split <;> rfl
@[simp] theorem setCylinder_hostOps (u : UnitNo) (n : Byte) (s : State) : (setCylinder u n s).hostOps = s.hostOps := by
  unfold setCylinder; split <;> rfl
@[simp] theorem setCylinder_answers (u : UnitNo) (n : Byte) (s : State) : (setCylinder u n s).answers = s.answers := by
  unfold setCylinder; split <;> rfl
@[simp] theorem setCylinder_freeCalls (u : UnitNo) (n : Byte) (s : State) : (setCylinder u n s).freeCalls = s.freeCalls := by
  unfold setCylinder; split <;> rfl
@[simp] theorem setCylinder_reply (u : UnitNo) (n : Byte) (s : State) : (setCylinder u n s).reply = s.reply := by
  unfold setCylinder; split <;> rfl

/-! The interrupt fields after the conditional updates, and the drives after a slot is set -/

@[simp] theorem lowerLine_irqLine (s : State) : (lowerLine s).irqLine = false := by
  unfold lowerLine; split <;> simp_all

theorem lowerLine_events (s : State) :
    (lowerLine s).events = if s.irqLine then s.events ++ [.irq false] else s.events := by
  unfold lowerLine; split <;> rfl

@[simp] theorem clearInterrupt_interruptState (s : State) : (clearInterrupt s).interruptState = .none := by
  simp [clearInterrupt]

@[simp] theorem clearInterrupt_ticksRemaining (s : State) : (clearInterrupt s).ticksRemaining = 0 := by
  simp [clearInterrupt]

@[simp] theorem clearInterrupt_irqLine (s : State) : (clearInterrupt s).irqLine = false := by
  simp [clearInterrupt]

theorem clearInterrupt_events (s : State) :
    (clearInterrupt s).events = if s.irqLine then s.events ++ [.irq false] else s.events := by
  simp [clearInterrupt, lowerLine_events]

@[simp] theorem ackOnAccess_interruptState (s : State) :
    (ackOnAccess s).interruptState = if s.interruptState = .seekEnd then .seekEnd else .none := by
  unfold ackOnAccess; split <;> simp_all

theorem ackOnAccess_ticksRemaining (s : State) :
    (ackOnAccess s).ticksRemaining =
      if s.interruptState = .seekEnd ∨ s.interruptState = .none then s.ticksRemaining else 0 := by
  unfold ackOnAccess; split <;> simp_all

theorem ackOnAccess_irqLine (s : State) :
    (ackOnAccess s).irqLine =
      if s.interruptState = .seekEnd ∨ s.interruptState = .none then s.irqLine else false := by
  unfold ackOnAccess; split <;> simp_all

@[simp] theorem ackOnAccess_events (s : State) : (ackOnAccess s).events = s.events ++ ackEvents s := by
  unfold ackOnAccess ackEvents; split <;> simp_all [clearInterrupt_events] <;> split <;> simp

@[simp] theorem ackEvents_takeOp (rest : List HostOp) (s : State) : ackEvents (takeOp rest s) = ackEvents s := rfl

theorem arm_interruptState (k : InterruptKind) (n : Nat) (s : State) :
    (arm k n s).interruptState = if s.interruptState = .seekEnd then .seekEnd else k := by
  unfold arm; split <;> simp_all

theorem arm_ticksRemaining (k : InterruptKind) (n : Nat) (s : State) :
    (arm k n s).ticksRemaining = if s.interruptState = .seekEnd then s.ticksRemaining else n := by
  unfold arm; split <;> simp_all

/-- The interrupt a completed access leaves pending, by its phase (R157). -/
theorem armOnCompletion_interruptState (s : State) :
    (armOnCompletion s).interruptState =
      if s.interruptState = .seekEnd then .seekEnd
      else match s.phase with
        | .execution => .execByteReady
        | .result => .resultReady
        | .command => s.interruptState
        | .idle => s.interruptState := by
  unfold armOnCompletion; split <;> simp_all [arm_interruptState]

theorem armOnCompletion_ticksRemaining (s : State) :
    (armOnCompletion s).ticksRemaining =
      if s.interruptState ≠ .seekEnd ∧ (s.phase = .execution ∨ s.phase = .result) then Config.shortDelay
      else s.ticksRemaining := by
  unfold armOnCompletion; split <;> simp_all [arm_ticksRemaining]

/-- One step performs the host's next operation (R6). -/
theorem step_cons {s : State} {op : HostOp} {rest : List HostOp} (h : s.hostOps = op :: rest) :
    step s = perform op (takeOp rest s) := by
  simp [step, hostStep, h]

/-- With no operation to come the controller waits (R6). -/
theorem step_nil {s : State} (h : s.hostOps = []) : step s = .next s := by
  simp [step, hostStep, h]

@[simp] theorem drive_takeOp (rest : List HostOp) (s : State) (u : UnitNo) : (takeOp rest s).drive u = s.drive u := rfl

theorem drive_eq_getElem (s : State) (u : UnitNo) : s.drive u = s.slots[u.toNat]'u.isLt := rfl

theorem drive_of_slots {s t : State} (h : t.slots = s.slots) (u : UnitNo) : t.drive u = s.drive u := by
  simp [State.drive, h]

@[simp] theorem drive_setDrive (s : State) (u v : UnitNo) (d : Drive) :
    (s.setDrive u d).drive v = if u = v then some d else s.drive v := by
  simp only [drive_eq_getElem, setDrive_slots, Vector.getElem_set, BitVec.toNat_inj]

end Sys2Proof.Machine
end

