-- ==== Sys2Proof/Laws/Ops.lean ====
section
/-! SUPPORT. What each shared operation can do, said once: the oracle, the Drive layer, the finish actions and the phase
openings. A proof about a command cites these and does not unfold the operations. -/

namespace Sys2Proof.Machine

open Sys2Proof

/-! ### Sequencing -/

theorem andThen_eq_next {α β : Type} {o : Result α} {f : α → Result β} {b : β} :
    andThen o f = .next b ↔ ∃ a, o = .next a ∧ f a = .next b := by
  cases o <;> simp [andThen]

theorem andThen_eq_fault {α β : Type} {o : Result α} {f : α → Result β} {r : Fault} :
    andThen o f = .fault r ↔ o = .fault r ∨ ∃ a, o = .next a ∧ f a = .fault r := by
  cases o <;> simp [andThen]

theorem andThen_eq_refused {α β : Type} {o : Result α} {f : α → Result β} {r : Refusal} :
    andThen o f = .refused r ↔ o = .refused r ∨ ∃ a, o = .next a ∧ f a = .refused r := by
  cases o <;> simp [andThen]

@[simp] theorem andThen_next {α β : Type} (a : α) (f : α → Result β) : andThen (.next a) f = f a := rfl

@[simp] theorem andThen_fault {α β : Type} (r : Fault) (f : α → Result β) :
    andThen (.fault r : Result α) f = .fault r := rfl

@[simp] theorem andThen_refused {α β : Type} (r : Refusal) (f : α → Result β) :
    andThen (.refused r : Result α) f = .refused r := rfl

theorem andThen_assoc {α β γ : Type} (o : Result α) (f : α → Result β) (g : β → Result γ) :
    andThen (andThen o f) g = andThen o fun a => andThen (f a) g := by
  cases o <;> rfl

/-! ### The oracle -/

theorem freeAnswer_inContract (n : Nat) (c : Call) : (freeAnswer n c).inContract c = true := by
  cases c <;> simp [freeAnswer, Answer.inContract]

@[simp] theorem errorCode_code (e : ErrorCode) : (Answer.code e).errorCode = e := (rfl)
@[simp] theorem errorCode_header (e : ErrorCode) (id : SectorId) : (Answer.header e id).errorCode = e := (rfl)
@[simp] theorem errorCode_data (e : ErrorCode) (bs : List Byte) : (Answer.data e bs).errorCode = e := (rfl)
@[simp] theorem bytes_data (e : ErrorCode) (bs : List Byte) : (Answer.data e bs).bytes = bs := (rfl)
@[simp] theorem sectorId_header (e : ErrorCode) (id : SectorId) : (Answer.header e id).sectorId = id := (rfl)
@[simp] theorem statusByte_status (b : Byte) : (Answer.status b).statusByte = b := (rfl)
@[simp] theorem readiness_isReady (r : Bool) : (Answer.isReady r).readiness = r := (rfl)

/-- With nothing scripted the answer is a free one. -/
theorem ask_free {s : State} (u : UnitNo) (c : Call) (h : s.answers = []) :
    ask u c s = .next (freeAnswer s.freeCalls c,
      record (.call u c (freeAnswer s.freeCalls c)) (countFreeCall s)) := by
  simp [ask, h]

/-- The next scripted answer is taken, if it is within the contract. -/
theorem ask_scripted {s : State} (u : UnitNo) (c : Call) {a : Answer} {rest : List Answer} (h : s.answers = a :: rest)
    (hc : a.inContract c = true) : ask u c s = .next (a, record (.call u c a) (takeAnswer rest s)) := by
  simp [ask, h, hc]

/-- Everything a call can do: the answer is within the contract; it is recorded; nothing else changes but the scripts. -/
theorem ask_next {u : UnitNo} {c : Call} {s : State} {r : Answer × State} (h : ask u c s = .next r) :
    r.1.inContract c = true ∧
      ∃ q n, r.2 = { s with events := s.events ++ [.call u c r.1], answers := q, freeCalls := n } := by
  unfold ask at h
  split at h
  · cases h
    exact ⟨freeAnswer_inContract _ _, _, _, rfl⟩
  · split at h
    · next hc =>
      cases h
      exact ⟨hc, _, _, rfl⟩
    · cases h

theorem ask_ne_fault (u : UnitNo) (c : Call) (s : State) (r : Fault) : ask u c s ≠ .fault r := by
  unfold ask
  repeat' split
  all_goals simp

/-- A call is refused only for a scripted answer outside the contract. -/
theorem ask_refused {u : UnitNo} {c : Call} {s : State} {r : Refusal} (h : ask u c s = .refused r) :
    r = .backendContract ∧ s.answers ≠ [] := by
  unfold ask at h
  repeat' split at h
  all_goals simp_all

/-- What the oracle may do to the state in one operation on unit `u`: calls on a usable `u` are appended to the history,
and the scripts move on. -/
def Asks (u : UnitNo) (s t : State) : Prop :=
  ∃ evs q n, t = { s with events := s.events ++ evs, answers := q, freeCalls := n } ∧
    ∀ e ∈ evs, s.usable u = true ∧ ∃ c a, e = .call u c a

theorem Asks.refl (u : UnitNo) (s : State) : Asks u s s :=
  ⟨[], s.answers, s.freeCalls, by simp, by simp⟩

theorem Asks.trans {u : UnitNo} {s t v : State} (h : Asks u s t) (h' : Asks u t v) : Asks u s v := by
  obtain ⟨e, q, n, rfl, he⟩ := h
  obtain ⟨e', q', n', rfl, he'⟩ := h'
  refine ⟨e ++ e', q', n', by simp, fun x hx => ?_⟩
  rcases List.mem_append.1 hx with hx | hx
  · exact he x hx
  · exact he' x hx

theorem asks_of_ask {u : UnitNo} {c : Call} {s : State} {r : Answer × State} (hu : s.usable u = true)
    (h : ask u c s = .next r) : Asks u s r.2 := by
  obtain ⟨-, q, n, hr⟩ := ask_next h
  exact ⟨[.call u c r.1], q, n, hr, fun e he => ⟨hu, c, r.1, by simpa using he⟩⟩

/-! ### The Drive layer -/

theorem usable_of_slots {s t : State} (h : t.slots = s.slots) (u : UnitNo) : t.usable u = s.usable u := by
  simp [State.usable, drive_of_slots h]

theorem spinning_of_slots {s t : State} (h : t.slots = s.slots) (u : UnitNo) : t.spinning u = s.spinning u := by
  simp [State.spinning, drive_of_slots h]

/-- `DriveReady` (R103): a drive found ready is usable and spinning; nothing but the oracle is touched. -/
theorem driveReady_next {u : UnitNo} {s : State} {r : Bool × State} (h : driveReady u s = .next r) :
    Asks u s r.2 ∧ (r.1 = true → s.usable u = true ∧ s.spinning u = true) := by
  unfold driveReady at h
  split at h
  · next hu =>
    simp only [Bool.and_eq_true] at hu
    obtain ⟨a, ha, hr⟩ := andThen_eq_next.1 h
    cases hr
    exact ⟨asks_of_ask hu.1 ha, fun _ => hu⟩
  · cases h
    exact ⟨Asks.refl _ _, by simp⟩

/-- A slot that is unusable or does not spin is not ready, and its backend is not asked (R102, R103). -/
theorem driveReady_of_not {u : UnitNo} {s : State} (h : (s.usable u && s.spinning u) = false) :
    driveReady u s = .next (false, s) := by
  simp [driveReady, h]

/-- On a usable slot that spins, the scripted answer decides (R103). -/
theorem driveReady_scripted {u : UnitNo} {s : State} {b : Bool} {q : List Answer} (hu : s.usable u = true)
    (hs : s.spinning u = true) (ha : s.answers = .isReady b :: q) :
    driveReady u s = .next (b, record (.call u .ready (.isReady b)) (takeAnswer q s)) := by
  unfold driveReady
  rw [if_pos (by simp [hu, hs]), ask_scripted _ _ ha rfl]
  rfl

/-- `Seek` (R104): the cylinder changes on Ok only. -/
theorem seekTo_next {u : UnitNo} {n : Byte} {s : State} {r : ErrorCode × State} (h : seekTo u n s = .next r) :
    ∃ m, Asks u s m ∧ (r.1 = .ok ∧ r.2 = setCylinder u n m ∨ r.1 ≠ .ok ∧ r.2 = m) := by
  unfold seekTo at h
  split at h
  · next hu =>
    obtain ⟨a, ha, hr⟩ := andThen_eq_next.1 h
    refine ⟨a.2, asks_of_ask hu ha, ?_⟩
    split at hr <;> cases hr
    · next hk => exact .inl ⟨hk, rfl⟩
    · next hk => exact .inr ⟨hk, rfl⟩
  · cases h
    exact ⟨s, Asks.refl _ _, .inr ⟨by simp, rfl⟩⟩

/-- `ReadId` (R105). -/
theorem readSectorHeader_next {u : UnitNo} {hd : HeadNo} {seq : Nat} {s : State} {r : (ErrorCode × SectorId) × State}
    (h : readSectorHeader u hd seq s = .next r) : Asks u s r.2 := by
  unfold readSectorHeader at h
  split at h
  · next hu =>
    obtain ⟨a, ha, hr⟩ := andThen_eq_next.1 h
    cases hr
    exact asks_of_ask hu ha
  · cases h
    exact Asks.refl _ _

/-- `ReadSector` (R106): exactly `len` bytes fill the execution buffer, whatever the code; none for an unusable slot. -/
theorem readSector_next {u : UnitNo} {args : SectorArgs} {s : State} {r : ErrorCode × State}
    (h : readSector u args s = .next r) :
    r = (.notReady, s) ∨ ∃ m bytes, Asks u s m ∧ bytes.length = args.len ∧ r.2 = fillExec bytes m := by
  unfold readSector at h
  split at h
  · next hu =>
    obtain ⟨a, ha, hr⟩ := andThen_eq_next.1 h
    cases hr
    refine .inr ⟨a.2, a.1.bytes, asks_of_ask hu ha, ?_, rfl⟩
    have hc := (ask_next ha).1
    cases ha' : a.1 <;> simp_all [Answer.inContract, Answer.bytes]
  · cases h
    exact .inl rfl

/-- `WriteSector` (R107). -/
theorem writeSector_next {u : UnitNo} {args : SectorArgs} {s : State} {r : ErrorCode × State}
    (h : writeSector u args s = .next r) : Asks u s r.2 := by
  unfold writeSector at h
  repeat' split at h
  · cases h
    exact Asks.refl _ _
  · next hu _ =>
    obtain ⟨a, ha, hr⟩ := andThen_eq_next.1 h
    cases hr
    exact asks_of_ask hu ha
  · cases h
    exact Asks.refl _ _

/-- `ReadTrack` (R108): the length answered is the number of bytes stored, at most the capacity. -/
theorem readWholeTrack_next {u : UnitNo} {c h : Byte} {hd : HeadNo} {s : State} {r : (ErrorCode × Nat) × State}
    (e : readWholeTrack u c h hd s = .next r) :
    r = ((.notReady, 0), s) ∨
      ∃ m bytes, Asks u s m ∧ bytes.length = r.1.2 ∧ r.1.2 ≤ Config.execCap ∧ r.2 = fillExec bytes m := by
  unfold readWholeTrack at e
  split at e
  · next hu =>
    obtain ⟨a, ha, hr⟩ := andThen_eq_next.1 e
    cases hr
    exact .inr ⟨a.2, _, asks_of_ask hu ha, by simp [Nat.min_comm], by simp, rfl⟩
  · cases e
    exact .inl rfl

/-- `FormatTrack` (R109). -/
theorem formatWholeTrack_next {u : UnitNo} {hd : HeadNo} {sc d : Byte} {s : State} {r : ErrorCode × State}
    (h : formatWholeTrack u hd sc d s = .next r) : Asks u s r.2 := by
  unfold formatWholeTrack at h
  repeat' split at h
  · cases h
    exact Asks.refl _ _
  · next hu _ =>
    obtain ⟨a, ha, hr⟩ := andThen_eq_next.1 h
    cases hr
    exact asks_of_ask hu ha
  · cases h
    exact Asks.refl _ _

/-- `DriveStatusByte` (R110): bits 2:0 are the selection. -/
theorem driveStatusByte_next {u : UnitNo} {hd : HeadNo} {s : State} {r : Byte × State}
    (h : driveStatusByte u hd s = .next r) :
    Asks u s r.2 ∧ ∃ ds, r.1 = status3Byte ds hd u (s.status3Forced u) := by
  unfold driveStatusByte at h
  split at h
  · next hu =>
    obtain ⟨a, ha, hr⟩ := andThen_eq_next.1 h
    cases hr
    exact ⟨asks_of_ask hu ha, _, rfl⟩
  · cases h
    exact ⟨Asks.refl _ _, _, rfl⟩

/-! ### Finish actions and phase openings -/

/-- What a finish action can do (R89): nothing; a write's code, with the deleted flag cleared; a format's code. -/
theorem finishAction_next {i : Instr} {s t : State} (h : finishAction i s = .next t) :
    t = s ∧ (∀ p, writesSector i ≠ some p) ∨
    (∃ m e, Asks s.selectedUnit s m ∧ t = setWriteDeleted false (applyError e m)) ∨
    (∃ m e, Asks s.selectedUnit s m ∧ t = applyError e m ∧ ∀ p, writesSector i ≠ some p) := by
  cases i <;> simp only [finishAction, finishWrite, finishFormat, andThen_eq_next] at h
  case writeData | writeDeletedData =>
    obtain ⟨r, hr, ht⟩ := h
    cases ht
    exact .inr (.inl ⟨r.2, r.1, writeSector_next hr, rfl⟩)
  case formatTrack =>
    obtain ⟨r, hr, ht⟩ := h
    cases ht
    exact .inr (.inr ⟨r.2, r.1, formatWholeTrack_next hr, rfl, by simp [writesSector]⟩)
  all_goals
    cases h
    exact .inl ⟨rfl, by simp [writesSector]⟩

/-- The end of an Execution phase (R89): the finish action, then the seven-byte result. -/
theorem finalizeExecution_next {i : Instr} {s t : State} (h : finalizeExecution i s = .next t) :
    ∃ m, finishAction i s = .next m ∧ t = openResult7 i m := by
  obtain ⟨m, hm, ht⟩ := andThen_eq_next.1 h
  cases ht
  exact ⟨m, hm, rfl⟩

/-- The opening of an Execution phase (R86, R94). -/
theorem openExecution_next {i : Instr} {n : Nat} {s t : State} (h : openExecution i n s = .next t) :
    n ≠ 0 ∧ t = beginExecution n s ∨
    n = 0 ∧ ∃ m, finishAction i (beginExecution 0 s) = .next m ∧ t = openResult7 i m := by
  unfold openExecution at h
  split at h
  · next hn =>
    subst hn
    exact .inr ⟨rfl, finalizeExecution_next h⟩
  · next hn =>
    cases h
    exact .inl ⟨hn, rfl⟩

theorem openExecution_nonzero {i : Instr} {n : Nat} (s : State) (h : n ≠ 0) :
    openExecution i n s = .next (beginExecution n s) := by
  simp [openExecution, h]

theorem openExecution_zero (i : Instr) (s : State) :
    openExecution i 0 s = finalizeExecution i (beginExecution 0 s) := by
  simp [openExecution]

/-- The first step of a data command (R127): the selection, the base status, and the readiness of the drive. -/
theorem dataSetup_next {uh : UnitHead} {s : State} {r : Bool × State} (h : dataSetup uh s = .next r) :
    Asks uh.us (baseStatus (select uh s)) r.2 ∧ (r.1 = true → s.usable uh.us = true ∧ s.spinning uh.us = true) := by
  obtain ⟨h1, h2⟩ := driveReady_next h
  exact ⟨h1, h2⟩

/-- On a usable slot that spins, the scripted answer decides (R127). -/
theorem dataSetup_scripted {uh : UnitHead} {s : State} {b : Bool} {q : List Answer} (hu : s.usable uh.us = true)
    (hs : s.spinning uh.us = true) (ha : s.answers = .isReady b :: q) :
    dataSetup uh s = .next (b, record (.call uh.us .ready (.isReady b)) (takeAnswer q (baseStatus (select uh s)))) :=
  driveReady_scripted (s := baseStatus (select uh s)) hu hs ha

/-- On a slot that is unusable or does not spin, no call is made (R127). -/
theorem dataSetup_of_not {uh : UnitHead} {s : State} (h : (s.usable uh.us && s.spinning uh.us) = false) :
    dataSetup uh s = .next (false, baseStatus (select uh s)) :=
  driveReady_of_not (s := baseStatus (select uh s)) h

/-- An opened Result phase holds exactly the bytes it was opened with (R84). -/
theorem resultHolds_openResult {bytes : List Byte} {s : State} (h : Memory.wf Config.resCap s.resBuf = true)
    (hl : bytes.length ≤ Config.resCap) : ResultHolds bytes (openResult bytes s) :=
  ⟨rfl, rfl, rfl, Memory.firstBytes_writeBytes _ h hl, rfl, rfl⟩

/-- The header depends on the slots and the selection alone (R130, R131). -/
theorem resultHeader_congr {i : Instr} {s t : State} (hs : t.slots = s.slots) (hu : t.selectedUnit = s.selectedUnit)
    (hh : t.selectedHead = s.selectedHead) : resultHeader i t = resultHeader i s := by
  have : ∀ n, fallbackHeader n t = fallbackHeader n s := by
    intro n
    simp [fallbackHeader, State.reportedCylinder, usable_of_slots hs, drive_of_slots hs, hu, hh]
  cases i <;> simp [resultHeader, this]

/-- The transfer length fits the execution buffer (R50, R68). -/
theorem sectorLen_le (n dtl : Byte) : sectorLen n dtl ≤ Config.execCap := by
  have := dtl.isLt
  unfold sectorLen Config.execCap
  split
  · omega
  · exact Nat.min_le_right _ _

theorem formatLen_le (sc : Byte) : formatLen sc ≤ 1020 := by
  have := sc.isLt
  unfold formatLen
  omega

@[simp] theorem result7_length (hdr : SectorId) (s : State) : (result7 hdr s).length = 7 := rfl

end Sys2Proof.Machine
end

