-- ==== Sys2Proof/Laws/Exec.lean ====
section
/-! SUPPORT. What the dispatch of a command can do, said once: `exec_next` gives the five ways a meaning ends (R83), each from
a state in which only the command's own registers differ. -/

namespace Sys2Proof.Machine

open Sys2Proof

/-- How a command prepares the state before its phase opens: the selection, status, execution buffer, rotation, deleted flag
and scripts may differ; drives move at most a cylinder, to a byte; the history gains calls on usable units. -/
structure Prepared (s m : State) : Prop where
  cmdBuf : m.cmdBuf = s.cmdBuf
  cmdPosition : m.cmdPosition = s.cmdPosition
  resBuf : m.resBuf = s.resBuf
  resLength : m.resLength = s.resLength
  resPosition : m.resPosition = s.resPosition
  pendingOpcode : m.pendingOpcode = s.pendingOpcode
  spec1 : m.spec1 = s.spec1
  spec2 : m.spec2 = s.spec2
  interruptState : m.interruptState = s.interruptState
  ticksRemaining : m.ticksRemaining = s.ticksRemaining
  irqLine : m.irqLine = s.irqLine
  hostOps : m.hostOps = s.hostOps
  reply : m.reply = s.reply
  execBuf : Memory.wf Config.execCap s.execBuf = true → Memory.wf Config.execCap m.execBuf = true
  events : ∃ evs, m.events = s.events ++ evs ∧ ∀ e ∈ evs, ∃ u c a, e = .call u c a ∧ s.usable u = true
  drives : ∀ v, m.drive v = s.drive v ∨
    ∃ d n, s.drive v = some d ∧ n ≤ 255 ∧ m.drive v = some { d with currentCylinder := n }

theorem Prepared.usable {s m : State} (h : Prepared s m) (u : UnitNo) : m.usable u = s.usable u := by
  rcases h.drives u with hd | ⟨d, n, h1, -, h2⟩
  · simp [State.usable, hd]
  · simp [State.usable, h1, h2]

theorem Prepared.refl (s : State) : Prepared s s :=
  ⟨rfl, rfl, rfl, rfl, rfl, rfl, rfl, rfl, rfl, rfl, rfl, rfl, rfl, id, ⟨[], by simp, by simp⟩, fun _ => .inl rfl⟩

theorem Prepared.trans {s m t : State} (h : Prepared s m) (h' : Prepared m t) : Prepared s t where
  cmdBuf := h'.cmdBuf.trans h.cmdBuf
  cmdPosition := h'.cmdPosition.trans h.cmdPosition
  resBuf := h'.resBuf.trans h.resBuf
  resLength := h'.resLength.trans h.resLength
  resPosition := h'.resPosition.trans h.resPosition
  pendingOpcode := h'.pendingOpcode.trans h.pendingOpcode
  spec1 := h'.spec1.trans h.spec1
  spec2 := h'.spec2.trans h.spec2
  interruptState := h'.interruptState.trans h.interruptState
  ticksRemaining := h'.ticksRemaining.trans h.ticksRemaining
  irqLine := h'.irqLine.trans h.irqLine
  hostOps := h'.hostOps.trans h.hostOps
  reply := h'.reply.trans h.reply
  execBuf := fun hw => h'.execBuf (h.execBuf hw)
  events := by
    obtain ⟨e, he, hu⟩ := h.events
    obtain ⟨e', he', hu'⟩ := h'.events
    refine ⟨e ++ e', by simp [he', he], fun x hx => ?_⟩
    rcases List.mem_append.1 hx with hx | hx
    · exact hu x hx
    · obtain ⟨u, c, a, hx1, hx2⟩ := hu' x hx
      exact ⟨u, c, a, hx1, h.usable u ▸ hx2⟩
  drives := fun v => by
    rcases h'.drives v with hd' | ⟨d', n', h1', h2', h3'⟩
    · rcases h.drives v with hd | ⟨d, n, h1, h2, h3⟩
      · exact .inl (hd'.trans hd)
      · exact .inr ⟨d, n, h1, h2, hd'.trans h3⟩
    · rcases h.drives v with hd | ⟨d, n, h1, h2, h3⟩
      · exact .inr ⟨d', n', hd ▸ h1', h2', h3'⟩
      · rw [h3] at h1'
        cases h1'
        exact .inr ⟨d, n', h1, h2', h3'⟩

/-- An update of the command's own registers alone prepares. -/
theorem Prepared.of_eq {s m : State} (cmdBuf : m.cmdBuf = s.cmdBuf) (cmdPosition : m.cmdPosition = s.cmdPosition)
    (resBuf : m.resBuf = s.resBuf) (resLength : m.resLength = s.resLength) (resPosition : m.resPosition = s.resPosition)
    (pendingOpcode : m.pendingOpcode = s.pendingOpcode) (spec1 : m.spec1 = s.spec1) (spec2 : m.spec2 = s.spec2)
    (interruptState : m.interruptState = s.interruptState) (ticksRemaining : m.ticksRemaining = s.ticksRemaining)
    (irqLine : m.irqLine = s.irqLine) (hostOps : m.hostOps = s.hostOps) (reply : m.reply = s.reply)
    (execBuf : Memory.wf Config.execCap s.execBuf = true → Memory.wf Config.execCap m.execBuf = true)
    (events : m.events = s.events) (slots : m.slots = s.slots) : Prepared s m :=
  ⟨cmdBuf, cmdPosition, resBuf, resLength, resPosition, pendingOpcode, spec1, spec2, interruptState, ticksRemaining,
    irqLine, hostOps, reply, execBuf, ⟨[], by simp [events], by simp⟩, fun v => .inl (drive_of_slots slots v)⟩

theorem prepared_of_asks {u : UnitNo} {s m : State} (h : Asks u s m) : Prepared s m := by
  obtain ⟨e, q, n, rfl, he⟩ := h
  exact ⟨rfl, rfl, rfl, rfl, rfl, rfl, rfl, rfl, rfl, rfl, rfl, rfl, rfl, id,
    ⟨e, rfl, fun x hx => ⟨u, (he x hx).2.choose, (he x hx).2.choose_spec.choose, (he x hx).2.choose_spec.choose_spec,
      (he x hx).1⟩⟩, fun _ => .inl rfl⟩

theorem prepared_restartRotation (s : State) : Prepared s (restartRotation s) := by
  apply Prepared.of_eq <;> simp

theorem prepared_base (uh : UnitHead) (s : State) : Prepared s (baseStatus (select uh s)) := by
  apply Prepared.of_eq <;> simp

theorem prepared_applyError (e : ErrorCode) (s : State) : Prepared s (applyError e s) := by
  apply Prepared.of_eq <;> simp

theorem prepared_setWriteDeleted (b : Bool) (s : State) : Prepared s (setWriteDeleted b s) := by
  apply Prepared.of_eq <;> simp

theorem prepared_scanBegin (s : State) : Prepared s (scanBegin s) := by
  apply Prepared.of_eq <;> simp

theorem prepared_setSeekEnd (s : State) : Prepared s (setSeekEnd s) := by
  apply Prepared.of_eq <;> simp

theorem prepared_beginExecution (n : Nat) (s : State) : Prepared s (beginExecution n s) := by
  apply Prepared.of_eq <;> simp

theorem prepared_fillExec (bytes : List Byte) (s : State) (h : bytes.length ≤ Config.execCap) :
    Prepared s (fillExec bytes s) := by
  apply Prepared.of_eq <;> simp
  exact fun hw => Memory.wf_writeBytes bytes (by omega) hw

theorem prepared_setCylinder (u : UnitNo) (n : Byte) (s : State) : Prepared s (setCylinder u n s) := by
  have hn := n.isLt
  refine ⟨?_, ?_, ?_, ?_, ?_, ?_, ?_, ?_, ?_, ?_, ?_, ?_, ?_, ?_, ⟨[], by simp, by simp⟩, fun v => ?_⟩ <;> try simp
  unfold setCylinder
  split
  · exact .inl rfl
  · next d hd =>
    by_cases hv : u = v
    · subst hv
      exact .inr ⟨d, hd, n.toNat, by omega, by simp⟩
    · exact .inl (by simp [hv])

/-- A finish action prepares, and leaves the deleted flag clear where it was clear or the command writes. -/
theorem prepared_finishAction {i : Instr} {s m : State} (h : finishAction i s = .next m) :
    Prepared s m ∧ (s.writeDeletedFlag = false ∨ (∃ p, writesSector i = some p) → m.writeDeletedFlag = false) := by
  rcases finishAction_next h with ⟨rfl, hw⟩ | ⟨k, e, hk, rfl⟩ | ⟨k, e, hk, rfl, hw⟩
  · exact ⟨Prepared.refl _, fun hp => hp.elim id fun ⟨p, hp⟩ => absurd hp (hw p)⟩
  · exact ⟨(prepared_of_asks hk).trans ((prepared_applyError e k).trans (prepared_setWriteDeleted _ _)), fun _ => rfl⟩
  · refine ⟨(prepared_of_asks hk).trans (prepared_applyError e k), fun hp => ?_⟩
    obtain ⟨-, -, -, rfl, -⟩ := hk
    exact hp.elim id fun ⟨p, hp⟩ => absurd hp (hw p)

/-- The five ways a dispatch ends. -/
inductive ExecEnd (i : Instr) (s t : State) : Prop where
  /-- A result of one or seven bytes. -/
  | result (m : State) (bytes : List Byte) (prepared : Prepared s m) (length : bytes.length = 1 ∨ bytes.length = 7)
      (flag : s.writeDeletedFlag = false → m.writeDeletedFlag = false) (eq : t = openResult bytes m)
  /-- The two bytes of SENSE INTERRUPT STATUS, with the SeekEnd cleared. -/
  | seekEndRead (f : OpFlags) (instr : i = .senseInterruptStatus f) (pending : s.interruptState = .seekEnd)
      (eq : t = openResult [s.status0, s.reportedCylinder s.selectedUnit] (clearInterrupt (restartRotation s)))
  /-- SPECIFY. -/
  | specify (f : OpFlags) (a b : Byte) (instr : i = .specify f a b)
      (eq : t = endCommand (setParams a b (restartRotation s)))
  /-- RECALIBRATE and SEEK. -/
  | seek (m : State) (n : Byte) (instr : seekTarget i = some n) (prepared : Prepared s m)
      (flag : m.writeDeletedFlag = s.writeDeletedFlag) (eq : t = endCommand (armSeekEnd m))
  /-- An Execution phase of at least one byte. -/
  | execution (m : State) (n : Nat) (prepared : Prepared s m) (pos : n ≠ 0) (le : n ≤ Config.execCap)
      (direction : transferDirection i.commandId ≠ none) (length : ∀ k, fixedTransfer i = some k → n = k)
      (flag : m.writeDeletedFlag = true → s.writeDeletedFlag = true ∨ i.commandId = .writeDeletedData)
      (flagSet : i.commandId = .writeDeletedData → m.writeDeletedFlag = true)
      (eq : t = beginExecution n m)

theorem execEnd_fail {i : Instr} {s m : State} (e : ErrorCode) (h : Prepared s m)
    (hf : m.writeDeletedFlag = s.writeDeletedFlag) : ExecEnd i s (failCommand i e m) :=
  .result (applyError e m) _ (h.trans (prepared_applyError e m)) (.inr rfl) (by simp [hf]) rfl

/-- Opening an Execution phase from a prepared state. -/
theorem execEnd_open {i : Instr} {n : Nat} {s m t : State} (h : openExecution i n m = .next t) (hp : Prepared s m)
    (hn : n ≤ Config.execCap) (hd : transferDirection i.commandId ≠ none) (hl : ∀ k, fixedTransfer i = some k → n = k)
    (hf : m.writeDeletedFlag = true → s.writeDeletedFlag = true ∨ i.commandId = .writeDeletedData ∧ ∃ p, writesSector i = some p)
    (hs : i.commandId = .writeDeletedData → m.writeDeletedFlag = true) : ExecEnd i s t := by
  rcases openExecution_next h with ⟨h0, rfl⟩ | ⟨-, k, hk, rfl⟩
  · exact .execution m n hp h0 hn hd hl (fun hm => (hf hm).imp id And.left) hs rfl
  · obtain ⟨hq, hc⟩ := prepared_finishAction hk
    refine .result k _ (hp.trans ((prepared_beginExecution 0 m).trans hq)) (.inr rfl) (fun hs => hc ?_) rfl
    rw [beginExecution_writeDeletedFlag]
    cases hm : m.writeDeletedFlag with
    | false => exact .inl rfl
    | true => exact .inr ((hf hm).elim (fun h1 => by simp [hs] at h1) And.right)

theorem asks_flag {u : UnitNo} {s m : State} (h : Asks u s m) : m.writeDeletedFlag = s.writeDeletedFlag := by
  obtain ⟨-, -, -, rfl, -⟩ := h
  rfl

theorem execEnd_read {i : Instr} {deleted : Bool} {begin : State → State} {f : OpFlags} {uh : UnitHead} {id : SectorId}
    {dtl : Byte} {s t : State} (h : dispatchRead i deleted begin f uh id dtl (restartRotation s) = .next t)
    (hb : ∀ m, Prepared m (begin m)) (hbf : ∀ m, (begin m).writeDeletedFlag = m.writeDeletedFlag)
    (hd : transferDirection i.commandId ≠ none) (hl : fixedTransfer i = some (sectorLen id.n dtl))
    (hi : i.commandId ≠ .writeDeletedData) : ExecEnd i s t := by
  obtain ⟨r, hr, h⟩ := andThen_eq_next.1 h
  obtain ⟨ha, -⟩ := dataSetup_next hr
  have hp : Prepared s r.2 :=
    (prepared_restartRotation s).trans ((prepared_base uh _).trans (prepared_of_asks ha))
  have hpf : r.2.writeDeletedFlag = s.writeDeletedFlag := by simp [asks_flag ha]
  split at h
  · obtain ⟨q, hq, h⟩ := andThen_eq_next.1 h
    have hq' : Prepared s q.2 ∧ q.2.writeDeletedFlag = s.writeDeletedFlag := by
      rcases readSector_next hq with rfl | ⟨m, bytes, hm, hbl, hq2⟩
      · exact ⟨hp, hpf⟩
      · rw [hq2]
        refine ⟨hp.trans ((prepared_of_asks hm).trans (prepared_fillExec bytes m ?_)), by simp [asks_flag hm, hpf]⟩
        rw [hbl]
        exact sectorLen_le _ _
    split at h
    · refine execEnd_open h (hq'.1.trans ((prepared_applyError _ _).trans (hb _))) (sectorLen_le _ _) hd ?_ ?_ (fun h => absurd h hi)
      · intro k hk
        rw [hl] at hk
        exact Option.some.inj hk
      · intro hm
        rw [hbf, applyError_writeDeletedFlag, hq'.2] at hm
        exact .inl hm
    · cases h
      exact execEnd_fail _ hq'.1 hq'.2
  · cases h
    exact execEnd_fail _ hp hpf

theorem execEnd_write {i : Instr} {deleted : Bool} {uh : UnitHead} {id : SectorId} {dtl : Byte} {s t : State}
    (h : dispatchWrite i deleted uh id dtl (restartRotation s) = .next t)
    (hd : transferDirection i.commandId ≠ none) (hl : fixedTransfer i = some (sectorLen id.n dtl))
    (hw : deleted = true → i.commandId = .writeDeletedData ∧ ∃ p, writesSector i = some p)
    (hs : i.commandId = .writeDeletedData → deleted = true) : ExecEnd i s t := by
  obtain ⟨r, hr, h⟩ := andThen_eq_next.1 h
  obtain ⟨ha, -⟩ := dataSetup_next hr
  have hp : Prepared s r.2 :=
    (prepared_restartRotation s).trans ((prepared_base uh _).trans (prepared_of_asks ha))
  have hpf : r.2.writeDeletedFlag = s.writeDeletedFlag := by simp [asks_flag ha]
  split at h
  · refine execEnd_open h (hp.trans (prepared_setWriteDeleted _ _)) (sectorLen_le _ _) hd ?_ ?_ hs
    · intro k hk
      rw [hl] at hk
      exact Option.some.inj hk
    · intro hm
      exact .inr (hw hm)
  · cases h
    exact execEnd_fail _ hp hpf

theorem execEnd_seek {i : Instr} {n : Byte} {uh : UnitHead} {s t : State}
    (h : seekCommon n (baseStatus (select uh (restartRotation s))) = .next t) (hi : seekTarget i = some n) :
    ExecEnd i s t := by
  obtain ⟨r, hr, h⟩ := andThen_eq_next.1 h
  obtain ⟨ha, -⟩ := driveReady_next hr
  have hp : Prepared s r.2 :=
    (prepared_restartRotation s).trans ((prepared_base uh _).trans (prepared_of_asks ha))
  have hpf : r.2.writeDeletedFlag = s.writeDeletedFlag := by simp [asks_flag ha]
  obtain ⟨q, hq, h⟩ := andThen_eq_next.1 h
  cases h
  have hq' : Prepared s q.2 ∧ q.2.writeDeletedFlag = s.writeDeletedFlag := by
    split at hq
    · obtain ⟨m, hm, ⟨-, hq2⟩ | ⟨-, hq2⟩⟩ := seekTo_next hq
      · rw [hq2]
        exact ⟨hp.trans ((prepared_of_asks hm).trans (prepared_setCylinder _ _ _)), by simp [asks_flag hm, hpf]⟩
      · rw [hq2]
        exact ⟨hp.trans (prepared_of_asks hm), by simp [asks_flag hm, hpf]⟩
    · cases hq
      exact ⟨hp, hpf⟩
  exact .seek _ n hi (hq'.1.trans ((prepared_setSeekEnd _).trans (prepared_applyError _ _))) (by simp [hq'.2]) rfl

/-- What the dispatch of a command can do. -/
theorem exec_next {i : Instr} {s t : State} (h : exec i s = .next t) : ExecEnd i s t := by
  cases i with
  | readData f uh id eot gpl dtl =>
    exact execEnd_read (begin := fun t => t) h (fun m => Prepared.refl m) (fun _ => rfl) (by simp [Instr.commandId, transferDirection]) rfl
      (by simp [Instr.commandId])
  | readDeletedData f uh id eot gpl dtl =>
    exact execEnd_read (begin := fun t => t) h (fun m => Prepared.refl m) (fun _ => rfl) (by simp [Instr.commandId, transferDirection]) rfl
      (by simp [Instr.commandId])
  | scanEqual f uh id eot gpl dtl =>
    exact execEnd_read h prepared_scanBegin (fun _ => rfl) (by simp [Instr.commandId, transferDirection]) rfl
      (by simp [Instr.commandId])
  | scanLowOrEqual f uh id eot gpl dtl =>
    exact execEnd_read h prepared_scanBegin (fun _ => rfl) (by simp [Instr.commandId, transferDirection]) rfl
      (by simp [Instr.commandId])
  | scanHighOrEqual f uh id eot gpl dtl =>
    exact execEnd_read h prepared_scanBegin (fun _ => rfl) (by simp [Instr.commandId, transferDirection]) rfl
      (by simp [Instr.commandId])
  | writeData f uh id eot gpl dtl =>
    exact execEnd_write h (by simp [Instr.commandId, transferDirection]) rfl (by simp)
      (by simp [Instr.commandId])
  | writeDeletedData f uh id eot gpl dtl =>
    exact execEnd_write h (by simp [Instr.commandId, transferDirection]) rfl (fun _ => ⟨rfl, _, rfl⟩)
      (fun _ => rfl)
  | recalibrate f uh => exact execEnd_seek h rfl
  | seek f uh ncn => exact execEnd_seek h rfl
  | specify f a b =>
    cases h
    exact .specify f a b rfl rfl
  | invalid f c =>
    cases h
    exact .result _ _ (prepared_restartRotation s) (.inl rfl) (by simp) rfl
  | senseInterruptStatus f =>
    simp only [exec, execSenseInterruptStatus] at h
    split at h
    · next hs =>
      cases h
      exact .seekEndRead f rfl hs rfl
    · cases h
      exact .result _ _ (prepared_restartRotation s) (.inl rfl) (by simp) rfl
  | senseDriveStatus f uh =>
    obtain ⟨r, hr, h⟩ := andThen_eq_next.1 h
    cases h
    obtain ⟨ha, -⟩ := driveStatusByte_next hr
    refine .result (setStatus3 r.1 r.2) [r.1] ?_ (.inl rfl) (by simp [asks_flag ha]) rfl
    have hsel : Prepared (restartRotation s) (select uh (restartRotation s)) := by apply Prepared.of_eq <;> simp
    have hst : Prepared r.2 (setStatus3 r.1 r.2) := by apply Prepared.of_eq <;> simp
    exact (prepared_restartRotation s).trans (hsel.trans ((prepared_of_asks ha).trans hst))
  | readId f uh =>
    obtain ⟨r, hr, h⟩ := andThen_eq_next.1 h
    obtain ⟨ha, -⟩ := dataSetup_next hr
    have hp : Prepared s r.2 := (prepared_base uh _).trans (prepared_of_asks ha)
    have hpf : r.2.writeDeletedFlag = s.writeDeletedFlag := by simp [asks_flag ha]
    split at h
    · obtain ⟨q, hq, h⟩ := andThen_eq_next.1 h
      have hk := readSectorHeader_next hq
      have hrot : Prepared q.2 (setRotation (r.2.rotatingSectorIndex + 1) q.2) := by
        apply Prepared.of_eq <;> simp
      have hq' := hp.trans ((prepared_of_asks hk).trans hrot)
      split at h <;> cases h
      · exact .result _ _ hq' (.inr rfl) (by simp [asks_flag hk, hpf]) rfl
      · exact execEnd_fail _ hq' (by simp [asks_flag hk, hpf])
    · cases h
      exact execEnd_fail _ hp hpf
  | formatTrack f uh n sc gpl d =>
    obtain ⟨r, hr, h⟩ := andThen_eq_next.1 h
    obtain ⟨ha, -⟩ := dataSetup_next hr
    have hp : Prepared s r.2 :=
      (prepared_restartRotation s).trans ((prepared_base uh _).trans (prepared_of_asks ha))
    have hpf : r.2.writeDeletedFlag = s.writeDeletedFlag := by simp [asks_flag ha]
    split at h
    · refine execEnd_open h hp ?_ (by simp [Instr.commandId, transferDirection]) ?_ (fun hm => .inl (hpf ▸ hm))
        (by simp [Instr.commandId])
      · have := formatLen_le sc
        simp only [Config.execCap]
        omega
      · intro k hk
        exact Option.some.inj hk
    · cases h
      exact execEnd_fail _ hp hpf
  | readTrack f uh id eot gpl dtl =>
    obtain ⟨r, hr, h⟩ := andThen_eq_next.1 h
    obtain ⟨ha, -⟩ := dataSetup_next hr
    have hp : Prepared s r.2 :=
      (prepared_restartRotation s).trans ((prepared_base uh _).trans (prepared_of_asks ha))
    have hpf : r.2.writeDeletedFlag = s.writeDeletedFlag := by simp [asks_flag ha]
    split at h
    · obtain ⟨q, hq, h⟩ := andThen_eq_next.1 h
      have hq' : Prepared s q.2 ∧ q.2.writeDeletedFlag = s.writeDeletedFlag ∧ q.1.2 ≤ Config.execCap := by
        rcases readWholeTrack_next hq with rfl | ⟨m, bytes, hm, hbl, hle, hq2⟩
        · exact ⟨hp, hpf, by simp⟩
        · rw [hq2]
          exact ⟨hp.trans ((prepared_of_asks hm).trans (prepared_fillExec bytes m (by omega))),
            by simp [asks_flag hm, hpf], hle⟩
      split at h
      · refine execEnd_open h (hq'.1.trans (prepared_applyError _ _)) hq'.2.2 (by simp [Instr.commandId, transferDirection])
          (fun k hk => by cases hk) ?_ (by simp [Instr.commandId])
        intro hm
        rw [applyError_writeDeletedFlag, hq'.2.1] at hm
        exact .inl hm
      · cases h
        exact execEnd_fail _ hq'.1 hq'.2.1
    · cases h
      exact execEnd_fail _ hp hpf

end Sys2Proof.Machine
end

