-- ==== Sys2Proof/Laws/Step.lean ====
section
/-! SUPPORT. What one data-register access can do, said once: the inversion lemmas of `writePhase` and `readPhase` (R78, R79), of
`setMotor` (R162) and of the media swap (R171). A proof about every step goes through them and unfolds no host operation. -/

namespace Sys2Proof.Machine

open Sys2Proof

/-- What a host byte does after its acknowledgement, by the phase (R78, R80 to R82, R87, R93). -/
inductive WriteEnd (b : Byte) (s m : State) : Prop where
  /-- A first byte that asks for more. -/
  | opcode (phase : s.phase = .idle) (more : cmdCount (commandId (op5 b)) ≠ 1) (eq : m = acceptOpcode b s)
  /-- A command of one byte. -/
  | oneByte (i : Instr) (phase : s.phase = .idle) (one : cmdCount (commandId (op5 b)) = 1)
      (instr : i = assemble (commandId (op5 b)) (Memory.read (acceptOpcode b s).cmdBuf))
      (run : exec i (acceptOpcode b s) = .next m)
  /-- A command byte that is not the last. -/
  | operand (phase : s.phase = .command) (bound : s.cmdPosition < Config.cmdCap) (more : s.cmdLength - 1 ≠ 0)
      (eq : m = acceptOperand b s)
  /-- The last command byte. -/
  | lastByte (i : Instr) (phase : s.phase = .command) (bound : s.cmdPosition < Config.cmdCap)
      (last : s.cmdLength - 1 = 0) (instr : (acceptOperand b s).pendingInstr = some i)
      (run : exec i (acceptOperand b s) = .next m)
  /-- An Execution byte that is not the last. -/
  | execByte (i : Instr) (phase : s.phase = .execution) (direction : s.direction = some .hostToController)
      (instr : s.pendingInstr = some i) (bound : s.execPosition < Config.execCap) (more : s.execLength - 1 ≠ 0)
      (eq : m = advanceExec (takeExecByte i b s))
  /-- The last Execution byte. -/
  | execLast (i : Instr) (phase : s.phase = .execution) (direction : s.direction = some .hostToController)
      (instr : s.pendingInstr = some i) (bound : s.execPosition < Config.execCap) (last : s.execLength - 1 = 0)
      (run : finalizeExecution i (advanceExec (takeExecByte i b s)) = .next m)
  /-- A stray write. -/
  | stray (phase : s.phase = .result ∨ s.phase = .execution ∧ s.direction ≠ some .hostToController) (eq : m = s)

/-- What a host read does after its acknowledgement, by the phase (R79, R88, R90, R92). -/
inductive ReadEnd (s m : State) : Prop where
  /-- An Execution byte that is not the last. -/
  | execByte (i : Instr) (phase : s.phase = .execution) (direction : s.direction = some .controllerToHost)
      (instr : s.pendingInstr = some i) (bound : s.execPosition < Config.execCap) (more : s.execLength - 1 ≠ 0)
      (eq : m = advanceExec (deliver (s.execBuf.read s.execPosition) s))
  /-- The last Execution byte. -/
  | execLast (i : Instr) (phase : s.phase = .execution) (direction : s.direction = some .controllerToHost)
      (instr : s.pendingInstr = some i) (bound : s.execPosition < Config.execCap) (last : s.execLength - 1 = 0)
      (run : finalizeExecution i (advanceExec (deliver (s.execBuf.read s.execPosition) s)) = .next m)
  /-- A result byte. -/
  | result (phase : s.phase = .result) (bound : s.resPosition < Config.resCap)
      (eq : m = endIfRead (advanceResult (deliver (s.resBuf.read s.resPosition) s)))
  /-- A stray read. -/
  | stray (phase : s.phase = .idle ∨ s.phase = .command ∨ s.phase = .execution ∧ s.direction ≠ some .controllerToHost)
      (eq : m = deliver Config.strayReadValue s)

theorem withPending_next {s t : State} {k : Instr → Result State} (h : withPending s k = .next t) :
    ∃ i, s.pendingInstr = some i ∧ k i = .next t := by
  unfold withPending at h
  split at h
  · cases h
  · next i hi => exact ⟨i, hi, h⟩

theorem finalizeIfDone_next {i : Instr} {s t : State} (h : finalizeIfDone i s = .next t) :
    s.execLength ≠ 0 ∧ t = s ∨ s.execLength = 0 ∧ finalizeExecution i s = .next t := by
  unfold finalizeIfDone at h
  split at h
  · next hz => exact .inr ⟨hz, h⟩
  · next hz =>
    cases h
    exact .inl ⟨hz, rfl⟩

theorem dispatchIfComplete_next {s t : State} (h : dispatchIfComplete s = .next t) :
    s.cmdLength ≠ 0 ∧ t = s ∨ s.cmdLength = 0 ∧ ∃ i, s.pendingInstr = some i ∧ exec i s = .next t := by
  unfold dispatchIfComplete at h
  split at h
  · next hz => exact .inr ⟨hz, withPending_next h⟩
  · next hz =>
    cases h
    exact .inl ⟨hz, rfl⟩

theorem cmdCount_pos (id : CommandId) : 1 ≤ cmdCount id := by
  cases id <;> simp [cmdCount]

/-- A command's operands depend on the bytes its count covers alone (R57). -/
theorem assemble_congr (id : CommandId) {f g : Nat → Byte} (h : ∀ k, k < cmdCount id → f k = g k) :
    assemble id f = assemble id g := by
  cases id <;> simp only [cmdCount] at h <;> simp [assemble, sectorIdOf, h]

theorem assemble_commandId (id : CommandId) (f : Nat → Byte) : (assemble id f).commandId = id := by
  cases id <;> rfl

/-- Everything a host byte can do after its acknowledgement. -/
theorem writePhase_next {b : Byte} {s m : State} (h : writePhase b s = .next m) : WriteEnd b s m := by
  unfold writePhase at h
  split at h
  · next hp =>
    have hc := cmdCount_pos (commandId (op5 b))
    rcases dispatchIfComplete_next h with ⟨hl, rfl⟩ | ⟨hl, i, hi, hr⟩
    · refine .opcode hp ?_ rfl
      simp only [acceptOpcode_cmdLength] at hl
      omega
    · refine .oneByte i hp ?_ ?_ hr
      · simp only [acceptOpcode_cmdLength] at hl
        omega
      · simpa [State.pendingInstr] using hi.symm
  · next hp =>
    unfold appendCommand at h
    split at h
    · next hb =>
      rcases dispatchIfComplete_next h with ⟨hl, rfl⟩ | ⟨hl, i, hi, hr⟩
      · exact .operand hp hb (by simpa using hl) rfl
      · exact .lastByte i hp hb (by simpa using hl) hi hr
    · cases h
  · next hp =>
    split at h
    · next hd =>
      obtain ⟨i, hi, hr⟩ := withPending_next h
      split at hr
      · next hb =>
        rcases finalizeIfDone_next hr with ⟨hl, rfl⟩ | ⟨hl, hr⟩
        · exact .execByte i hp hd hi hb (by simpa using hl) rfl
        · exact .execLast i hp hd hi hb (by simpa using hl) hr
      · cases hr
    · next hd =>
      cases h
      exact .stray (.inr ⟨hp, hd⟩) rfl
  · next hp =>
    cases h
    exact .stray (.inl hp) rfl

/-- Everything a host read can do after its acknowledgement. -/
theorem readPhase_next {s m : State} (h : readPhase s = .next m) : ReadEnd s m := by
  unfold readPhase at h
  split at h
  · next hp =>
    split at h
    · next hd =>
      obtain ⟨i, hi, hr⟩ := withPending_next h
      split at hr
      · next hb =>
        rcases finalizeIfDone_next hr with ⟨hl, rfl⟩ | ⟨hl, hr⟩
        · exact .execByte i hp hd hi hb (by simpa using hl) rfl
        · exact .execLast i hp hd hi hb (by simpa using hl) hr
      · cases hr
    · next hd =>
      cases h
      exact .stray (.inr (.inr ⟨hp, hd⟩)) rfl
  · next hp =>
    unfold resultRead at h
    split at h
    · next hb =>
      cases h
      exact .result hp hb rfl
    · cases h
  · next hp =>
    cases h
    exact .stray (.inl hp) rfl
  · next hp =>
    cases h
    exact .stray (.inr (.inl hp)) rfl

theorem writeData_next {b : Byte} {s t : State} (h : writeData b s = .next t) :
    ∃ m, WriteEnd b (ackOnAccess s) m ∧ t = armOnCompletion m := by
  obtain ⟨m, hm, ht⟩ := andThen_eq_next.1 h
  cases ht
  exact ⟨m, writePhase_next hm, rfl⟩

theorem readData_next {s t : State} (h : readData s = .next t) :
    ∃ m, ReadEnd (ackOnAccess s) m ∧ t = armOnCompletion m := by
  obtain ⟨m, hm, ht⟩ := andThen_eq_next.1 h
  cases ht
  exact ⟨m, readPhase_next hm, rfl⟩

/-! ### Motor control -/

/-- A motor change sets each present drive's motor by its bit (R162). -/
theorem drive_setMotors (mask : Byte) (s : State) (u : UnitNo) :
    (setMotors mask s).drive u = (s.drive u).map fun d => { d with motorOn := mask.getLsbD u.toNat } := by
  have hu : u = 0 ∨ u = 1 ∨ u = 2 ∨ u = 3 := by
    revert u
    decide
  have hw : ∀ v : UnitNo, Drive.withMotor (s.drive v) (motorBit mask v) =
      (s.drive v).map fun d => { d with motorOn := mask.getLsbD v.toNat } := by
    intro v
    unfold Drive.withMotor motorBit
    cases s.drive v <;> rfl
  rw [← hw]
  rcases hu with rfl | rfl | rfl | rfl <;> rfl

theorem motorStopAborts_iff {mask : Byte} {s : State} :
    motorStopAborts mask s = true ↔
      s.phase = .execution ∧
        ∃ d, s.drive s.selectedUnit = some d ∧ d.motorOn = true ∧ mask.getLsbD s.selectedUnit.toNat = false := by
  unfold motorStopAborts
  cases h : s.drive s.selectedUnit <;> simp [motorBit]
  tauto

/-- Whether a mask changes any motor (R162). -/
theorem motorsChanged_iff {mask : Byte} {s : State} :
    motorsChanged mask s = true ↔ ∃ u d, s.drive u = some d ∧ d.motorOn ≠ mask.getLsbD u.toNat := by
  have hu : ∀ u : UnitNo, u = 0 ∨ u = 1 ∨ u = 2 ∨ u = 3 := by decide
  have key : ∀ u, Drive.motorChanges (s.drive u) (motorBit mask u) = true ↔
      ∃ d, s.drive u = some d ∧ d.motorOn ≠ mask.getLsbD u.toNat := by
    intro u
    unfold Drive.motorChanges motorBit
    cases s.drive u <;> simp
  unfold motorsChanged
  simp only [Bool.or_eq_true, key]
  constructor
  · rintro (((⟨d, h⟩ | ⟨d, h⟩) | ⟨d, h⟩) | ⟨d, h⟩) <;> exact ⟨_, d, h⟩
  · rintro ⟨u, d, h⟩
    rcases hu u with rfl | rfl | rfl | rfl
    · exact .inl (.inl (.inl ⟨d, h⟩))
    · exact .inl (.inl (.inr ⟨d, h⟩))
    · exact .inl (.inr ⟨d, h⟩)
    · exact .inr ⟨d, h⟩

/-- Everything `setMotor` can do (R162): set the motors, abort or not, arm or not. -/
theorem setMotor_next {mask : Byte} {s t : State} (h : setMotor mask s = .next t) :
    (motorStopAborts mask s = true ∧ ∃ i, s.pendingInstr = some i ∧
      t = armMotorChange (motorsChanged mask s) (motorAbort i (setMotors mask s))) ∨
    (motorStopAborts mask s = false ∧ t = armMotorChange (motorsChanged mask s) (setMotors mask s)) := by
  obtain ⟨m, hm, ht⟩ := andThen_eq_next.1 h
  cases ht
  split at hm
  · next ha =>
    obtain ⟨i, hi, hr⟩ := withPending_next hm
    cases hr
    exact .inl ⟨ha, i, hi, rfl⟩
  · next ha =>
    cases hm
    exact .inr ⟨by simpa using ha, rfl⟩

/-! ### Reset and media swap -/

theorem drive_resetMachine (s : State) (u : UnitNo) :
    (resetMachine s).drive u = (s.drive u).map fun d => { d with motorOn := false, currentCylinder := 0 } := by
  have hr : ∀ d : Option Drive, Drive.reset d = d.map fun d => { d with motorOn := false, currentCylinder := 0 } := by
    intro d
    cases d <;> rfl
  rw [← hr]
  have hu : u = 0 ∨ u = 1 ∨ u = 2 ∨ u = 3 := by
    revert u
    decide
  rcases hu with rfl | rfl | rfl | rfl <;> rfl

/-- The drives of a machine as constructed (R43, R181). -/
theorem drive_construct (cfg : Vector (Option DriveConfig) 4) (u : UnitNo) :
    (State.construct cfg).drive u = cfg[u.toNat].map Drive.construct := by
  have hu : u = 0 ∨ u = 1 ∨ u = 2 ∨ u = 3 := by
    revert u
    decide
  rcases hu with rfl | rfl | rfl | rfl <;> rfl

theorem swapAllowed_iff {u : UnitNo} {s : State} :
    swapAllowed u s = true ↔ (∃ d, s.drive u = some d) ∧ (s.phase = .idle ∨ s.selectedUnit ≠ u) := by
  unfold swapAllowed
  cases s.drive u <;> simp

theorem drive_setAttached (u v : UnitNo) (b : Bool) (s : State) :
    (setAttached u b s).drive v = if u = v then (s.drive v).map fun d => { d with attached := b } else s.drive v := by
  unfold setAttached
  split
  · next h =>
    split
    · next hv => simp [← hv, h]
    · rfl
  · next d h =>
    rw [drive_setDrive]
    split
    · next hv => simp [← hv, h]
    · rfl

end Sys2Proof.Machine
end

