-- ==== Sys2Proof/Laws/Inv.lean ====
section
/-! SUPPORT. A test of the controller's invariant that evaluates, so that a concrete state can be shown to meet it. -/

namespace Sys2Proof.Machine

open Sys2Proof

/-- The three buffers' canonical form, as one test. -/
def State.buffersCheck (s : State) : Bool :=
  Memory.wf Config.cmdCap s.cmdBuf && Memory.wf Config.resCap s.resBuf && Memory.wf Config.execCap s.execBuf

theorem State.BuffersWf.of_check {s : State} (h : s.buffersCheck = true) : s.BuffersWf := by
  simp only [State.buffersCheck, Bool.and_eq_true] at h
  exact ⟨h.1.1, h.1.2, h.2⟩

/-- The transfer length of the pending command agrees with the counters of its Execution. -/
def State.transferCheck (s : State) : Bool :=
  match s.pendingInstr with
  | none => true
  | some i =>
    match fixedTransfer i with
    | none => true
    | some n => decide (s.execPosition + s.execLength = n)

/-- The phase's own part of the invariant. -/
def State.phaseCheck (s : State) : Bool :=
  match s.phase with
  | .idle => decide (s.pendingOpcode = none ∧ s.cmdLength = 0 ∧ s.execLength = 0 ∧ s.resLength = 0)
  | .command =>
    decide (s.pendingOpcode = some (commandId (op5 (s.cmdBuf.read 0))) ∧ 1 ≤ s.cmdPosition ∧ 1 ≤ s.cmdLength ∧
      s.cmdPosition + s.cmdLength = cmdCount (commandId (op5 (s.cmdBuf.read 0))) ∧ s.execLength = 0 ∧ s.resLength = 0)
  | .execution =>
    decide (s.pendingOpcode = some (commandId (op5 (s.cmdBuf.read 0))) ∧ s.direction ≠ none ∧ 1 ≤ s.execLength ∧
      s.execPosition + s.execLength ≤ Config.execCap ∧ s.cmdLength = 0 ∧ s.resLength = 0) && s.transferCheck
  | .result =>
    decide (s.pendingOpcode = some (commandId (op5 (s.cmdBuf.read 0))) ∧ 1 ≤ s.resLength ∧
      (s.resPosition + s.resLength = 1 ∨ s.resPosition + s.resLength = 2 ∨ s.resPosition + s.resLength = 7) ∧
      s.cmdLength = 0 ∧ s.execLength = 0)

/-- The rest of the invariant. -/
def State.restCheck (s : State) : Bool :=
  decide (0 < s.ticksRemaining → s.interruptState ≠ .none) && decide (s.irqLine = true → s.interruptState ≠ .none) &&
  decide (s.writeDeletedFlag = true ↔ s.phase = .execution ∧ s.pendingOpcode = some .writeDeletedData) &&
  s.slots.toList.all fun d =>
    match d with
    | none => true
    | some d => decide (d.currentCylinder ≤ 255)

theorem State.transfer_of_check {s : State} (h : s.transferCheck = true) :
    ∀ i n, s.pendingInstr = some i → fixedTransfer i = some n → s.execPosition + s.execLength = n := by
  intro i n hi hn
  simpa [State.transferCheck, hi, hn] using h

/-- A state that passes the tests meets the invariant. -/
theorem State.Inv.of_check {s : State} (hb : s.buffersCheck = true) (hp : s.phaseCheck = true) (hr : s.restCheck = true) :
    s.Inv := by
  simp only [State.restCheck, Bool.and_eq_true, decide_eq_true_eq] at hr
  obtain ⟨⟨⟨h1, h2⟩, h3⟩, h4⟩ := hr
  have hcyl : ∀ u d, s.drive u = some d → d.currentCylinder ≤ 255 := by
    intro u d hd
    rw [List.all_eq_true] at h4
    have := h4 (some d) (by rw [← hd]; simp [drive_eq_getElem])
    simpa using this
  unfold State.phaseCheck at hp
  cases hph : s.phase <;> simp only [hph, Bool.and_eq_true, decide_eq_true_eq] at hp
  · exact ⟨.of_check hb, by simpa [hph] using hp, by simp [hph], by simp [hph], by simp [hph], by simp [hph], by simp [hph],
      h1, h2, h3, hcyl⟩
  · exact ⟨.of_check hb, by simp [hph], fun _ => hp.1, fun _ => hp.2, by simp [hph], by simp [hph], by simp [hph], h1, h2, h3,
      hcyl⟩
  · exact ⟨.of_check hb, by simp [hph], fun _ => hp.1.1, by simp [hph], fun _ => hp.1.2,
      fun _ => State.transfer_of_check hp.2, by simp [hph], h1, h2, h3, hcyl⟩
  · exact ⟨.of_check hb, by simp [hph], fun _ => hp.1, by simp [hph], by simp [hph], by simp [hph], fun _ => hp.2, h1, h2, h3,
      hcyl⟩

end Sys2Proof.Machine
end

