-- ==== Sys2Proof/Laws/Oracle.lean ====
section
/-! SUPPORT. How an operation uses the scripted backend answers, said once (`Oracular`): it appends to the history; with nothing
scripted it completes; it reads the script from its head and nothing beyond what it takes; and where it is refused, one answer
is to blame, in whose place any answer within the contract lets it complete. Closed under sequencing, it gives
`oracular_exec` for every command and `oracular_finalizeExecution` for the end of an Execution phase. -/

namespace Sys2Proof.Machine

open Sys2Proof

/-- The state with another script of backend answers. -/
def withAnswers (q : List Answer) (s : State) : State := { s with answers := q }

/-- What an operation does with the script. -/
structure Oracular {α : Type} (k : State → Result (α × State)) : Prop where
  /-- The history only grows. -/
  grows : ∀ s x, k s = .next x → ∃ evs, x.2.events = s.events ++ evs
  /-- With nothing scripted the operation completes. -/
  free : ∀ s, s.answers = [] → ∃ x, k s = .next x ∧ x.2.answers = []
  /-- The answers left over are not looked at. -/
  passes : ∀ s x, k s = .next x → x.2.answers ≠ [] → ∃ used, s.answers = used ++ x.2.answers ∧
    ∀ q, k (withAnswers (used ++ q) s) = .next (x.1, withAnswers q x.2)
  /-- A refusal names the answer outside the contract of the call that it answers. -/
  refuses : ∀ s r, k s = .refused r → r = .backendContract ∧ ∃ used a rest u c, s.answers = used ++ a :: rest ∧
    a.inContract c = false ∧ ∀ a', a'.inContract c = true →
      ∃ x evs, k (withAnswers (used ++ [a']) s) = .next x ∧ x.2.answers = [] ∧ x.2.events = s.events ++ evs ∧
        .call u c a' ∈ evs

@[simp] theorem withAnswers_answers (q : List Answer) (s : State) : (withAnswers q s).answers = q := (rfl)
@[simp] theorem withAnswers_phase (q : List Answer) (s : State) : (withAnswers q s).phase = s.phase := (rfl)
@[simp] theorem withAnswers_status0 (q : List Answer) (s : State) : (withAnswers q s).status0 = s.status0 := (rfl)
@[simp] theorem withAnswers_status1 (q : List Answer) (s : State) : (withAnswers q s).status1 = s.status1 := (rfl)
@[simp] theorem withAnswers_status2 (q : List Answer) (s : State) : (withAnswers q s).status2 = s.status2 := (rfl)
@[simp] theorem withAnswers_status3 (q : List Answer) (s : State) : (withAnswers q s).status3 = s.status3 := (rfl)
@[simp] theorem withAnswers_spec1 (q : List Answer) (s : State) : (withAnswers q s).spec1 = s.spec1 := (rfl)
@[simp] theorem withAnswers_spec2 (q : List Answer) (s : State) : (withAnswers q s).spec2 = s.spec2 := (rfl)
@[simp] theorem withAnswers_cmdBuf (q : List Answer) (s : State) : (withAnswers q s).cmdBuf = s.cmdBuf := (rfl)
@[simp] theorem withAnswers_cmdLength (q : List Answer) (s : State) : (withAnswers q s).cmdLength = s.cmdLength := (rfl)
@[simp] theorem withAnswers_cmdPosition (q : List Answer) (s : State) : (withAnswers q s).cmdPosition = s.cmdPosition := (rfl)
@[simp] theorem withAnswers_resBuf (q : List Answer) (s : State) : (withAnswers q s).resBuf = s.resBuf := (rfl)
@[simp] theorem withAnswers_resLength (q : List Answer) (s : State) : (withAnswers q s).resLength = s.resLength := (rfl)
@[simp] theorem withAnswers_resPosition (q : List Answer) (s : State) : (withAnswers q s).resPosition = s.resPosition := (rfl)
@[simp] theorem withAnswers_execBuf (q : List Answer) (s : State) : (withAnswers q s).execBuf = s.execBuf := (rfl)
@[simp] theorem withAnswers_execLength (q : List Answer) (s : State) : (withAnswers q s).execLength = s.execLength := (rfl)
@[simp] theorem withAnswers_execPosition (q : List Answer) (s : State) : (withAnswers q s).execPosition = s.execPosition := (rfl)
@[simp] theorem withAnswers_selectedUnit (q : List Answer) (s : State) : (withAnswers q s).selectedUnit = s.selectedUnit := (rfl)
@[simp] theorem withAnswers_selectedHead (q : List Answer) (s : State) : (withAnswers q s).selectedHead = s.selectedHead := (rfl)
@[simp] theorem withAnswers_pendingOpcode (q : List Answer) (s : State) : (withAnswers q s).pendingOpcode = s.pendingOpcode := (rfl)
@[simp] theorem withAnswers_writeDeletedFlag (q : List Answer) (s : State) : (withAnswers q s).writeDeletedFlag = s.writeDeletedFlag := (rfl)
@[simp] theorem withAnswers_rotatingSectorIndex (q : List Answer) (s : State) : (withAnswers q s).rotatingSectorIndex = s.rotatingSectorIndex := (rfl)
@[simp] theorem withAnswers_interruptState (q : List Answer) (s : State) : (withAnswers q s).interruptState = s.interruptState := (rfl)
@[simp] theorem withAnswers_ticksRemaining (q : List Answer) (s : State) : (withAnswers q s).ticksRemaining = s.ticksRemaining := (rfl)
@[simp] theorem withAnswers_irqLine (q : List Answer) (s : State) : (withAnswers q s).irqLine = s.irqLine := (rfl)
@[simp] theorem withAnswers_slots (q : List Answer) (s : State) : (withAnswers q s).slots = s.slots := (rfl)
@[simp] theorem withAnswers_events (q : List Answer) (s : State) : (withAnswers q s).events = s.events := (rfl)
@[simp] theorem withAnswers_hostOps (q : List Answer) (s : State) : (withAnswers q s).hostOps = s.hostOps := (rfl)
@[simp] theorem withAnswers_freeCalls (q : List Answer) (s : State) : (withAnswers q s).freeCalls = s.freeCalls := (rfl)
@[simp] theorem withAnswers_reply (q : List Answer) (s : State) : (withAnswers q s).reply = s.reply := (rfl)

/-- An operation that asks nothing, and does not look at the script. -/
theorem Oracular.pure {α : Type} {v : State → α} {f : State → State} (hv : ∀ q s, v (withAnswers q s) = v s)
    (hf : ∀ q s, f (withAnswers q s) = withAnswers q (f s)) (he : ∀ s, ∃ evs, (f s).events = s.events ++ evs) :
    Oracular (fun s => .next (v s, f s)) := by
  have ha : ∀ s, (f s).answers = s.answers := fun s => by
    have := congrArg State.answers (hf s.answers s)
    simpa [withAnswers] using this
  refine ⟨fun s x h => ?_, fun s h => ⟨_, rfl, by simp [ha, h]⟩, fun s x h _ => ?_, fun s r h => by cases h⟩
  · cases h
    exact he s
  · cases h
    exact ⟨[], by simp [ha], fun q => by simp [hv, hf]⟩

/-- One operation after another. -/
theorem Oracular.andThen {α β : Type} {k : State → Result (α × State)} {k' : α → State → Result (β × State)}
    (h : Oracular k) (h' : ∀ v, Oracular (k' v)) :
    Oracular (fun s => Machine.andThen (k s) fun x => k' x.1 x.2) := by
  refine ⟨fun s y hy => ?_, fun s hs => ?_, fun s y hy hne => ?_, fun s r hr => ?_⟩
  · obtain ⟨x, hx, hy⟩ := andThen_eq_next.1 hy
    obtain ⟨e, he⟩ := h.grows s x hx
    obtain ⟨e', he'⟩ := (h' x.1).grows _ _ hy
    exact ⟨e ++ e', by simp [he', he]⟩
  · obtain ⟨x, hx, hxa⟩ := h.free s hs
    obtain ⟨y, hy, hya⟩ := (h' x.1).free x.2 hxa
    exact ⟨y, andThen_eq_next.2 ⟨x, hx, hy⟩, hya⟩
  · obtain ⟨x, hx, hy⟩ := andThen_eq_next.1 hy
    obtain ⟨u', hu', hp'⟩ := (h' x.1).passes _ _ hy hne
    obtain ⟨u, hu, hp⟩ := h.passes s x hx (by simp [hu', hne])
    refine ⟨u ++ u', by simp [hu, hu'], fun q => andThen_eq_next.2 ⟨(x.1, withAnswers (u' ++ q) x.2), ?_, hp' q⟩⟩
    rw [List.append_assoc]
    exact hp (u' ++ q)
  · rcases andThen_eq_refused.1 hr with hr | ⟨x, hx, hr⟩
    · obtain ⟨rfl, used, a, rest, u, c, ha, hc, hgo⟩ := h.refuses s r hr
      refine ⟨rfl, used, a, rest, u, c, ha, hc, fun a' ha' => ?_⟩
      obtain ⟨x, e, hx, hxa, he, hm⟩ := hgo a' ha'
      obtain ⟨y, hy, hya⟩ := (h' x.1).free x.2 hxa
      obtain ⟨e', he'⟩ := (h' x.1).grows _ _ hy
      exact ⟨y, e ++ e', andThen_eq_next.2 ⟨x, hx, hy⟩, hya, by simp [he', he], List.mem_append_left _ hm⟩
    · obtain ⟨rfl, used, a, rest, u, c, ha, hc, hgo⟩ := (h' x.1).refuses _ _ hr
      obtain ⟨u', hu', hp⟩ := h.passes s x hx (by simp [ha])
      refine ⟨rfl, u' ++ used, a, rest, u, c, by simp [hu', ha], hc, fun a' ha' => ?_⟩
      obtain ⟨y, e, hy, hya, he, hm⟩ := hgo a' ha'
      obtain ⟨e', he'⟩ := h.grows s x hx
      refine ⟨y, e' ++ e, andThen_eq_next.2 ⟨(x.1, withAnswers (used ++ [a']) x.2), ?_, hy⟩, hya, by simp [he, he'], List.mem_append_right _ hm⟩
      rw [List.append_assoc]
      exact hp (used ++ [a'])

/-- A choice on what is not the script. -/
theorem Oracular.ite {α : Type} {p : State → Prop} [DecidablePred p] {k k' : State → Result (α × State)}
    (hp : ∀ q s, p (withAnswers q s) ↔ p s) (h : Oracular k) (h' : Oracular k') :
    Oracular (fun s => if p s then k s else k' s) := by
  refine ⟨fun s x hx => ?_, fun s hs => ?_, fun s x hx hne => ?_, fun s r hr => ?_⟩ <;> by_cases hs' : p s
  all_goals simp only [hp, hs', if_true, if_false] at *
  · exact h.grows s x hx
  · exact h'.grows s x hx
  · exact h.free s hs
  · exact h'.free s hs
  · exact h.passes s x hx hne
  · exact h'.passes s x hx hne
  · exact h.refuses s r hr
  · exact h'.refuses s r hr

/-- A call of a backend. -/
theorem oracular_ask (u : State → UnitNo) (c : State → Call) (hu : ∀ q s, u (withAnswers q s) = u s)
    (hc : ∀ q s, c (withAnswers q s) = c s) : Oracular (fun s => ask (u s) (c s) s) := by
  refine ⟨fun s x hx => ?_, fun s hs => ⟨_, ask_free _ _ hs, by simpa [countFreeCall] using hs⟩, fun s x hx hne => ?_, fun s r hr => ?_⟩
  · obtain ⟨-, q, n, hx⟩ := ask_next hx
    exact ⟨_, by rw [hx]⟩
  · unfold ask at hx
    split at hx
    · next hs =>
      cases hx
      exact absurd (by simpa [countFreeCall] using hs) hne
    · next a rest hs =>
      split at hx
      · next ha =>
        cases hx
        refine ⟨[a], by simp [hs], fun q => ?_⟩
        rw [hu, hc, ask_scripted (a := a) (rest := q) _ _ rfl ha]
        rfl
      · cases hx
  · unfold ask at hr
    split at hr
    · cases hr
    · next a rest hs =>
      split at hr
      · cases hr
      · next ha =>
        cases hr
        refine ⟨rfl, [], a, rest, u s, c s, by simp [hs], by simpa using ha, fun a' ha' => ?_⟩
        refine ⟨_, [.call (u s) (c s) a'], ask_scripted (rest := []) _ _ rfl (by rwa [hc]), ?_, ?_, by simp⟩
        · rfl
        · simp [hu, hc, record, takeAnswer]

/-! ### Operations that answer a state alone -/

/-- The same of an operation that answers a state alone. -/
def OracularS (k : State → Result State) : Prop := Oracular fun s => andThen (k s) fun t => .next ((), t)

theorem OracularS.pure {f : State → State} (hf : ∀ q s, f (withAnswers q s) = withAnswers q (f s))
    (he : ∀ s, ∃ evs, (f s).events = s.events ++ evs) : OracularS (fun s => .next (f s)) :=
  Oracular.pure (v := fun _ => ()) (fun _ _ => rfl) hf he

/-- One operation after another, of which the second answers a state alone. -/
theorem Oracular.thenState {α : Type} {k : State → Result (α × State)} {k' : α → State → Result State} (h : Oracular k)
    (h' : ∀ v, OracularS (k' v)) : OracularS (fun s => Machine.andThen (k s) fun x => k' x.1 x.2) := by
  have := h.andThen h'
  simpa only [OracularS, andThen_assoc] using this

theorem OracularS.then {k k' : State → Result State} (h : OracularS k) (h' : OracularS k') :
    OracularS (fun s => andThen (k s) k') := by
  have := Oracular.andThen h fun _ => h'
  simpa only [OracularS, andThen_assoc, andThen_next] using this

theorem OracularS.ite {p : State → Prop} [DecidablePred p] {k k' : State → Result State}
    (hp : ∀ q s, p (withAnswers q s) ↔ p s) (h : OracularS k) (h' : OracularS k') :
    OracularS (fun s => if p s then k s else k' s) := by
  have := Oracular.ite hp h h'
  unfold OracularS
  convert this using 2 with s
  by_cases hs : p s <;> simp [hs]

/-- After a preparation of the state that does not look at the script. -/
theorem Oracular.after {α : Type} {k : State → Result (α × State)} {f : State → State} (h : Oracular k)
    (hf : ∀ q s, f (withAnswers q s) = withAnswers q (f s)) (he : ∀ s, ∃ evs, (f s).events = s.events ++ evs) :
    Oracular (fun s => k (f s)) :=
  (Oracular.pure (v := fun _ => ()) (fun _ _ => rfl) hf he).andThen fun _ => h

theorem OracularS.after {k : State → Result State} {f : State → State} (h : OracularS k)
    (hf : ∀ q s, f (withAnswers q s) = withAnswers q (f s)) (he : ∀ s, ∃ evs, (f s).events = s.events ++ evs) :
    OracularS (fun s => k (f s)) :=
  Oracular.after h hf he

/-! ### The Drive layer and the phases -/

theorem keeps_events {s t : State} (h : t.events = s.events) : ∃ evs, t.events = s.events ++ evs := ⟨[], by simp [h]⟩

/-- An answer without a call. -/
theorem oracular_answer {α : Type} (v : α) : Oracular (fun s => .next (v, s)) :=
  Oracular.pure (v := fun _ => v) (f := fun s => s) (fun _ _ => rfl) (fun _ _ => rfl) fun _ => keeps_events rfl

/-- One call where a condition holds, and none elsewhere. -/
theorem oracular_guardedAsk {α : Type} {p : State → Prop} [DecidablePred p] (u : State → UnitNo) (c : State → Call)
    (v : Answer → α) (f : Answer → State → State) (w : α) (hp : ∀ q s, p (withAnswers q s) ↔ p s)
    (hu : ∀ q s, u (withAnswers q s) = u s) (hc : ∀ q s, c (withAnswers q s) = c s)
    (hf : ∀ a q s, f a (withAnswers q s) = withAnswers q (f a s)) (he : ∀ a s, (f a s).events = s.events) :
    Oracular (fun s => if p s then andThen (ask (u s) (c s) s) fun r => .next (v r.1, f r.1 r.2) else .next (w, s)) :=
  Oracular.ite hp
    ((oracular_ask u c hu hc).andThen (k' := fun a s => .next (v a, f a s)) fun a =>
      Oracular.pure (v := fun _ => v a) (fun _ _ => rfl) (hf a) fun s => keeps_events (he a s))
    (oracular_answer w)

theorem oracular_driveReady (u : UnitNo) : Oracular (driveReady u) :=
  oracular_guardedAsk (p := fun s => (s.usable u && s.spinning u) = true) (fun _ => u) (fun _ => .ready) Answer.readiness
    (fun _ s => s) false (fun _ _ => Iff.rfl) (fun _ _ => rfl) (fun _ _ => rfl) (fun _ _ _ => rfl) fun _ _ => rfl

theorem oracular_dataSetup (uh : UnitHead) : Oracular (dataSetup uh) :=
  (oracular_driveReady uh.us).after (fun _ _ => rfl) fun _ => keeps_events rfl

theorem setCylinder_withAnswers (u : UnitNo) (n : Byte) (q : List Answer) (s : State) :
    setCylinder u n (withAnswers q s) = withAnswers q (setCylinder u n s) := by
  unfold setCylinder
  rw [show (withAnswers q s).drive u = s.drive u from rfl]
  split <;> rfl

theorem oracular_seekTo (u : UnitNo) (n : Byte) : Oracular (seekTo u n) := by
  have := oracular_guardedAsk (p := fun s => s.usable u = true) (fun _ => u) (fun _ => .seekCylinder n) Answer.errorCode
    (fun a s => if a.errorCode = .ok then setCylinder u n s else s) .notReady (fun _ _ => Iff.rfl) (fun _ _ => rfl)
    (fun _ _ => rfl) (fun a q s => by split <;> simp [setCylinder_withAnswers])
    (fun a s => by split <;> simp)
  convert this using 1
  funext s
  unfold seekTo
  by_cases hu : s.usable u = true
  · rw [if_pos hu, if_pos hu]
    congr 1
    funext r
    split <;> rfl
  · rw [if_neg hu, if_neg hu]

theorem oracular_readSector (u : UnitNo) (args : State → SectorArgs) (ha : ∀ q s, args (withAnswers q s) = args s) :
    Oracular (fun s => readSector u (args s) s) :=
  oracular_guardedAsk (p := fun s => s.usable u = true) (fun _ => u) (fun s => .readSector (args s)) Answer.errorCode
    (fun a s => fillExec a.bytes s) .notReady (fun _ _ => Iff.rfl) (fun _ _ => rfl) (fun q s => by rw [ha])
    (fun _ _ _ => rfl) fun _ _ => rfl

theorem oracular_readSectorHeader (u : UnitNo) (hd : HeadNo) (seq : Nat) : Oracular (readSectorHeader u hd seq) :=
  oracular_guardedAsk (p := fun s => s.usable u = true) (fun _ => u) (fun _ => .readSectorId hd seq)
    (fun a => (a.errorCode, a.sectorId)) (fun _ s => s) (.notReady, ⟨0, 0, 0, 0⟩) (fun _ _ => Iff.rfl) (fun _ _ => rfl)
    (fun _ _ => rfl) (fun _ _ _ => rfl) fun _ _ => rfl

theorem oracular_readWholeTrack (u : UnitNo) (c h : Byte) (hd : HeadNo) : Oracular (readWholeTrack u c h hd) :=
  oracular_guardedAsk (p := fun s => s.usable u = true) (fun _ => u) (fun _ => .readTrack c h hd Config.execCap)
    (fun a => (a.errorCode, min a.bytes.length Config.execCap)) (fun a s => fillExec (a.bytes.take Config.execCap) s)
    (.notReady, 0) (fun _ _ => Iff.rfl) (fun _ _ => rfl) (fun _ _ => rfl) (fun _ _ _ => rfl) fun _ _ => rfl

/-- The status byte is composed with a condition of the state that the call leaves alone. -/
theorem oracularS_driveStatusByte (uh : UnitHead) :
    OracularS (fun s => andThen (driveStatusByte uh.us uh.hd s) fun r => .next (openResult [r.1] (setStatus3 r.1 r.2))) := by
  have := (oracular_guardedAsk (p := fun s => s.usable uh.us = true) (fun _ => uh.us) (fun _ => .driveStatus)
    Answer.statusByte (fun _ s => s) 0x00 (fun _ _ => Iff.rfl) (fun _ _ => rfl) (fun _ _ => rfl) (fun _ _ _ => rfl)
    fun _ _ => rfl).thenState
    (k' := fun b s => .next (openResult [status3Byte b uh.hd uh.us (s.status3Forced uh.us)]
      (setStatus3 (status3Byte b uh.hd uh.us (s.status3Forced uh.us)) s)))
    fun _ => OracularS.pure (fun _ _ => rfl) fun _ => keeps_events rfl
  convert this using 1
  funext s
  unfold driveStatusByte
  split
  · simp only [andThen_assoc, andThen_next]
    cases h : ask uh.us .driveStatus s with
    | next r =>
      obtain ⟨-, q, n, hr⟩ := ask_next h
      have : r.2.status3Forced uh.us = s.status3Forced uh.us := by rw [hr]; rfl
      simp [this]
    | fault r => rfl
    | refused r => rfl
  · rfl

/-- One call on a drive that may be written; ReadOnly and NotReady come without one. -/
theorem oracular_writeAsk (c : State → Call) (hc : ∀ q s, c (withAnswers q s) = c s) :
    Oracular (fun s => if s.usable s.selectedUnit then
      if s.writeProtected s.selectedUnit then .next (ErrorCode.readOnly, s)
      else andThen (ask s.selectedUnit (c s) s) fun r => .next (r.1.errorCode, r.2)
      else .next (.notReady, s)) :=
  Oracular.ite (p := fun s => s.usable s.selectedUnit = true) (fun _ _ => Iff.rfl)
    (Oracular.ite (p := fun s => s.writeProtected s.selectedUnit = true) (fun _ _ => Iff.rfl)
      (oracular_answer _)
      ((oracular_ask (fun s => s.selectedUnit) c (fun _ _ => rfl) hc).andThen (k' := fun a s => .next (a.errorCode, s))
        fun a => oracular_answer a.errorCode))
    (oracular_answer _)

theorem oracularS_finishWrite (f : OpFlags) (id : SectorId) (dtl : Byte) : OracularS (finishWrite f id dtl) :=
  (oracular_writeAsk (fun s => .writeSector (writeArgs f id (sectorLen id.n dtl) s)
      (s.execBuf.firstBytes (writeArgs f id (sectorLen id.n dtl) s).len)) fun _ _ => rfl).thenState
    (k' := fun e t => .next (setWriteDeleted false (applyError e t)))
    fun e => OracularS.pure (f := fun t => setWriteDeleted false (applyError e t)) (fun _ _ => rfl) fun _ => keeps_events rfl

theorem oracularS_finishFormat (sc d : Byte) : OracularS (finishFormat sc d) :=
  (oracular_writeAsk (fun s => .formatTrack s.selectedHead sc (s.execBuf.firstBytes (formatLen sc)) d)
      fun _ _ => rfl).thenState
    (k' := fun e t => .next (applyError e t))
    fun e => OracularS.pure (f := applyError e) (fun _ _ => rfl) fun _ => keeps_events rfl

/-- An update that is not of the script or the history. -/
theorem oracularS_update {f : State → State} (hf : ∀ q s, f (withAnswers q s) = withAnswers q (f s))
    (he : ∀ s, (f s).events = s.events) : OracularS (fun s => .next (f s)) :=
  OracularS.pure hf fun s => keeps_events (he s)

theorem oracularS_finishAction (i : Instr) : OracularS (finishAction i) := by
  cases i <;> first
    | exact oracularS_finishWrite _ _ _
    | exact oracularS_finishFormat _ _
    | exact oracularS_update (f := fun s => s) (fun _ _ => rfl) fun _ => rfl

theorem openResult7_withAnswers (i : Instr) (q : List Answer) (s : State) :
    openResult7 i (withAnswers q s) = withAnswers q (openResult7 i s) := by
  have : resultHeader i (withAnswers q s) = resultHeader i s := resultHeader_congr rfl rfl rfl
  simp only [openResult7, this]
  rfl

theorem oracularS_openResult7 (i : Instr) (f : State → State) (hf : ∀ q s, f (withAnswers q s) = withAnswers q (f s))
    (he : ∀ s, (f s).events = s.events) : OracularS (fun s => .next (openResult7 i (f s))) :=
  oracularS_update (f := fun s => openResult7 i (f s)) (fun q s => by rw [hf, openResult7_withAnswers]) he

/-- The end of an Execution phase. -/
theorem oracularS_finalizeExecution (i : Instr) : OracularS (finalizeExecution i) :=
  (oracularS_finishAction i).then (oracularS_openResult7 i (fun s => s) (fun _ _ => rfl) fun _ => rfl)

theorem oracularS_openExecution (i : Instr) (n : Nat) : OracularS (openExecution i n) :=
  OracularS.ite (p := fun _ => n = 0) (fun _ _ => Iff.rfl)
    ((oracularS_finalizeExecution i).after (f := beginExecution n) (fun _ _ => rfl) fun _ => keeps_events rfl)
    (oracularS_update (fun _ _ => rfl) fun _ => rfl)

theorem oracularS_failCommand (i : Instr) (e : ErrorCode) : OracularS (fun s => .next (failCommand i e s)) :=
  oracularS_openResult7 i (applyError e) (fun _ _ => rfl) fun _ => rfl

/-! ### The commands -/

theorem oracularS_restarted {k : State → Result State} (h : OracularS k) : OracularS (fun s => k (restartRotation s)) :=
  h.after (fun _ _ => rfl) fun _ => keeps_events rfl

/-- What follows the first step of a data command, where the drive is ready and where it is not. -/
theorem oracularS_setup (i : Instr) (uh : UnitHead) {k : State → Result State} (h : OracularS k) :
    OracularS (fun s => andThen (dataSetup uh s) fun r => if r.1 then k r.2 else .next (failCommand i .notReady r.2)) :=
  (oracular_dataSetup uh).thenState (k' := fun ready s => if ready then k s else .next (failCommand i .notReady s))
    fun ready => OracularS.ite (p := fun _ => ready = true) (fun _ _ => Iff.rfl) h (oracularS_failCommand i .notReady)

theorem oracularS_dispatchRead (i : Instr) (deleted : Bool) {begin : State → State} (f : OpFlags) (uh : UnitHead)
    (id : SectorId) (dtl : Byte) (hb : ∀ q s, begin (withAnswers q s) = withAnswers q (begin s))
    (he : ∀ s, (begin s).events = s.events) : OracularS (dispatchRead i deleted begin f uh id dtl) :=
  oracularS_setup i uh <|
    (oracular_readSector uh.us (fun s => readArgs deleted f id (sectorLen id.n dtl) s) fun _ _ => rfl).thenState
      (k' := fun (e : ErrorCode) s => if e = .ok then openExecution i (sectorLen id.n dtl) (begin (applyError e s))
        else .next (failCommand i e s))
      fun e => OracularS.ite (p := fun _ => e = ErrorCode.ok) (fun _ _ => Iff.rfl)
        ((oracularS_openExecution i _).after (f := fun s => begin (applyError e s)) (fun q s => hb q (applyError e s))
          fun s => keeps_events (he (applyError e s)))
        (oracularS_failCommand i e)

theorem oracularS_dispatchWrite (i : Instr) (deleted : Bool) (uh : UnitHead) (id : SectorId) (dtl : Byte) :
    OracularS (dispatchWrite i deleted uh id dtl) :=
  oracularS_setup i uh <| (oracularS_openExecution i _).after (f := setWriteDeleted deleted) (fun _ _ => rfl)
    fun _ => keeps_events rfl

theorem oracularS_seek (n : Byte) (uh : UnitHead) :
    OracularS (fun s => seekCommon n (baseStatus (select uh (restartRotation s)))) :=
  OracularS.after (k := fun s => andThen (driveReady uh.us s) fun r =>
      andThen (if r.1 then seekTo uh.us n r.2 else .next (.notReady, r.2)) fun q =>
        .next (endCommand (armSeekEnd (applyError q.1 (setSeekEnd q.2)))))
    (f := fun s => baseStatus (select uh (restartRotation s)))
    ((oracular_driveReady uh.us).thenState
      (k' := fun ready s => andThen (if ready then seekTo uh.us n s else .next (.notReady, s)) fun q =>
        .next (endCommand (armSeekEnd (applyError q.1 (setSeekEnd q.2)))))
      fun ready => (Oracular.ite (p := fun _ => ready = true) (fun _ _ => Iff.rfl) (oracular_seekTo uh.us n)
        (oracular_answer ErrorCode.notReady)).thenState
        (k' := fun e s => .next (endCommand (armSeekEnd (applyError e (setSeekEnd s)))))
        fun e => oracularS_update (f := fun s => endCommand (armSeekEnd (applyError e (setSeekEnd s)))) (fun _ _ => rfl)
          fun _ => rfl)
    (fun _ _ => rfl) fun _ => keeps_events rfl

theorem clearInterrupt_withAnswers (q : List Answer) (s : State) :
    clearInterrupt (withAnswers q s) = withAnswers q (clearInterrupt s) := by
  cases h : s.irqLine <;> simp [clearInterrupt, lowerLine, notify, record, withAnswers, h]

theorem clearInterrupt_grows (s : State) : ∃ evs, (clearInterrupt s).events = s.events ++ evs := by
  cases h : s.irqLine
  · exact ⟨[], by simp [clearInterrupt, lowerLine, h]⟩
  · exact ⟨[.irq false], by simp [clearInterrupt, lowerLine, notify, record, h]⟩

theorem oracularS_readId (f : OpFlags) (uh : UnitHead) : OracularS (execReadId f uh) := by
  refine oracularS_setup (.readId f uh) uh (k := fun s => andThen (readSectorHeader uh.us uh.hd s.rotatingSectorIndex s)
    fun q => if q.1.1 = .ok then .next (openResult (result7 q.1.2 q.2) (setRotation (s.rotatingSectorIndex + 1) q.2))
      else .next (failCommand (.readId f uh) q.1.1 (setRotation (s.rotatingSectorIndex + 1) q.2))) ?_
  refine (Oracular.pure (v := fun s => s.rotatingSectorIndex) (f := fun s => s) (fun _ _ => rfl) (fun _ _ => rfl)
    fun _ => keeps_events rfl).thenState (k' := fun n s => andThen (readSectorHeader uh.us uh.hd n s) fun q =>
      if q.1.1 = .ok then .next (openResult (result7 q.1.2 q.2) (setRotation (n + 1) q.2))
      else .next (failCommand (.readId f uh) q.1.1 (setRotation (n + 1) q.2))) fun n => ?_
  exact (oracular_readSectorHeader uh.us uh.hd n).thenState
    (k' := fun v s => if v.1 = .ok then .next (openResult (result7 v.2 s) (setRotation (n + 1) s))
      else .next (failCommand (.readId f uh) v.1 (setRotation (n + 1) s)))
    fun v => OracularS.ite (p := fun _ => v.1 = ErrorCode.ok) (fun _ _ => Iff.rfl)
      (oracularS_update (f := fun s => openResult (result7 v.2 s) (setRotation (n + 1) s)) (fun _ _ => rfl) fun _ => rfl)
      ((oracularS_failCommand (.readId f uh) v.1).after (f := setRotation (n + 1)) (fun _ _ => rfl)
        fun _ => keeps_events rfl)

theorem oracularS_readTrack (f : OpFlags) (uh : UnitHead) (id : SectorId) (eot gpl dtl : Byte) :
    OracularS (execReadTrack f uh id eot gpl dtl) :=
  oracularS_restarted <| oracularS_setup (.readTrack f uh id eot gpl dtl) uh <|
    (oracular_readWholeTrack uh.us id.c id.h uh.hd).thenState
      (k' := fun (v : ErrorCode × Nat) s => if v.1 = .ok then openExecution (.readTrack f uh id eot gpl dtl) v.2 (applyError v.1 s)
        else .next (failCommand (.readTrack f uh id eot gpl dtl) v.1 s))
      fun v => OracularS.ite (p := fun _ => v.1 = ErrorCode.ok) (fun _ _ => Iff.rfl)
        ((oracularS_openExecution _ _).after (f := applyError v.1) (fun _ _ => rfl) fun _ => keeps_events rfl)
        (oracularS_failCommand _ v.1)

/-- Every command uses the script so. -/
theorem oracularS_exec (i : Instr) : OracularS (exec i) := by
  cases i with
  | readTrack f uh id eot gpl dtl => exact oracularS_readTrack f uh id eot gpl dtl
  | specify f a b => exact oracularS_update (f := fun s => endCommand (setParams a b (restartRotation s))) (fun _ _ => rfl) fun _ => rfl
  | senseDriveStatus f uh =>
    exact (oracularS_driveStatusByte uh).after (f := fun s => select uh (restartRotation s)) (fun _ _ => rfl)
      fun _ => keeps_events rfl
  | writeData f uh id eot gpl dtl => exact oracularS_restarted (oracularS_dispatchWrite _ _ _ _ _)
  | readData f uh id eot gpl dtl =>
    exact oracularS_restarted (oracularS_dispatchRead (begin := fun t => t) _ _ _ _ _ _ (fun _ _ => rfl) fun _ => rfl)
  | recalibrate f uh => exact oracularS_seek 0x00 uh
  | senseInterruptStatus f =>
    refine OracularS.ite (p := fun s => s.interruptState = .seekEnd) (fun _ _ => Iff.rfl)
      (OracularS.pure (f := fun s => openResult [s.status0, s.reportedCylinder s.selectedUnit]
        (clearInterrupt (restartRotation s))) (fun q s => ?_) fun s => clearInterrupt_grows (restartRotation s))
      (oracularS_update (f := fun s => openResult [0x80] (restartRotation s)) (fun _ _ => rfl) fun _ => rfl)
    rw [show restartRotation (withAnswers q s) = withAnswers q (restartRotation s) from rfl, clearInterrupt_withAnswers]
    rfl
  | writeDeletedData f uh id eot gpl dtl => exact oracularS_restarted (oracularS_dispatchWrite _ _ _ _ _)
  | readId f uh => exact oracularS_readId f uh
  | readDeletedData f uh id eot gpl dtl =>
    exact oracularS_restarted (oracularS_dispatchRead (begin := fun t => t) _ _ _ _ _ _ (fun _ _ => rfl) fun _ => rfl)
  | formatTrack f uh n sc gpl d =>
    exact oracularS_restarted (oracularS_setup (.formatTrack f uh n sc gpl d) uh (oracularS_openExecution _ _))
  | seek f uh ncn => exact oracularS_seek ncn uh
  | scanEqual f uh id eot gpl dtl =>
    exact oracularS_restarted (oracularS_dispatchRead (begin := scanBegin) _ _ _ _ _ _ (fun _ _ => rfl) fun _ => rfl)
  | scanLowOrEqual f uh id eot gpl dtl =>
    exact oracularS_restarted (oracularS_dispatchRead (begin := scanBegin) _ _ _ _ _ _ (fun _ _ => rfl) fun _ => rfl)
  | scanHighOrEqual f uh id eot gpl dtl =>
    exact oracularS_restarted (oracularS_dispatchRead (begin := scanBegin) _ _ _ _ _ _ (fun _ _ => rfl) fun _ => rfl)
  | invalid f code =>
    exact oracularS_update (f := fun s => openResult [0x80] (restartRotation s)) (fun _ _ => rfl) fun _ => rfl

end Sys2Proof.Machine
end

