-- ==== Sys2Proof/Laws/PerInstr.lean ====
section
/-! SUPPORT. A family of statements made per instruction, about its encoding: the first byte of every well-formed command names
it, and the command has as many bytes as that byte asks for (R57, R58). -/

namespace Sys2Proof.Laws.SelfDelimiting

open Sys2Proof

/-- The first byte of the encoding names the command, and the encoding has the length it asks for (R57, R58). -/
def Statement (i : Instr) : Prop :=
  i.wellFormed = true →
    ∃ b rest, encode i = b :: rest ∧ Sys2Proof.commandId (op5 b) = i.commandId ∧ rest.length + 1 = cmdCount i.commandId

/-- The low five bits of an opcode byte are its code (R59). -/
theorem op5_opByte (f : OpFlags) (code : BitVec 5) : op5 (opByte f code) = code := by
  obtain ⟨mt, mf, sk⟩ := f
  unfold op5 opByte
  revert mt mf sk code
  decide

theorem readTrack (f : OpFlags) (uh : UnitHead) (id : SectorId) (eot gpl dtl : Byte) :
    Statement (.readTrack f uh id eot gpl dtl) := fun _ => ⟨_, _, rfl, by rw [op5_opByte]; rfl, rfl⟩

theorem specify (f : OpFlags) (srtHut hltNd : Byte) : Statement (.specify f srtHut hltNd) :=
  fun _ => ⟨_, _, rfl, by rw [op5_opByte]; rfl, rfl⟩

theorem senseDriveStatus (f : OpFlags) (uh : UnitHead) : Statement (.senseDriveStatus f uh) :=
  fun _ => ⟨_, _, rfl, by rw [op5_opByte]; rfl, rfl⟩

theorem writeData (f : OpFlags) (uh : UnitHead) (id : SectorId) (eot gpl dtl : Byte) :
    Statement (.writeData f uh id eot gpl dtl) := fun _ => ⟨_, _, rfl, by rw [op5_opByte]; rfl, rfl⟩

theorem readData (f : OpFlags) (uh : UnitHead) (id : SectorId) (eot gpl dtl : Byte) :
    Statement (.readData f uh id eot gpl dtl) := fun _ => ⟨_, _, rfl, by rw [op5_opByte]; rfl, rfl⟩

theorem recalibrate (f : OpFlags) (uh : UnitHead) : Statement (.recalibrate f uh) :=
  fun _ => ⟨_, _, rfl, by rw [op5_opByte]; rfl, rfl⟩

theorem senseInterruptStatus (f : OpFlags) : Statement (.senseInterruptStatus f) :=
  fun _ => ⟨_, _, rfl, by rw [op5_opByte]; rfl, rfl⟩

theorem writeDeletedData (f : OpFlags) (uh : UnitHead) (id : SectorId) (eot gpl dtl : Byte) :
    Statement (.writeDeletedData f uh id eot gpl dtl) := fun _ => ⟨_, _, rfl, by rw [op5_opByte]; rfl, rfl⟩

theorem readId (f : OpFlags) (uh : UnitHead) : Statement (.readId f uh) :=
  fun _ => ⟨_, _, rfl, by rw [op5_opByte]; rfl, rfl⟩

theorem readDeletedData (f : OpFlags) (uh : UnitHead) (id : SectorId) (eot gpl dtl : Byte) :
    Statement (.readDeletedData f uh id eot gpl dtl) := fun _ => ⟨_, _, rfl, by rw [op5_opByte]; rfl, rfl⟩

theorem formatTrack (f : OpFlags) (uh : UnitHead) (n sc gpl d : Byte) : Statement (.formatTrack f uh n sc gpl d) :=
  fun _ => ⟨_, _, rfl, by rw [op5_opByte]; rfl, rfl⟩

theorem seek (f : OpFlags) (uh : UnitHead) (ncn : Byte) : Statement (.seek f uh ncn) :=
  fun _ => ⟨_, _, rfl, by rw [op5_opByte]; rfl, rfl⟩

theorem scanEqual (f : OpFlags) (uh : UnitHead) (id : SectorId) (eot gpl dtl : Byte) :
    Statement (.scanEqual f uh id eot gpl dtl) := fun _ => ⟨_, _, rfl, by rw [op5_opByte]; rfl, rfl⟩

theorem scanLowOrEqual (f : OpFlags) (uh : UnitHead) (id : SectorId) (eot gpl dtl : Byte) :
    Statement (.scanLowOrEqual f uh id eot gpl dtl) := fun _ => ⟨_, _, rfl, by rw [op5_opByte]; rfl, rfl⟩

theorem scanHighOrEqual (f : OpFlags) (uh : UnitHead) (id : SectorId) (eot gpl dtl : Byte) :
    Statement (.scanHighOrEqual f uh id eot gpl dtl) := fun _ => ⟨_, _, rfl, by rw [op5_opByte]; rfl, rfl⟩

theorem commandId_invalid (code : BitVec 5) (h : invalidCodes.contains code = true) :
    Sys2Proof.commandId code = .invalid := by
  revert h code
  decide

theorem invalid (f : OpFlags) (code : BitVec 5) : Statement (.invalid f code) := by
  intro h
  refine ⟨_, _, rfl, ?_, rfl⟩
  rw [op5_opByte]
  exact commandId_invalid code h

end Sys2Proof.Laws.SelfDelimiting
end

