-- ==== Sys2Proof/Tests/Slice0.lean ====
section
/-! SUPPORT. The model's own tests: ill-formed instructions are refused, command words written out from the spec's encoding decode,
single steps give the results of 95_test_vectors.md (each test names its vector), and for every statement with hypotheses a
witness that meets them. -/

namespace Sys2Proof.Tests

open Sys2Proof Sys2Proof.Machine

/-! ### Small states -/

/-- A 3" drive, attached, with its motor running. -/
def running (cylinder : Nat) : Drive := ⟨.inch3, 2, 40, false, true, cylinder, true⟩

/-- A 5.25" drive, attached, motor off. -/
def stopped5 : Drive := ⟨.inch5quarter, 2, 80, false, false, 0, true⟩

/-- A 3.5" drive without a medium. -/
def detached (motor : Bool) : Drive := ⟨.inch3half, 2, 80, false, motor, 0, false⟩

/-- Fixture F1 of 95_test_vectors.md with drive 0 as given, these operations to come and these answers scripted. -/
def idleWith (d : Drive) (ops : List HostOp) (answers : List Answer) : State :=
  { State.reset with
    slots := #v[some d, some stopped5, none, some (detached false)]
    hostOps := ops
    answers := answers }

/-- Fixture F1. -/
def f1 (ops : List HostOp) (answers : List Answer) : State := idleWith (running 0) ops answers

/-- Fixture F0, motors off. -/
def f0 (ops : List HostOp) (answers : List Answer) : State := idleWith { running 0 with motorOn := false } ops answers

/-- Fixture F1s: a SeekEnd is pending. -/
def f1s (ops : List HostOp) : State :=
  { idleWith (running 5) ops [] with status0 := 0x20, interruptState := .seekEnd, ticksRemaining := 2 }

/-- Command phase with these bytes received and one to come. -/
def received (bytes : List Byte) (s : State) : State :=
  { s with
    phase := .command
    cmdBuf := Memory.writeBytes [] 0 bytes
    cmdPosition := bytes.length
    cmdLength := 1
    pendingOpcode := some (commandId (op5 (bytes.getD 0 0))) }

/-- Execution of the command with these bytes: position, bytes to come, buffer. -/
def executing (bytes : List Byte) (position left : Nat) (buffer : List Byte) (s : State) : State :=
  { s with
    phase := .execution
    cmdBuf := Memory.writeBytes [] 0 bytes
    cmdPosition := bytes.length
    pendingOpcode := some (commandId (op5 (bytes.getD 0 0)))
    execBuf := Memory.writeBytes [] 0 buffer
    execPosition := position
    execLength := left }

/-- Result of the command with these bytes, all of them still to read. -/
def resulting (bytes result : List Byte) (s : State) : State :=
  { s with
    phase := .result
    cmdBuf := Memory.writeBytes [] 0 bytes
    cmdPosition := bytes.length
    pendingOpcode := some (commandId (op5 (bytes.getD 0 0)))
    resBuf := Memory.writeBytes [] 0 result
    resLength := result.length }

/-- The outcome is a next state with this property. -/
def gives (o : Result State) (p : State → Bool) : Bool :=
  match o with
  | .next t => p t
  | .fault _ => false
  | .refused _ => false

/-- The state is in Result with exactly these bytes. -/
def holds (bytes : List Byte) (t : State) : Bool :=
  decide (t.phase = .result ∧ t.resPosition = 0 ∧ t.resLength = bytes.length ∧ t.resBuf.firstBytes bytes.length = bytes)

def noFlags : OpFlags := ⟨false, false, false⟩

def mf : OpFlags := ⟨false, true, false⟩

def unit (h : HeadNo) (u : UnitNo) : UnitHead := ⟨0, h, u⟩

/-! ### WellFormed -/

theorem test_wellFormed_refuses_valid_code : Instr.wellFormed (.invalid noFlags 0x06) = false := by decide

theorem test_wellFormed_admits_invalid_codes : invalidCodes.all (fun c => Instr.wellFormed (.invalid noFlags c)) = true := by
  decide

/-- Every code is one of the two lists, never of both (R58, R70). -/
theorem test_codes_split : ∀ c : BitVec 5, validCodes.contains c ≠ invalidCodes.contains c := by decide

/-! ### Decoding: words written out from R58, R59, R61 to R67 -/

theorem test_decode_readTrack : decode [0x42, 0x01, 0x05, 0x00, 0x01, 0x02, 0x09, 0x2A, 0xFF] =
    .ok (.readTrack mf (unit 0 1) ⟨5, 0, 1, 2⟩ 0x09 0x2A 0xFF, []) := by decide

theorem test_decode_specify : decode [0xE3, 0x12, 0x35] = .ok (.specify ⟨true, true, true⟩ 0x12 0x35, []) := by decide

theorem test_decode_senseDriveStatus : decode [0x04, 0xFC] = .ok (.senseDriveStatus noFlags ⟨0x1F, 1, 0⟩, []) := by decide

theorem test_decode_writeData : decode [0x45, 0x00, 0x02, 0x00, 0x03, 0x00, 0x03, 0x2A, 0x02] =
    .ok (.writeData mf (unit 0 0) ⟨2, 0, 3, 0⟩ 0x03 0x2A 0x02, []) := by decide

theorem test_decode_readData : decode [0xE6, 0x07, 0x01, 0x01, 0x03, 0x02, 0x09, 0x2A, 0x80, 0x77] =
    .ok (.readData ⟨true, true, true⟩ (unit 1 3) ⟨1, 1, 3, 2⟩ 0x09 0x2A 0x80, [0x77]) := by decide

theorem test_decode_recalibrate : decode [0x07, 0x03] = .ok (.recalibrate noFlags (unit 0 3), []) := by decide

theorem test_decode_senseInterruptStatus : decode [0x88] = .ok (.senseInterruptStatus ⟨true, false, false⟩, []) := by decide

theorem test_decode_writeDeletedData : decode [0x49, 0x00, 0x00, 0x00, 0x01, 0x00, 0x01, 0x2A, 0x01] =
    .ok (.writeDeletedData mf (unit 0 0) ⟨0, 0, 1, 0⟩ 0x01 0x2A 0x01, []) := by decide

theorem test_decode_readId : decode [0x4A, 0x04] = .ok (.readId mf (unit 1 0), []) := by decide

theorem test_decode_readDeletedData : decode [0x2C, 0x02, 0x00, 0x01, 0x01, 0x03, 0x01, 0x2A, 0x01] =
    .ok (.readDeletedData ⟨false, false, true⟩ (unit 0 2) ⟨0, 1, 1, 3⟩ 0x01 0x2A 0x01, []) := by decide

theorem test_decode_formatTrack : decode [0x4D, 0x04, 0x03, 0x02, 0x52, 0x00] =
    .ok (.formatTrack mf (unit 1 0) 0x03 0x02 0x52 0x00, []) := by decide

theorem test_decode_seek : decode [0x0F, 0x04, 0x27] = .ok (.seek noFlags (unit 1 0) 0x27, []) := by decide

theorem test_decode_scanEqual : decode [0x71, 0x00, 0x00, 0x00, 0x01, 0x00, 0x01, 0x2A, 0x02] =
    .ok (.scanEqual ⟨false, true, true⟩ (unit 0 0) ⟨0, 0, 1, 0⟩ 0x01 0x2A 0x02, []) := by decide

theorem test_decode_scanLowOrEqual : decode [0xF9, 0x00, 0x00, 0x00, 0x01, 0x00, 0x01, 0x2A, 0x02] =
    .ok (.scanLowOrEqual ⟨true, true, true⟩ (unit 0 0) ⟨0, 0, 1, 0⟩ 0x01 0x2A 0x02, []) := by decide

theorem test_decode_scanHighOrEqual : decode [0x1D, 0x05, 0x00, 0x00, 0x01, 0x00, 0x01, 0x2A, 0x02] =
    .ok (.scanHighOrEqual noFlags (unit 1 1) ⟨0, 0, 1, 0⟩ 0x01 0x2A 0x02, []) := by decide

theorem test_decode_invalid : decode [0x2B] = .ok (.invalid ⟨false, false, true⟩ 0x0B, []) := by decide

theorem test_decode_short : decode [0x0D, 0x00, 0x02, 0x01, 0x52] = .error .tooFewBytes ∧ decode [] = .error .noBytes := by
  decide

/-! ### State at reset, and the loading of one instruction -/

theorem test_reset_meets_inv : State.reset.Inv := State.Inv.of_check (by decide) (by decide) (by decide)

/-- F0 of 95_test_vectors.md. -/
theorem test_reset_values : State.reset.mainStatus = 0x80 ∧ State.reset.drive 2 = none ∧
    (State.reset.drive 1).map Drive.kind = some .inch5quarter ∧ State.reset.events = [] := by decide

/-- A SPECIFY given by its table bits runs as the very next step: 24 bits, the first byte lowest. -/
theorem test_withFetchWord_specify : gives (step (State.reset.withFetchWord 24 0x02DF03))
    (fun t => decide (t.spec1 = 0xDF ∧ t.spec2 = 0x02 ∧ t.phase = .idle)) = true := by decide

/-- The table's row INVALID of code 0x1F, and a READ DATA from F0 (RD-1: the motor is off). -/
theorem test_withFetchWord_others :
    gives (step (State.reset.withFetchWord 8 0x1F)) (holds [0x80]) = true ∧
    gives (step (State.reset.withFetchWord 72 0xFF2A09020300010006))
      (holds [0x48, 0x00, 0x00, 0x01, 0x00, 0x03, 0x02]) = true := by decide

theorem test_decodeTableWord : decodeTableWord 24 0x27040F = some (.seek noFlags (unit 1 0) 0x27) := by decide

/-! ### One step per command -/

/-- Vectors SPC-3 and 1.9. -/
theorem test_specify : gives (step (received [0x83, 0x12] (f0 [.writeData 0x35] [])))
    (fun t => decide (t.stepRate = 0x1 ∧ t.headUnload = 0x2 ∧ t.headLoad = 0x1A ∧ t.nonDma = true ∧ t.mainStatus = 0x80)) =
    true := by decide

/-- Vectors SDS-2 (running) and SDS-5 (stopped, 3"). -/
theorem test_senseDriveStatus :
    gives (step (received [0x04] (f1 [.writeData 0x04] [.status 0x30]))) (holds [0x34]) = true ∧
    gives (step (received [0x04] (f0 [.writeData 0x00] [.status 0x68]))) (holds [0x48]) = true := by decide

/-- Vectors SDS-6 (5.25", motor off: not forced) and SDS-9 (empty slot). -/
theorem test_senseDriveStatus_not_forced :
    gives (step (received [0x04] (f0 [.writeData 0x01] [.status 0x28]))) (holds [0x29]) = true ∧
    gives (step (received [0x04] (f0 [.writeData 0x06] []))) (holds [0x46]) = true := by decide

/-- Vectors SIS-2 and SIS-1. -/
theorem test_senseInterruptStatus :
    gives (step (f1s [.writeData 0x08])) (holds [0x20, 0x05]) = true ∧
    gives (step (f0 [.writeData 0x08] [])) (holds [0x80]) = true := by decide

/-- Vector SIS-3: the asserted line is lowered. -/
theorem test_senseInterruptStatus_lowers : gives (step { f1s [.writeData 0x08] with irqLine := true, ticksRemaining := 0 })
    (fun t => decide (t.irqLine = false ∧ t.events = [.irq false] ∧ t.interruptState = .resultReady)) = true := by decide

/-- Vectors SK-1 and SK-2. -/
theorem test_seek :
    gives (step (received [0x0F, 0x04] (f1 [.writeData 0x27] [.isReady true, .code .ok])))
      (fun t => decide (t.status0 = 0x24 ∧ (t.drive 0).map Drive.currentCylinder = some 0x27 ∧ t.interruptState = .seekEnd ∧
        t.phase = .idle)) = true ∧
    gives (step (received [0x0F, 0x00] (f1 [.writeData 0x30] [.isReady true, .code .seekFailed])))
      (fun t => decide (t.status0 = 0x60 ∧ t.status2 = 0x02 ∧ (t.drive 0).map Drive.currentCylinder = some 0)) = true := by
  decide

/-- Vectors SK-5 and SK-6. -/
theorem test_recalibrate :
    gives (step (received [0x07] (f0 [.writeData 0x01] [.isReady true, .code .ok])))
      (fun t => decide (t.status0 = 0x21 ∧ t.events.length = 2)) = true ∧
    gives (step (received [0x07] (f0 [.writeData 0x03] [])))
      (fun t => decide (t.status0 = 0x6B ∧ t.events = [] ∧ t.interruptState = .seekEnd)) = true := by decide

/-- Vector 1.8. -/
theorem test_invalid : gives (step (f0 [.writeData 0x00] [])) (holds [0x80]) = true := by decide

/-- Vector 1.3, Ok, and RD-8: the flags of the call. -/
theorem test_readData : gives (step (received [0xE6, 0x00, 0x00, 0x00, 0x01, 0x00, 0x01, 0x2A]
      (f1 [.writeData 0x02] [.isReady true, .data .ok [0xAA, 0xBB]])))
    (fun t => decide (t.mainStatus = 0xF0 ∧ t.execBuf.firstBytes 2 = [0xAA, 0xBB] ∧ t.execLength = 2 ∧
      t.events = [.call 0 .ready (.isReady true),
        .call 0 (.readSector ⟨0, 0, 0, 1, 2, false, true, true, true⟩) (.data .ok [0xAA, 0xBB])])) = true := by decide

/-- Vector 2.3, READ DATA with NoMatchingSector. -/
theorem test_readData_error : gives (step (received [0x46, 0x04, 0x00, 0x01, 0x01, 0x00, 0x01, 0x2A]
      (f1 [.writeData 0x01] [.isReady true, .data .noMatchingSector [0x00]])))
    (holds [0x44, 0x82, 0x00, 0x00, 0x01, 0x01, 0x00]) = true := by decide

/-- Vector RD-10: `deletedFlag` is true. -/
theorem test_readDeletedData : gives (step (received [0x4C, 0x00, 0x00, 0x00, 0x01, 0x00, 0x01, 0x2A]
      (f1 [.writeData 0x01] [.isReady true, .data .ok [0x77]])))
    (fun t => decide (t.phase = .execution ∧ t.events.getLast? =
      some (.call 0 (.readSector ⟨0, 0, 0, 1, 1, true, false, true, false⟩) (.data .ok [0x77])))) = true := by decide

/-- Vector MSR-4, and WR-1's second data byte. -/
theorem test_writeData :
    gives (step (received [0x45, 0x00, 0x00, 0x00, 0x01, 0x00, 0x01, 0x2A] (f1 [.writeData 0x02] [.isReady true])))
      (fun t => decide (t.mainStatus = 0xB0 ∧ t.execLength = 2 ∧ t.events.length = 1)) = true ∧
    gives (step (executing [0x45, 0x00, 0x02, 0x00, 0x03, 0x00, 0x03, 0x2A, 0x02] 1 1 [0x11]
        (f1 [.writeData 0x22] [.code .ok])))
      (fun t => holds [0x00, 0x00, 0x00, 0x02, 0x00, 0x03, 0x00] t && decide (t.events =
        [.call 0 (.writeSector ⟨2, 0, 0, 3, 2, false, false, true, false⟩ [0x11, 0x22]) (.code .ok)])) = true := by decide

/-- Vector WR-2: a read-only drive answers ReadOnly and its backend is not asked. -/
theorem test_writeData_readOnly : gives (step (executing [0x45, 0x00, 0x02, 0x00, 0x03, 0x00, 0x03, 0x2A, 0x02] 1 1 [0x11]
      (idleWith { running 0 with readOnly := true } [.writeData 0x22] [])))
    (fun t => holds [0x40, 0x02, 0x00, 0x02, 0x00, 0x03, 0x00] t && decide (t.events = [])) = true := by decide

/-- Vector WR-6. -/
theorem test_writeDeletedData :
    gives (step (received [0x49, 0x00, 0x00, 0x00, 0x01, 0x00, 0x01, 0x2A] (f1 [.writeData 0x01] [.isReady true])))
      (fun t => decide (t.writeDeletedFlag = true ∧ t.phase = .execution)) = true ∧
    gives (step { executing [0x49, 0x00, 0x00, 0x00, 0x01, 0x00, 0x01, 0x2A, 0x01] 0 1 []
        (f1 [.writeData 0xAB] [.code .ok]) with writeDeletedFlag := true })
      (fun t => decide (t.writeDeletedFlag = false ∧ t.events =
        [.call 0 (.writeSector ⟨0, 0, 0, 1, 1, true, false, true, false⟩ [0xAB]) (.code .ok)])) = true := by decide

/-- Vectors RT-5 and RT-4. -/
theorem test_readTrack :
    gives (step (received [0xE2, 0x00, 0x00, 0x00, 0x01, 0x02, 0x09, 0x2A]
        (f1 [.writeData 0xFF] [.isReady true, .data .ok [0x09]])))
      (fun t => decide (t.execLength = 1 ∧ t.execBuf.read 0 = 0x09 ∧ t.events.getLast? =
        some (.call 0 (.readTrack 0 0 0 8192) (.data .ok [0x09])))) = true ∧
    gives (step (received [0x42, 0x00, 0x00, 0x00, 0x01, 0x02, 0x09, 0x2A]
        (f1 [.writeData 0xFF] [.isReady true, .data .noAddressMark []])))
      (holds [0x40, 0x00, 0x01, 0x00, 0x00, 0x01, 0x02]) = true := by decide

/-- Vectors RID-1 and RID-6. -/
theorem test_readId :
    gives (step (received [0x4A] (f1 [.writeData 0x00] [.isReady true, .header .ok ⟨0x00, 0x00, 0xC1, 0x02⟩])))
      (fun t => holds [0x00, 0x00, 0x00, 0x00, 0x00, 0xC1, 0x02] t && decide (t.rotatingSectorIndex = 1)) = true ∧
    gives (step (received [0x4A] (idleWith (running 0x27) [.writeData 0x04] [.isReady true, .header .noData ⟨1, 2, 3, 4⟩])))
      (holds [0x44, 0x04, 0x00, 0x27, 0x01, 0x00, 0x00]) = true := by decide

/-- Vectors FMT-2 and the last data byte of FMT-6. -/
theorem test_formatTrack :
    gives (step (received [0x4D, 0x00, 0x02, 0x00, 0x52] (f1 [.writeData 0xE5] [.isReady true, .code .ok])))
      (fun t => holds [0x00, 0x00, 0x00, 0x00, 0x00, 0x00, 0x02] t && decide (t.events.getLast? =
        some (.call 0 (.formatTrack 0 0 [] 0xE5) (.code .ok)))) = true ∧
    gives (step (executing [0x4D, 0x00, 0x02, 0x01, 0x52, 0xE5] 3 1 [0x27, 0x00, 0x01]
        (idleWith (running 0x27) [.writeData 0x02] [.code .seekFailed])))
      (holds [0x40, 0x00, 0x02, 0x27, 0x00, 0x00, 0x02]) = true := by decide

/-- Execution of a SCAN of two bytes, the first compared as matching. -/
def scanning (op : Byte) (sector : List Byte) (b : Byte) (st2 : Byte) : State :=
  { executing [op, 0x00, 0x00, 0x00, 0x01, 0x00, 0x01, 0x2A, 0x02] 1 1 sector (f1 [.writeData b] []) with status2 := st2 }

/-- Vectors SC-2 and SC-5, the second byte. -/
theorem test_scanEqual :
    gives (step (scanning 0x11 [0x10, 0x20] 0xFF 0x08)) (holds [0x00, 0x00, 0x08, 0x00, 0x00, 0x01, 0x00]) = true ∧
    gives (step (scanning 0x11 [0x10, 0x20] 0x20 0x04)) (holds [0x00, 0x00, 0x04, 0x00, 0x00, 0x01, 0x00]) = true := by decide

/-- Vectors SC-6 and SC-7, the second byte. -/
theorem test_scanLowOrEqual :
    gives (step (scanning 0x19 [0x10, 0x20] 0x30 0x08)) (holds [0x00, 0x00, 0x00, 0x00, 0x00, 0x01, 0x00]) = true ∧
    gives (step (scanning 0x19 [0x10, 0x20] 0x1F 0x08)) (holds [0x00, 0x00, 0x04, 0x00, 0x00, 0x01, 0x00]) = true := by decide

/-- Vectors SC-11 and SC-10, the second byte. -/
theorem test_scanHighOrEqual :
    gives (step (scanning 0x1D [0x10, 0x20] 0x10 0x08)) (holds [0x00, 0x00, 0x00, 0x00, 0x00, 0x01, 0x00]) = true ∧
    gives (step (scanning 0x1D [0x10, 0x20] 0x30 0x08)) (holds [0x00, 0x00, 0x04, 0x00, 0x00, 0x01, 0x00]) = true := by decide

/-! ### One step per other host operation -/

/-- Vector 1.6: the motor-stop abort. -/
theorem test_motor_abort : gives (step (executing [0x46, 0x00, 0x00, 0x00, 0x01, 0x00, 0x01, 0x2A, 0x04] 1 3
      [0xDE, 0xAD, 0xBE, 0xEF] (f1 [.setMotor 0x00] [])))
    (holds [0xC0, 0x00, 0x00, 0x00, 0x00, 0x01, 0x00]) = true := by decide

/-- Vector INT-1, the second tick. -/
theorem test_tick_asserts : gives (step { resulting [0x00] [0x80] (f1 [.tick] []) with
      interruptState := .resultReady, ticksRemaining := 1 })
    (fun t => decide (t.irqLine = true ∧ t.events = [.irq true] ∧ t.ticksRemaining = 0)) = true := by decide

/-- Vector 1.5, step 2: a stray read leaves an asserted SeekEnd alone. -/
theorem test_stray_read : gives (step { f1s [.readData] with irqLine := true, ticksRemaining := 0 })
    (fun t => decide (t.reply = some 0xFF ∧ t.irqLine = true ∧ t.interruptState = .seekEnd)) = true := by decide

/-- The media swap of the selected unit outside Idle is refused (R171, R152). -/
theorem test_swap_refused : gives (step (resulting [0x00] [0x80] (f1 [.eject 0] []))) (fun _ => true) = false := by decide

/-! ### Witnesses: for each statement with hypotheses, a state and operands that meet them -/

theorem witness_DecodeEncodeRoundTrip : Instr.wellFormed (.invalid noFlags 0x1F) = true ∧
    Instr.wellFormed (.formatTrack mf (unit 1 3) 0xFF 0xFF 0xFF 0xFF) = true := by decide

theorem witness_EncodeOfDecode : ∃ i rest, decode [0x08, 0x55] = .ok (i, rest) := ⟨.senseInterruptStatus noFlags, [0x55], by decide⟩

/-- Nine bytes are enough for READ DATA, eight are too few. -/
theorem witness_FirstByteFixesCommand :
    cmdCount (commandId (op5 0x06)) ≤ (List.replicate 8 (0x00 : Byte)).length + 1 ∧
    (List.replicate 7 (0x00 : Byte)).length + 1 < cmdCount (commandId (op5 0x06)) ∧
    (0x1D, CommandId.scanHighOrEqual, 9, some Direction.hostToController) ∈ opcodeMap ∧
    (∀ row ∈ opcodeMap, row.1 ≠ 0x1F) := by decide

/-- The last byte of a RECALIBRATE. -/
def lastByte : State := received [0x07] (f1 [.writeData 0x00] [.isReady true, .code .ok])

theorem witness_StepRunsDecodedCommand_operand : lastByte.Inv ∧
    (lastByte.hostOps = .writeData 0x00 :: [] ∧ lastByte.phase = .command ∧ lastByte.cmdLength = 1 ∧
      decode ((lastByte.cmdBuf.write lastByte.cmdPosition 0x00).firstBytes (lastByte.cmdPosition + 1)) =
        .ok (.recalibrate noFlags (unit 0 0), [])) :=
  ⟨State.Inv.of_check (by decide) (by decide) (by decide), by decide⟩

theorem witness_StepRunsDecodedCommand_opcode : (f1 [.writeData 0x08] []).BuffersWf ∧
    ((f1 [.writeData 0x08] []).hostOps = .writeData 0x08 :: [] ∧ (f1 [.writeData 0x08] []).phase = .idle ∧
      decode [0x08] = .ok (.senseInterruptStatus noFlags, [])) := ⟨.of_check (by decide), by decide⟩

/-- A SPECIFY with both operand bytes to come. -/
def twoToCome : State := { received [0x03] (f1 [.writeData 0xDF] []) with cmdLength := 2 }

/-- The example of R82: after 0x03 and 0xDF, Command with position 2 and one byte to come. -/
theorem test_operand_not_last : gives (step twoToCome)
    (fun t => decide (t.phase = .command ∧ t.cmdPosition = 2 ∧ t.cmdLength = 1 ∧ t.cmdBuf.read 1 = 0xDF)) = true := by decide

/-- At the last index of the command buffer, with one byte to come and with two; and a step on an operand that is not the
last. -/
theorem witness_AppendCommandStoresByte :
    State.BuffersWf { lastByte with cmdPosition := 15, cmdLength := 1 } ∧
    State.BuffersWf { lastByte with cmdPosition := 15, cmdLength := 2 } ∧ 15 < Config.cmdCap ∧
    (received [0x46, 0, 0, 0, 0, 0, 0, 0] (f1 [] [])).Inv ∧
    ((received [0x46, 0, 0, 0, 0, 0, 0, 0] (f1 [] [])).phase = .command ∧
      (received [0x46, 0, 0, 0, 0, 0, 0, 0] (f1 [] [])).cmdPosition = 8) ∧
    twoToCome.Inv ∧ (twoToCome.hostOps = .writeData 0xDF :: [] ∧ twoToCome.phase = .command ∧ twoToCome.cmdLength ≠ 1) :=
  ⟨.of_check (by decide), .of_check (by decide), by decide,
    State.Inv.of_check (by decide) (by decide) (by decide), by decide,
    State.Inv.of_check (by decide) (by decide) (by decide), by decide⟩

/-- The shortest command of more than one byte. -/
theorem witness_OpcodeOpensCommandPhase : (f1 [.writeData 0x07] []).BuffersWf ∧
    ((f1 [.writeData 0x07] []).hostOps = .writeData 0x07 :: [] ∧ (f1 [.writeData 0x07] []).phase = .idle ∧
      1 < cmdCount (commandId (op5 0x07))) := ⟨.of_check (by decide), by decide⟩

theorem witness_InvalidCommandAnswers0x80 : State.reset.BuffersWf := .of_check (by decide)

/-- With the selected unit usable, and with an empty slot selected. -/
theorem witness_SenseInterruptReportsSeekEnd : (f1s []).BuffersWf ∧ (f1s []).interruptState = .seekEnd ∧
    State.BuffersWf { f1s [] with selectedUnit := 2 } ∧ State.interruptState { f1s [] with selectedUnit := 2 } = .seekEnd :=
  ⟨.of_check (by decide), by decide, .of_check (by decide), by decide⟩

theorem witness_SenseInterruptWithoutSeekEnd : (f1 [.writeData 0x08] []).BuffersWf ∧
    ((f1 [.writeData 0x08] []).hostOps = .writeData 0x08 :: [] ∧ (f1 [.writeData 0x08] []).phase = .idle ∧
      commandId (op5 0x08) = .senseInterruptStatus ∧ (f1 [.writeData 0x08] []).interruptState ≠ .seekEnd) :=
  ⟨.of_check (by decide), by decide⟩

/-- A running 3" drive, and a stopped 5.25" drive. -/
theorem witness_SenseDriveStatusOfUsableSlot : (f1 [] [.status 0xFF]).BuffersWf ∧
    ((f1 [] [.status 0xFF]).drive 0 = some (running 0) ∧ (running 0).kind ≠ .none ∧ (running 0).attached = true ∧
      (f1 [] [.status 0xFF]).drive 1 = some stopped5 ∧ stopped5.kind ≠ .none ∧ stopped5.attached = true ∧
      (f1 [] [.status 0xFF]).answers = .status 0xFF :: []) := ⟨.of_check (by decide), by decide⟩

/-- An empty slot, and a slot with a drive but no medium. -/
theorem witness_SenseDriveStatusOfUnusableSlot : (f1 [] []).BuffersWf ∧
    ((f1 [] []).drive 2 = none ∧ (f1 [] []).drive 3 = some (detached false) ∧ (detached false).attached = false) :=
  ⟨.of_check (by decide), by decide⟩

/-- A successful SEEK to the last cylinder number, and a RECALIBRATE that fails. -/
theorem witness_SeekOnReadyDrive :
    (seekTarget (.seek noFlags (unit 1 0) 0xFF) = some 0xFF ∧ unitHeadOf (.seek noFlags (unit 1 0) 0xFF) = some (unit 1 0) ∧
      (f1 [] [.isReady true, .code .ok]).drive 0 = some (running 0) ∧ (f1 [] [.isReady true, .code .ok]).usable 0 = true ∧
      (f1 [] [.isReady true, .code .ok]).spinning 0 = true ∧
      (f1 [] [.isReady true, .code .ok]).answers = .isReady true :: .code .ok :: []) ∧
    (seekTarget (.recalibrate noFlags (unit 0 1)) = some 0x00 ∧ unitHeadOf (.recalibrate noFlags (unit 0 1)) = some (unit 0 1) ∧
      (f1 [] [.isReady true, .code .seekFailed]).drive 1 = some stopped5 ∧
      (f1 [] [.isReady true, .code .seekFailed]).usable 1 = true ∧
      (f1 [] [.isReady true, .code .seekFailed]).spinning 1 = true ∧
      (f1 [] [.isReady true, .code .seekFailed]).answers = .isReady true :: .code .seekFailed :: []) := by decide

/-- An unusable slot, a stopped drive, and a drive whose backend answers false. -/
theorem witness_SeekOnDriveNotReady :
    seekTarget (.seek noFlags (unit 0 2) 0x00) = some 0x00 ∧ unitHeadOf (.seek noFlags (unit 0 2) 0x00) = some (unit 0 2) ∧
    (f0 [] []).drive 2 = none ∧ (f0 [] []).drive 3 = some (detached false) ∧ (detached false).attached = false ∧
    (f0 [] []).drive 0 = some { running 0 with motorOn := false } ∧ (running 0).kind ≠ .inch5quarter ∧
    (f1 [] [.isReady false]).usable 0 = true ∧ (f1 [] [.isReady false]).spinning 0 = true ∧
    (f1 [] [.isReady false]).answers = .isReady false :: [] := by decide

/-- The operands of the data commands' witnesses. -/
def sector (n : Byte) : SectorId := ⟨0x00, 0x01, 0x01, n⟩

def readDataOf (dtl : Byte) : Instr := .readData noFlags (unit 0 0) (sector 0) 0x01 0x2A dtl

def scanHighOf (dtl : Byte) : Instr := .scanHighOrEqual noFlags (unit 0 0) (sector 0) 0x01 0x2A dtl

def writeDeletedOf (dtl : Byte) : Instr := .writeDeletedData noFlags (unit 0 0) (sector 0) 0x01 0x2A dtl

/-- Of a command that restarts the rotation and of READ ID, which does not. -/
theorem witness_DataCommandOnDriveNotReady : (f1 [] [.isReady false]).BuffersWf ∧
    (isDataCommand (readDataOf 1) = true ∧ unitHeadOf (readDataOf 1) = some (unit 0 0) ∧
      isDataCommand (.readId noFlags (unit 0 0)) = true ∧ unitHeadOf (.readId noFlags (unit 0 0)) = some (unit 0 0) ∧
      (f0 [] []).drive 2 = none ∧ (f0 [] []).drive 3 = some (detached false) ∧ (detached false).attached = false ∧
      (f0 [] []).drive 0 = some { running 0 with motorOn := false } ∧ (running 0).kind ≠ .inch5quarter ∧ (f1 [] [.isReady false]).usable 0 = true ∧
      (f1 [] [.isReady false]).spinning 0 = true ∧ (f1 [] [.isReady false]).answers = .isReady false :: []) :=
  ⟨.of_check (by decide), by decide⟩

theorem witness_ReadCommandsOpenExecution_read : (f1 [] [.isReady true, .data .ok [0x01, 0x02]]).BuffersWf ∧
    (readsSector (readDataOf 2) = some (noFlags, unit 0 0, sector 0, 2, false) ∧
      (f1 [] [.isReady true, .data .ok [0x01, 0x02]]).usable 0 = true ∧
      (f1 [] [.isReady true, .data .ok [0x01, 0x02]]).spinning 0 = true ∧
      (f1 [] [.isReady true, .data .ok [0x01, 0x02]]).answers = .isReady true :: .data .ok [0x01, 0x02] :: [] ∧
      [(0x01 : Byte), 0x02].length = (if (sector 0).n = 0 then (2 : Byte).toNat else min (128 * 2 ^ (sector 0).n.toNat) 8192)) := ⟨.of_check (by decide), by decide⟩

/-- A SCAN of no byte. -/
theorem witness_ReadCommandsOpenExecution_scan : (f1 [] [.isReady true, .data .ok []]).BuffersWf ∧
    (readsSector (scanHighOf 0) = some (noFlags, unit 0 0, sector 0, 0, false) ∧
      (f1 [] [.isReady true, .data .ok []]).usable 0 = true ∧ (f1 [] [.isReady true, .data .ok []]).spinning 0 = true ∧
      (f1 [] [.isReady true, .data .ok []]).answers = .isReady true :: .data .ok [] :: [] ∧
      ([] : List Byte).length = (if (sector 0).n = 0 then (0 : Byte).toNat else min (128 * 2 ^ (sector 0).n.toNat) 8192)) := ⟨.of_check (by decide), by decide⟩

theorem witness_ReadCommandsReportErrors : (f1 [] [.isReady true, .data .dataError [0x01]]).BuffersWf ∧
    (readsSector (readDataOf 1) = some (noFlags, unit 0 0, sector 0, 1, false) ∧
      (f1 [] [.isReady true, .data .dataError [0x01]]).usable 0 = true ∧
      (f1 [] [.isReady true, .data .dataError [0x01]]).spinning 0 = true ∧
      (f1 [] [.isReady true, .data .dataError [0x01]]).answers = .isReady true :: .data .dataError [0x01] :: [] ∧
      [(0x01 : Byte)].length = sectorLen (sector 0).n 1 ∧ ErrorCode.dataError ≠ .ok) := ⟨.of_check (by decide), by decide⟩

theorem witness_WriteCommandsOpenExecution :
    writesSector (writeDeletedOf 1) = some (noFlags, unit 0 0, sector 0, 1, true) ∧ (f1 [] [.isReady true]).usable 0 = true ∧
    (f1 [] [.isReady true]).spinning 0 = true ∧ (f1 [] [.isReady true]).answers = .isReady true :: [] ∧
    (256 = (if (sector 1).n = 0 then (1 : Byte).toNat else min (128 * 2 ^ (sector 1).n.toNat) 8192) ∧
      1 = (if (sector 0).n = 0 then (1 : Byte).toNat else min (128 * 2 ^ (sector 0).n.toNat) 8192) ∧
      8192 = (if (sector 7).n = 0 then (1 : Byte).toNat else min (128 * 2 ^ (sector 7).n.toNat) 8192)) := by decide

/-- A read-only drive whose backend says it is ready. -/
def readOnlyReady : State := idleWith { running 0 with readOnly := true } [] [.isReady true]

/-- On a drive that may be written, and on a read-only one. -/
theorem witness_WriteOfLengthZeroWritesAtOnce : (f1 [] [.isReady true, .code .dataError]).BuffersWf ∧ readOnlyReady.BuffersWf ∧
    (writesSector (writeDeletedOf 0) = some (noFlags, unit 0 0, sector 0, 0, true) ∧
      (f1 [] [.isReady true, .code .dataError]).usable 0 = true ∧ (f1 [] [.isReady true, .code .dataError]).spinning 0 = true ∧
      (f1 [] [.isReady true, .code .dataError]).writeProtected 0 = false ∧
      (f1 [] [.isReady true, .code .dataError]).answers = .isReady true :: [.code .dataError] ∧
      sectorLen (sector 0).n 0 = 0) ∧
    (readOnlyReady.usable 0 = true ∧ readOnlyReady.spinning 0 = true ∧ readOnlyReady.writeProtected 0 = true ∧
      readOnlyReady.answers = .isReady true :: []) := ⟨.of_check (by decide), .of_check (by decide), by decide, by decide⟩

/-- A track of one byte, an empty one, and an error. -/
theorem witness_ReadTrackOpensExecution :
    (f1 [] [.isReady true, .data .ok [0x09]]).BuffersWf ∧ (f1 [] [.isReady true, .data .ok []]).BuffersWf ∧
    (f1 [] [.isReady true, .data .noData [0x09]]).BuffersWf ∧
    ((f1 [] [.isReady true, .data .ok [0x09]]).usable 0 = true ∧ (f1 [] [.isReady true, .data .ok [0x09]]).spinning 0 = true ∧
      (f1 [] [.isReady true, .data .ok [0x09]]).answers = .isReady true :: .data .ok [0x09] :: [] ∧
      (f1 [] [.isReady true, .data .ok []]).answers = .isReady true :: .data .ok [] :: [] ∧
      (f1 [] [.isReady true, .data .noData [0x09]]).answers = .isReady true :: .data .noData [0x09] :: []) :=
  ⟨.of_check (by decide), .of_check (by decide), .of_check (by decide), by decide⟩

theorem witness_ReadIdReturnsHeader : (f1 [] [.isReady true, .header .noData (sector 2)]).BuffersWf ∧
    ((f1 [] [.isReady true, .header .noData (sector 2)]).usable 0 = true ∧
      (f1 [] [.isReady true, .header .noData (sector 2)]).spinning 0 = true ∧
      (f1 [] [.isReady true, .header .noData (sector 2)]).answers = .isReady true :: .header .noData (sector 2) :: [] ∧
      (f1 [] [.isReady true, .header .ok (sector 2)]).answers = .isReady true :: .header .ok (sector 2) :: []) :=
  ⟨.of_check (by decide), by decide⟩

/-- One sector or more, and none, on a drive that may be written and on a read-only one. -/
theorem witness_FormatTrackOpensExecution : (f1 [] [.isReady true, .code .ok]).BuffersWf ∧ readOnlyReady.BuffersWf ∧
    (readOnlyReady.usable 0 = true ∧ readOnlyReady.spinning 0 = true ∧ readOnlyReady.writeProtected 0 = true ∧
      readOnlyReady.answers = .isReady true :: []) ∧
    ((f1 [] [.isReady true, .code .ok]).usable 0 = true ∧ (f1 [] [.isReady true, .code .ok]).spinning 0 = true ∧
      (f1 [] [.isReady true, .code .ok]).answers = .isReady true :: [.code .ok] ∧ (0x01 : Byte) ≠ 0 ∧
      (f1 [] [.isReady true, .code .ok]).writeProtected 0 = false) :=
  ⟨.of_check (by decide), .of_check (by decide), by decide, by decide⟩

/-- A FORMAT (which stores nothing at its dispatch), a READ DATA and a READ TRACK (which store one byte) and a READ ID, each
completing. -/
theorem witness_DataCommandFrame :
    (∃ t, exec (.formatTrack noFlags (unit 0 0) 0x02 0x01 0x52 0xE5) (f1 [] [.isReady true]) = .next t) ∧
    (∃ t, exec (readDataOf 1) (f1 [] [.isReady true, .data .ok [0x01]]) = .next t) ∧
    (∃ t, exec (.readId noFlags (unit 0 0)) (f1 [] [.isReady true, .header .ok (sector 2)]) = .next t) ∧
    (∃ t, exec (.readTrack noFlags (unit 0 0) (sector 0) 0x01 0x2A 0xFF) (f1 [] [.isReady true, .data .ok [0x09]]) = .next t ∧
      t.events.drop (f1 [] []).events.length = [.call 0 .ready (.isReady true),
        .call 0 (.readTrack (sector 0).c (sector 0).h 0 8192) (.data .ok [0x09])] ∧ min [(0x09 : Byte)].length 8192 ≤ 1) ∧
    (readsSector (.formatTrack noFlags (unit 0 0) 0x02 0x01 0x52 0xE5) = none ∧
      writesSector (.formatTrack noFlags (unit 0 0) 0x02 0x01 0x52 0xE5) = none ∧
      readsSector (readDataOf 1) = some (noFlags, unit 0 0, sector 0, 1, false) ∧ sectorLen (sector 0).n 1 ≤ 1 ∧
      isDataCommand (.readId noFlags (unit 0 0)) = true ∧
      gives (exec (readDataOf 1) (f1 [] [.isReady true, .data .ok [0x01]])) (fun t => decide (t.phase = .execution)) = true) :=
  ⟨⟨_, rfl⟩, ⟨_, rfl⟩, ⟨_, rfl⟩, ⟨_, rfl, by decide, by decide⟩, by decide⟩

theorem witness_StatusCommandFrame :
    (∃ t, exec (.seek noFlags (unit 0 0) 0x01) (f1 [] [.isReady true, .code .ok]) = .next t) ∧
    (∃ t, exec (.specify noFlags 0xDF 0x02) (f1 [] []) = .next t) ∧
    (∃ t, exec (.senseInterruptStatus noFlags) (f1s []) = .next t) ∧
    (∃ t, exec (.senseInterruptStatus noFlags) (f1 [] []) = .next t) ∧
    (∃ t, exec (.senseDriveStatus noFlags (unit 0 0)) (f1 [] [.status 0x20]) = .next t) ∧
    (isDataCommand (.seek noFlags (unit 0 0) 0x01) = false ∧ isDataCommand (.specify noFlags 0xDF 0x02) = false ∧
      isDataCommand (.senseInterruptStatus noFlags) = false ∧ unitHeadOf (.seek noFlags (unit 0 0) 0x01) = some (unit 0 0) ∧
      unitHeadOf (.specify noFlags 0xDF 0x02) = none ∧ seekTarget (.specify noFlags 0xDF 0x02) = none ∧
      isDataCommand (.senseDriveStatus noFlags (unit 0 0)) = false ∧ (f1 [] []).interruptState ≠ .seekEnd ∧
      (f1s []).interruptState = .seekEnd ∧ seekTarget (.seek noFlags (unit 0 0) 0x01) ≠ none) :=
  ⟨⟨_, rfl⟩, ⟨_, rfl⟩, ⟨_, rfl⟩, ⟨_, rfl⟩, ⟨_, rfl⟩, by decide⟩

theorem witness_EveryCommandCompletesUnscripted : State.reset.answers = [] := rfl

/-- A WRITE DATA of two bytes before its first, and before its last with a byte code scripted. -/
def writing (position left : Nat) (buffer : List Byte) (d : Drive) : State :=
  executing [0x05, 0x00, 0x00, 0x01, 0x01, 0x00, 0x01, 0x2A, 0x02] position left buffer
    (idleWith d [.writeData 0x22] [.code .noData])

def writeDataOf : Instr := .writeData noFlags (unit 0 0) (sector 0) 0x01 0x2A 0x02

theorem witness_ExecutionStoresHostByte : (writing 0 2 [] (running 0)).Inv ∧
    ((writing 0 2 [] (running 0)).hostOps = .writeData 0x22 :: [] ∧ (writing 0 2 [] (running 0)).phase = .execution ∧
      (writing 0 2 [] (running 0)).pendingOpcode = some .writeData ∧
      (writing 0 2 [] (running 0)).pendingInstr = some writeDataOf ∧
      (writing 0 2 [] (running 0)).execLength ≠ 1) :=
  ⟨State.Inv.of_check (by decide) (by decide) (by decide), by decide⟩

/-- On a drive that may be written, and on a read-only one. -/
theorem witness_LastWriteByteWritesSector : (writing 1 1 [0x11] (running 0)).Inv ∧
    (writing 1 1 [0x11] { running 0 with readOnly := true }).Inv ∧
    ((writing 1 1 [0x11] (running 0)).hostOps = .writeData 0x22 :: [] ∧ (writing 1 1 [0x11] (running 0)).phase = .execution ∧
      (writing 1 1 [0x11] (running 0)).execLength = 1 ∧ (writing 1 1 [0x11] (running 0)).pendingInstr = some writeDataOf ∧
      writesSector writeDataOf = some (noFlags, unit 0 0, sector 0, 0x02, false) ∧
      (writing 1 1 [0x11] (running 0)).usable 0 = true ∧ (writing 1 1 [0x11] (running 0)).writeProtected 0 = false ∧
      (writing 1 1 [0x11] (running 0)).answers = .code .noData :: [] ∧
      (writing 1 1 [0x11] { running 0 with readOnly := true }).writeProtected 0 = true) :=
  ⟨State.Inv.of_check (by decide) (by decide) (by decide), State.Inv.of_check (by decide) (by decide) (by decide), by decide⟩

/-- A FORMAT TRACK of one sector before its last byte. -/
def formatting : State := executing [0x0D, 0x00, 0x02, 0x01, 0x52, 0xE5] 3 1 [0x00, 0x00, 0x01]
  (f1 [.writeData 0x02] [.code .ok])

/-- The same on a read-only drive. -/
def formattingReadOnly : State := executing [0x0D, 0x00, 0x02, 0x01, 0x52, 0xE5] 3 1 [0x00, 0x00, 0x01]
  (idleWith { running 0 with readOnly := true } [.writeData 0x02] [])

/-- Vector FMT-4: ReadOnly's bits, and no `formatTrack` call. -/
theorem test_formatTrack_readOnly : gives (step formattingReadOnly)
    (fun t => holds [0x40, 0x02, 0x00, 0x00, 0x00, 0x00, 0x02] t && decide (t.events = [])) = true := by decide

theorem witness_LastFormatByteFormats : formatting.Inv ∧ formattingReadOnly.Inv ∧
    (formatting.hostOps = .writeData 0x02 :: [] ∧ formatting.phase = .execution ∧ formatting.execLength = 1 ∧
      formatting.pendingInstr = some (.formatTrack noFlags (unit 0 0) 0x02 0x01 0x52 0xE5) ∧
      formatting.usable formatting.selectedUnit = true ∧ formatting.writeProtected formatting.selectedUnit = false ∧
      formatting.answers = .code .ok :: []) ∧
    (formattingReadOnly.hostOps = .writeData 0x02 :: [] ∧ formattingReadOnly.phase = .execution ∧
      formattingReadOnly.execLength = 1 ∧
      formattingReadOnly.pendingInstr = some (.formatTrack noFlags (unit 0 0) 0x02 0x01 0x52 0xE5) ∧
      formattingReadOnly.usable formattingReadOnly.selectedUnit = true ∧
      formattingReadOnly.writeProtected formattingReadOnly.selectedUnit = true) :=
  ⟨State.Inv.of_check (by decide) (by decide) (by decide), State.Inv.of_check (by decide) (by decide) (by decide),
    by decide, by decide⟩

/-- A SCAN HIGH OR EQUAL of two bytes before its first. -/
def scanStart : State := executing [0x1D, 0x00, 0x00, 0x01, 0x01, 0x00, 0x01, 0x2A, 0x02] 0 2 [0x10, 0x20]
  { f1 [.writeData 0x10] [] with status2 := 0x08 }

theorem witness_ScanComparesHostByte : scanStart.Inv ∧
    (scanStart.hostOps = .writeData 0x10 :: [] ∧ scanStart.phase = .execution ∧
      scanStart.pendingInstr = some (scanHighOf 2) ∧ isScan (scanHighOf 2) = true ∧ scanStart.execLength ≠ 1) :=
  ⟨State.Inv.of_check (by decide) (by decide) (by decide), by decide⟩

/-- The same before its last byte. -/
def scanEnd : State := { scanStart with execPosition := 1, execLength := 1 }

theorem witness_LastScanByteOpensResult : scanEnd.Inv ∧
    (scanEnd.hostOps = .writeData 0x10 :: [] ∧ scanEnd.phase = .execution ∧ scanEnd.execLength = 1 ∧
      scanEnd.pendingInstr = some (scanHighOf 2) ∧ isScan (scanHighOf 2) = true ∧
      readsSector (scanHighOf 2) = some (noFlags, unit 0 0, sector 0, 2, false)) :=
  ⟨State.Inv.of_check (by decide) (by decide) (by decide), by decide⟩

theorem witness_ScanFieldOfAllBytes : isScan (scanHighOf 2) = true ∧ scanStart.status2 &&& 0x0C = 0x08 := by decide

/-- A READ DATA of four bytes, one of them read. -/
def reading (ops : List HostOp) : State :=
  executing [0x46, 0x00, 0x00, 0x00, 0x01, 0x00, 0x01, 0x2A, 0x04] 1 3 [0xDE, 0xAD, 0xBE, 0xEF] (f1 ops [])

def readingInstr : Instr := .readData mf (unit 0 0) ⟨0, 0, 1, 0⟩ 0x01 0x2A 0x04

/-- All three reads, and one read followed by a tick. -/
theorem witness_ExecutionDeliversItsBytes : (reading (List.replicate 3 .readData ++ [.readStatus])).Inv ∧
    ((reading (List.replicate 3 .readData ++ [.readStatus])).phase = .execution ∧
      (reading (List.replicate 3 .readData ++ [.readStatus])).pendingOpcode = some .readData ∧
      (reading (List.replicate 3 .readData ++ [.readStatus])).pendingInstr = some readingInstr ∧
      (reading (List.replicate 3 .readData ++ [.readStatus])).hostOps =
        List.replicate (reading (List.replicate 3 .readData ++ [.readStatus])).execLength .readData ++ [.readStatus]) ∧
    (reading [.readData, .tick]).Inv ∧ ((reading [.readData, .tick]).hostOps = .readData :: [.tick] ∧
      (reading [.readData, .tick]).phase = .execution ∧ (reading [.readData, .tick]).pendingOpcode = some .readData ∧
      (reading [.readData, .tick]).execLength ≠ 1 ∧ (reading [.readData, .tick]).interruptState ≠ .seekEnd) :=
  ⟨State.Inv.of_check (by decide) (by decide) (by decide), by decide,
    State.Inv.of_check (by decide) (by decide) (by decide), by decide⟩

/-- Seven bytes, one byte, and the last index of the buffer. -/
def sevenDue (ops : List HostOp) : State :=
  resulting [0x46, 0x00, 0x00, 0x00, 0x01, 0x00, 0x01, 0x2A, 0x04] [0x40, 0x04, 0x00, 0x00, 0x00, 0x01, 0x00] (f1 ops [])

theorem witness_ResultReadDeliversOneByte : (sevenDue [.readData]).hostOps = .readData :: [] ∧
    (sevenDue [.readData]).phase = .result ∧ (sevenDue [.readData]).resPosition < Config.resCap ∧ 15 < Config.resCap ∧
    (sevenDue [.readData]).resLength - 1 ≠ 0 ∧ (resulting [0x00] [0x80] (f1 [.readData] [])).resLength - 1 = 0 := by decide

theorem witness_ResultPhaseDeliversAndEnds : (sevenDue (List.replicate 7 .readData ++ [.tick])).Inv ∧
    ((sevenDue (List.replicate 7 .readData ++ [.tick])).phase = .result ∧
      (sevenDue (List.replicate 7 .readData ++ [.tick])).hostOps =
        List.replicate (sevenDue (List.replicate 7 .readData ++ [.tick])).resLength .readData ++ [.tick]) :=
  ⟨State.Inv.of_check (by decide) (by decide) (by decide), by decide⟩

/-- A stray read in Idle, in Command and in a write's Execution; a stray write in Result and in a read's Execution. -/
theorem witness_StrayAccessesTransferNothing :
    ((f1 [.readData] []).hostOps = .readData :: [] ∧ (f1 [.readData] []).phase = .idle ∧ lastByte.phase = .command ∧
      (writing 0 2 [] (running 0)).phase = .execution ∧
      (writing 0 2 [] (running 0)).pendingOpcode = some .writeData) ∧
    ((sevenDue [.writeData 0x12]).hostOps = .writeData 0x12 :: [] ∧ (sevenDue [.writeData 0x12]).phase = .result ∧
      (reading [.writeData 0x12]).phase = .execution ∧ (reading [.writeData 0x12]).pendingOpcode = some .readData) := by
  decide

theorem witness_ReadStatusChangesNothing : (f1 [.readStatus] []).hostOps = .readStatus :: [] := rfl

theorem witness_MainStatusOfEachPhase : (f1 [] []).phase = .idle ∧ lastByte.phase = .command ∧
    (sevenDue []).phase = .result ∧ (reading []).phase = .execution ∧ (reading []).direction = some .controllerToHost ∧
    (writing 0 2 [] (running 0)).direction = some .hostToController ∧
    (reading []).pendingOpcode = some .readData ∧ (writing 0 2 [] (running 0)).phase = .execution ∧
    (writing 0 2 [] (running 0)).pendingOpcode = some .writeData := by decide

/-- A pending ResultReady, a pending SeekEnd, and an access that completes. -/
theorem witness_AccessAcknowledges :
    State.interruptState { sevenDue [.readData] with interruptState := .resultReady } = .resultReady ∧
    (f1s []).interruptState = .seekEnd ∧ (f1 [.readData] []).hostOps = .readData :: [] ∧
    gives (step (f1 [.readData] [])) (fun _ => true) = true ∧
    (f1 [.readStatus] []).hostOps = .readStatus :: [] ∧
    gives (step (f1 [.readStatus] [])) (fun _ => true) = true := by decide

/-- No countdown, its last tick, and more than one to go. -/
theorem witness_TickCountsDown : (f1 [.tick] []).hostOps = .tick :: [] ∧ (f1 [.tick] []).ticksRemaining = 0 ∧
    State.ticksRemaining { f1 [.tick] [] with ticksRemaining := 1 } = 1 ∧ (f1s [.tick]).ticksRemaining = 0 + 2 := by decide

/-- An access that ends in Execution, in Result, in Idle and in Command; one with a SeekEnd pending before it, and the one
after which RECALIBRATE's SeekEnd is pending. -/
theorem witness_AccessArmsByPhase :
    gives (step (reading [.readData])) (fun t => decide (t.phase = .execution)) = true ∧
    gives (step (sevenDue [.readData])) (fun t => decide (t.phase = .result)) = true ∧
    gives (step (resulting [0x00] [0x80] (f1 [.readData] []))) (fun t => decide (t.phase = .idle)) = true ∧
    gives (step (f1 [.writeData 0x07] [])) (fun t => decide (t.phase = .command)) = true ∧
    gives (step (f1s [.writeData 0x07])) (fun t => decide (t.phase = .command ∧ t.interruptState = .seekEnd)) = true ∧
    gives (step lastByte) (fun t => decide (t.phase = .idle ∧ t.interruptState = .seekEnd)) = true ∧
    lastByte.phase = .command ∧ lastByte.pendingOpcode = some .recalibrate ∧ lastByte.interruptState = .none := by decide

/-- A pending SeekEnd, and the write of a byte that is not SENSE INTERRUPT STATUS. -/
theorem witness_SeekEndSurvives : (f1s [.writeData 0x00]).Inv ∧
    ((f1s [.writeData 0x00]).interruptState = .seekEnd ∧ gives (step (f1s [.writeData 0x00])) (fun _ => true) = true ∧
      (f1s [.writeData 0x00]).hostOps = .writeData 0x00 :: [] ∧ commandId (op5 0x00) ≠ .senseInterruptStatus) :=
  ⟨State.Inv.of_check (by decide) (by decide) (by decide), by decide⟩

theorem witness_MotorStopAbortsExecution : (reading [.setMotor 0xFE]).BuffersWf ∧
    ((reading [.setMotor 0xFE]).hostOps = .setMotor 0xFE :: [] ∧ (reading [.setMotor 0xFE]).phase = .execution ∧
      (reading [.setMotor 0xFE]).pendingInstr = some readingInstr ∧
      (reading [.setMotor 0xFE]).drive (reading [.setMotor 0xFE]).selectedUnit = some (running 0) ∧
      (running 0).motorOn = true ∧ (0xFE : Byte).getLsbD (reading [.setMotor 0xFE]).selectedUnit.toNat = false ∧
      (reading [.setMotor 0xFE]).interruptState ≠ .seekEnd) := ⟨.of_check (by decide), by decide⟩

/-- Motors changed in Idle, and a mask that changes none. -/
theorem witness_SetMotorWithoutAbort : (f1 [.setMotor 0x00] []).hostOps = .setMotor 0x00 :: [] ∧
    (f1 [.setMotor 0x00] []).phase ≠ .execution ∧ (running 0).motorOn ≠ (0x00 : Byte).getLsbD (0 : UnitNo).toNat ∧
    (f1 [.setMotor 0x00] []).drive 0 = some (running 0) ∧ (f1 [.setMotor 0x00] []).interruptState ≠ .seekEnd ∧
    (running 0).motorOn = (0x01 : Byte).getLsbD (0 : UnitNo).toNat ∧ stopped5.motorOn = (0x01 : Byte).getLsbD (1 : UnitNo).toNat ∧
    (detached false).motorOn = (0x01 : Byte).getLsbD (3 : UnitNo).toNat := by decide

theorem witness_ResetRestoresDefaults : (reading [.reset]).hostOps = .reset :: [] := rfl

/-- Swaps in Idle, of another unit than the selected one in Result, of an empty slot, and of the selected unit in Result. -/
theorem witness_MediaSwapOnlyWhereAllowed :
    ((f1 [.insert 3] []).drive 3 = some (detached false) ∧ (f1 [.insert 3] []).phase = .idle ∧
      (f1 [.insert 3] []).hostOps = .insert 3 :: [] ∧ (sevenDue [.eject 1]).drive 1 = some stopped5 ∧
      (sevenDue [.eject 1]).selectedUnit ≠ 1 ∧ (sevenDue [.eject 1]).hostOps = .eject 1 :: []) ∧
    ((f1 [.insert 2] []).drive 2 = none ∧ (f1 [.insert 2] []).hostOps = .insert 2 :: [] ∧
      (sevenDue [.eject 0]).phase ≠ .idle ∧ (sevenDue [.eject 0]).selectedUnit = 0 ∧
      (sevenDue [.eject 0]).hostOps = .eject 0 :: []) := by decide

theorem witness_ExcludedHostBehaviourIsRefused : (f1 [.writeStatus 0x00] []).hostOps = .writeStatus 0x00 :: [] ∧
    (f1 [.reenter .readData] []).hostOps = .reenter .readData :: [] := by decide

/-- A step from a state that meets every invariant, into the Result phase. -/
theorem witness_StepKeepsInvariant : lastByte.Inv ∧ gives (step lastByte) (fun _ => true) = true ∧
    (reading [.readData]).Inv ∧ gives (step (reading [.readData])) (fun _ => true) = true :=
  ⟨State.Inv.of_check (by decide) (by decide) (by decide), by decide, State.Inv.of_check (by decide) (by decide) (by decide),
    by decide⟩

theorem witness_StepKeepsUnusedStatusBitsClear : scanStart.StatusInv ∧ gives (step scanStart) (fun _ => true) = true :=
  ⟨⟨by decide, by decide, by decide, by decide⟩, by decide⟩

theorem witness_LineIsLastNotification : scanStart.irqLine = lastLevel scanStart.events ∧
    gives (step scanStart) (fun _ => true) = true := by decide

theorem witness_HistoryGrowsByCallsOnUsableSlots : gives (step formatting) (fun t => decide (t.events.length = 1)) = true ∧
    (f1 [] []).hostOps = [] ∧ gives (step (f1 [] [])) (fun _ => true) = true := by decide

/-- A state that meets the invariant, refused for the second answer of a RECALIBRATE, which a code would have completed; and
refused swaps of an empty slot and of the running unit. -/
theorem witness_ControllerNeverFaults : (received [0x07] (f1 [.writeData 0x00] [.isReady true, .foreign 9])).Inv ∧
    (step (received [0x07] (f1 [.writeData 0x00] [.isReady true, .foreign 9])) = .refused .backendContract ∧
      gives (step (received [0x07] (f1 [.writeData 0x00] [.isReady true, .code .ok])))
        (fun t => decide (t.events.getLast? = some (.call 0 (.seekCylinder 0x00) (.code .ok)))) = true) ∧
    (f1 [.insert 2] []).Inv ∧ (step (f1 [.insert 2] []) = .refused .mediaSwap ∧ (f1 [.insert 2] []).drive 2 = none) ∧
    (sevenDue [.eject 0]).Inv ∧ step (sevenDue [.eject 0]) = .refused .mediaSwap :=
  ⟨State.Inv.of_check (by decide) (by decide) (by decide), ⟨rfl, by decide⟩,
    State.Inv.of_check (by decide) (by decide) (by decide), ⟨rfl, by decide⟩,
    State.Inv.of_check (by decide) (by decide) (by decide), rfl⟩

/-- A byte of each phase with more to come, none of them a reset. -/
theorem witness_PhasesFollowInOrder : (reading [.readData]).Inv ∧ (sevenDue [.readData]).Inv ∧
    (gives (step (reading [.readData])) (fun t => decide (t.phase = .execution)) = true ∧
      gives (step (sevenDue [.readData])) (fun t => decide (t.phase = .result)) = true ∧
      (reading [.readData]).hostOps ≠ .reset :: [] ∧ (sevenDue [.readData]).hostOps ≠ .reset :: []) :=
  ⟨State.Inv.of_check (by decide) (by decide) (by decide), State.Inv.of_check (by decide) (by decide) (by decide), by decide⟩

/-- Two different states, a tick apart, that agree but for the countdown. -/
theorem witness_OutcomesDoNotDependOnTicks :
    eraseTimer (f1s [.writeData 0x08]) = eraseTimer { f1s [.writeData 0x08] with ticksRemaining := 0, irqLine := true } := rfl

/-! ### The formulas -/

/-- R68's values: DTL at N = 0, the first size, the last that fits, the first clamped and the largest N. -/
theorem witness_SectorLengthFormula : sectorLen 0 0x00 = 0 ∧ sectorLen 0 0xFF = 255 ∧ (1 : Byte) ≠ 0 ∧ sectorLen 1 0x05 = 256 ∧
    sectorLen 6 0x05 = 8192 ∧ sectorLen 7 0x05 = 8192 ∧ (255 : Byte) ≠ 0 ∧ sectorLen 255 0x05 = 8192 := by decide

/-- An empty slot, a drive of kind none and one without a backend are not usable; a stopped 3" drive does not spin; a stopped
5.25" drive does. -/
theorem witness_DriveConditions :
    ((f0 [] []).usable 2 = false ∧ (f0 [] []).usable 3 = false ∧
      (idleWith { running 0 with kind := .none } [] []).usable 0 = false ∧ (f1 [] []).usable 0 = true) ∧
    ((f0 [] []).spinning 0 = false ∧ (f1 [] []).spinning 0 = true ∧ (f0 [] []).spinning 1 = true) ∧
    (readOnlyReady.writeProtected 0 = true ∧ (f1 [] []).writeProtected 0 = false ∧ (f1 [] []).writeProtected 2 = false) := by
  decide

/-- The reported cylinder of a usable and of an unusable slot, and a command of each row. -/
theorem witness_ResultFormulas :
    readsSector (scanHighOf 2) = some (noFlags, unit 0 0, sector 0, 2, false) ∧
    writesSector (writeDeletedOf 1) = some (noFlags, unit 0 0, sector 0, 1, true) ∧
    (idleWith (running 0x27) [] []).drive 0 = some (running 0x27) ∧ (idleWith (running 0x27) [] []).usable 0 = true ∧
    (idleWith (running 0x27) [] []).reportedCylinder 0 = 0x27 ∧ (f1 [] []).usable 3 = false :=
  ⟨rfl, rfl, rfl, rfl, rfl, rfl⟩

end Sys2Proof.Tests
end

section
/-! SUPPORT. Proofs of the protocol's statements (40_protocol.md): the data-register access cut into acknowledgement, the phase's
own part and arming, an equation for each phase's part, and the three statements settled from them. -/

namespace Sys2Proof.Machine

open Sys2Proof

/-! ### One access of the data register -/

/-- A step that writes a byte acknowledges, does the phase's own part and arms (R78). -/
theorem step_writeData {s : State} {b : Byte} {rest : List HostOp} (h : s.hostOps = .writeData b :: rest) :
    step s = andThen (writePhase b (ackOnAccess (takeOp rest s))) fun m => .next (armOnCompletion m) :=
  step_cons h

/-- A step that reads the data register acknowledges, does the phase's own part and arms (R79). -/
theorem step_readData {s : State} {rest : List HostOp} (h : s.hostOps = .readData :: rest) :
    step s = andThen (readPhase (ackOnAccess (takeOp rest s))) fun m => .next (armOnCompletion m) :=
  step_cons h

theorem writePhase_of_command {b : Byte} {s : State} (h : s.phase = .command) : writePhase b s = appendCommand b s := by
  simp [writePhase, h]

theorem readPhase_of_result {s : State} (h : s.phase = .result) : readPhase s = resultRead s := by
  simp [readPhase, h]

/-! ### The registers of the commands over an access -/

theorem keepsRegisters_acceptOperand (b : Byte) (s : State) : KeepsRegisters s (acceptOperand b s) := by
  constructor <;> rfl

theorem keepsRegisters_resultByte (v : Byte) (s : State) : KeepsRegisters s (endIfRead (advanceResult (deliver v s))) := by
  constructor <;> simp [statusOf]

/-- An access keeps the registers where its phase's own part does: the acknowledgement and the arming touch none. -/
theorem KeepsRegisters.of_access {s m : State} {rest : List HostOp} (h : KeepsRegisters (ackOnAccess (takeOp rest s)) m) :
    KeepsRegisters s (armOnCompletion m) := by
  obtain ⟨status, status3, spec1, spec2, unit, head, deleted, rotation⟩ := h
  exact ⟨by simpa [statusOf] using status, by simpa using status3, by simpa using spec1, by simpa using spec2,
    by simpa using unit, by simpa using head, by simpa using deleted, by simpa using rotation⟩

/-! ### The Command phase -/

theorem cmdCount_le_longest (id : CommandId) : cmdCount id ≤ longestCommand := by
  cases id <;> decide

/-- In Command phase the next operand byte is one of the command's, so at most the ninth (R26, R57). -/
theorem State.Inv.cmdPosition_succ_le {s : State} (hs : s.Inv) (hp : s.phase = .command) :
    s.cmdPosition + 1 ≤ longestCommand := by
  obtain ⟨-, hleft, hcount, -, -⟩ := hs.command hp
  have hmax := cmdCount_le_longest (commandId (op5 (s.cmdBuf.read 0)))
  omega

theorem dispatchIfComplete_of_more {s : State} (h : s.cmdLength ≠ 0) : dispatchIfComplete s = .next s :=
  if_neg h

theorem dispatchIfComplete_of_complete {s : State} (h : s.cmdLength = 0) : dispatchIfComplete s = dispatch s :=
  if_pos h

theorem appendCommand_of_bound {b : Byte} {s : State} (h : s.cmdPosition < Config.cmdCap) :
    appendCommand b s = dispatchIfComplete (acceptOperand b s) :=
  if_pos h

/-- The step of an operand byte that is not the last (R78, R82). -/
theorem step_writeData_of_more {s : State} {b : Byte} {rest : List HostOp} (hs : s.Inv)
    (hop : s.hostOps = .writeData b :: rest) (hp : s.phase = .command) (hmore : s.cmdLength ≠ 1) :
    step s = .next (armOnCompletion (acceptOperand b (ackOnAccess (takeOp rest s)))) := by
  obtain ⟨-, hleft, -, -, -⟩ := hs.command hp
  have hbound : (ackOnAccess (takeOp rest s)).cmdPosition < Config.cmdCap := by
    simpa using (hs.cmdPosition_succ_le hp).trans (by decide)
  have hlength : (acceptOperand b (ackOnAccess (takeOp rest s))).cmdLength ≠ 0 := by
    simpa using (by omega : s.cmdLength - 1 ≠ 0)
  rw [step_writeData hop, writePhase_of_command (by simpa using hp), appendCommand_of_bound hbound,
    dispatchIfComplete_of_more hlength, andThen_next]

/-- Settles O6: `acceptOperand` is the state before the dispatch, and the bound 9 is the longest command's byte count. -/
theorem appendCommandStoresByte : Obligations.AppendCommandStoresByte := by
  refine ⟨fun s b hwf hbound => ?_, fun s b rest hs hop hp hmore => ?_⟩
  · refine ⟨acceptOperand b s, Memory.read_write_same hwf.cmd, fun a ha => Memory.read_write_other _ ha, rfl, rfl, rfl,
      fun hmore => ?_, fun hlast => ?_, fun hs hp => hs.cmdPosition_succ_le hp⟩
    · rw [appendCommand_of_bound hbound, dispatchIfComplete_of_more hmore]
    · rw [appendCommand_of_bound hbound, dispatchIfComplete_of_complete hlast]
  · obtain ⟨-, hleft, -, -, -⟩ := hs.command hp
    have hcount : s.cmdLength - 1 + 1 = s.cmdLength := by omega
    have hrest : s.cmdLength - 1 ≠ 0 := by omega
    refine ⟨_, step_writeData_of_more hs hop hp hmore, by simpa using hp, by simp, ?stored, ?others, by simp,
      by simpa using hcount, by simpa using hrest,
      by simp, by simp, by simp, by simp, by simp, by simp, (keepsRegisters_acceptOperand b _).of_access, by simp, by simp,
      by simp, by simp, by simp⟩
    case stored => simpa using Memory.read_write_same hs.buffers.cmd
    case others =>
      intro a ha
      simpa using Memory.read_write_other s.cmdBuf ha

/-! ### The Result phase -/

theorem endIfRead_of_done {s : State} (h : s.resLength = 0) : endIfRead s = endCommand s :=
  if_pos h

theorem endIfRead_of_more {s : State} (h : s.resLength ≠ 0) : endIfRead s = s :=
  if_neg h

/-- The count is 0 on either side of the return to Idle, so `endIfRead` leaves it (R85, R90). -/
@[simp] theorem endIfRead_resLength (s : State) : (endIfRead s).resLength = s.resLength := by
  by_cases h : s.resLength = 0
  · rw [endIfRead_of_done h, endCommand_resLength, h]
  · rw [endIfRead_of_more h]

theorem resultRead_of_bound {s : State} (h : s.resPosition < Config.resCap) :
    resultRead s = .next (endIfRead (advanceResult (deliver (s.resBuf.read s.resPosition) s))) :=
  if_pos h

/-- The step of a read in Result (R79, R90). -/
theorem step_readData_of_result {s : State} {rest : List HostOp} (hop : s.hostOps = .readData :: rest)
    (hp : s.phase = .result) (hbound : s.resPosition < Config.resCap) :
    step s = .next (armOnCompletion (endIfRead (advanceResult
      (deliver (s.resBuf.read s.resPosition) (ackOnAccess (takeOp rest s)))))) := by
  rw [step_readData hop, readPhase_of_result (by simpa using hp), resultRead_of_bound (by simpa using hbound), andThen_next,
    ackOnAccess_resBuf, ackOnAccess_resPosition, takeOp_resBuf, takeOp_resPosition]

theorem armOnCompletion_of_idle {s : State} (h : s.phase = .idle) : armOnCompletion s = s := by
  simp [armOnCompletion, h]

theorem mainStatus_of_idle {s : State} (h : s.phase = .idle) : s.mainStatus = 0x80 := by
  simp [State.mainStatus, h, msrRqm]

theorem backInIdle_endCommand (s : State) : BackInIdle (endCommand s) := by
  constructor <;> rfl

/-- Settles O35: the split on the bytes that remain is `endIfRead`'s own, and a completed access arms nothing in Idle. -/
theorem resultReadDeliversOneByte : Obligations.ResultReadDeliversOneByte := by
  intro s rest hop hp hbound
  refine ⟨_, step_readData_of_result hop hp hbound, by simp, by simp, by simp, by simp, fun hlast => ?last, fun hmore => ?more,
    by simp, (keepsRegisters_resultByte _ _).of_access, by simp, by simp, by simp, by simp, ⟨by simp, by simp⟩⟩
  case last =>
    rw [endIfRead_of_done (by simpa using hlast), armOnCompletion_of_idle rfl]
    exact ⟨backInIdle_endCommand _, mainStatus_of_idle rfl, by simp⟩
  case more =>
    rw [endIfRead_of_more (by simpa using hmore)]
    exact ⟨by simpa using hp, by simp⟩

/-! ### The status read -/

/-- Settles O38: `readStatus` is the delivery of the main status register, which the host's list of operations is no part of. -/
theorem readStatusChangesNothing : Obligations.ReadStatusChangesNothing := by
  intro s rest hop
  have hmsr : (takeOp rest s).mainStatus = s.mainStatus := rfl
  calc step s = .next (deliver (takeOp rest s).mainStatus (takeOp rest s)) := step_cons hop
    _ = .next (deliver s.mainStatus (takeOp rest s)) := by rw [hmsr]
    _ = .next { s with hostOps := rest, reply := some s.mainStatus } := rfl

end Sys2Proof.Machine
end

section
/-! SUPPORT. Proof of the drive interface's statement (41_drive_interface.md): the status bits an error code sets. -/

namespace Sys2Proof.Machine

open Sys2Proof

/-- An error code's row of the table is all that `ApplyError` reads of it (R112). -/
theorem applyError_of_deltas {e : ErrorCode} {d0 d1 d2 : Byte} (h : deltasOf e = ⟨d0, d1, d2⟩) (s : State) :
    applyError e s =
      { s with status0 := s.status0 ||| d0, status1 := s.status1 ||| d1, status2 := s.status2 ||| d2 } := by
  rw [applyError, h]

/-- Settles O27: a row's `ApplyError` is the OR of its three deltas, and a delta of 0 leaves its register. -/
theorem errorCodesSetTableBits : Obligations.ErrorCodesSetTableBits := by
  refine ⟨by decide, fun s => ?rows⟩
  case rows =>
    and_intros
    all_goals
      rw [applyError_of_deltas rfl]
      simp only [BitVec.ofNat_eq_ofNat, BitVec.or_zero]

end Sys2Proof.Machine
end

section
/-! SUPPORT. Proofs of the status-only commands' statements (42_status_commands.md): a command of one byte dispatched from Idle,
and what SENSE INTERRUPT STATUS and SPECIFY end in. -/

namespace Sys2Proof.Machine

open Sys2Proof

/-! ### A command of one byte -/

theorem writePhase_of_idle {b : Byte} {s : State} (h : s.phase = .idle) : writePhase b s = startCommand b s := by
  simp [writePhase, h]

/-- A first byte that asks for no more is dispatched at once (R81, R83). -/
theorem startCommand_of_oneByte {b : Byte} (s : State) (h : cmdCount (commandId (op5 b)) = 1) :
    startCommand b s =
      exec (assemble (commandId (op5 b)) (Memory.read (acceptOpcode b s).cmdBuf)) (acceptOpcode b s) := by
  have hlength : (acceptOpcode b s).cmdLength = 0 := by simp [h]
  exact dispatchIfComplete_of_complete hlength

/-- The step of a one-byte command written from Idle (R78, R81, R83). -/
theorem step_writeData_of_oneByte {s : State} {b : Byte} {rest : List HostOp} (hop : s.hostOps = .writeData b :: rest)
    (hp : s.phase = .idle) (hone : cmdCount (commandId (op5 b)) = 1) :
    step s = andThen
      (exec (assemble (commandId (op5 b)) (Memory.read (acceptOpcode b (ackOnAccess (takeOp rest s))).cmdBuf))
        (acceptOpcode b (ackOnAccess (takeOp rest s))))
      fun m => .next (armOnCompletion m) := by
  rw [step_writeData hop, writePhase_of_idle (by simpa using hp), startCommand_of_oneByte _ hone]

/-- Arming on completion leaves what the Result phase holds (R157). -/
theorem ResultHolds.of_armOnCompletion {bytes : List Byte} {s : State} (h : ResultHolds bytes s) :
    ResultHolds bytes (armOnCompletion s) := by
  obtain ⟨phase, position, length, stored, cmdLength, execLength⟩ := h
  exact ⟨by simpa using phase, by simpa using position, by simpa using length, by simpa using stored,
    by simpa using cmdLength, by simpa using execLength⟩

/-! ### SENSE INTERRUPT STATUS -/

theorem assemble_senseInterruptStatus (cmd : Nat → Byte) :
    assemble .senseInterruptStatus cmd = .senseInterruptStatus (opFlags (cmd 0)) :=
  rfl

/-- With no SeekEnd pending the one byte 0x80 is the result (R121). -/
theorem exec_senseInterruptStatus_of_not_seekEnd (f : OpFlags) {s : State} (h : s.interruptState ≠ .seekEnd) :
    exec (.senseInterruptStatus f) s = .next (openResult [0x80] (restartRotation s)) :=
  if_neg h

/-- The step of a SENSE INTERRUPT STATUS written from Idle with no SeekEnd pending (R78, R121): the acknowledgement before the
dispatch brings none about. -/
theorem step_senseInterruptStatus_of_not_seekEnd {s : State} {b : Byte} {rest : List HostOp}
    (hop : s.hostOps = .writeData b :: rest) (hp : s.phase = .idle) (hid : commandId (op5 b) = .senseInterruptStatus)
    (hi : s.interruptState ≠ .seekEnd) :
    step s = .next (armOnCompletion
      (openResult [0x80] (restartRotation (acceptOpcode b (ackOnAccess (takeOp rest s)))))) := by
  have hone : cmdCount (commandId (op5 b)) = 1 := by rw [hid, cmdCount]
  have hpending : (acceptOpcode b (ackOnAccess (takeOp rest s))).interruptState ≠ .seekEnd := by simp [hi]
  rw [step_writeData_of_oneByte hop hp hone, hid, assemble_senseInterruptStatus,
    exec_senseInterruptStatus_of_not_seekEnd _ hpending, andThen_next]

/-- Settles O11: the acknowledgement clears every pending interrupt but a SeekEnd, so the completion in Result arms
ResultReady. -/
theorem senseInterruptWithoutSeekEnd : Obligations.SenseInterruptWithoutSeekEnd := by
  intro s b rest hwf hop hp hid hi
  refine ⟨_, step_senseInterruptStatus_of_not_seekEnd hop hp hid hi, ?holds, by simp [statusOf], by simp, by simp, ?armed,
    ?ticks, by simp, by simp⟩
  case holds => exact (resultHolds_openResult (by simpa using hwf.res) (by decide)).of_armOnCompletion
  case armed => simp [armOnCompletion_interruptState, hi]
  case ticks => simp [armOnCompletion_ticksRemaining, hi]

/-! ### SPECIFY -/

/-- SPECIFY stores its two bytes and ends without a result (R118). -/
theorem exec_specify (f : OpFlags) (srtHut hltNd : Byte) (s : State) :
    exec (.specify f srtHut hltNd) s = .next (endCommand (setParams srtHut hltNd (restartRotation s))) :=
  rfl

/-- Settles O8: SPECIFY is the rotation's restart, the store of the parameters and the return to Idle, and each field of the
state is either one of theirs or kept by all three. -/
theorem specifyStoresItsParameters : Obligations.SpecifyStoresItsParameters := by
  intro f srtHut hltNd s
  refine ⟨_, exec_specify f srtHut hltNd s, by simp, by simp, by simp [State.stepRate], by simp [State.headUnload],
    by simp [State.headLoad], by simp [State.nonDma], backInIdle_endCommand _, mainStatus_of_idle rfl, ?interrupt,
    by simp [statusOf], by simp, by simp, by simp, by simp, ?backend, by simp, by simp, ?hostSide, by simp, by simp, by simp,
    by simp, by simp, by simp, opByte f 0x03, rfl, Laws.SelfDelimiting.op5_opByte f 0x03⟩
  case interrupt => constructor <;> simp
  case backend => constructor <;> simp
  case hostSide => constructor <;> simp

end Sys2Proof.Machine
end

section
/-! SUPPORT. Proof of the exceptions' statement (60_exceptions.md): what the acknowledgement of a data-register access does, that
it is the access's first step, and that the rest of the access only appends to the history. -/

namespace Sys2Proof.Machine

open Sys2Proof

/-! ### What an acknowledgement does -/

/-- `ClearInterrupt()` written out (R161): a line that is low already stays so, and no event is recorded. -/
theorem clearInterrupt_eq (s : State) :
    clearInterrupt s = { s with
      interruptState := .none, ticksRemaining := 0, irqLine := false,
      events := if s.irqLine then s.events ++ [.irq false] else s.events } := by
  cases h : s.irqLine <;> simp [clearInterrupt, lowerLine, notify, record, h]

theorem ackOnAccess_of_acknowledged {s : State} (h : s.interruptState = .resultReady ∨ s.interruptState = .execByteReady) :
    ackOnAccess s = clearInterrupt s := by
  rcases h with h | h <;> simp [ackOnAccess, h]

theorem ackOnAccess_of_kept {s : State} (h : s.interruptState = .seekEnd ∨ s.interruptState = .none) : ackOnAccess s = s := by
  rcases h with h | h <;> simp [ackOnAccess, h]

/-- An acknowledgement leaves a SeekEnd or nothing pending, so a second one finds nothing to do. -/
theorem ackOnAccess_idem (s : State) : ackOnAccess (ackOnAccess s) = ackOnAccess s := by
  apply ackOnAccess_of_kept
  by_cases h : s.interruptState = .seekEnd <;> simp [h]

/-! ### The acknowledgement is an access's first step -/

theorem clearInterrupt_takeOp (rest : List HostOp) (s : State) :
    clearInterrupt (takeOp rest s) = takeOp rest (clearInterrupt s) := by
  simp only [clearInterrupt_eq, takeOp]

theorem ackOnAccess_takeOp (rest : List HostOp) (s : State) :
    ackOnAccess (takeOp rest s) = takeOp rest (ackOnAccess s) := by
  cases h : s.interruptState <;> simp [ackOnAccess, h, clearInterrupt_takeOp]

/-- A second acknowledgement before a write changes nothing of its step (R160). -/
theorem step_writeData_ackOnAccess {s : State} {b : Byte} {rest : List HostOp} (h : s.hostOps = .writeData b :: rest) :
    step (ackOnAccess s) = step s := by
  rw [step_writeData h, step_writeData (by simpa using h), ← ackOnAccess_takeOp, ackOnAccess_idem]

/-- A second acknowledgement before a read changes nothing of its step (R160). -/
theorem step_readData_ackOnAccess {s : State} {rest : List HostOp} (h : s.hostOps = .readData :: rest) :
    step (ackOnAccess s) = step s := by
  rw [step_readData h, step_readData (by simpa using h), ← ackOnAccess_takeOp, ackOnAccess_idem]

/-! ### The history after an acknowledgement -/

theorem events_prefix_of_eq {s t : State} (h : t.events = s.events) : s.events <+: t.events :=
  h ▸ List.prefix_rfl

/-- An operation of the backends' layer only appends to the history (R39). -/
theorem OracularS.events_prefix {k : State → Result State} (hk : OracularS k) {s t : State} (h : k s = .next t) :
    s.events <+: t.events := by
  obtain ⟨evs, hevs⟩ := hk.grows s ((), t) (by simp [h])
  exact ⟨evs, hevs.symm⟩

/-- The phase's own part of a write only appends to the history. -/
theorem WriteEnd.events_prefix {b : Byte} {s m : State} (h : WriteEnd b s m) : s.events <+: m.events := by
  cases h with
  | opcode _ _ eq => exact events_prefix_of_eq (by simp [eq])
  | oneByte i _ _ _ run => simpa using (oracularS_exec i).events_prefix run
  | operand _ _ _ eq => exact events_prefix_of_eq (by simp [eq])
  | lastByte i _ _ _ _ run => simpa using (oracularS_exec i).events_prefix run
  | execByte _ _ _ _ _ _ eq => exact events_prefix_of_eq (by simp [eq])
  | execLast i _ _ _ _ _ run => simpa using (oracularS_finalizeExecution i).events_prefix run
  | stray _ eq => exact events_prefix_of_eq (by rw [eq])

/-- The phase's own part of a read only appends to the history. -/
theorem ReadEnd.events_prefix {s m : State} (h : ReadEnd s m) : s.events <+: m.events := by
  cases h with
  | execByte _ _ _ _ _ _ eq => exact events_prefix_of_eq (by simp [eq])
  | execLast i _ _ _ _ _ run => simpa using (oracularS_finalizeExecution i).events_prefix run
  | result _ _ eq => exact events_prefix_of_eq (by simp [eq])
  | stray _ eq => exact events_prefix_of_eq (by simp [eq])

/-- The history of a write begins with the acknowledgement's event (R160). -/
theorem step_writeData_events {s t : State} {b : Byte} {rest : List HostOp} (h : s.hostOps = .writeData b :: rest)
    (ht : step s = .next t) : s.events ++ ackEvents s <+: t.events := by
  obtain ⟨m, hend, rfl⟩ := writeData_next ((step_cons h).symm.trans ht)
  simpa using hend.events_prefix

/-- The history of a read begins with the acknowledgement's event (R160). -/
theorem step_readData_events {s t : State} {rest : List HostOp} (h : s.hostOps = .readData :: rest)
    (ht : step s = .next t) : s.events ++ ackEvents s <+: t.events := by
  obtain ⟨m, hend, rfl⟩ := readData_next ((step_cons h).symm.trans ht)
  simpa using hend.events_prefix

/-- Settles O40: acknowledging twice is acknowledging once, so an access from the acknowledged state is the same access, and all
that follows the acknowledgement appends to the history. -/
theorem accessAcknowledges : Obligations.AccessAcknowledges := by
  refine ⟨fun s hs => ?cleared, fun s hs => ackOnAccess_of_kept hs, fun s t rest op hop hops => ?access,
    fun s t rest hops ht => ?status⟩
  case cleared => rw [ackOnAccess_of_acknowledged hs, clearInterrupt_eq]
  case access =>
    rcases hop with rfl | ⟨b, rfl⟩
    · exact ⟨(step_readData_ackOnAccess hops).symm, step_readData_events hops⟩
    · exact ⟨(step_writeData_ackOnAccess hops).symm, step_writeData_events hops⟩
  case status =>
    rw [readStatusChangesNothing s rest hops] at ht
    cases ht
    exact ⟨⟨rfl, rfl, rfl⟩, rfl⟩

end Sys2Proof.Machine
end

section
/-! SUPPORT. Proofs of the encoding's statements (30_encoding.md): the opcode byte and the unit/head byte taken apart and put
together, the operands at the front of the bytes read, and the two directions of the round trip from them. -/

namespace Sys2Proof

open Machine

/-! ### The opcode byte and the unit/head byte -/

theorem opFlags_opByte (f : OpFlags) (code : BitVec 5) : opFlags (opByte f code) = f := by
  obtain ⟨mt, mf, sk⟩ := f
  revert mt mf sk code
  decide

theorem opByte_opFlags (b : Byte) : opByte (opFlags b) (op5 b) = b := by
  revert b
  decide

theorem unitHead_unitHeadByte (uh : UnitHead) : unitHead (unitHeadByte uh) = uh := by
  obtain ⟨ignored, hd, us⟩ := uh
  revert ignored hd us
  decide

theorem unitHeadByte_unitHead (b : Byte) : unitHeadByte (unitHead b) = b := by
  revert b
  decide

/-! ### Decoding what was encoded -/

/-- The first byte of every well-formed command names it and its byte count (R57, R58). -/
theorem selfDelimiting (i : Instr) : Laws.SelfDelimiting.Statement i := by
  cases i with
  | readTrack f uh id eot gpl dtl => exact Laws.SelfDelimiting.readTrack f uh id eot gpl dtl
  | specify f a b => exact Laws.SelfDelimiting.specify f a b
  | senseDriveStatus f uh => exact Laws.SelfDelimiting.senseDriveStatus f uh
  | writeData f uh id eot gpl dtl => exact Laws.SelfDelimiting.writeData f uh id eot gpl dtl
  | readData f uh id eot gpl dtl => exact Laws.SelfDelimiting.readData f uh id eot gpl dtl
  | recalibrate f uh => exact Laws.SelfDelimiting.recalibrate f uh
  | senseInterruptStatus f => exact Laws.SelfDelimiting.senseInterruptStatus f
  | writeDeletedData f uh id eot gpl dtl => exact Laws.SelfDelimiting.writeDeletedData f uh id eot gpl dtl
  | readId f uh => exact Laws.SelfDelimiting.readId f uh
  | readDeletedData f uh id eot gpl dtl => exact Laws.SelfDelimiting.readDeletedData f uh id eot gpl dtl
  | formatTrack f uh n sc gpl d => exact Laws.SelfDelimiting.formatTrack f uh n sc gpl d
  | seek f uh ncn => exact Laws.SelfDelimiting.seek f uh ncn
  | scanEqual f uh id eot gpl dtl => exact Laws.SelfDelimiting.scanEqual f uh id eot gpl dtl
  | scanLowOrEqual f uh id eot gpl dtl => exact Laws.SelfDelimiting.scanLowOrEqual f uh id eot gpl dtl
  | scanHighOrEqual f uh id eot gpl dtl => exact Laws.SelfDelimiting.scanHighOrEqual f uh id eot gpl dtl
  | invalid f code => exact Laws.SelfDelimiting.invalid f code

/-- The operands stand at the front of the bytes, so what follows does not matter. -/
theorem assemble_encode (i : Instr) (rest : List Byte) :
    assemble i.commandId (fun k => (encode i ++ rest).getD k 0) = i := by
  cases i <;>
    simp [Instr.commandId, assemble, encode, encodeF9, sectorIdOf, opFlags_opByte, unitHead_unitHeadByte,
      Laws.SelfDelimiting.op5_opByte]

/-- Enough bytes decode to the command of the first one, and the rest is left (R57). -/
theorem decode_of_enough {b : Byte} {bytes : List Byte} (h : cmdCount (commandId (op5 b)) ≤ bytes.length + 1) :
    decode (b :: bytes) = .ok (assemble (commandId (op5 b)) (fun k => (b :: bytes).getD k 0),
      (b :: bytes).drop (cmdCount (commandId (op5 b)))) :=
  if_neg (by simpa using h)

theorem decode_of_tooFew {b : Byte} {bytes : List Byte} (h : bytes.length + 1 < cmdCount (commandId (op5 b))) :
    decode (b :: bytes) = .error .tooFewBytes :=
  if_pos (by simpa using h)

/-- Settles O1: the first byte names the command and its count, so the decoder takes exactly the encoding, and each byte of
it gives its operand back. -/
theorem decodeEncodeRoundTrip : Obligations.DecodeEncodeRoundTrip := by
  intro i rest hwf
  obtain ⟨b, tail, henc, hid, hcount⟩ := selfDelimiting i hwf
  have hoperands := assemble_encode i rest
  rw [henc, List.cons_append] at hoperands ⊢
  rw [decode_of_enough (by simp [hid]; omega), hid, hoperands, ← hcount]
  simp

/-! ### Encoding what was decoded -/

/-- The code of a command that has only one (R58). -/
def codeOf : CommandId → BitVec 5
  | .readTrack => 0x02
  | .specify => 0x03
  | .senseDriveStatus => 0x04
  | .writeData => 0x05
  | .readData => 0x06
  | .recalibrate => 0x07
  | .senseInterruptStatus => 0x08
  | .writeDeletedData => 0x09
  | .readId => 0x0A
  | .readDeletedData => 0x0C
  | .formatTrack => 0x0D
  | .seek => 0x0F
  | .scanEqual => 0x11
  | .scanLowOrEqual => 0x19
  | .scanHighOrEqual => 0x1D
  | .invalid => 0x00

theorem eq_codeOf_of_commandId {code : BitVec 5} {id : CommandId} (h : commandId code = id) (hid : id ≠ .invalid) :
    code = codeOf id := by
  subst h
  revert hid code
  decide

theorem commandId_eq_invalid_iff (code : BitVec 5) : commandId code = .invalid ↔ code ∈ invalidCodes := by
  revert code
  decide

/-- No bit of the first byte is lost in a command of one code. -/
theorem opByte_codeOf {b : Byte} {id : CommandId} (h : commandId (op5 b) = id) (hid : id ≠ .invalid) :
    opByte (opFlags b) (codeOf id) = b := by
  rw [← eq_codeOf_of_commandId h hid, opByte_opFlags]

/-- The encoder gives back the bytes an instruction was assembled from, as many as its count. -/
theorem encode_assemble {id : CommandId} {cmd : Nat → Byte} (h : commandId (op5 (cmd 0)) = id) :
    encode (assemble id cmd) = (List.range (cmdCount id)).map cmd := by
  have hop := opByte_codeOf h
  cases id <;>
    simp [assemble, encode, encodeF9, cmdCount, sectorIdOf, unitHeadByte_unitHead, opByte_opFlags, List.range_succ,
      codeOf] at hop ⊢ <;> exact hop

theorem wellFormed_assemble {id : CommandId} {cmd : Nat → Byte} (h : commandId (op5 (cmd 0)) = id) :
    (assemble id cmd).wellFormed = true := by
  cases id with
  | invalid => simpa [assemble, Instr.wellFormed] using (commandId_eq_invalid_iff _).1 h
  | _ => rfl

theorem map_getD_range {bytes : List Byte} {n : Nat} (h : n ≤ bytes.length) :
    (List.range n).map (fun k => bytes.getD k 0) = bytes.take n := by
  apply List.ext_getElem
  · simpa using h
  · intro k hk _
    have : k < bytes.length := by simp at hk; omega
    simp [this]

/-- Settles O2: the encoder gives back the bytes the count covers, and the decoder leaves the others. -/
theorem encodeOfDecode : Obligations.EncodeOfDecode := by
  intro bytes i rest h
  cases bytes with
  | nil => cases h
  | cons b tail =>
    by_cases hlen : tail.length + 1 < cmdCount (commandId (op5 b))
    · rw [decode_of_tooFew hlen] at h
      cases h
    · rw [decode_of_enough (by omega)] at h
      cases h
      refine ⟨?_, wellFormed_assemble rfl⟩
      rw [encode_assemble (id := commandId (op5 b)) (cmd := fun k => (b :: tail).getD k 0) rfl,
        map_getD_range (by simpa using hlen), List.take_append_drop]

/-! ### The opcode map -/

/-- Settles O3: each word is decoded by evaluation. -/
theorem writtenOutWordsDecode : Obligations.WrittenOutWordsDecode := by
  unfold Obligations.WrittenOutWordsDecode
  and_intros
  all_goals rfl

theorem op5_toNat (b : Byte) : (op5 b).toNat = b.toNat % 32 := by
  simp [op5]

theorem commandId_of_opcodeMap : ∀ row ∈ opcodeMap,
    commandId row.1 = row.2.1 ∧ cmdCount row.2.1 = row.2.2.1 ∧ transferDirection row.2.1 = row.2.2.2 := by
  decide

theorem commandId_of_not_opcodeMap : ∀ code, (∀ row ∈ opcodeMap, row.1 ≠ code) → commandId code = .invalid := by
  decide

/-- Settles O4: the map is the decoder's table row by row, and the decoder looks at no byte but the first for the command
and its count. -/
theorem firstByteFixesCommand : Obligations.FirstByteFixesCommand := by
  refine ⟨fun code id count direction h => commandId_of_opcodeMap _ h, commandId_of_not_opcodeMap, rfl, rfl,
    fun b rest => ⟨op5_toNat b, fun h => ?enough, decode_of_tooFew, commandId_eq_invalid_iff _⟩⟩
  case enough =>
    have hpos := cmdCount_pos (commandId (op5 b))
    rw [decode_of_enough h, List.drop_cons hpos]
    exact ⟨_, rfl, assemble_commandId _ _⟩

end Sys2Proof
end

section
/-! SUPPORT. Proof of the noninterference statement (R191): every operation commutes with the erasure of the timer, up to what
an interrupt armed at its end counts. -/

namespace Sys2Proof.Machine

open Sys2Proof

/-! ### Erasure over sequencing -/

/-- `erasedOutcome` for an operation that answers a value beside its state. -/
def erasedPair {α : Type} : Result (α × State) → Result (α × State)
  | .next x => .next (x.1, eraseTimer x.2)
  | .fault r => .fault r
  | .refused r => .refused r

@[simp] theorem erasedPair_next {α : Type} (x : α × State) : erasedPair (.next x) = .next (x.1, eraseTimer x.2) := rfl

@[simp] theorem erasedOutcome_next (t : State) : erasedOutcome (.next t) = .next (eraseTimer t) := rfl

@[simp] theorem erasedOutcome_fault (r : Fault) : erasedOutcome (.fault r) = .fault r := rfl

@[simp] theorem erasedOutcome_refused (r : Refusal) : erasedOutcome (.refused r) = .refused r := rfl

theorem andThen_erasedPair {α β : Type} (o : Result (α × State)) (f : α × State → Result β) :
    andThen (erasedPair o) f = andThen o fun x => f (x.1, eraseTimer x.2) := by
  cases o <;> rfl

theorem andThen_erasedOutcome {β : Type} (o : Result State) (f : State → Result β) :
    andThen (erasedOutcome o) f = andThen o fun t => f (eraseTimer t) := by
  cases o <;> rfl

theorem erasedPair_andThen {α β : Type} (o : Result β) (f : β → Result (α × State)) :
    erasedPair (andThen o f) = andThen o fun x => erasedPair (f x) := by
  cases o <;> rfl

theorem erasedOutcome_andThen {β : Type} (o : Result β) (f : β → Result State) :
    erasedOutcome (andThen o f) = andThen o fun x => erasedOutcome (f x) := by
  cases o <;> rfl

@[simp] theorem eraseTimer_idem (s : State) : eraseTimer (eraseTimer s) = eraseTimer s := by
  simp [eraseTimer]

@[simp] theorem erasedOutcome_idem (o : Result State) : erasedOutcome (erasedOutcome o) = erasedOutcome o := by
  cases o <;> simp

/-! ### The Drive layer -/

@[simp] theorem isCall_call (u : UnitNo) (c : Call) (a : Answer) : (Event.call u c a).isCall = true := rfl

@[simp] theorem isCall_irq (level : Bool) : (Event.irq level).isCall = false := rfl

theorem record_call_eraseTimer (u : UnitNo) (c : Call) (a : Answer) (s : State) :
    record (.call u c a) (eraseTimer s) = eraseTimer (record (.call u c a) s) := by
  simp [record, eraseTimer, List.filter_cons]

/-- A call is recorded and its answer taken whatever the timer does. -/
theorem ask_eraseTimer (u : UnitNo) (c : Call) (s : State) : ask u c (eraseTimer s) = erasedPair (ask u c s) := by
  have hs : (eraseTimer s).answers = s.answers := rfl
  unfold ask
  rw [hs]
  cases s.answers with
  | nil => exact congrArg Host.Outcome.next (Prod.ext rfl (record_call_eraseTimer u c _ (countFreeCall s)))
  | cons a rest =>
    by_cases h : a.inContract c = true
    · simp only [h, if_true]
      exact congrArg Host.Outcome.next (Prod.ext rfl (record_call_eraseTimer u c a (takeAnswer rest s)))
    · simp only [h]
      rfl

/-- A guarded call commutes with the erasure where its condition and what follows it do. -/
theorem guardedAsk_eraseTimer {α : Type} (p : Bool) (u : UnitNo) (c : Call) (f : Answer × State → Result (α × State)) (v : α)
    (s : State) (hf : ∀ a t, f (a, eraseTimer t) = erasedPair (f (a, t))) :
    (if p then andThen (ask u c (eraseTimer s)) f else .next (v, eraseTimer s)) =
      erasedPair (if p then andThen (ask u c s) f else .next (v, s)) := by
  cases p with
  | false => rfl
  | true => simp [ask_eraseTimer, andThen_erasedPair, erasedPair_andThen, hf]

theorem driveReady_eraseTimer (u : UnitNo) (s : State) : driveReady u (eraseTimer s) = erasedPair (driveReady u s) :=
  guardedAsk_eraseTimer (s.usable u && s.spinning u) u _ _ _ s fun _ _ => rfl

theorem setCylinder_eraseTimer (u : UnitNo) (n : Byte) (s : State) :
    setCylinder u n (eraseTimer s) = eraseTimer (setCylinder u n s) := by
  have hd : (eraseTimer s).drive u = s.drive u := rfl
  unfold setCylinder
  rw [hd]
  cases s.drive u <;> rfl

theorem seekTo_eraseTimer (u : UnitNo) (n : Byte) (s : State) : seekTo u n (eraseTimer s) = erasedPair (seekTo u n s) := by
  refine guardedAsk_eraseTimer (s.usable u) u _ _ _ s fun a t => ?_
  by_cases h : a.errorCode = .ok <;> simp [h, setCylinder_eraseTimer]

theorem readSectorHeader_eraseTimer (u : UnitNo) (hd : HeadNo) (seq : Nat) (s : State) :
    readSectorHeader u hd seq (eraseTimer s) = erasedPair (readSectorHeader u hd seq s) :=
  guardedAsk_eraseTimer (s.usable u) u _ _ _ s fun _ _ => rfl

theorem readSector_eraseTimer (u : UnitNo) (args : SectorArgs) (s : State) :
    readSector u args (eraseTimer s) = erasedPair (readSector u args s) :=
  guardedAsk_eraseTimer (s.usable u) u _ _ _ s fun _ _ => rfl

theorem readWholeTrack_eraseTimer (u : UnitNo) (c h : Byte) (hd : HeadNo) (s : State) :
    readWholeTrack u c h hd (eraseTimer s) = erasedPair (readWholeTrack u c h hd s) :=
  guardedAsk_eraseTimer (s.usable u) u _ _ _ s fun _ _ => rfl

theorem driveStatusByte_eraseTimer (u : UnitNo) (h : HeadNo) (s : State) :
    driveStatusByte u h (eraseTimer s) = erasedPair (driveStatusByte u h s) :=
  guardedAsk_eraseTimer (s.usable u) u _ _ _ s fun _ _ => rfl

/-- The two operations of a Drive that may be read-only: no call on a protected one, else a guarded call. -/
theorem protectedAsk_eraseTimer (p w : Bool) (u : UnitNo) (c : Call) (s : State) :
    (if p then if w then .next (ErrorCode.readOnly, eraseTimer s)
        else andThen (ask u c (eraseTimer s)) fun r => .next (r.1.errorCode, r.2)
      else .next (.notReady, eraseTimer s)) =
      erasedPair (if p then if w then .next (ErrorCode.readOnly, s)
        else andThen (ask u c s) fun r => .next (r.1.errorCode, r.2)
      else .next (.notReady, s)) := by
  cases p <;> cases w <;> simp [ask_eraseTimer, andThen_erasedPair, erasedPair_andThen]

theorem writeSector_eraseTimer (u : UnitNo) (args : SectorArgs) (s : State) :
    writeSector u args (eraseTimer s) = erasedPair (writeSector u args s) :=
  protectedAsk_eraseTimer (s.usable u) (s.writeProtected u) u _ s

theorem formatWholeTrack_eraseTimer (u : UnitNo) (hd : HeadNo) (sc d : Byte) (s : State) :
    formatWholeTrack u hd sc d (eraseTimer s) = erasedPair (formatWholeTrack u hd sc d s) :=
  protectedAsk_eraseTimer (s.usable u) (s.writeProtected u) u _ s

/-! ### The ends of an Execution phase -/

theorem finishWrite_eraseTimer (f : OpFlags) (id : SectorId) (dtl : Byte) (s : State) :
    finishWrite f id dtl (eraseTimer s) = erasedOutcome (finishWrite f id dtl s) := by
  unfold finishWrite
  rw [writeSector_eraseTimer, andThen_erasedPair, erasedOutcome_andThen]
  rfl

theorem finishFormat_eraseTimer (sc d : Byte) (s : State) :
    finishFormat sc d (eraseTimer s) = erasedOutcome (finishFormat sc d s) := by
  unfold finishFormat
  rw [formatWholeTrack_eraseTimer, andThen_erasedPair, erasedOutcome_andThen]
  rfl

theorem finishAction_eraseTimer (i : Instr) (s : State) : finishAction i (eraseTimer s) = erasedOutcome (finishAction i s) := by
  cases i
  case writeData | writeDeletedData => exact finishWrite_eraseTimer _ _ _ s
  case formatTrack => exact finishFormat_eraseTimer _ _ s
  all_goals rfl

theorem openResult7_eraseTimer (i : Instr) (s : State) : openResult7 i (eraseTimer s) = eraseTimer (openResult7 i s) := by
  have hheader : resultHeader i (eraseTimer s) = resultHeader i s := resultHeader_congr rfl rfl rfl
  unfold openResult7
  rw [hheader]
  rfl

theorem finalizeExecution_eraseTimer (i : Instr) (s : State) :
    finalizeExecution i (eraseTimer s) = erasedOutcome (finalizeExecution i s) := by
  unfold finalizeExecution
  rw [finishAction_eraseTimer, andThen_erasedOutcome, erasedOutcome_andThen]
  simp only [openResult7_eraseTimer, erasedOutcome_next]

theorem openExecution_eraseTimer (i : Instr) (n : Nat) (s : State) :
    openExecution i n (eraseTimer s) = erasedOutcome (openExecution i n s) := by
  unfold openExecution
  by_cases h : n = 0
  · simp only [h, if_true]
    exact finalizeExecution_eraseTimer i (beginExecution 0 s)
  · simp only [h, if_false]
    rfl

theorem failCommand_eraseTimer (i : Instr) (e : ErrorCode) (s : State) :
    failCommand i e (eraseTimer s) = eraseTimer (failCommand i e s) :=
  openResult7_eraseTimer i (applyError e s)

/-! ### The commands -/

theorem dataSetup_eraseTimer (uh : UnitHead) (s : State) : dataSetup uh (eraseTimer s) = erasedPair (dataSetup uh s) :=
  driveReady_eraseTimer uh.us (baseStatus (select uh s))

/-- What follows the first step of a data command, where it commutes with the erasure on a ready drive. -/
theorem setup_eraseTimer (i : Instr) (uh : UnitHead) {k : Bool × State → Result State} (s : State)
    (hk : ∀ r : Bool × State, k (r.1, eraseTimer r.2) = erasedOutcome (k r)) :
    andThen (dataSetup uh (eraseTimer s)) (fun r => if r.1 then k r else .next (failCommand i .notReady r.2)) =
      erasedOutcome (andThen (dataSetup uh s) fun r => if r.1 then k r else .next (failCommand i .notReady r.2)) := by
  rw [dataSetup_eraseTimer, andThen_erasedPair, erasedOutcome_andThen]
  congr 1
  funext r
  by_cases h : r.1 = true
  · simp only [h, if_true]
    rw [← hk r, h]
  · simp [h, failCommand_eraseTimer]

theorem dispatchRead_eraseTimer (i : Instr) (deleted : Bool) {begin : State → State} (f : OpFlags) (uh : UnitHead)
    (id : SectorId) (dtl : Byte) (s : State) (hb : ∀ t, begin (eraseTimer t) = eraseTimer (begin t)) :
    dispatchRead i deleted begin f uh id dtl (eraseTimer s) =
      erasedOutcome (dispatchRead i deleted begin f uh id dtl s) := by
  refine setup_eraseTimer i uh s fun r => ?_
  have hargs : readArgs deleted f id (sectorLen id.n dtl) (eraseTimer r.2) =
      readArgs deleted f id (sectorLen id.n dtl) r.2 := rfl
  rw [hargs, readSector_eraseTimer, andThen_erasedPair, erasedOutcome_andThen]
  congr 1
  funext q
  by_cases h : q.1 = .ok
  · have hstate : begin (applyError .ok (eraseTimer q.2)) = eraseTimer (begin (applyError .ok q.2)) := hb (applyError .ok q.2)
    simp only [h, if_true, hstate, openExecution_eraseTimer]
  · simp [h, failCommand_eraseTimer]

theorem dispatchWrite_eraseTimer (i : Instr) (deleted : Bool) (uh : UnitHead) (id : SectorId) (dtl : Byte) (s : State) :
    dispatchWrite i deleted uh id dtl (eraseTimer s) = erasedOutcome (dispatchWrite i deleted uh id dtl s) :=
  setup_eraseTimer i uh s fun r => openExecution_eraseTimer i _ (setWriteDeleted deleted r.2)

theorem execReadTrack_eraseTimer (f : OpFlags) (uh : UnitHead) (id : SectorId) (eot gpl dtl : Byte) (s : State) :
    execReadTrack f uh id eot gpl dtl (eraseTimer s) = erasedOutcome (execReadTrack f uh id eot gpl dtl s) := by
  refine setup_eraseTimer (.readTrack f uh id eot gpl dtl) uh (restartRotation s) fun r => ?_
  rw [readWholeTrack_eraseTimer, andThen_erasedPair, erasedOutcome_andThen]
  congr 1
  funext q
  by_cases h : q.1.1 = .ok
  · simp only [h, if_true]
    exact openExecution_eraseTimer _ _ (applyError _ q.2)
  · simp [h, failCommand_eraseTimer]

theorem execReadId_eraseTimer (f : OpFlags) (uh : UnitHead) (s : State) :
    execReadId f uh (eraseTimer s) = erasedOutcome (execReadId f uh s) := by
  refine setup_eraseTimer (.readId f uh) uh s fun r => ?_
  rw [readSectorHeader_eraseTimer, andThen_erasedPair, erasedOutcome_andThen]
  congr 1
  funext q
  by_cases h : q.1.1 = .ok
  · simp only [h, if_true]
    rfl
  · simp only [h, if_false]
    exact congrArg Host.Outcome.next (failCommand_eraseTimer _ _ (setRotation _ q.2))

theorem execFormatTrack_eraseTimer (f : OpFlags) (uh : UnitHead) (n sc gpl d : Byte) (s : State) :
    execFormatTrack f uh n sc gpl d (eraseTimer s) = erasedOutcome (execFormatTrack f uh n sc gpl d s) :=
  setup_eraseTimer (.formatTrack f uh n sc gpl d) uh (restartRotation s) fun r => openExecution_eraseTimer _ _ r.2

theorem execSenseDriveStatus_eraseTimer (f : OpFlags) (uh : UnitHead) (s : State) :
    execSenseDriveStatus f uh (eraseTimer s) = erasedOutcome (execSenseDriveStatus f uh s) := by
  have hstate : select uh (restartRotation (eraseTimer s)) = eraseTimer (select uh (restartRotation s)) := rfl
  unfold execSenseDriveStatus
  rw [hstate, driveStatusByte_eraseTimer, andThen_erasedPair, erasedOutcome_andThen]
  rfl

theorem clearInterrupt_eraseTimer (s : State) : clearInterrupt (eraseTimer s) = eraseTimer (clearInterrupt s) := by
  cases h : s.irqLine <;> simp [clearInterrupt_eq, eraseTimer, h]

theorem execSenseInterruptStatus_eraseTimer (f : OpFlags) (s : State) :
    execSenseInterruptStatus f (eraseTimer s) = erasedOutcome (execSenseInterruptStatus f s) := by
  have hpending : (eraseTimer s).interruptState = s.interruptState := rfl
  unfold execSenseInterruptStatus
  rw [hpending]
  by_cases h : s.interruptState = .seekEnd
  · simp only [h, if_true]
    exact congrArg (fun t => Host.Outcome.next (openResult [s.status0, s.reportedCylinder s.selectedUnit] t))
      (clearInterrupt_eraseTimer (restartRotation s))
  · simp only [h, if_false]
    rfl

/-- A SEEK commutes with the erasure but for the delay with which its SeekEnd is armed. -/
theorem seekCommon_eraseTimer (n : Byte) (s : State) :
    erasedOutcome (seekCommon n (eraseTimer s)) = erasedOutcome (seekCommon n s) := by
  have hunit : (eraseTimer s).selectedUnit = s.selectedUnit := rfl
  unfold seekCommon
  rw [hunit, driveReady_eraseTimer, andThen_erasedPair, erasedOutcome_andThen, erasedOutcome_andThen]
  congr 1
  funext r
  have hseek : (if r.1 then seekTo s.selectedUnit n (eraseTimer r.2) else .next (.notReady, eraseTimer r.2)) =
      erasedPair (if r.1 then seekTo s.selectedUnit n r.2 else .next (.notReady, r.2)) := by
    by_cases h : r.1 = true <;> simp [h, seekTo_eraseTimer]
  rw [hseek, andThen_erasedPair, erasedOutcome_andThen, erasedOutcome_andThen]
  congr 1
  funext q
  simp [eraseTimer, endCommand, armSeekEnd, applyError, setSeekEnd]

/-- A dispatch does not depend on the timer. -/
theorem exec_eraseTimer (i : Instr) (s : State) : erasedOutcome (exec i (eraseTimer s)) = erasedOutcome (exec i s) := by
  have key : ∀ {o o' : Result State}, o = erasedOutcome o' → erasedOutcome o = erasedOutcome o' :=
    fun h => by rw [h, erasedOutcome_idem]
  cases i with
  | readTrack f uh id eot gpl dtl => exact key (execReadTrack_eraseTimer f uh id eot gpl dtl s)
  | specify f a b => exact key rfl
  | senseDriveStatus f uh => exact key (execSenseDriveStatus_eraseTimer f uh s)
  | recalibrate f uh => exact seekCommon_eraseTimer 0x00 (baseStatus (select uh (restartRotation s)))
  | seek f uh ncn => exact seekCommon_eraseTimer ncn (baseStatus (select uh (restartRotation s)))
  | senseInterruptStatus f => exact key (execSenseInterruptStatus_eraseTimer f s)
  | readId f uh => exact key (execReadId_eraseTimer f uh s)
  | formatTrack f uh n sc gpl d => exact key (execFormatTrack_eraseTimer f uh n sc gpl d s)
  | invalid f code => exact key rfl
  | writeData | writeDeletedData => exact key (dispatchWrite_eraseTimer _ _ _ _ _ (restartRotation s))
  | readData | readDeletedData =>
    exact key (dispatchRead_eraseTimer (begin := fun t => t) _ _ _ _ _ _ (restartRotation s) fun _ => rfl)
  | scanEqual | scanLowOrEqual | scanHighOrEqual =>
    exact key (dispatchRead_eraseTimer (begin := scanBegin) _ _ _ _ _ _ (restartRotation s) fun _ => rfl)

/-! ### One access of the data register -/

theorem ackOnAccess_eraseTimer (s : State) : ackOnAccess (eraseTimer s) = eraseTimer (ackOnAccess s) := by
  have hpending : (eraseTimer s).interruptState = s.interruptState := rfl
  unfold ackOnAccess
  rw [hpending]
  cases s.interruptState <;> simp [clearInterrupt_eraseTimer]

theorem arm_eraseTimer (k : InterruptKind) (n : Nat) (s : State) :
    eraseTimer (arm k n (eraseTimer s)) = eraseTimer (arm k n s) := by
  by_cases h : s.interruptState = .seekEnd <;> simp [arm, eraseTimer, h]

theorem armOnCompletion_eraseTimer (s : State) :
    eraseTimer (armOnCompletion (eraseTimer s)) = eraseTimer (armOnCompletion s) := by
  have hphase : (eraseTimer s).phase = s.phase := rfl
  unfold armOnCompletion
  rw [hphase]
  cases s.phase <;> simp [arm_eraseTimer]

theorem withPending_eraseTimer (s : State) {k k' : Instr → Result State}
    (hk : ∀ i, erasedOutcome (k i) = erasedOutcome (k' i)) :
    erasedOutcome (withPending (eraseTimer s) k) = erasedOutcome (withPending s k') := by
  have hinstr : (eraseTimer s).pendingInstr = s.pendingInstr := rfl
  unfold withPending
  rw [hinstr]
  cases s.pendingInstr with
  | none => rfl
  | some i => exact hk i

theorem dispatchIfComplete_eraseTimer (s : State) :
    erasedOutcome (dispatchIfComplete (eraseTimer s)) = erasedOutcome (dispatchIfComplete s) := by
  have hlength : (eraseTimer s).cmdLength = s.cmdLength := rfl
  unfold dispatchIfComplete
  rw [hlength]
  by_cases h : s.cmdLength = 0
  · simp only [h, if_true]
    exact withPending_eraseTimer s fun i => exec_eraseTimer i s
  · simp [h]

theorem finalizeIfDone_eraseTimer (i : Instr) (s : State) :
    erasedOutcome (finalizeIfDone i (eraseTimer s)) = erasedOutcome (finalizeIfDone i s) := by
  have hlength : (eraseTimer s).execLength = s.execLength := rfl
  unfold finalizeIfDone
  rw [hlength]
  by_cases h : s.execLength = 0 <;> simp [h, finalizeExecution_eraseTimer]

theorem takeExecByte_eraseTimer (i : Instr) (b : Byte) (s : State) :
    takeExecByte i b (eraseTimer s) = eraseTimer (takeExecByte i b s) := by
  have hscan : ∀ db, scanCompare i b db (eraseTimer s) = eraseTimer (scanCompare i b db s) := by
    intro db
    unfold scanCompare
    repeat' split
    all_goals rfl
  unfold takeExecByte
  split
  · exact hscan _
  · rfl

theorem execWrite_eraseTimer (b : Byte) (s : State) :
    erasedOutcome (execWrite b (eraseTimer s)) = erasedOutcome (execWrite b s) := by
  refine withPending_eraseTimer s fun i => ?_
  have hposition : (eraseTimer s).execPosition = s.execPosition := rfl
  rw [takeExecByte_eraseTimer, hposition]
  by_cases h : s.execPosition < Config.execCap
  · simp only [h, if_true]
    exact finalizeIfDone_eraseTimer i (advanceExec (takeExecByte i b s))
  · simp [h]

theorem execRead_eraseTimer (s : State) : erasedOutcome (execRead (eraseTimer s)) = erasedOutcome (execRead s) := by
  refine withPending_eraseTimer s fun i => ?_
  have hposition : (eraseTimer s).execPosition = s.execPosition := rfl
  rw [hposition]
  by_cases h : s.execPosition < Config.execCap
  · simp only [h, if_true]
    exact finalizeIfDone_eraseTimer i (advanceExec (deliver (s.execBuf.read s.execPosition) s))
  · simp [h]

theorem resultRead_eraseTimer (s : State) : resultRead (eraseTimer s) = erasedOutcome (resultRead s) := by
  have hposition : (eraseTimer s).resPosition = s.resPosition := rfl
  have hend : ∀ t, endIfRead (eraseTimer t) = eraseTimer (endIfRead t) := by
    intro t
    by_cases h : t.resLength = 0
    · rw [endIfRead_of_done h, endIfRead_of_done (s := eraseTimer t) h]
      rfl
    · rw [endIfRead_of_more h, endIfRead_of_more (s := eraseTimer t) h]
  unfold resultRead
  rw [hposition]
  by_cases h : s.resPosition < Config.resCap
  · simp only [h, if_true]
    exact congrArg Host.Outcome.next (hend (advanceResult (deliver (s.resBuf.read s.resPosition) s)))
  · simp [h]

theorem writePhase_eraseTimer (b : Byte) (s : State) :
    erasedOutcome (writePhase b (eraseTimer s)) = erasedOutcome (writePhase b s) := by
  have hphase : (eraseTimer s).phase = s.phase := rfl
  have hdirection : (eraseTimer s).direction = s.direction := rfl
  have hstray : erasedOutcome (strayWrite (eraseTimer s)) = erasedOutcome (strayWrite s) := by simp [strayWrite]
  unfold writePhase
  rw [hphase, hdirection]
  cases s.phase with
  | idle => exact dispatchIfComplete_eraseTimer (acceptOpcode b s)
  | command =>
    have hposition : (eraseTimer s).cmdPosition = s.cmdPosition := rfl
    simp only [appendCommand, hposition]
    by_cases h : s.cmdPosition < Config.cmdCap
    · simp only [h, if_true]
      exact dispatchIfComplete_eraseTimer (acceptOperand b s)
    · simp [h]
  | execution =>
    by_cases h : s.direction = some .hostToController
    · simpa [h] using execWrite_eraseTimer b s
    · simpa [h] using hstray
  | result => exact hstray

theorem readPhase_eraseTimer (s : State) : erasedOutcome (readPhase (eraseTimer s)) = erasedOutcome (readPhase s) := by
  have hphase : (eraseTimer s).phase = s.phase := rfl
  have hdirection : (eraseTimer s).direction = s.direction := rfl
  have hstray : erasedOutcome (strayRead (eraseTimer s)) = erasedOutcome (strayRead s) :=
    congrArg Host.Outcome.next (eraseTimer_idem (deliver Config.strayReadValue s))
  unfold readPhase
  rw [hphase, hdirection]
  cases s.phase with
  | idle => exact hstray
  | command => exact hstray
  | execution =>
    by_cases h : s.direction = some .controllerToHost
    · simpa [h] using execRead_eraseTimer s
    · simpa [h] using hstray
  | result => simp [resultRead_eraseTimer]

/-- An access does not depend on the timer where the phase's own part does not. -/
theorem access_eraseTimer {k : State → Result State} (hk : ∀ t, erasedOutcome (k (eraseTimer t)) = erasedOutcome (k t))
    (s : State) :
    erasedOutcome (andThen (k (ackOnAccess (eraseTimer s))) fun t => .next (armOnCompletion t)) =
      erasedOutcome (andThen (k (ackOnAccess s)) fun t => .next (armOnCompletion t)) := by
  have harm : ∀ o, erasedOutcome (andThen o fun t => .next (armOnCompletion t)) =
      erasedOutcome (andThen (erasedOutcome o) fun t => .next (armOnCompletion t)) := by
    intro o
    cases o <;> simp [armOnCompletion_eraseTimer]
  rw [ackOnAccess_eraseTimer, harm, hk, ← harm]

/-! ### The other host operations and the step -/

theorem setMotor_eraseTimer (mask : Byte) (s : State) :
    erasedOutcome (setMotor mask (eraseTimer s)) = erasedOutcome (setMotor mask s) := by
  have habort : motorStopAborts mask (eraseTimer s) = motorStopAborts mask s := rfl
  have hchanged : motorsChanged mask (eraseTimer s) = motorsChanged mask s := rfl
  have harm : ∀ o c, erasedOutcome (andThen o fun t => .next (armMotorChange c t)) =
      erasedOutcome (andThen (erasedOutcome o) fun t => .next (armMotorChange c t)) := by
    intro o c
    cases o <;> cases c <;> simp [armMotorChange, arm_eraseTimer]
  unfold setMotor
  rw [habort, hchanged, harm, harm (if motorStopAborts mask s then _ else _)]
  congr 2
  by_cases h : motorStopAborts mask s = true
  · simp only [h, if_true]
    refine withPending_eraseTimer (setMotors mask s) fun i => ?_
    exact congrArg (fun t => erasedOutcome (.next t))
      (openResult7_eraseTimer i (setWriteDeleted false (setAborted (setMotors mask s)))) |>.trans (by simp [motorAbort])
  · simp only [h]
    exact congrArg Host.Outcome.next (eraseTimer_idem (setMotors mask s))

theorem tick_eraseTimer (s : State) : eraseTimer (tick (eraseTimer s)) = eraseTimer (tick s) := by
  have hstill : tick (eraseTimer s) = eraseTimer s := if_pos rfl
  rw [hstill]
  unfold tick
  split
  · simp
  · split <;> simp [eraseTimer, notify, record]

theorem resetMachine_eraseTimer (s : State) : eraseTimer (resetMachine (eraseTimer s)) = eraseTimer (resetMachine s) := by
  have hdrive : ∀ u, (eraseTimer s).drive u = s.drive u := fun _ => rfl
  cases h : s.irqLine <;>
    simp [resetMachine, eraseTimer, lowerLine_events, h, State.drive]

theorem setAttached_eraseTimer (u : UnitNo) (b : Bool) (s : State) :
    setAttached u b (eraseTimer s) = eraseTimer (setAttached u b s) := by
  have hd : (eraseTimer s).drive u = s.drive u := rfl
  unfold setAttached
  rw [hd]
  cases s.drive u <;> rfl

/-- No host operation depends on the timer. -/
theorem perform_eraseTimer (op : HostOp) (s : State) :
    erasedOutcome (perform op (eraseTimer s)) = erasedOutcome (perform op s) := by
  have hswap : ∀ u, swapAllowed u (eraseTimer s) = swapAllowed u s := fun _ => rfl
  cases op with
  | readStatus => exact congrArg Host.Outcome.next (eraseTimer_idem (deliver s.mainStatus s))
  | readData => exact access_eraseTimer readPhase_eraseTimer s
  | writeData b => exact access_eraseTimer (writePhase_eraseTimer b) s
  | setMotor mask => exact setMotor_eraseTimer mask s
  | tick => exact congrArg Host.Outcome.next (tick_eraseTimer s)
  | reset => exact congrArg Host.Outcome.next (resetMachine_eraseTimer s)
  | insert u =>
    by_cases h : swapAllowed u s = true <;> simp [perform, insertMedia, hswap, h, setAttached_eraseTimer]
  | eject u =>
    by_cases h : swapAllowed u s = true <;>
      simp [perform, ejectMedia, hswap, h, record_call_eraseTimer, setAttached_eraseTimer]
  | writeStatus b => rfl
  | reenter op => rfl

theorem step_eraseTimer (s : State) : erasedOutcome (step (eraseTimer s)) = erasedOutcome (step s) := by
  cases hops : s.hostOps with
  | nil => simp [step_nil hops, step_nil (s := eraseTimer s) hops]
  | cons op rest =>
    rw [step_cons hops, step_cons (s := eraseTimer s) hops]
    exact perform_eraseTimer op (takeOp rest s)

/-- Settles O57: a step from a state and from its erasure are the same up to the erasure, so two states with one erasure step
alike. -/
theorem outcomesDoNotDependOnTicks : Obligations.OutcomesDoNotDependOnTicks := by
  intro s s' h
  calc erasedOutcome (step s) = erasedOutcome (step (eraseTimer s)) := (step_eraseTimer s).symm
    _ = erasedOutcome (step (eraseTimer s')) := by rw [h]
    _ = erasedOutcome (step s') := step_eraseTimer s'

end Sys2Proof.Machine
end

section
/-! SUPPORT. Proof that every step keeps the controller's invariant (R16, R26 to R35, R98): the invariant cut into the part of
the phases and the part of the interrupt, one introduction rule per phase, and each host operation's end met by one of them. -/

namespace Sys2Proof.Machine

open Sys2Proof

/-! ### The two parts of the invariant -/

/-- Every drive's cylinder is a byte (R120). -/
def State.CylinderBytes (s : State) : Prop := ∀ u d, s.drive u = some d → d.currentCylinder ≤ 255

/-- The part of the invariant that speaks of the phases, the buffers and the drives. -/
structure State.PhaseInv (s : State) : Prop where
  buffers : s.BuffersWf
  idle : s.phase = .idle → s.pendingOpcode = none ∧ s.cmdLength = 0 ∧ s.execLength = 0 ∧ s.resLength = 0
  latched : s.phase ≠ .idle → s.pendingOpcode = some (commandId (op5 (s.cmdBuf.read 0)))
  command : s.phase = .command → 1 ≤ s.cmdPosition ∧ 1 ≤ s.cmdLength ∧
    s.cmdPosition + s.cmdLength = cmdCount (commandId (op5 (s.cmdBuf.read 0))) ∧ s.execLength = 0 ∧ s.resLength = 0
  execution : s.phase = .execution → s.direction ≠ none ∧ 1 ≤ s.execLength ∧
    s.execPosition + s.execLength ≤ Config.execCap ∧ s.cmdLength = 0 ∧ s.resLength = 0
  transfer : s.phase = .execution → ∀ i n, s.pendingInstr = some i → fixedTransfer i = some n →
    s.execPosition + s.execLength = n
  result : s.phase = .result → 1 ≤ s.resLength ∧
    (s.resPosition + s.resLength = 1 ∨ s.resPosition + s.resLength = 2 ∨ s.resPosition + s.resLength = 7) ∧
    s.cmdLength = 0 ∧ s.execLength = 0
  deleted : s.writeDeletedFlag = true ↔ s.phase = .execution ∧ s.pendingOpcode = some .writeDeletedData
  cylinders : s.CylinderBytes

/-- The part of the invariant that speaks of the interrupt (R34, R35). -/
structure State.InterruptInv (s : State) : Prop where
  countdown : 0 < s.ticksRemaining → s.interruptState ≠ .none
  line : s.irqLine = true → s.interruptState ≠ .none

theorem State.inv_iff {s : State} : s.Inv ↔ s.PhaseInv ∧ s.InterruptInv :=
  ⟨fun ⟨b, i, l, c, e, t, r, n, q, d, y⟩ => ⟨⟨b, i, l, c, e, t, r, d, y⟩, ⟨n, q⟩⟩,
    fun ⟨⟨b, i, l, c, e, t, r, d, y⟩, ⟨n, q⟩⟩ => ⟨b, i, l, c, e, t, r, n, q, d, y⟩⟩

/-! ### The interrupt's part -/

theorem State.InterruptInv.of_keeps {s t : State} (hs : s.InterruptInv) (h : KeepsInterrupt s t) : t.InterruptInv := by
  obtain ⟨pending, ticks, line⟩ := h
  exact ⟨by rw [pending, ticks]; exact hs.countdown, by rw [pending, line]; exact hs.line⟩

theorem State.InterruptInv.of_pending {s : State} (h : s.interruptState ≠ .none) : s.InterruptInv :=
  ⟨fun _ => h, fun _ => h⟩

theorem State.InterruptInv.of_quiet {s : State} (hticks : s.ticksRemaining = 0) (hline : s.irqLine = false) :
    s.InterruptInv :=
  ⟨by simp [hticks], by simp [hline]⟩

theorem State.InterruptInv.clearInterrupt (s : State) : (clearInterrupt s).InterruptInv :=
  .of_quiet (by simp) (by simp)

theorem State.InterruptInv.ackOnAccess {s : State} (hs : s.InterruptInv) : (ackOnAccess s).InterruptInv := by
  cases h : s.interruptState with
  | resultReady => rw [ackOnAccess_of_acknowledged (.inl h)]; exact .clearInterrupt s
  | execByteReady => rw [ackOnAccess_of_acknowledged (.inr h)]; exact .clearInterrupt s
  | seekEnd => rwa [ackOnAccess_of_kept (.inl h)]
  | none => rwa [ackOnAccess_of_kept (.inr h)]

theorem State.InterruptInv.arm {s : State} (k : InterruptKind) (n : Nat) (hk : k ≠ .none) : (arm k n s).InterruptInv := by
  refine .of_pending ?_
  rw [arm_interruptState]
  split
  · simp
  · exact hk

theorem State.InterruptInv.armOnCompletion {s : State} (hs : s.InterruptInv) : (armOnCompletion s).InterruptInv := by
  unfold Machine.armOnCompletion
  split
  · exact .arm _ _ (by simp)
  · exact .arm _ _ (by simp)
  · exact hs
  · exact hs

theorem State.InterruptInv.armMotorChange {s : State} (changed : Bool) (hs : s.InterruptInv) :
    (armMotorChange changed s).InterruptInv := by
  cases changed
  · exact hs
  · exact .arm _ _ (by simp)

/-- A countdown that runs has its interrupt pending, so the tick that asserts the line does too (R159). -/
theorem State.InterruptInv.tick {s : State} (hs : s.InterruptInv) : (tick s).InterruptInv := by
  by_cases h : s.ticksRemaining = 0
  · rwa [Machine.tick, if_pos h]
  · have hpending := hs.countdown (by omega)
    exact .of_pending (by simpa using hpending)

/-! ### What keeps the protocol -/

theorem keepsProtocol_ackOnAccess (s : State) : KeepsProtocol s (ackOnAccess s) := by constructor <;> simp

theorem keepsProtocol_armOnCompletion (s : State) : KeepsProtocol s (armOnCompletion s) := by constructor <;> simp

theorem keepsProtocol_armMotorChange (changed : Bool) (s : State) : KeepsProtocol s (armMotorChange changed s) := by
  constructor <;> simp

theorem keepsProtocol_takeOp (rest : List HostOp) (s : State) : KeepsProtocol s (takeOp rest s) := by constructor <;> simp

theorem keepsProtocol_deliver (v : Byte) (s : State) : KeepsProtocol s (deliver v s) := by constructor <;> simp

theorem keepsProtocol_tick (s : State) : KeepsProtocol s (tick s) := by constructor <;> simp

theorem keepsProtocol_setMotors (mask : Byte) (s : State) : KeepsProtocol s (setMotors mask s) := by constructor <;> simp

theorem keepsProtocol_setAttached (u : UnitNo) (b : Bool) (s : State) : KeepsProtocol s (setAttached u b s) := by
  constructor <;> simp

theorem keepsProtocol_record (e : Event) (s : State) : KeepsProtocol s (record e s) := by constructor <;> simp

theorem State.BuffersWf.of_eq {s t : State} (hs : s.BuffersWf) (hc : t.cmdBuf = s.cmdBuf) (hr : t.resBuf = s.resBuf)
    (he : t.execBuf = s.execBuf) : t.BuffersWf :=
  ⟨hc ▸ hs.cmd, hr ▸ hs.res, he ▸ hs.exec⟩

theorem KeepsInterrupt.trans {s t u : State} (h : KeepsInterrupt s t) (h' : KeepsInterrupt t u) : KeepsInterrupt s u :=
  ⟨h'.interruptState.trans h.interruptState, h'.ticksRemaining.trans h.ticksRemaining, h'.irqLine.trans h.irqLine⟩

theorem KeepsProtocol.pendingInstr {s t : State} (h : KeepsProtocol s t) : t.pendingInstr = s.pendingInstr := by
  simp [State.pendingInstr, h.pendingOpcode, h.cmdBuf]

theorem KeepsProtocol.direction {s t : State} (h : KeepsProtocol s t) : t.direction = s.direction := by
  simp [State.direction, h.pendingOpcode]

theorem KeepsProtocol.trans {s t u : State} (h : KeepsProtocol s t) (h' : KeepsProtocol t u) : KeepsProtocol s u :=
  ⟨h'.phase.trans h.phase, h'.pendingOpcode.trans h.pendingOpcode, h'.cmdBuf.trans h.cmdBuf, h'.cmdLength.trans h.cmdLength,
    h'.cmdPosition.trans h.cmdPosition, h'.resBuf.trans h.resBuf, h'.resLength.trans h.resLength,
    h'.resPosition.trans h.resPosition, h'.execBuf.trans h.execBuf, h'.execLength.trans h.execLength,
    h'.execPosition.trans h.execPosition⟩

/-- No drive stands at a cylinder it did not stand at. -/
def KeepsCylinders (s t : State) : Prop :=
  ∀ u d, t.drive u = some d → ∃ d', s.drive u = some d' ∧ d.currentCylinder = d'.currentCylinder

theorem keepsCylinders_of_slots {s t : State} (h : t.slots = s.slots) : KeepsCylinders s t :=
  fun u d hd => ⟨d, by rwa [← drive_of_slots h u], rfl⟩

theorem keepsCylinders_setMotors (mask : Byte) (s : State) : KeepsCylinders s (setMotors mask s) := by
  intro u d hd
  rw [drive_setMotors, Option.map_eq_some_iff] at hd
  obtain ⟨d', hd', rfl⟩ := hd
  exact ⟨d', hd', rfl⟩

theorem keepsCylinders_setAttached (v : UnitNo) (b : Bool) (s : State) : KeepsCylinders s (setAttached v b s) := by
  intro u d hd
  rw [drive_setAttached] at hd
  split at hd
  · rw [Option.map_eq_some_iff] at hd
    obtain ⟨d', hd', rfl⟩ := hd
    exact ⟨d', hd', rfl⟩
  · exact ⟨d, hd, rfl⟩

theorem State.CylinderBytes.of_keeps {s t : State} (hs : s.CylinderBytes) (h : KeepsCylinders s t) : t.CylinderBytes := by
  intro u d hd
  obtain ⟨d', hd', heq⟩ := h u d hd
  rw [heq]
  exact hs u d' hd'

theorem State.PhaseInv.of_keeps {s t : State} (hs : s.PhaseInv) (h : KeepsProtocol s t)
    (hflag : t.writeDeletedFlag = s.writeDeletedFlag) (hcyl : KeepsCylinders s t) : t.PhaseInv where
  buffers := hs.buffers.of_eq h.cmdBuf h.resBuf h.execBuf
  idle := by rw [h.phase, h.pendingOpcode, h.cmdLength, h.execLength, h.resLength]; exact hs.idle
  latched := by rw [h.phase, h.pendingOpcode, h.cmdBuf]; exact hs.latched
  command := by
    rw [h.phase, h.cmdPosition, h.cmdLength, h.cmdBuf, h.execLength, h.resLength]; exact hs.command
  execution := by
    rw [h.phase, h.direction, h.execLength, h.execPosition, h.cmdLength, h.resLength]; exact hs.execution
  transfer := by rw [h.phase, h.pendingInstr, h.execPosition, h.execLength]; exact hs.transfer
  result := by rw [h.phase, h.resLength, h.resPosition, h.cmdLength, h.execLength]; exact hs.result
  deleted := by rw [hflag, h.phase, h.pendingOpcode]; exact hs.deleted
  cylinders := hs.cylinders.of_keeps hcyl

/-! ### One introduction rule per phase -/

theorem State.PhaseInv.of_idle {t : State} (hb : t.BuffersWf) (hi : BackInIdle t) (hf : t.writeDeletedFlag = false)
    (hc : t.CylinderBytes) : t.PhaseInv where
  buffers := hb
  idle := fun _ => ⟨hi.opcode, hi.cmdLength, hi.execLength, hi.resLength⟩
  latched := fun h => absurd hi.phase h
  command := by simp [hi.phase]
  execution := by simp [hi.phase]
  transfer := by simp [hi.phase]
  result := by simp [hi.phase]
  deleted := by simp [hi.phase, hf]
  cylinders := hc

theorem State.PhaseInv.of_command {t : State} (hb : t.BuffersWf) (hp : t.phase = .command)
    (hl : t.pendingOpcode = some (commandId (op5 (t.cmdBuf.read 0)))) (hcmd : 1 ≤ t.cmdPosition ∧ 1 ≤ t.cmdLength ∧
      t.cmdPosition + t.cmdLength = cmdCount (commandId (op5 (t.cmdBuf.read 0))) ∧ t.execLength = 0 ∧ t.resLength = 0)
    (hf : t.writeDeletedFlag = false) (hc : t.CylinderBytes) : t.PhaseInv where
  buffers := hb
  idle := by simp [hp]
  latched := fun _ => hl
  command := fun _ => hcmd
  execution := by simp [hp]
  transfer := by simp [hp]
  result := by simp [hp]
  deleted := by simp [hp, hf]
  cylinders := hc

theorem State.PhaseInv.of_execution {t : State} (hb : t.BuffersWf) (hp : t.phase = .execution)
    (hl : t.pendingOpcode = some (commandId (op5 (t.cmdBuf.read 0)))) (hexec : t.direction ≠ none ∧ 1 ≤ t.execLength ∧
      t.execPosition + t.execLength ≤ Config.execCap ∧ t.cmdLength = 0 ∧ t.resLength = 0)
    (ht : ∀ i n, t.pendingInstr = some i → fixedTransfer i = some n → t.execPosition + t.execLength = n)
    (hf : t.writeDeletedFlag = true ↔ t.pendingOpcode = some .writeDeletedData) (hc : t.CylinderBytes) : t.PhaseInv where
  buffers := hb
  idle := by simp [hp]
  latched := fun _ => hl
  command := by simp [hp]
  execution := fun _ => hexec
  transfer := fun _ => ht
  result := by simp [hp]
  deleted := by simp [hp, hf]
  cylinders := hc

theorem State.PhaseInv.of_result {t : State} (hb : t.BuffersWf) (hp : t.phase = .result)
    (hl : t.pendingOpcode = some (commandId (op5 (t.cmdBuf.read 0)))) (hres : 1 ≤ t.resLength ∧
      (t.resPosition + t.resLength = 1 ∨ t.resPosition + t.resLength = 2 ∨ t.resPosition + t.resLength = 7) ∧
      t.cmdLength = 0 ∧ t.execLength = 0)
    (hf : t.writeDeletedFlag = false) (hc : t.CylinderBytes) : t.PhaseInv where
  buffers := hb
  idle := by simp [hp]
  latched := fun _ => hl
  command := by simp [hp]
  execution := by simp [hp]
  transfer := by simp [hp]
  result := fun _ => hres
  deleted := by simp [hp, hf]
  cylinders := hc

/-- A Result opened with one, two or seven bytes. -/
theorem State.PhaseInv.openResult {m : State} {bytes : List Byte} (hb : m.BuffersWf)
    (hl : m.pendingOpcode = some (commandId (op5 (m.cmdBuf.read 0))))
    (hn : bytes.length = 1 ∨ bytes.length = 2 ∨ bytes.length = 7) (hf : m.writeDeletedFlag = false)
    (hc : m.CylinderBytes) : (openResult bytes m).PhaseInv := by
  have hcap : 0 + bytes.length ≤ Config.resCap := by
    unfold Config.resCap
    omega
  refine .of_result ⟨hb.cmd, Memory.wf_writeBytes bytes hcap hb.res, hb.exec⟩ rfl hl ⟨?_, ?_, rfl, rfl⟩ hf hc
  · rw [openResult_resLength]
    omega
  · rw [openResult_resPosition, openResult_resLength]
    omega

/-! ### A dispatch -/

/-- What holds of a command about to be dispatched, its last byte stored (R83). -/
structure Dispatchable (i : Instr) (s : State) : Prop where
  buffers : s.BuffersWf
  latched : s.pendingOpcode = some (commandId (op5 (s.cmdBuf.read 0)))
  instr : s.pendingInstr = some i
  resLength : s.resLength = 0
  flag : s.writeDeletedFlag = false
  cylinders : s.CylinderBytes

theorem pendingOpcode_of_pendingInstr {s : State} {i : Instr} (h : s.pendingInstr = some i) :
    s.pendingOpcode = some i.commandId := by
  unfold State.pendingInstr at h
  split at h
  · cases h
  · next id hid =>
    cases h
    rw [hid, assemble_commandId]

theorem Prepared.buffers {s m : State} (h : Prepared s m) (hs : s.BuffersWf) : m.BuffersWf :=
  ⟨h.cmdBuf ▸ hs.cmd, h.resBuf ▸ hs.res, h.execBuf hs.exec⟩

theorem Prepared.cylinders {s m : State} (h : Prepared s m) (hs : s.CylinderBytes) : m.CylinderBytes := by
  intro u d hd
  rcases h.drives u with heq | ⟨d', n, -, hn, heq⟩
  · exact hs u d (heq ▸ hd)
  · rw [heq] at hd
    cases hd
    exact hn

theorem Prepared.latched {s m : State} (h : Prepared s m) (hs : s.pendingOpcode = some (commandId (op5 (s.cmdBuf.read 0)))) :
    m.pendingOpcode = some (commandId (op5 (m.cmdBuf.read 0))) := by
  rw [h.pendingOpcode, h.cmdBuf, hs]

theorem Prepared.pendingInstr {s m : State} (h : Prepared s m) : m.pendingInstr = s.pendingInstr := by
  simp [State.pendingInstr, h.pendingOpcode, h.cmdBuf]

/-- Every way a dispatch ends meets the invariant of the phase it ends in. -/
theorem ExecEnd.phaseInv {i : Instr} {s t : State} (h : ExecEnd i s t) (hs : Dispatchable i s) : t.PhaseInv := by
  have hid := pendingOpcode_of_pendingInstr hs.instr
  cases h with
  | result m bytes prepared length flag eq =>
    subst eq
    exact .openResult (prepared.buffers hs.buffers) (prepared.latched hs.latched) (by omega) (flag hs.flag)
      (prepared.cylinders hs.cylinders)
  | seekEndRead f instr pending eq =>
    subst eq
    refine .openResult ⟨?_, ?_, ?_⟩ ?_ (by simp) ?_ (hs.cylinders.of_keeps (keepsCylinders_of_slots (by simp)))
    · simpa using hs.buffers.cmd
    · simpa using hs.buffers.res
    · simpa using hs.buffers.exec
    · simpa using hs.latched
    · simpa using hs.flag
  | specify f a b instr eq =>
    subst eq
    exact .of_idle (hs.buffers.of_eq rfl rfl rfl) (backInIdle_endCommand _) hs.flag hs.cylinders
  | seek m n instr prepared flag eq =>
    subst eq
    exact .of_idle ((prepared.buffers hs.buffers).of_eq rfl rfl rfl) (backInIdle_endCommand _) (flag.trans hs.flag)
      (prepared.cylinders hs.cylinders)
  | execution m n prepared pos le direction length flag flagSet eq =>
    subst eq
    have hopcode : m.pendingOpcode = some i.commandId := prepared.pendingOpcode.trans hid
    refine .of_execution ((prepared.buffers hs.buffers).of_eq rfl rfl rfl) rfl (prepared.latched hs.latched) ⟨?_, ?_, ?_, rfl, ?_⟩ ?_ ?_
      (prepared.cylinders hs.cylinders)
    · simpa [State.direction, hopcode] using direction
    · rw [beginExecution_execLength]
      omega
    · rw [beginExecution_execPosition, beginExecution_execLength]
      omega
    · rw [beginExecution_resLength, prepared.resLength, hs.resLength]
    · intro j k hj hk
      have hpending : (beginExecution n m).pendingInstr = some i := prepared.pendingInstr.trans hs.instr
      cases hpending.symm.trans hj
      rw [beginExecution_execPosition, beginExecution_execLength, length k hk, Nat.zero_add]
    · rw [beginExecution_writeDeletedFlag, beginExecution_pendingOpcode, hopcode, Option.some.injEq]
      refine ⟨fun hm => (flag hm).elim (fun hset => ?_) id, flagSet⟩
      rw [hs.flag] at hset
      cases hset

/-! ### The end of an Execution phase -/

/-- An Execution that is finalized leaves the deleted flag clear: only a WRITE DELETED DATA has it set, and its finish action
clears it (R32, R135). -/
theorem finalizeExecution_phaseInv {i : Instr} {s t : State} (h : finalizeExecution i s = .next t) (hb : s.BuffersWf)
    (hl : s.pendingOpcode = some (commandId (op5 (s.cmdBuf.read 0)))) (hi : s.pendingInstr = some i)
    (hf : s.writeDeletedFlag = true → s.pendingOpcode = some .writeDeletedData) (hc : s.CylinderBytes) : t.PhaseInv := by
  obtain ⟨m, hm, rfl⟩ := finalizeExecution_next h
  obtain ⟨prepared, hclear⟩ := prepared_finishAction hm
  refine .openResult (prepared.buffers hb) (prepared.latched hl) (by simp) (hclear ?_) (prepared.cylinders hc)
  cases hflag : s.writeDeletedFlag with
  | false => exact .inl rfl
  | true =>
    have hid : i.commandId = .writeDeletedData :=
      Option.some.inj ((pendingOpcode_of_pendingInstr hi).symm.trans (hf hflag))
    cases i with
    | writeDeletedData => exact .inr ⟨_, rfl⟩
    | _ => cases hid

/-! ### One access -/

theorem State.PhaseInv.flag_of_not_execution {s : State} (hs : s.PhaseInv) (h : s.phase ≠ .execution) :
    s.writeDeletedFlag = false := by
  cases hf : s.writeDeletedFlag with
  | false => rfl
  | true => exact absurd (hs.deleted.1 hf).1 h

theorem buffers_acceptOpcode {s : State} (b : Byte) (hs : s.BuffersWf) : (acceptOpcode b s).BuffersWf :=
  ⟨Memory.wf_write (by decide) hs.cmd, hs.res, hs.exec⟩

theorem buffers_acceptOperand {s : State} (b : Byte) (hs : s.BuffersWf) (h : s.cmdPosition < Config.cmdCap) :
    (acceptOperand b s).BuffersWf :=
  ⟨Memory.wf_write h hs.cmd, hs.res, hs.exec⟩

/-- A first byte is latched as the pending opcode (R81). -/
theorem latched_acceptOpcode {s : State} (b : Byte) (hs : s.BuffersWf) :
    (acceptOpcode b s).pendingOpcode = some (commandId (op5 ((acceptOpcode b s).cmdBuf.read 0))) := by
  rw [acceptOpcode_pendingOpcode, acceptOpcode_cmdBuf, Memory.read_write_same hs.cmd]

/-- An operand byte leaves the first byte in place. -/
theorem read_zero_acceptOperand {s : State} (b : Byte) (h : 1 ≤ s.cmdPosition) :
    (acceptOperand b s).cmdBuf.read 0 = s.cmdBuf.read 0 :=
  Memory.read_write_other s.cmdBuf (by omega)

theorem dispatchable_acceptOpcode {s : State} {b : Byte} {i : Instr} (hs : s.PhaseInv) (hp : s.phase = .idle)
    (hi : i = assemble (commandId (op5 b)) (Memory.read (acceptOpcode b s).cmdBuf)) : Dispatchable i (acceptOpcode b s) where
  buffers := buffers_acceptOpcode b hs.buffers
  latched := latched_acceptOpcode b hs.buffers
  instr := by rw [hi]; rfl
  resLength := (hs.idle hp).2.2.2
  flag := hs.flag_of_not_execution (by simp [hp])
  cylinders := hs.cylinders

theorem dispatchable_acceptOperand {s : State} {b : Byte} {i : Instr} (hs : s.PhaseInv) (hp : s.phase = .command)
    (hbound : s.cmdPosition < Config.cmdCap) (hi : (acceptOperand b s).pendingInstr = some i) :
    Dispatchable i (acceptOperand b s) := by
  obtain ⟨hpos, -, -, -, hres⟩ := hs.command hp
  exact ⟨buffers_acceptOperand b hs.buffers hbound,
    by rw [read_zero_acceptOperand b hpos]; exact hs.latched (by simp [hp]), hi, hres,
    hs.flag_of_not_execution (by simp [hp]), hs.cylinders⟩

theorem buffers_takeExecByte {s : State} (i : Instr) (b : Byte) (hs : s.BuffersWf) (h : s.execPosition < Config.execCap) :
    (takeExecByte i b s).BuffersWf := by
  refine ⟨by simpa using hs.cmd, by simpa using hs.res, ?_⟩
  unfold takeExecByte
  split
  · simpa using hs.exec
  · exact Memory.wf_write h hs.exec

/-- After one byte of an Execution phase, transferred by a step that keeps the rest of the protocol. -/
theorem phaseInv_advanceExec {s m : State} (hs : s.PhaseInv) (hp : s.phase = .execution) (hb : m.BuffersWf)
    (hm : KeepsProtocol { s with execBuf := m.execBuf } m) (hf : m.writeDeletedFlag = s.writeDeletedFlag)
    (hslots : m.slots = s.slots) (hmore : s.execLength - 1 ≠ 0) : (advanceExec m).PhaseInv := by
  have hlatched := hs.latched (by simp [hp])
  obtain ⟨hdir, -, hcap, hcmd, hres⟩ := hs.execution hp
  have hposition : m.execPosition = s.execPosition := hm.execPosition
  have hlength : m.execLength = s.execLength := hm.execLength
  have hopcode : m.pendingOpcode = s.pendingOpcode := hm.pendingOpcode
  have hcmdBuf : m.cmdBuf = s.cmdBuf := hm.cmdBuf
  have hsum : (advanceExec m).execPosition + (advanceExec m).execLength = s.execPosition + s.execLength := by
    rw [advanceExec_execPosition, advanceExec_execLength, hposition, hlength]
    omega
  refine .of_execution (hb.of_eq rfl rfl rfl) (hm.phase.trans hp) ?_ ⟨?_, ?_, ?_, hm.cmdLength.trans hcmd, hm.resLength.trans hres⟩ ?_ ?_
    (hs.cylinders.of_keeps (keepsCylinders_of_slots hslots))
  · rw [advanceExec_pendingOpcode, advanceExec_cmdBuf, hopcode, hcmdBuf, hlatched]
  · simpa [State.direction, hopcode] using hdir
  · rw [advanceExec_execLength, hlength]
    omega
  · rwa [hsum]
  · intro i n hi hn
    rw [hsum]
    exact hs.transfer hp i n (hm.pendingInstr.symm.trans hi) hn
  · rw [advanceExec_writeDeletedFlag, advanceExec_pendingOpcode, hf, hopcode, hs.deleted]
    simp [hp]

/-- After the last byte of an Execution phase, likewise. -/
theorem phaseInv_finalize {i : Instr} {s m t : State} (hs : s.PhaseInv) (hp : s.phase = .execution) (hb : m.BuffersWf)
    (hm : KeepsProtocol { s with execBuf := m.execBuf } m) (hf : m.writeDeletedFlag = s.writeDeletedFlag)
    (hslots : m.slots = s.slots) (hi : s.pendingInstr = some i) (h : finalizeExecution i (advanceExec m) = .next t) :
    t.PhaseInv := by
  have hopcode : m.pendingOpcode = s.pendingOpcode := hm.pendingOpcode
  have hcmdBuf : m.cmdBuf = s.cmdBuf := hm.cmdBuf
  refine finalizeExecution_phaseInv h (hb.of_eq rfl rfl rfl) ?_ (hm.pendingInstr.trans hi) ?_
    (hs.cylinders.of_keeps (keepsCylinders_of_slots hslots))
  · rw [advanceExec_pendingOpcode, advanceExec_cmdBuf, hopcode, hcmdBuf]
    exact hs.latched (by simp [hp])
  · rw [advanceExec_writeDeletedFlag, advanceExec_pendingOpcode, hf, hopcode]
    exact fun hset => (hs.deleted.1 hset).2

theorem keepsProtocol_takeExecByte (i : Instr) (b : Byte) (s : State) :
    KeepsProtocol { s with execBuf := (takeExecByte i b s).execBuf } (takeExecByte i b s) := by
  constructor <;> simp

theorem WriteEnd.phaseInv {b : Byte} {s m : State} (h : WriteEnd b s m) (hs : s.PhaseInv) : m.PhaseInv := by
  cases h with
  | opcode phase more eq =>
    subst eq
    have hpos := cmdCount_pos (commandId (op5 b))
    obtain ⟨-, -, hexec, hres⟩ := hs.idle phase
    have hread : (acceptOpcode b s).cmdBuf.read 0 = b := Memory.read_write_same hs.buffers.cmd
    refine .of_command (buffers_acceptOpcode b hs.buffers) rfl (latched_acceptOpcode b hs.buffers)
      ⟨le_refl 1, ?_, ?_, hexec, hres⟩ (hs.flag_of_not_execution (by simp [phase])) hs.cylinders
    · rw [acceptOpcode_cmdLength]
      omega
    · rw [hread, acceptOpcode_cmdPosition, acceptOpcode_cmdLength]
      omega
  | oneByte i phase one instr run => exact (exec_next run).phaseInv (dispatchable_acceptOpcode hs phase instr)
  | operand phase bound more eq =>
    subst eq
    obtain ⟨hpos, hleft, hcount, hexec, hres⟩ := hs.command phase
    have hread := read_zero_acceptOperand b hpos
    refine .of_command (buffers_acceptOperand b hs.buffers bound) phase ?_ ⟨?_, ?_, ?_, hexec, hres⟩
      (hs.flag_of_not_execution (by simp [phase])) hs.cylinders
    · rw [hread]
      exact hs.latched (by simp [phase])
    · rw [acceptOperand_cmdPosition]
      omega
    · rw [acceptOperand_cmdLength]
      omega
    · rw [hread, acceptOperand_cmdPosition, acceptOperand_cmdLength]
      omega
  | lastByte i phase bound last instr run =>
    exact (exec_next run).phaseInv (dispatchable_acceptOperand hs phase bound instr)
  | execByte i phase direction instr bound more eq =>
    subst eq
    exact phaseInv_advanceExec hs phase (buffers_takeExecByte i b hs.buffers bound) (keepsProtocol_takeExecByte i b s)
      (by simp) (by simp) more
  | execLast i phase direction instr bound last run =>
    exact phaseInv_finalize hs phase (buffers_takeExecByte i b hs.buffers bound) (keepsProtocol_takeExecByte i b s)
      (by simp) (by simp) instr run
  | stray phase eq => rwa [eq]

theorem ReadEnd.phaseInv {s m : State} (h : ReadEnd s m) (hs : s.PhaseInv) : m.PhaseInv := by
  cases h with
  | execByte i phase direction instr bound more eq =>
    subst eq
    exact phaseInv_advanceExec hs phase (hs.buffers.of_eq rfl rfl rfl) (keepsProtocol_deliver _ s) rfl rfl more
  | execLast i phase direction instr bound last run =>
    exact phaseInv_finalize (m := deliver (s.execBuf.read s.execPosition) s) hs phase (hs.buffers.of_eq rfl rfl rfl)
      (keepsProtocol_deliver _ s) rfl rfl instr run
  | result phase bound eq =>
    subst eq
    obtain ⟨hleft, hcount, hcmd, hexec⟩ := hs.result phase
    have hflag := hs.flag_of_not_execution (by simp [phase])
    by_cases hlast : s.resLength - 1 = 0
    · rw [endIfRead_of_done hlast]
      exact .of_idle (hs.buffers.of_eq rfl rfl rfl) (backInIdle_endCommand _) hflag hs.cylinders
    · rw [endIfRead_of_more hlast]
      refine .of_result (hs.buffers.of_eq rfl rfl rfl) phase (hs.latched (by simp [phase])) ⟨?_, ?_, hcmd, hexec⟩ hflag hs.cylinders
      · rw [advanceResult_resLength, deliver_resLength]
        omega
      · rw [advanceResult_resLength, advanceResult_resPosition, deliver_resLength, deliver_resPosition]
        omega
  | stray phase eq =>
    rw [eq]
    exact hs.of_keeps (keepsProtocol_deliver _ s) rfl (keepsCylinders_of_slots rfl)

theorem State.PhaseInv.ackOnAccess {s : State} (hs : s.PhaseInv) : (ackOnAccess s).PhaseInv :=
  hs.of_keeps (keepsProtocol_ackOnAccess s) (by simp) (keepsCylinders_of_slots (by simp))

theorem State.PhaseInv.armOnCompletion {s : State} (hs : s.PhaseInv) : (armOnCompletion s).PhaseInv :=
  hs.of_keeps (keepsProtocol_armOnCompletion s) (by simp) (keepsCylinders_of_slots (by simp))

/-! ### The interrupt over one access -/

theorem Prepared.interrupt {s m : State} (h : Prepared s m) : KeepsInterrupt s m :=
  ⟨h.interruptState, h.ticksRemaining, h.irqLine⟩

theorem keepsInterrupt_of_finalize {i : Instr} {s t : State} (h : finalizeExecution i s = .next t) : KeepsInterrupt s t := by
  obtain ⟨m, hm, rfl⟩ := finalizeExecution_next h
  exact (prepared_finishAction hm).1.interrupt.trans ⟨rfl, rfl, rfl⟩

theorem ExecEnd.interruptInv {i : Instr} {s t : State} (h : ExecEnd i s t) (hs : s.InterruptInv) : t.InterruptInv := by
  cases h with
  | result m bytes prepared length flag eq => subst eq; exact hs.of_keeps (prepared.interrupt.trans ⟨rfl, rfl, rfl⟩)
  | seekEndRead f instr pending eq => subst eq; exact .of_quiet (by simp) (by simp)
  | specify f a b instr eq => subst eq; exact hs.of_keeps ⟨rfl, rfl, rfl⟩
  | seek m n instr prepared flag eq => subst eq; exact .of_pending (by simp)
  | execution m n prepared pos le direction length flag flagSet eq => subst eq; exact hs.of_keeps (prepared.interrupt.trans ⟨rfl, rfl, rfl⟩)

theorem WriteEnd.interruptInv {b : Byte} {s m : State} (h : WriteEnd b s m) (hs : s.InterruptInv) : m.InterruptInv := by
  cases h with
  | opcode phase more eq => subst eq; exact hs.of_keeps ⟨rfl, rfl, rfl⟩
  | oneByte i phase one instr run => exact (exec_next run).interruptInv (hs.of_keeps ⟨rfl, rfl, rfl⟩)
  | operand phase bound more eq => subst eq; exact hs.of_keeps ⟨rfl, rfl, rfl⟩
  | lastByte i phase bound last instr run => exact (exec_next run).interruptInv (hs.of_keeps ⟨rfl, rfl, rfl⟩)
  | execByte i phase direction instr bound more eq => subst eq; exact hs.of_keeps ⟨by simp, by simp, by simp⟩
  | execLast i phase direction instr bound last run =>
    have hbyte : KeepsInterrupt s (advanceExec (takeExecByte i b s)) := ⟨by simp, by simp, by simp⟩
    exact (hs.of_keeps hbyte).of_keeps (keepsInterrupt_of_finalize run)
  | stray phase eq => rwa [eq]

theorem ReadEnd.keepsInterrupt {s m : State} (h : ReadEnd s m) : KeepsInterrupt s m := by
  cases h with
  | execByte i phase direction instr bound more eq => subst eq; exact ⟨rfl, rfl, rfl⟩
  | execLast i phase direction instr bound last run =>
    obtain ⟨pending, ticks, line⟩ := keepsInterrupt_of_finalize run
    exact ⟨pending, ticks, line⟩
  | result phase bound eq => subst eq; exact ⟨by simp, by simp, by simp⟩
  | stray phase eq => subst eq; exact ⟨rfl, rfl, rfl⟩

/-! ### Every host operation -/

theorem writeData_inv {b : Byte} {s t : State} (h : writeData b s = .next t) (hs : s.Inv) : t.Inv := by
  obtain ⟨hp, hi⟩ := State.inv_iff.1 hs
  obtain ⟨m, hend, rfl⟩ := writeData_next h
  exact State.inv_iff.2 ⟨(hend.phaseInv hp.ackOnAccess).armOnCompletion, (hend.interruptInv hi.ackOnAccess).armOnCompletion⟩

theorem readData_inv {s t : State} (h : readData s = .next t) (hs : s.Inv) : t.Inv := by
  obtain ⟨hp, hi⟩ := State.inv_iff.1 hs
  obtain ⟨m, hend, rfl⟩ := readData_next h
  exact State.inv_iff.2 ⟨(hend.phaseInv hp.ackOnAccess).armOnCompletion,
    (hi.ackOnAccess.of_keeps hend.keepsInterrupt).armOnCompletion⟩

theorem setMotors_inv {s : State} (mask : Byte) (hs : s.Inv) : (setMotors mask s).Inv := by
  obtain ⟨hp, hi⟩ := State.inv_iff.1 hs
  exact State.inv_iff.2 ⟨hp.of_keeps (keepsProtocol_setMotors mask s) rfl (keepsCylinders_setMotors mask s),
    hi.of_keeps ⟨rfl, rfl, rfl⟩⟩

/-- An abort opens a seven-byte Result with the deleted flag cleared (R165). -/
theorem motorAbort_inv {i : Instr} {s : State} (hs : s.Inv) (hp : s.phase = .execution) : (motorAbort i s).Inv := by
  obtain ⟨hph, hi⟩ := State.inv_iff.1 hs
  exact State.inv_iff.2 ⟨.openResult (hph.buffers.of_eq rfl rfl rfl) (hph.latched (by simp [hp])) (by simp) rfl hph.cylinders,
    hi.of_keeps ⟨rfl, rfl, rfl⟩⟩

theorem armMotorChange_inv {s : State} (changed : Bool) (hs : s.Inv) : (armMotorChange changed s).Inv := by
  obtain ⟨hp, hi⟩ := State.inv_iff.1 hs
  exact State.inv_iff.2 ⟨hp.of_keeps (keepsProtocol_armMotorChange changed s) (by simp) (keepsCylinders_of_slots (by simp)),
    hi.armMotorChange changed⟩

theorem setMotor_inv {mask : Byte} {s t : State} (h : setMotor mask s = .next t) (hs : s.Inv) : t.Inv := by
  rcases setMotor_next h with ⟨habort, i, -, rfl⟩ | ⟨-, rfl⟩
  · obtain ⟨hp, -⟩ := motorStopAborts_iff.1 habort
    exact armMotorChange_inv _ (motorAbort_inv (setMotors_inv mask hs) hp)
  · exact armMotorChange_inv _ (setMotors_inv mask hs)

theorem tick_inv {s : State} (hs : s.Inv) : (tick s).Inv := by
  obtain ⟨hp, hi⟩ := State.inv_iff.1 hs
  exact State.inv_iff.2 ⟨hp.of_keeps (keepsProtocol_tick s) (by simp) (keepsCylinders_of_slots (by simp)), hi.tick⟩

/-- A controller with empty buffers in Idle, its drives at cylinder 0, meets the invariant, whatever its history. -/
theorem resetMachine_inv (s : State) : (resetMachine s).Inv := by
  refine State.inv_iff.2 ⟨.of_idle ⟨rfl, rfl, rfl⟩ ⟨rfl, rfl, rfl, rfl, rfl⟩ rfl fun u d hd => ?_, .of_quiet rfl rfl⟩
  rw [drive_resetMachine, Option.map_eq_some_iff] at hd
  obtain ⟨d', -, rfl⟩ := hd
  exact Nat.zero_le _

theorem setAttached_inv {s : State} (u : UnitNo) (b : Bool) (hs : s.Inv) : (setAttached u b s).Inv := by
  obtain ⟨hp, hi⟩ := State.inv_iff.1 hs
  exact State.inv_iff.2 ⟨hp.of_keeps (keepsProtocol_setAttached u b s) (by simp) (keepsCylinders_setAttached u b s),
    hi.of_keeps ⟨by simp, by simp, by simp⟩⟩

/-- An update that the invariant does not speak of. -/
theorem State.Inv.of_keeps {s t : State} (hs : s.Inv) (hp : KeepsProtocol s t) (hf : t.writeDeletedFlag = s.writeDeletedFlag)
    (hslots : t.slots = s.slots) (hi : KeepsInterrupt s t) : t.Inv := by
  obtain ⟨hph, hint⟩ := State.inv_iff.1 hs
  exact State.inv_iff.2 ⟨hph.of_keeps hp hf (keepsCylinders_of_slots hslots), hint.of_keeps hi⟩

theorem insertMedia_next {u : UnitNo} {s t : State} (h : insertMedia u s = .next t) : t = setAttached u true s := by
  unfold insertMedia at h
  split at h <;> cases h
  rfl

theorem ejectMedia_next {u : UnitNo} {s t : State} (h : ejectMedia u s = .next t) :
    t = setAttached u false (record (.call u .eject .nothing) s) := by
  unfold ejectMedia at h
  split at h <;> cases h
  rfl

theorem perform_inv {op : HostOp} {s t : State} (h : perform op s = .next t) (hs : s.Inv) : t.Inv := by
  cases op with
  | readStatus =>
    cases h
    exact hs.of_keeps (keepsProtocol_deliver _ s) rfl rfl ⟨rfl, rfl, rfl⟩
  | readData => exact readData_inv h hs
  | writeData b => exact writeData_inv h hs
  | setMotor mask => exact setMotor_inv h hs
  | tick =>
    cases h
    exact tick_inv hs
  | reset =>
    cases h
    exact resetMachine_inv s
  | insert u =>
    rw [insertMedia_next h]
    exact setAttached_inv u true hs
  | eject u =>
    rw [ejectMedia_next h]
    exact setAttached_inv u false (hs.of_keeps (keepsProtocol_record _ s) rfl rfl ⟨rfl, rfl, rfl⟩)
  | writeStatus b => cases h
  | reenter op => cases h

theorem takeOp_inv {s : State} (rest : List HostOp) (hs : s.Inv) : (takeOp rest s).Inv :=
  hs.of_keeps (keepsProtocol_takeOp rest s) rfl rfl ⟨rfl, rfl, rfl⟩

/-- What a step does: nothing with no operation to come, else the first one (R6). -/
theorem step_next {s t : State} (h : step s = .next t) :
    s.hostOps = [] ∧ t = s ∨ ∃ op rest, s.hostOps = op :: rest ∧ perform op (takeOp rest s) = .next t := by
  cases hops : s.hostOps with
  | nil =>
    rw [step_nil hops] at h
    cases h
    exact .inl ⟨rfl, rfl⟩
  | cons op rest =>
    rw [step_cons hops] at h
    exact .inr ⟨op, rest, rfl, h⟩

/-- Settles O51: each host operation ends in a phase whose introduction rule it meets, and arms no interrupt it does not leave
pending. -/
theorem stepKeepsInvariant : Obligations.StepKeepsInvariant := by
  intro s t hs h
  rcases step_next h with ⟨-, rfl⟩ | ⟨op, rest, -, hop⟩
  · exact hs
  · exact perform_inv hop (takeOp_inv rest hs)

theorem State.StatusInv.of_clear {s : State} (h0 : s.status0 = 0x00) (h1 : s.status1 = 0x00) (h2 : s.status2 = 0x00) :
    s.StatusInv := by
  constructor <;> simp [h0, h1, h2]

/-- Settles O50: the construction state is that of an Idle controller with empty buffers and its drives at cylinder 0. -/
theorem constructionMeetsInvariants : Obligations.ConstructionMeetsInvariants := by
  intro cfg
  refine ⟨State.inv_iff.2 ⟨.of_idle ⟨rfl, rfl, rfl⟩ ⟨rfl, rfl, rfl, rfl, rfl⟩ rfl fun u d hd => ?_, .of_quiet rfl rfl⟩,
    .of_clear rfl rfl rfl, rfl⟩
  rw [drive_construct, Option.map_eq_some_iff] at hd
  obtain ⟨c, -, rfl⟩ := hd
  exact Nat.zero_le _

end Sys2Proof.Machine
end

section
/-! SUPPORT. Proofs of the whole-machine rules over one step: the history and the interrupt line, the order of the phases, and what
an access arms. -/

namespace Sys2Proof.Machine

open Sys2Proof

/-! ### The history and the line (R35, R39, R102) -/

/-- The history grows by events of which every call is allowed, and the line follows the notifications among them. -/
def GrowsBy (allowed : UnitNo → Call → Prop) (s t : State) : Prop :=
  ∃ new, t.events = s.events ++ new ∧ t.irqLine = new.foldl levelAfter s.irqLine ∧ ∀ u c a, .call u c a ∈ new → allowed u c

theorem GrowsBy.of_eq {allowed : UnitNo → Call → Prop} {s t : State} (he : t.events = s.events) (hl : t.irqLine = s.irqLine) :
    GrowsBy allowed s t :=
  ⟨[], by simp [he], by simp [hl], by simp⟩

theorem GrowsBy.trans {allowed : UnitNo → Call → Prop} {s t v : State} (h : GrowsBy allowed s t) (h' : GrowsBy allowed t v) :
    GrowsBy allowed s v := by
  obtain ⟨e, he, hl, ha⟩ := h
  obtain ⟨e', he', hl', ha'⟩ := h'
  refine ⟨e ++ e', by simp [he', he], by rw [List.foldl_append, ← hl, hl'], fun u c a hmem => ?_⟩
  rcases List.mem_append.1 hmem with hmem | hmem
  · exact ha u c a hmem
  · exact ha' u c a hmem

/-- A notification of the level the line takes. -/
theorem GrowsBy.of_notify {allowed : UnitNo → Call → Prop} {s t : State} {l : Bool} (he : t.events = s.events ++ [.irq l])
    (hl : t.irqLine = l) : GrowsBy allowed s t :=
  ⟨[.irq l], he, hl, by simp⟩

theorem foldl_levelAfter_calls {es : List Event} (level : Bool) (h : ∀ e ∈ es, ∃ u c a, e = .call u c a) :
    es.foldl levelAfter level = level := by
  induction es with
  | nil => rfl
  | cons e es ih =>
    obtain ⟨u, c, a, rfl⟩ := h e (by simp)
    exact ih fun e' he' => h e' (by simp [he'])

theorem Prepared.grows {allowed : UnitNo → Call → Prop} {s m : State} (h : Prepared s m)
    (ha : ∀ u c, s.usable u = true → allowed u c) : GrowsBy allowed s m := by
  obtain ⟨evs, hevs, hcalls⟩ := h.events
  refine ⟨evs, hevs, ?_, fun u c a hmem => ?_⟩
  · rw [foldl_levelAfter_calls, h.irqLine]
    intro e he
    obtain ⟨u, c, a, rfl, -⟩ := hcalls e he
    exact ⟨u, c, a, rfl⟩
  · obtain ⟨u', c', a', heq, hu⟩ := hcalls _ hmem
    cases heq
    exact ha u c hu

theorem clearInterrupt_grows_line {allowed : UnitNo → Call → Prop} (s : State) : GrowsBy allowed s (clearInterrupt s) := by
  cases h : s.irqLine with
  | false => exact .of_eq (by simp [clearInterrupt_events, h]) (by simp [h])
  | true => exact .of_notify (l := false) (by simp [clearInterrupt_events, h]) (by simp)

theorem ackOnAccess_grows {allowed : UnitNo → Call → Prop} (s : State) : GrowsBy allowed s (ackOnAccess s) := by
  cases h : s.interruptState with
  | resultReady => rw [ackOnAccess_of_acknowledged (.inl h)]; exact clearInterrupt_grows_line s
  | execByteReady => rw [ackOnAccess_of_acknowledged (.inr h)]; exact clearInterrupt_grows_line s
  | seekEnd => rw [ackOnAccess_of_kept (.inl h)]; exact .of_eq rfl rfl
  | none => rw [ackOnAccess_of_kept (.inr h)]; exact .of_eq rfl rfl

section
variable {allowed : UnitNo → Call → Prop}

theorem ExecEnd.grows {i : Instr} {s t : State} (h : ExecEnd i s t) (ha : ∀ u c, s.usable u = true → allowed u c) :
    GrowsBy allowed s t := by
  cases h with
  | result m bytes prepared length flag eq => subst eq; exact (prepared.grows ha).trans (.of_eq rfl rfl)
  | seekEndRead f instr pending eq =>
    subst eq
    exact (clearInterrupt_grows_line (restartRotation s)).trans (.of_eq rfl rfl)
  | specify f a b instr eq => subst eq; exact .of_eq rfl rfl
  | seek m n instr prepared flag eq => subst eq; exact (prepared.grows ha).trans (.of_eq rfl rfl)
  | execution m n prepared pos le direction length flag flagSet eq =>
    subst eq
    exact (prepared.grows ha).trans (.of_eq rfl rfl)

theorem finalizeExecution_grows {i : Instr} {s t : State} (h : finalizeExecution i s = .next t)
    (ha : ∀ u c, s.usable u = true → allowed u c) : GrowsBy allowed s t := by
  obtain ⟨m, hm, rfl⟩ := finalizeExecution_next h
  exact ((prepared_finishAction hm).1.grows ha).trans (.of_eq rfl rfl)

theorem WriteEnd.grows {b : Byte} {s m : State} (h : WriteEnd b s m) (ha : ∀ u c, s.usable u = true → allowed u c) :
    GrowsBy allowed s m := by
  cases h with
  | opcode phase more eq => subst eq; exact .of_eq rfl rfl
  | oneByte i phase one instr run =>
    exact (GrowsBy.of_eq (t := acceptOpcode b s) rfl rfl).trans ((exec_next run).grows ha)
  | operand phase bound more eq => subst eq; exact .of_eq rfl rfl
  | lastByte i phase bound last instr run =>
    exact (GrowsBy.of_eq (t := acceptOperand b s) rfl rfl).trans ((exec_next run).grows ha)
  | execByte i phase direction instr bound more eq => subst eq; exact .of_eq (by simp) (by simp)
  | execLast i phase direction instr bound last run =>
    have husable : ∀ u, (advanceExec (takeExecByte i b s)).usable u = s.usable u := usable_of_slots (by simp)
    exact (GrowsBy.of_eq (by simp) (by simp)).trans (finalizeExecution_grows run fun u c hu => ha u c (husable u ▸ hu))
  | stray phase eq => subst eq; exact .of_eq rfl rfl

theorem ReadEnd.grows {s m : State} (h : ReadEnd s m) (ha : ∀ u c, s.usable u = true → allowed u c) :
    GrowsBy allowed s m := by
  cases h with
  | execByte i phase direction instr bound more eq => subst eq; exact .of_eq rfl rfl
  | execLast i phase direction instr bound last run =>
    exact (GrowsBy.of_eq (t := advanceExec (deliver (s.execBuf.read s.execPosition) s)) rfl rfl).trans
      (finalizeExecution_grows run ha)
  | result phase bound eq => subst eq; exact .of_eq (by simp) (by simp)
  | stray phase eq => subst eq; exact .of_eq rfl rfl

theorem writeData_grows {b : Byte} {s t : State} (h : writeData b s = .next t)
    (ha : ∀ u c, s.usable u = true → allowed u c) : GrowsBy allowed s t := by
  obtain ⟨m, hend, rfl⟩ := writeData_next h
  have husable : ∀ u, (ackOnAccess s).usable u = s.usable u := usable_of_slots (by simp)
  exact (ackOnAccess_grows s).trans
    ((hend.grows fun u c hu => ha u c (husable u ▸ hu)).trans (.of_eq (by simp) (by simp)))

theorem readData_grows {s t : State} (h : readData s = .next t)
    (ha : ∀ u c, s.usable u = true → allowed u c) : GrowsBy allowed s t := by
  obtain ⟨m, hend, rfl⟩ := readData_next h
  have husable : ∀ u, (ackOnAccess s).usable u = s.usable u := usable_of_slots (by simp)
  exact (ackOnAccess_grows s).trans
    ((hend.grows fun u c hu => ha u c (husable u ▸ hu)).trans (.of_eq (by simp) (by simp)))

end

theorem setMotor_grows {allowed : UnitNo → Call → Prop} {mask : Byte} {s t : State} (h : setMotor mask s = .next t) :
    GrowsBy allowed s t := by
  rcases setMotor_next h with ⟨-, i, -, rfl⟩ | ⟨-, rfl⟩
  · exact .of_eq (by simp [motorAbort, openResult7]) (by simp [motorAbort, openResult7])
  · exact .of_eq (by simp) (by simp)

/-- The three cases of `tick()` (R159). -/
theorem tick_of_zero {s : State} (h : s.ticksRemaining = 0) : tick s = s :=
  if_pos h

theorem tick_of_one {s : State} (h : s.ticksRemaining = 1) :
    tick s = { notify true { s with ticksRemaining := 0 } with irqLine := true } := by
  simp [tick, h]

theorem tick_of_more {s : State} {k : Nat} (h : s.ticksRemaining = k + 2) : tick s = { s with ticksRemaining := k + 1 } := by
  simp [tick, h]

theorem tick_grows {allowed : UnitNo → Call → Prop} (s : State) : GrowsBy allowed s (tick s) := by
  match h : s.ticksRemaining with
  | 0 => rw [tick_of_zero h]; exact .of_eq rfl rfl
  | 1 => rw [tick_of_one h]; exact .of_notify (l := true) rfl rfl
  | k + 2 => rw [tick_of_more h]; exact .of_eq rfl rfl

theorem resetMachine_grows {allowed : UnitNo → Call → Prop} (s : State) : GrowsBy allowed s (resetMachine s) := by
  cases h : s.irqLine with
  | false => exact .of_eq (by simp [resetMachine, lowerLine_events, h]) h.symm
  | true => exact .of_notify (l := false) (by simp [resetMachine, lowerLine_events, h]) rfl

/-- Every host operation appends to the history calls on usable slots, but `eject` its own (R102, R171). -/
theorem perform_grows {op : HostOp} {s t : State} (h : perform op s = .next t) :
    GrowsBy (fun u c => s.usable u = true ∨ c = .eject ∧ op = .eject u) s t := by
  cases op with
  | readStatus => cases h; exact .of_eq rfl rfl
  | readData => exact readData_grows h fun u c hu => .inl hu
  | writeData b => exact writeData_grows h fun u c hu => .inl hu
  | setMotor mask => exact setMotor_grows h
  | tick => cases h; exact tick_grows s
  | reset => cases h; exact resetMachine_grows s
  | insert u => rw [insertMedia_next h]; exact .of_eq (by simp) (by simp)
  | eject u =>
    rw [ejectMedia_next h]
    refine ⟨[.call u .eject .nothing], by simp, by simp [levelAfter], fun v c a hmem => ?_⟩
    simp only [List.mem_singleton, Event.call.injEq] at hmem
    obtain ⟨rfl, rfl, -⟩ := hmem
    exact .inr ⟨rfl, rfl⟩
  | writeStatus b => cases h
  | reenter op => cases h

/-- A step's history, with what it allows told by the host's next operation. -/
theorem step_grows {s t : State} (h : step s = .next t) :
    GrowsBy (fun u c => s.usable u = true ∨ c = .eject ∧ s.hostOps.head? = some (.eject u)) s t := by
  rcases step_next h with ⟨-, rfl⟩ | ⟨op, rest, hops, hop⟩
  · exact .of_eq rfl rfl
  · obtain ⟨new, he, hl, ha⟩ := perform_grows hop
    refine ⟨new, he, hl, fun u c a hmem => (ha u c a hmem).imp id fun ⟨hc, hu⟩ => ⟨hc, ?_⟩⟩
    rw [hops, hu]
    rfl

/-- Settles O53: the events a step appends fold the line's level on. -/
theorem lineIsLastNotification : Obligations.LineIsLastNotification := by
  intro s t hs h
  obtain ⟨new, he, hl, -⟩ := step_grows h
  rw [hl, he, hs, lastLevel, lastLevel, List.foldl_append]

/-! ### The host's operations -/

theorem ExecEnd.hostOps {i : Instr} {s t : State} (h : ExecEnd i s t) : t.hostOps = s.hostOps := by
  cases h with
  | result m bytes prepared length flag eq => subst eq; exact prepared.hostOps
  | seekEndRead f instr pending eq => subst eq; simp
  | specify f a b instr eq => subst eq; rfl
  | seek m n instr prepared flag eq => subst eq; exact prepared.hostOps
  | execution m n prepared pos le direction length flag flagSet eq => subst eq; exact prepared.hostOps

theorem finalizeExecution_hostOps {i : Instr} {s t : State} (h : finalizeExecution i s = .next t) : t.hostOps = s.hostOps := by
  obtain ⟨m, hm, rfl⟩ := finalizeExecution_next h
  exact (prepared_finishAction hm).1.hostOps

theorem WriteEnd.hostOps {b : Byte} {s m : State} (h : WriteEnd b s m) : m.hostOps = s.hostOps := by
  cases h with
  | opcode phase more eq => subst eq; rfl
  | oneByte i phase one instr run => exact (exec_next run).hostOps
  | operand phase bound more eq => subst eq; rfl
  | lastByte i phase bound last instr run => exact (exec_next run).hostOps
  | execByte i phase direction instr bound more eq => subst eq; simp
  | execLast i phase direction instr bound last run => simpa using finalizeExecution_hostOps run
  | stray phase eq => subst eq; rfl

theorem ReadEnd.hostOps {s m : State} (h : ReadEnd s m) : m.hostOps = s.hostOps := by
  cases h with
  | execByte i phase direction instr bound more eq => subst eq; rfl
  | execLast i phase direction instr bound last run => simpa using finalizeExecution_hostOps run
  | result phase bound eq => subst eq; simp
  | stray phase eq => subst eq; rfl

/-- No operation looks at those to come, or changes them. -/
theorem perform_hostOps {op : HostOp} {s t : State} (h : perform op s = .next t) : t.hostOps = s.hostOps := by
  cases op with
  | readStatus => cases h; rfl
  | readData =>
    obtain ⟨m, hend, rfl⟩ := readData_next h
    simpa using hend.hostOps
  | writeData b =>
    obtain ⟨m, hend, rfl⟩ := writeData_next h
    simpa using hend.hostOps
  | setMotor mask =>
    rcases setMotor_next h with ⟨-, i, -, rfl⟩ | ⟨-, rfl⟩
    · simp [motorAbort, openResult7]
    · simp
  | tick => cases h; simp
  | reset => cases h; rfl
  | insert u => rw [insertMedia_next h]; simp
  | eject u => rw [ejectMedia_next h]; simp
  | writeStatus b => cases h
  | reenter op => cases h

/-- Settles O54: one operation is taken off the list, and the history's growth is `step_grows`. -/
theorem historyGrowsByCallsOnUsableSlots : Obligations.HistoryGrowsByCallsOnUsableSlots := by
  intro s t h
  obtain ⟨new, he, -, ha⟩ := step_grows h
  refine ⟨?_, fun hops => ?_, new, he, ha⟩
  · rcases step_next h with ⟨hops, rfl⟩ | ⟨op, rest, hops, hop⟩
    · rw [hops, List.tail_nil]
    · rw [perform_hostOps hop, hops]
      rfl
  · rw [step_nil hops] at h
    cases h
    rfl

/-! ### The order of the phases (R29, R76, R97) -/

/-- A dispatch never ends in Command phase, and in Execution only for a command with a direction. -/
theorem ExecEnd.phase {i : Instr} {s t : State} (h : ExecEnd i s t) :
    t.phase = .result ∨ t.phase = .idle ∨ t.phase = .execution ∧ transferDirection i.commandId ≠ none := by
  cases h with
  | result m bytes prepared length flag eq => subst eq; exact .inl rfl
  | seekEndRead f instr pending eq => subst eq; exact .inl rfl
  | specify f a b instr eq => subst eq; exact .inr (.inl rfl)
  | seek m n instr prepared flag eq => subst eq; exact .inr (.inl rfl)
  | execution m n prepared pos le direction length flag flagSet eq => subst eq; exact .inr (.inr ⟨rfl, direction⟩)

theorem finalizeExecution_phase {i : Instr} {s t : State} (h : finalizeExecution i s = .next t) : t.phase = .result := by
  obtain ⟨m, -, rfl⟩ := finalizeExecution_next h
  rfl

/-- With nothing scripted an operation that answers a state completes. -/
theorem OracularS.completes {k : State → Result State} (hk : OracularS k) {s : State} (hs : s.answers = []) :
    ∃ t, k s = .next t ∧ t.answers = [] := by
  obtain ⟨x, hx, hanswers⟩ := hk.free s hs
  obtain ⟨t, hrun, heq⟩ := andThen_eq_next.1 hx
  cases heq
  exact ⟨t, hrun, hanswers⟩

/-- Settles O26: with nothing scripted a dispatch completes, and its ends are `ExecEnd.phase`'s. -/
theorem everyCommandCompletesUnscripted : Obligations.EveryCommandCompletesUnscripted := by
  intro i s hs
  obtain ⟨t, hrun, hanswers⟩ := (oracularS_exec i).completes hs
  refine ⟨t, hrun, ?_, hanswers⟩
  rcases (exec_next hrun).phase with h | h | ⟨h, -⟩ <;> simp [h]

/-- What the order of the phases asks of one operation's begin and end. -/
structure InOrder (s t : State) : Prop where
  idle : s.phase = .idle → t.phase ≠ .execution
  execution : s.phase = .execution → t.phase = .execution ∨ t.phase = .result
  result : s.phase = .result → t.phase = .result ∨ t.phase = .idle
  cmdCounters : s.phase = .command → t.phase = .command →
    s.cmdPosition ≤ t.cmdPosition ∧ t.cmdPosition + t.cmdLength = s.cmdPosition + s.cmdLength
  execCounters : s.phase = .execution → t.phase = .execution →
    s.execPosition ≤ t.execPosition ∧ t.execPosition + t.execLength = s.execPosition + s.execLength
  resCounters : s.phase = .result → t.phase = .result →
    s.resPosition ≤ t.resPosition ∧ t.resPosition + t.resLength = s.resPosition + s.resLength

/-- Before and after an operation, updates that keep the protocol do not matter to the order. -/
theorem InOrder.between {s s' t' t : State} (hs : KeepsProtocol s s') (h : InOrder s' t') (ht : KeepsProtocol t' t) :
    InOrder s t := by
  obtain ⟨idle, execution, result, cmd, exec, res⟩ := h
  simp only [hs.phase, hs.cmdPosition, hs.cmdLength, hs.execPosition, hs.execLength, hs.resPosition, hs.resLength]
    at idle execution result cmd exec res
  constructor <;>
    simpa only [ht.phase, ht.cmdPosition, ht.cmdLength, ht.execPosition, ht.execLength, ht.resPosition, ht.resLength]

theorem KeepsProtocol.refl (s : State) : KeepsProtocol s s := by constructor <;> rfl

theorem InOrder.refl (s : State) : InOrder s s where
  idle := fun h => by simp [h]
  execution := .inl
  result := .inl
  cmdCounters := fun _ _ => ⟨le_refl _, rfl⟩
  execCounters := fun _ _ => ⟨le_refl _, rfl⟩
  resCounters := fun _ _ => ⟨le_refl _, rfl⟩

theorem InOrder.of_keeps {s t : State} (h : KeepsProtocol s t) : InOrder s t :=
  (InOrder.refl s).between (.refl s) h

/-- An operation that leaves Execution opens the Result. -/
theorem InOrder.of_execution_result {s t : State} (hs : s.phase = .execution) (ht : t.phase = .result) : InOrder s t := by
  constructor <;> simp [hs, ht]

/-- From Command phase a dispatch may end in any other. -/
theorem InOrder.of_command {s t : State} (hs : s.phase = .command) (ht : t.phase ≠ .command) : InOrder s t := by
  constructor <;> simp [hs, ht]

theorem InOrder.of_idle {s t : State} (hs : s.phase = .idle) (ht : t.phase ≠ .execution) : InOrder s t := by
  constructor <;> simp [hs, ht]

/-- One Execution byte that is not the last. -/
theorem InOrder.advanceExec {s m : State} (hs : s.phase = .execution) (hm : KeepsProtocol { s with execBuf := m.execBuf } m)
    (hmore : s.execLength - 1 ≠ 0) : InOrder s (advanceExec m) := by
  have hphase : m.phase = s.phase := hm.phase
  have hposition : m.execPosition = s.execPosition := hm.execPosition
  have hlength : m.execLength = s.execLength := hm.execLength
  constructor <;> simp [hs, hphase, hposition, hlength]
  omega

theorem transferDirection_of_oneByte {id : CommandId} (h : cmdCount id = 1) : transferDirection id = none := by
  cases id <;> simp_all [cmdCount, transferDirection]

theorem WriteEnd.inOrder {b : Byte} {s m : State} (h : WriteEnd b s m) : InOrder s m := by
  cases h with
  | opcode phase more eq => subst eq; exact .of_idle phase (by simp)
  | oneByte i phase one instr run =>
    refine .of_idle phase ?_
    have hdir : transferDirection i.commandId = none := by
      rw [instr, assemble_commandId]
      exact transferDirection_of_oneByte one
    rcases (exec_next run).phase with h | h | ⟨-, h⟩
    · simp [h]
    · simp [h]
    · exact absurd hdir h
  | operand phase bound more eq =>
    subst eq
    constructor <;> simp [phase]
    omega
  | lastByte i phase bound last instr run =>
    refine .of_command phase ?_
    rcases (exec_next run).phase with h | h | ⟨h, -⟩ <;> simp [h]
  | execByte i phase direction instr bound more eq =>
    subst eq
    exact .advanceExec phase (keepsProtocol_takeExecByte i b s) more
  | execLast i phase direction instr bound last run => exact .of_execution_result phase (finalizeExecution_phase run)
  | stray phase eq => subst eq; exact .refl m

theorem ReadEnd.inOrder {s m : State} (h : ReadEnd s m) : InOrder s m := by
  cases h with
  | execByte i phase direction instr bound more eq =>
    subst eq
    exact .advanceExec phase (keepsProtocol_deliver _ s) more
  | execLast i phase direction instr bound last run => exact .of_execution_result phase (finalizeExecution_phase run)
  | result phase bound eq =>
    subst eq
    by_cases hlast : s.resLength - 1 = 0
    · rw [endIfRead_of_done hlast]
      constructor <;> simp [phase]
    · rw [endIfRead_of_more hlast]
      constructor <;> simp [phase]
      omega
  | stray phase eq => subst eq; exact .of_keeps (keepsProtocol_deliver _ s)

theorem setMotor_inOrder {mask : Byte} {s t : State} (h : setMotor mask s = .next t) : InOrder s t := by
  rcases setMotor_next h with ⟨habort, i, -, rfl⟩ | ⟨-, rfl⟩
  · obtain ⟨hp, -⟩ := motorStopAborts_iff.1 habort
    exact .of_execution_result hp (by simp [motorAbort, openResult7])
  · exact .of_keeps ((keepsProtocol_setMotors mask s).trans (keepsProtocol_armMotorChange _ _))

theorem perform_inOrder {op : HostOp} {s t : State} (h : perform op s = .next t) (hop : op ≠ .reset) : InOrder s t := by
  cases op with
  | readStatus => cases h; exact .of_keeps (keepsProtocol_deliver _ s)
  | readData =>
    obtain ⟨m, hend, rfl⟩ := readData_next h
    exact hend.inOrder.between (keepsProtocol_ackOnAccess s) (keepsProtocol_armOnCompletion m)
  | writeData b =>
    obtain ⟨m, hend, rfl⟩ := writeData_next h
    exact hend.inOrder.between (keepsProtocol_ackOnAccess s) (keepsProtocol_armOnCompletion m)
  | setMotor mask => exact setMotor_inOrder h
  | tick => cases h; exact .of_keeps (keepsProtocol_tick s)
  | reset => exact absurd rfl hop
  | insert u => rw [insertMedia_next h]; exact .of_keeps (keepsProtocol_setAttached u true s)
  | eject u =>
    rw [ejectMedia_next h]
    exact .of_keeps ((keepsProtocol_record _ s).trans (keepsProtocol_setAttached u false _))
  | writeStatus b => cases h
  | reenter op => cases h

/-- Settles O56: each operation but a reset keeps the order. -/
theorem phasesFollowInOrder : Obligations.PhasesFollowInOrder := by
  intro s t _ h hreset
  rcases step_next h with ⟨-, rfl⟩ | ⟨op, rest, hops, hop⟩
  · obtain ⟨idle, execution, result, cmd, exec, res⟩ := InOrder.refl t
    exact ⟨idle, execution, result, cmd, exec, res⟩
  · have hne : op ≠ .reset := fun heq => hreset rest (heq ▸ hops)
    obtain ⟨idle, execution, result, cmd, exec, res⟩ :=
      (perform_inOrder hop hne).between (keepsProtocol_takeOp rest s) (.refl t)
    exact ⟨idle, execution, result, cmd, exec, res⟩

/-! ### What an access arms (R126, R157, R158) -/

/-- What a host byte does to the interrupt after its acknowledgement: nothing; or it completes a SENSE INTERRUPT STATUS that reads
a pending SeekEnd; or it completes a RECALIBRATE or SEEK, which arms one. -/
inductive WriteInterrupt (b : Byte) (s m : State) : Prop where
  | keeps (interrupt : KeepsInterrupt s m)
  | seekEndRead (command : s.phase = .idle ∧ commandId (op5 b) = .senseInterruptStatus ∨
      s.phase = .command ∧ s.pendingOpcode = some .senseInterruptStatus)
      (phase : m.phase = .result) (pending : m.interruptState = .none)
  | seek (command : s.phase = .command ∧ (s.pendingOpcode = some .recalibrate ∨ s.pendingOpcode = some .seek))
      (phase : m.phase = .idle) (pending : m.interruptState = .seekEnd) (line : m.irqLine = s.irqLine)

theorem commandId_of_seekTarget {i : Instr} {n : Byte} (h : seekTarget i = some n) :
    i.commandId = .recalibrate ∨ i.commandId = .seek := by
  cases i <;> simp_all [seekTarget, Instr.commandId]

/-- A dispatch's own part, for a command whose id is known. -/
theorem ExecEnd.interrupt {i : Instr} {s t : State} (h : ExecEnd i s t) :
    KeepsInterrupt s t ∨ i.commandId = .senseInterruptStatus ∧ t.phase = .result ∧ t.interruptState = .none ∨
      (i.commandId = .recalibrate ∨ i.commandId = .seek) ∧ t.phase = .idle ∧ t.interruptState = .seekEnd ∧
        t.irqLine = s.irqLine := by
  cases h with
  | result m bytes prepared length flag eq => subst eq; exact .inl (prepared.interrupt.trans ⟨rfl, rfl, rfl⟩)
  | seekEndRead f instr pending eq => subst eq; exact .inr (.inl ⟨by rw [instr]; rfl, rfl, by simp⟩)
  | specify f a b instr eq => subst eq; exact .inl ⟨rfl, rfl, rfl⟩
  | seek m n instr prepared flag eq =>
    subst eq
    exact .inr (.inr ⟨commandId_of_seekTarget instr, rfl, rfl, prepared.irqLine⟩)
  | execution m n prepared pos le direction length flag flagSet eq =>
    subst eq
    exact .inl (prepared.interrupt.trans ⟨rfl, rfl, rfl⟩)

theorem WriteEnd.interrupt {b : Byte} {s m : State} (h : WriteEnd b s m) : WriteInterrupt b s m := by
  cases h with
  | opcode phase more eq => subst eq; exact .keeps ⟨rfl, rfl, rfl⟩
  | oneByte i phase one instr run =>
    have hid : i.commandId = commandId (op5 b) := by rw [instr, assemble_commandId]
    rcases (exec_next run).interrupt with ⟨pending, ticks, line⟩ | ⟨hsense, hp, hi⟩ | ⟨hseek | hseek, -⟩
    · exact .keeps ⟨pending, ticks, line⟩
    · exact .seekEndRead (.inl ⟨phase, hid ▸ hsense⟩) hp hi
    · rw [← hid, hseek] at one
      cases one
    · rw [← hid, hseek] at one
      cases one
  | operand phase bound more eq => subst eq; exact .keeps ⟨rfl, rfl, rfl⟩
  | lastByte i phase bound last instr run =>
    have hid : s.pendingOpcode = some i.commandId :=
      pendingOpcode_of_pendingInstr (s := acceptOperand b s) instr
    rcases (exec_next run).interrupt with ⟨pending, ticks, line⟩ | ⟨hsense, hp, hi⟩ | ⟨hseek, hp, hi, hl⟩
    · exact .keeps ⟨pending, ticks, line⟩
    · exact .seekEndRead (.inr ⟨phase, hsense ▸ hid⟩) hp hi
    · exact .seek ⟨phase, by simpa [hid] using hseek⟩ hp hi hl
  | execByte i phase direction instr bound more eq => subst eq; exact .keeps ⟨by simp, by simp, by simp⟩
  | execLast i phase direction instr bound last run =>
    have hbyte : KeepsInterrupt s (advanceExec (takeExecByte i b s)) := ⟨by simp, by simp, by simp⟩
    exact .keeps (hbyte.trans (keepsInterrupt_of_finalize run))
  | stray phase eq => subst eq; exact .keeps ⟨rfl, rfl, rfl⟩

/-- What the phase decides after an access, where the interrupt is at most a SeekEnd before the arming. -/
structure ArmedByPhase (kept armed : Prop) (t : State) : Prop where
  execution : t.phase = .execution → kept ∧ t.interruptState = .seekEnd ∨
    t.interruptState = .execByteReady ∧ t.ticksRemaining = Config.shortDelay
  result : t.phase = .result → kept ∧ t.interruptState = .seekEnd ∨
    t.interruptState = .resultReady ∧ t.ticksRemaining = Config.shortDelay
  command : t.phase = .command → kept ∧ t.interruptState = .seekEnd ∨ t.interruptState = .none
  idle : t.phase = .idle → (kept ∨ armed) ∧ t.interruptState = .seekEnd ∨ t.interruptState = .none

theorem armedByPhase_of_kept {kept armed : Prop} {m : State} (hm : m.interruptState = .seekEnd ∧ kept) :
    ArmedByPhase kept armed (armOnCompletion m) := by
  obtain ⟨hi, hk⟩ := hm
  have hpending : (armOnCompletion m).interruptState = .seekEnd := by simp [armOnCompletion_interruptState, hi]
  exact ⟨fun _ => .inl ⟨hk, hpending⟩, fun _ => .inl ⟨hk, hpending⟩, fun _ => .inl ⟨hk, hpending⟩,
    fun _ => .inl ⟨.inl hk, hpending⟩⟩

theorem armedByPhase_of_none {kept armed : Prop} {m : State} (hm : m.interruptState = .none) :
    ArmedByPhase kept armed (armOnCompletion m) := by
  constructor <;> intro hp <;> rw [armOnCompletion_phase] at hp <;> right <;>
    simp [armOnCompletion_interruptState, armOnCompletion_ticksRemaining, hm, hp]

/-- A SeekEnd armed by the dispatch of a RECALIBRATE or SEEK, which ends in Idle. -/
theorem armedByPhase_of_seek {kept armed : Prop} {m : State} (hp : m.phase = .idle) (hi : m.interruptState = .seekEnd)
    (ha : armed) : ArmedByPhase kept armed (armOnCompletion m) := by
  rw [armOnCompletion_of_idle hp]
  constructor <;> simp [hp, hi, ha]

theorem armedByPhase_of_keeps {armed : Prop} {s m : State} (h : KeepsInterrupt (ackOnAccess s) m) :
    ArmedByPhase (s.interruptState = .seekEnd) armed (armOnCompletion m) := by
  have hpending := h.interruptState
  rw [ackOnAccess_interruptState] at hpending
  split at hpending
  · next hs => exact armedByPhase_of_kept ⟨hpending, hs⟩
  · exact armedByPhase_of_none hpending

theorem writeData_arms {b : Byte} {s t : State} (h : writeData b s = .next t) :
    ArmedByPhase (s.interruptState = .seekEnd)
      (s.phase = .command ∧ (s.pendingOpcode = some .recalibrate ∨ s.pendingOpcode = some .seek)) t := by
  obtain ⟨m, hend, rfl⟩ := writeData_next h
  cases hend.interrupt with
  | keeps interrupt => exact armedByPhase_of_keeps interrupt
  | seekEndRead command phase pending => exact armedByPhase_of_none pending
  | seek command phase pending line => exact armedByPhase_of_seek phase pending (by simpa using command)

theorem readData_arms {armed : Prop} {s t : State} (h : readData s = .next t) :
    ArmedByPhase (s.interruptState = .seekEnd) armed t := by
  obtain ⟨m, hend, rfl⟩ := readData_next h
  exact armedByPhase_of_keeps hend.keepsInterrupt

/-- Settles O42: an acknowledgement leaves at most a SeekEnd, a dispatch arms none but a RECALIBRATE's or SEEK's, and the
completion arms by the phase. -/
theorem accessArmsByPhase : Obligations.AccessArmsByPhase := by
  intro s t rest op hop hops h
  have harms : ArmedByPhase (s.interruptState = .seekEnd)
      (s.phase = .command ∧ (s.pendingOpcode = some .recalibrate ∨ s.pendingOpcode = some .seek)) t := by
    rw [step_cons hops] at h
    rcases hop with rfl | ⟨b, rfl⟩
    · exact readData_arms (s := takeOp rest s) h
    · exact writeData_arms (s := takeOp rest s) h
  obtain ⟨execution, result, command, idle⟩ := harms
  exact ⟨execution, result, command, idle⟩

/-! ### A pending SeekEnd -/

/-- A SeekEnd stays pending, and an asserted line with it. -/
structure KeepsSeekEnd (s t : State) : Prop where
  pending : t.interruptState = .seekEnd
  line : s.irqLine = true → t.irqLine = true

theorem KeepsSeekEnd.of_keeps {s t : State} (hs : s.interruptState = .seekEnd) (h : KeepsInterrupt s t) : KeepsSeekEnd s t :=
  ⟨h.interruptState.trans hs, fun hl => h.irqLine.trans hl⟩

theorem arm_of_seekEnd {k : InterruptKind} {n : Nat} {s : State} (h : s.interruptState = .seekEnd) : arm k n s = s :=
  if_pos h

theorem armOnCompletion_of_seekEnd {s : State} (h : s.interruptState = .seekEnd) : armOnCompletion s = s := by
  cases hp : s.phase <;> simp [armOnCompletion, hp, arm_of_seekEnd h]

theorem armMotorChange_of_seekEnd {changed : Bool} {s : State} (h : s.interruptState = .seekEnd) :
    armMotorChange changed s = s := by
  cases changed <;> simp [armMotorChange, arm_of_seekEnd h]

/-- In Command phase no SENSE INTERRUPT STATUS is pending, for it has no operand byte (R26). -/
theorem State.Inv.not_senseInterrupt {s : State} (hs : s.Inv) (hp : s.phase = .command) :
    s.pendingOpcode ≠ some .senseInterruptStatus := by
  intro hid
  obtain ⟨hpos, hleft, hcount, -, -⟩ := hs.command hp
  have hlatched := hs.latched (by simp [hp])
  rw [hid, Option.some.injEq] at hlatched
  rw [← hlatched, cmdCount] at hcount
  omega

theorem writeData_keepsSeekEnd {b : Byte} {s t : State} (h : writeData b s = .next t) (hs : s.Inv)
    (hi : s.interruptState = .seekEnd) (hb : s.phase = .idle → commandId (op5 b) ≠ .senseInterruptStatus) :
    KeepsSeekEnd s t := by
  obtain ⟨m, hend, rfl⟩ := writeData_next h
  rw [ackOnAccess_of_kept (.inl hi)] at hend
  cases hend.interrupt with
  | keeps interrupt =>
    have hm := KeepsSeekEnd.of_keeps hi interrupt
    rwa [armOnCompletion_of_seekEnd hm.pending]
  | seekEndRead command phase pending =>
    rcases command with ⟨hp, hid⟩ | ⟨hp, hid⟩
    · exact absurd hid (hb hp)
    · exact absurd hid (hs.not_senseInterrupt hp)
  | seek command phase pending line =>
    rw [armOnCompletion_of_seekEnd pending]
    exact ⟨pending, fun hl => line.trans hl⟩

theorem perform_keepsSeekEnd {op : HostOp} {s t : State} (h : perform op s = .next t) (hs : s.Inv)
    (hi : s.interruptState = .seekEnd) (hreset : op ≠ .reset)
    (hsense : ∀ b, op = .writeData b → s.phase = .idle → commandId (op5 b) ≠ .senseInterruptStatus) : KeepsSeekEnd s t := by
  cases op with
  | readStatus => cases h; exact .of_keeps hi ⟨rfl, rfl, rfl⟩
  | readData =>
    obtain ⟨m, hend, rfl⟩ := readData_next h
    have hend' := hend.keepsInterrupt
    rw [ackOnAccess_of_kept (.inl hi)] at hend'
    have hm := KeepsSeekEnd.of_keeps hi hend'
    rwa [armOnCompletion_of_seekEnd hm.pending]
  | writeData b => exact writeData_keepsSeekEnd h hs hi (hsense b rfl)
  | setMotor mask =>
    rcases setMotor_next h with ⟨-, i, -, rfl⟩ | ⟨-, rfl⟩
    · rw [armMotorChange_of_seekEnd (s := motorAbort i (setMotors mask s)) hi]
      exact .of_keeps hi ⟨rfl, rfl, rfl⟩
    · rw [armMotorChange_of_seekEnd (s := setMotors mask s) hi]
      exact .of_keeps hi ⟨rfl, rfl, rfl⟩
  | tick =>
    cases h
    refine ⟨by simpa using hi, fun hl => ?_⟩
    match hticks : s.ticksRemaining with
    | 0 => rwa [tick_of_zero hticks]
    | 1 => rw [tick_of_one hticks]
    | k + 2 => rwa [tick_of_more hticks]
  | reset => exact absurd rfl hreset
  | insert u => rw [insertMedia_next h]; exact .of_keeps hi ⟨by simp, by simp, by simp⟩
  | eject u => rw [ejectMedia_next h]; exact .of_keeps hi ⟨by simp, by simp, by simp⟩
  | writeStatus b => cases h
  | reenter op => cases h

/-- Settles O43: no operation but the two excluded ones takes a SeekEnd, and none lowers the line while one is pending. -/
theorem seekEndSurvivesAllButSenseInterrupt : Obligations.SeekEndSurvivesAllButSenseInterrupt := by
  intro s t hs hi h hreset hsense
  rcases step_next h with ⟨-, rfl⟩ | ⟨op, rest, hops, hop⟩
  · exact ⟨hi, id⟩
  · obtain ⟨pending, line⟩ := perform_keepsSeekEnd hop (takeOp_inv rest hs) hi (fun heq => hreset rest (heq ▸ hops))
      fun b heq => hsense b rest (heq ▸ hops)
    exact ⟨pending, line⟩

end Sys2Proof.Machine
end

section
/-! SUPPORT. Proof that the controller never faults and refuses only what R152 lists: an access under the invariant is one
operation of the backends' layer, which faults nowhere. -/

namespace Sys2Proof.Machine

open Sys2Proof

/-! ### Operations that never fault -/

/-- An operation that faults in no state. -/
def Faultless {α : Type} (k : State → Result α) : Prop := ∀ s r, k s ≠ .fault r

theorem Faultless.next {α : Type} (v : State → α) : Faultless fun s => .next (v s) :=
  fun _ _ => by simp

theorem Faultless.andThen {α β : Type} {k : State → Result α} {f : State → α → Result β} (h : Faultless k)
    (hf : ∀ s a r, f s a ≠ .fault r) : Faultless fun s => Machine.andThen (k s) (f s) := by
  intro s r hr
  rcases andThen_eq_fault.1 hr with hr | ⟨a, -, hr⟩
  · exact h s r hr
  · exact hf s a r hr

theorem Faultless.ite {α : Type} {p : State → Prop} [DecidablePred p] {k k' : State → Result α} (h : Faultless k)
    (h' : Faultless k') : Faultless fun s => if p s then k s else k' s := by
  intro s
  by_cases hs : p s
  · simpa [hs] using h s
  · simpa [hs] using h' s

theorem faultless_driveReady (u : UnitNo) : Faultless (driveReady u) :=
  Faultless.ite (.andThen (ask_ne_fault u _) fun _ _ _ => by simp) (.next _)

theorem faultless_seekTo (u : UnitNo) (n : Byte) : Faultless (seekTo u n) :=
  Faultless.ite (.andThen (ask_ne_fault u _) fun _ a _ => by split <;> simp) (.next _)

theorem faultless_readSectorHeader (u : UnitNo) (hd : HeadNo) (seq : Nat) : Faultless (readSectorHeader u hd seq) :=
  Faultless.ite (.andThen (ask_ne_fault u _) fun _ _ _ => by simp) (.next _)

theorem faultless_readSector (u : UnitNo) (args : SectorArgs) : Faultless (readSector u args) :=
  Faultless.ite (.andThen (ask_ne_fault u _) fun _ _ _ => by simp) (.next _)

theorem faultless_readWholeTrack (u : UnitNo) (c h : Byte) (hd : HeadNo) : Faultless (readWholeTrack u c h hd) :=
  Faultless.ite (.andThen (ask_ne_fault u _) fun _ _ _ => by simp) (.next _)

theorem faultless_driveStatusByte (u : UnitNo) (h : HeadNo) : Faultless (driveStatusByte u h) :=
  Faultless.ite (.andThen (ask_ne_fault u _) fun _ _ _ => by simp) (.next _)

theorem faultless_writeSector (u : UnitNo) (args : SectorArgs) : Faultless (writeSector u args) :=
  Faultless.ite (.ite (.next _) (.andThen (fun s => ask_ne_fault u _ s) fun _ _ _ => by simp)) (.next _)

theorem faultless_formatWholeTrack (u : UnitNo) (hd : HeadNo) (sc d : Byte) : Faultless (formatWholeTrack u hd sc d) :=
  Faultless.ite (.ite (.next _) (.andThen (fun s => ask_ne_fault u _ s) fun _ _ _ => by simp)) (.next _)

theorem faultless_finishAction (i : Instr) : Faultless (finishAction i) := by
  cases i
  case writeData | writeDeletedData => exact .andThen (fun s => faultless_writeSector _ _ s) fun _ _ _ => by simp
  case formatTrack => exact .andThen (fun s => faultless_formatWholeTrack _ _ _ _ s) fun _ _ _ => by simp
  all_goals exact .next _

theorem faultless_finalizeExecution (i : Instr) : Faultless (finalizeExecution i) :=
  .andThen (faultless_finishAction i) fun _ _ _ => by simp

theorem faultless_openExecution (i : Instr) (n : Nat) : Faultless (openExecution i n) :=
  Faultless.ite (p := fun _ => n = 0) (fun s => faultless_finalizeExecution i (beginExecution n s)) (.next _)

/-- What follows the first step of a data command. -/
theorem faultless_setup (i : Instr) (uh : UnitHead) {k : Bool × State → Result State} (hk : ∀ r x, k r ≠ .fault x) :
    Faultless fun s => andThen (dataSetup uh s) fun r => if r.1 then k r else .next (failCommand i .notReady r.2) :=
  .andThen (fun s => faultless_driveReady uh.us (baseStatus (select uh s))) fun _ r x => by
    split
    · exact hk r x
    · simp

theorem faultless_dispatchRead (i : Instr) (deleted : Bool) (begin : State → State) (f : OpFlags) (uh : UnitHead)
    (id : SectorId) (dtl : Byte) : Faultless (dispatchRead i deleted begin f uh id dtl) :=
  faultless_setup i uh fun r x hx => by
    rcases andThen_eq_fault.1 hx with hx | ⟨q, -, hx⟩
    · exact faultless_readSector _ _ _ _ hx
    · split at hx
      · exact faultless_openExecution _ _ _ _ hx
      · cases hx

theorem faultless_dispatchWrite (i : Instr) (deleted : Bool) (uh : UnitHead) (id : SectorId) (dtl : Byte) :
    Faultless (dispatchWrite i deleted uh id dtl) :=
  faultless_setup i uh fun r => faultless_openExecution i _ (setWriteDeleted deleted r.2)

theorem faultless_seekCommon (n : Byte) : Faultless (seekCommon n) := by
  refine .andThen (fun s => faultless_driveReady _ s) fun s r x hx => ?_
  rcases andThen_eq_fault.1 hx with hx | ⟨q, -, hx⟩
  · split at hx
    · exact faultless_seekTo _ _ _ _ hx
    · cases hx
  · cases hx

theorem faultless_execReadTrack (f : OpFlags) (uh : UnitHead) (id : SectorId) (eot gpl dtl : Byte) :
    Faultless (execReadTrack f uh id eot gpl dtl) := fun s =>
  faultless_setup (.readTrack f uh id eot gpl dtl) uh (fun r x hx => by
    rcases andThen_eq_fault.1 hx with hx | ⟨q, -, hx⟩
    · exact faultless_readWholeTrack _ _ _ _ _ _ hx
    · split at hx
      · exact faultless_openExecution _ _ _ _ hx
      · cases hx) (restartRotation s)

theorem faultless_execReadId (f : OpFlags) (uh : UnitHead) : Faultless (execReadId f uh) :=
  faultless_setup (.readId f uh) uh fun r x hx => by
    rcases andThen_eq_fault.1 hx with hx | ⟨q, -, hx⟩
    · exact faultless_readSectorHeader _ _ _ _ _ hx
    · split at hx <;> cases hx

theorem faultless_execSenseDriveStatus (f : OpFlags) (uh : UnitHead) : Faultless (execSenseDriveStatus f uh) := by
  intro s r hr
  rcases andThen_eq_fault.1 hr with hr | ⟨a, -, hr⟩
  · exact faultless_driveStatusByte _ _ _ _ hr
  · cases hr

/-- No dispatch faults. -/
theorem faultless_exec (i : Instr) : Faultless (exec i) := by
  intro s r
  cases i with
  | readTrack f uh id eot gpl dtl => exact faultless_execReadTrack f uh id eot gpl dtl s r
  | specify f a b => simp [exec, execSpecify]
  | senseDriveStatus f uh => exact faultless_execSenseDriveStatus f uh s r
  | recalibrate f uh => exact faultless_seekCommon _ _ r
  | seek f uh ncn => exact faultless_seekCommon _ _ r
  | senseInterruptStatus f =>
    simp only [exec, execSenseInterruptStatus]
    split <;> simp
  | readId f uh => exact faultless_execReadId f uh s r
  | formatTrack f uh n sc gpl d =>
    exact faultless_setup (.formatTrack f uh n sc gpl d) uh (fun r => faultless_openExecution _ _ r.2) (restartRotation s) r
  | invalid f code => simp [exec, execInvalid]
  | writeData | writeDeletedData => exact faultless_dispatchWrite _ _ _ _ _ (restartRotation s) r
  | readData | readDeletedData => exact faultless_dispatchRead _ _ (fun t => t) _ _ _ _ (restartRotation s) r
  | scanEqual | scanLowOrEqual | scanHighOrEqual => exact faultless_dispatchRead _ _ scanBegin _ _ _ _ (restartRotation s) r

/-! ### The phase's own part of an access -/

theorem writePhase_of_toController {b : Byte} {s : State} (hp : s.phase = .execution)
    (hd : s.direction = some .hostToController) : writePhase b s = execWrite b s := by
  simp [writePhase, hp, hd]

theorem writePhase_of_stray {b : Byte} {s : State}
    (h : s.phase = .result ∨ s.phase = .execution ∧ s.direction ≠ some .hostToController) : writePhase b s = .next s := by
  rcases h with hp | ⟨hp, hd⟩
  · simp [writePhase, hp, strayWrite]
  · simp [writePhase, hp, hd, strayWrite]

theorem readPhase_of_toHost {s : State} (hp : s.phase = .execution) (hd : s.direction = some .controllerToHost) :
    readPhase s = execRead s := by
  simp [readPhase, hp, hd]

theorem readPhase_of_stray {s : State}
    (h : s.phase = .idle ∨ s.phase = .command ∨ s.phase = .execution ∧ s.direction ≠ some .controllerToHost) :
    readPhase s = .next (deliver Config.strayReadValue s) := by
  rcases h with hp | hp | ⟨hp, hd⟩
  · simp [readPhase, hp, strayRead]
  · simp [readPhase, hp, strayRead]
  · simp [readPhase, hp, hd, strayRead]

theorem withPending_of_some {s : State} {i : Instr} (h : s.pendingInstr = some i) (k : Instr → Result State) :
    withPending s k = k i := by
  simp [withPending, h]

theorem execWrite_of_bound {b : Byte} {s : State} {i : Instr} (hi : s.pendingInstr = some i)
    (hbound : s.execPosition < Config.execCap) :
    execWrite b s = finalizeIfDone i (advanceExec (takeExecByte i b s)) := by
  rw [execWrite, withPending_of_some hi, if_pos hbound]

theorem execRead_of_bound {s : State} {i : Instr} (hi : s.pendingInstr = some i)
    (hbound : s.execPosition < Config.execCap) :
    execRead s = finalizeIfDone i (advanceExec (deliver (s.execBuf.read s.execPosition) s)) := by
  rw [execRead, withPending_of_some hi, if_pos hbound]

/-! ### An access is one operation of the backends' layer -/

/-- In this state the operation `p` is one of the backends' layer, which never faults, whatever the script. -/
def OracularAt (p : State → Result State) (s : State) : Prop :=
  ∃ k m, OracularS k ∧ Faultless k ∧ (∃ evs, m.events = s.events ++ evs) ∧ m.answers = s.answers ∧
    ∀ q, p (withAnswers q s) = k (withAnswers q m)

theorem OracularAt.of_oracularS {k : State → Result State} (h : OracularS k) (hf : Faultless k) (s : State) :
    OracularAt k s :=
  ⟨k, s, h, hf, keeps_events rfl, rfl, fun _ => rfl⟩

theorem OracularAt.of_eq {p p' : State → Result State} {s : State} (h : OracularAt p' s)
    (heq : ∀ q, p (withAnswers q s) = p' (withAnswers q s)) : OracularAt p s := by
  obtain ⟨k, m, hk, hf, he, ha, hp⟩ := h
  exact ⟨k, m, hk, hf, he, ha, fun q => (heq q).trans (hp q)⟩

theorem OracularAt.after {p : State → Result State} {f : State → State} {s : State} (h : OracularAt p (f s))
    (hf : ∀ q, f (withAnswers q s) = withAnswers q (f s)) (ha : (f s).answers = s.answers)
    (he : ∃ evs, (f s).events = s.events ++ evs) : OracularAt (fun s => p (f s)) s := by
  obtain ⟨k, m, hk, hfl, ⟨e', he'⟩, ha', hp⟩ := h
  obtain ⟨e, he⟩ := he
  refine ⟨k, m, hk, hfl, ⟨e ++ e', by rw [he', he, List.append_assoc]⟩, ha'.trans ha, fun q => ?_⟩
  simp only [hf, hp]

theorem OracularAt.then {p k : State → Result State} {s : State} (h : OracularAt p s) (hk : OracularS k) (hf : Faultless k) :
    OracularAt (fun s => andThen (p s) k) s := by
  obtain ⟨k', m, hk', hf', he, ha, hp⟩ := h
  refine ⟨fun s => andThen (k' s) k, m, hk'.then hk, hf'.andThen fun _ a => hf a, he, ha, fun q => ?_⟩
  simp only [hp]

theorem oracularS_stay : OracularS fun s => .next s :=
  oracularS_update (f := fun s => s) (fun _ _ => rfl) fun _ => rfl

theorem oracularAt_stay {s : State} : OracularAt (fun s => .next s) s :=
  .of_oracularS oracularS_stay (.next _) s

theorem oracularAt_dispatchIfComplete {s : State} {i : Instr} (hi : s.pendingInstr = some i) :
    OracularAt dispatchIfComplete s := by
  by_cases hl : s.cmdLength = 0
  · refine (OracularAt.of_oracularS (oracularS_exec i) (faultless_exec i) s).of_eq fun q => ?_
    have hpending : (withAnswers q s).pendingInstr = some i := hi
    rw [dispatchIfComplete_of_complete (s := withAnswers q s) hl, dispatch, withPending, hpending]
  · exact oracularAt_stay.of_eq fun q =>
      dispatchIfComplete_of_more (s := withAnswers q s) hl

theorem oracularAt_finalizeIfDone (i : Instr) (s : State) : OracularAt (finalizeIfDone i) s :=
  .of_oracularS
    (OracularS.ite (p := fun s => s.execLength = 0) (fun _ _ => Iff.rfl) (oracularS_finalizeExecution i) oracularS_stay)
    (Faultless.ite (faultless_finalizeExecution i) (.next _)) s

theorem pendingInstr_of_pendingOpcode {s : State} {id : CommandId} (h : s.pendingOpcode = some id) :
    s.pendingInstr = some (assemble id (Memory.read s.cmdBuf)) := by
  simp [State.pendingInstr, h]

theorem takeExecByte_withAnswers (i : Instr) (b : Byte) (q : List Answer) (s : State) :
    takeExecByte i b (withAnswers q s) = withAnswers q (takeExecByte i b s) := by
  have hscan : ∀ db, scanCompare i b db (withAnswers q s) = withAnswers q (scanCompare i b db s) := by
    intro db
    unfold scanCompare
    repeat' split
    all_goals rfl
  unfold takeExecByte
  split
  · exact hscan _
  · rfl

/-- In Execution a byte is still to come, so its index is within the buffer (R98). -/
theorem State.PhaseInv.execPosition_lt {s : State} (hs : s.PhaseInv) (hp : s.phase = .execution) :
    s.execPosition < Config.execCap := by
  obtain ⟨-, hleft, hcap, -, -⟩ := hs.execution hp
  omega

theorem State.PhaseInv.cmdPosition_lt {s : State} (hs : s.PhaseInv) (hp : s.phase = .command) :
    s.cmdPosition < Config.cmdCap := by
  obtain ⟨-, hleft, hcount, -, -⟩ := hs.command hp
  have hmax := cmdCount_le_longest (commandId (op5 (s.cmdBuf.read 0)))
  simp only [longestCommand] at hmax
  simp only [Config.cmdCap]
  omega

theorem State.PhaseInv.resPosition_lt {s : State} (hs : s.PhaseInv) (hp : s.phase = .result) :
    s.resPosition < Config.resCap := by
  obtain ⟨hleft, hcount, -, -⟩ := hs.result hp
  simp only [Config.resCap]
  omega

theorem oracularAt_execWrite {s : State} (b : Byte) (hs : s.PhaseInv) (hp : s.phase = .execution) :
    OracularAt (execWrite b) s := by
  obtain ⟨i, hi⟩ : ∃ i, s.pendingInstr = some i := ⟨_, pendingInstr_of_pendingOpcode (hs.latched (by simp [hp]))⟩
  exact (OracularAt.after (f := fun s => advanceExec (takeExecByte i b s)) (oracularAt_finalizeIfDone i _)
    (fun q => by rw [takeExecByte_withAnswers]; rfl) (by simp) (keeps_events (by simp))).of_eq
    fun q => execWrite_of_bound (s := withAnswers q s) hi (hs.execPosition_lt hp)

theorem oracularAt_execRead {s : State} (hs : s.PhaseInv) (hp : s.phase = .execution) : OracularAt execRead s := by
  obtain ⟨i, hi⟩ : ∃ i, s.pendingInstr = some i := ⟨_, pendingInstr_of_pendingOpcode (hs.latched (by simp [hp]))⟩
  exact (OracularAt.after (f := fun s => advanceExec (deliver (s.execBuf.read s.execPosition) s))
    (oracularAt_finalizeIfDone i _) (fun _ => rfl) rfl (keeps_events rfl)).of_eq
    fun q => execRead_of_bound (s := withAnswers q s) hi (hs.execPosition_lt hp)

theorem oracularAt_writePhase {s : State} (b : Byte) (hs : s.PhaseInv) : OracularAt (writePhase b) s := by
  cases hp : s.phase with
  | idle =>
    have hi := pendingInstr_of_pendingOpcode (acceptOpcode_pendingOpcode b s)
    exact OracularAt.of_eq (OracularAt.after (oracularAt_dispatchIfComplete hi) (fun _ => rfl) rfl (keeps_events rfl))
      fun q => writePhase_of_idle (s := withAnswers q s) hp
  | command =>
    have hbound := hs.cmdPosition_lt hp
    have hi := pendingInstr_of_pendingOpcode (s := acceptOperand b s) (hs.latched (by simp [hp]))
    exact OracularAt.of_eq (OracularAt.after (oracularAt_dispatchIfComplete hi) (fun _ => rfl) rfl (keeps_events rfl))
      fun q => (writePhase_of_command (s := withAnswers q s) hp).trans
        (appendCommand_of_bound (s := withAnswers q s) hbound)
  | execution =>
    by_cases hd : s.direction = some .hostToController
    · exact (oracularAt_execWrite b hs hp).of_eq fun q => writePhase_of_toController (s := withAnswers q s) hp hd
    · exact oracularAt_stay.of_eq fun q => writePhase_of_stray (s := withAnswers q s) (.inr ⟨hp, hd⟩)
  | result => exact oracularAt_stay.of_eq fun q => writePhase_of_stray (s := withAnswers q s) (.inl hp)

theorem endIfRead_withAnswers (q : List Answer) (s : State) :
    endIfRead (withAnswers q s) = withAnswers q (endIfRead s) := by
  by_cases h : s.resLength = 0
  · rw [endIfRead_of_done h, endIfRead_of_done (s := withAnswers q s) h]
    rfl
  · rw [endIfRead_of_more h, endIfRead_of_more (s := withAnswers q s) h]

theorem oracularAt_readPhase {s : State} (hs : s.PhaseInv) : OracularAt readPhase s := by
  have hstray : OracularAt (fun s => .next (deliver Config.strayReadValue s)) s :=
    .of_oracularS (oracularS_update (f := deliver Config.strayReadValue) (fun _ _ => rfl) fun _ => rfl) (.next _) s
  cases hp : s.phase with
  | idle => exact hstray.of_eq fun q => readPhase_of_stray (s := withAnswers q s) (.inl hp)
  | command => exact hstray.of_eq fun q => readPhase_of_stray (s := withAnswers q s) (.inr (.inl hp))
  | execution =>
    by_cases hd : s.direction = some .controllerToHost
    · exact (oracularAt_execRead hs hp).of_eq fun q => readPhase_of_toHost (s := withAnswers q s) hp hd
    · exact hstray.of_eq fun q => readPhase_of_stray (s := withAnswers q s) (.inr (.inr ⟨hp, hd⟩))
  | result =>
    have hread : OracularS fun s => .next (endIfRead (advanceResult (deliver (s.resBuf.read s.resPosition) s))) :=
      oracularS_update (fun q s => endIfRead_withAnswers q (advanceResult (deliver (s.resBuf.read s.resPosition) s)))
        fun s => by simp
    exact (OracularAt.of_oracularS hread (.next _) s).of_eq fun q =>
      (readPhase_of_result (s := withAnswers q s) hp).trans
        (resultRead_of_bound (s := withAnswers q s) (hs.resPosition_lt hp))

theorem ackOnAccess_withAnswers (q : List Answer) (s : State) :
    ackOnAccess (withAnswers q s) = withAnswers q (ackOnAccess s) := by
  cases h : s.interruptState <;> simp [ackOnAccess, h, clearInterrupt_withAnswers]

theorem armOnCompletion_withAnswers (q : List Answer) (s : State) :
    armOnCompletion (withAnswers q s) = withAnswers q (armOnCompletion s) := by
  have harm : ∀ k n, arm k n (withAnswers q s) = withAnswers q (arm k n s) := by
    intro k n
    by_cases h : s.interruptState = .seekEnd
    · rw [arm_of_seekEnd h, arm_of_seekEnd (s := withAnswers q s) h]
    · simp only [arm, withAnswers_interruptState, h, if_false]
      rfl
  cases h : s.phase <;> simp [armOnCompletion, h, harm]

/-- An access is of the backends' layer where the phase's own part is. -/
theorem OracularAt.access {p : State → Result State} {s : State} (h : OracularAt p (ackOnAccess s)) :
    OracularAt (fun s => andThen (p (ackOnAccess s)) fun t => .next (armOnCompletion t)) s :=
  (h.after (fun q => ackOnAccess_withAnswers q s) (by simp) ⟨ackEvents s, by simp⟩).then
    (oracularS_update armOnCompletion_withAnswers fun _ => by simp) (.next _)

theorem oracularAt_writeData {s : State} (b : Byte) (hs : s.PhaseInv) : OracularAt (writeData b) s :=
  (oracularAt_writePhase b hs.ackOnAccess).access

theorem oracularAt_readData {s : State} (hs : s.PhaseInv) : OracularAt readData s :=
  (oracularAt_readPhase hs.ackOnAccess).access

/-! ### Faults and refusals of a step -/

theorem withAnswers_self (s : State) : withAnswers s.answers s = s := rfl

theorem OracularAt.ne_fault {p : State → Result State} {s : State} (h : OracularAt p s) (r : Fault) : p s ≠ .fault r := by
  obtain ⟨k, m, -, hf, -, -, hp⟩ := h
  rw [← withAnswers_self s, hp]
  exact hf _ r

/-- What a refusal on a scripted answer comes to: the answer breaks the contract of its call, and in its place any other lets
the operation complete and is recorded (R101). -/
structure BlamesAnswer (p : State → Result State) (s : State) (used : List Answer) (a : Answer) (rest : List Answer)
    (u : UnitNo) (c : Call) : Prop where
  answers : s.answers = used ++ a :: rest
  breaks : a.inContract c = false
  completes : ∀ a', a'.inContract c = true →
    ∃ t, p (withAnswers (used ++ [a']) s) = .next t ∧ .call u c a' ∈ t.events.drop s.events.length

theorem OracularS.blames {k : State → Result State} (hk : OracularS k) {s : State} {r : Refusal} (h : k s = .refused r) :
    r = .backendContract ∧ ∃ used a rest u c, s.answers = used ++ a :: rest ∧ a.inContract c = false ∧
      ∀ a', a'.inContract c = true → ∃ t evs, k (withAnswers (used ++ [a']) s) = .next t ∧ t.events = s.events ++ evs ∧
        .call u c a' ∈ evs := by
  obtain ⟨hr, used, a, rest, u, c, ha, hc, hgo⟩ := hk.refuses s r (by simp [h])
  refine ⟨hr, used, a, rest, u, c, ha, hc, fun a' ha' => ?_⟩
  obtain ⟨x, evs, hx, -, he, hmem⟩ := hgo a' ha'
  obtain ⟨t, hrun, heq⟩ := andThen_eq_next.1 hx
  cases heq
  exact ⟨t, evs, hrun, he, hmem⟩

theorem OracularAt.blames {p : State → Result State} {s : State} {r : Refusal} (h : OracularAt p s)
    (hr : p s = .refused r) : r = .backendContract ∧ ∃ used a rest u c, BlamesAnswer p s used a rest u c := by
  obtain ⟨k, m, hk, -, ⟨evs, he⟩, ha, hp⟩ := h
  rw [← withAnswers_self s, hp, ← ha, withAnswers_self] at hr
  obtain ⟨rfl, used, a, rest, u, c, hanswers, hc, hgo⟩ := hk.blames hr
  refine ⟨rfl, used, a, rest, u, c, ⟨ha ▸ hanswers, hc, fun a' ha' => ?_⟩⟩
  obtain ⟨t, evs', hrun, he', hmem⟩ := hgo a' ha'
  refine ⟨t, (hp _).trans hrun, ?_⟩
  rw [he', he, List.append_assoc, List.drop_left]
  exact List.mem_append_right _ hmem

/-- `setMotor` neither faults nor refuses under the invariant, for an Execution has its opcode. -/
theorem setMotor_completes {s : State} (mask : Byte) (hs : s.PhaseInv) : ∃ t, setMotor mask s = .next t := by
  unfold setMotor
  by_cases h : motorStopAborts mask s = true
  · obtain ⟨hp, -⟩ := motorStopAborts_iff.1 h
    have hi := pendingInstr_of_pendingOpcode (s := setMotors mask s) (hs.latched (by simp [hp]))
    rw [if_pos h, withPending_of_some hi]
    exact ⟨_, rfl⟩
  · rw [if_neg h]
    exact ⟨_, rfl⟩

theorem swapAllowed_eq_false_iff {u : UnitNo} {s : State} :
    swapAllowed u s = false ↔ s.drive u = none ∨ s.phase ≠ .idle ∧ s.selectedUnit = u := by
  unfold swapAllowed
  cases s.drive u <;> simp

/-- Under the invariant no host operation faults. -/
theorem perform_ne_fault {s : State} (op : HostOp) (hs : s.PhaseInv) (r : Fault) : perform op s ≠ .fault r := by
  cases op with
  | readStatus => simp [perform]
  | readData => exact (oracularAt_readData hs).ne_fault r
  | writeData b => exact (oracularAt_writeData b hs).ne_fault r
  | setMotor mask =>
    obtain ⟨t, ht⟩ := setMotor_completes mask hs
    simp [perform, ht]
  | tick => simp [perform]
  | reset => simp [perform]
  | insert u => simp only [perform, insertMedia]; split <;> simp
  | eject u => simp only [perform, ejectMedia]; split <;> simp
  | writeStatus b => simp [perform]
  | reenter op => simp [perform]

/-- What a host operation is refused for. -/
inductive RefusedFor (op : HostOp) (s : State) : Refusal → Prop where
  | contract (used : List Answer) (a : Answer) (rest : List Answer) (u : UnitNo) (c : Call)
      (blames : BlamesAnswer (perform op) s used a rest u c) : RefusedFor op s .backendContract
  | swap (u : UnitNo) (operation : op = .insert u ∨ op = .eject u)
      (forbidden : s.drive u = none ∨ s.phase ≠ .idle ∧ s.selectedUnit = u) : RefusedFor op s .mediaSwap
  | statusWrite (b : Byte) (operation : op = .writeStatus b) : RefusedFor op s .statusWrite
  | reentrant (inner : HostOp) (operation : op = .reenter inner) : RefusedFor op s .reentrantCall

theorem perform_refused {s : State} {op : HostOp} {r : Refusal} (hs : s.PhaseInv) (h : perform op s = .refused r) :
    RefusedFor op s r := by
  cases op with
  | readStatus => cases h
  | readData =>
    obtain ⟨rfl, used, a, rest, u, c, blames⟩ := (oracularAt_readData hs).blames h
    exact .contract used a rest u c ⟨blames.answers, blames.breaks, blames.completes⟩
  | writeData b =>
    obtain ⟨rfl, used, a, rest, u, c, blames⟩ := (oracularAt_writeData b hs).blames h
    exact .contract used a rest u c ⟨blames.answers, blames.breaks, blames.completes⟩
  | setMotor mask =>
    obtain ⟨t, ht⟩ := setMotor_completes mask hs
    rw [perform, ht] at h
    cases h
  | tick => cases h
  | reset => cases h
  | insert u =>
    simp only [perform, insertMedia] at h
    split at h
    · cases h
    · next hswap =>
      cases h
      exact .swap u (.inl rfl) (swapAllowed_eq_false_iff.1 (by simpa using hswap))
  | eject u =>
    simp only [perform, ejectMedia] at h
    split at h
    · cases h
    · next hswap =>
      cases h
      exact .swap u (.inr rfl) (swapAllowed_eq_false_iff.1 (by simpa using hswap))
  | writeStatus b => cases h; exact .statusWrite b rfl
  | reenter op => cases h; exact .reentrant op rfl

/-- The contract of R101 written out. -/
theorem inContract_iff (c : Call) (a : Answer) : a.inContract c = true ↔
    (∃ n e, c = .seekCylinder n ∧ a = .code e) ∨ (∃ h k e id, c = .readSectorId h k ∧ a = .header e id) ∨
    (∃ g e bytes, c = .readSector g ∧ a = .data e bytes ∧ bytes.length = g.len) ∨
    (∃ g bytes e, c = .writeSector g bytes ∧ a = .code e) ∨
    (∃ x y h k e bytes, c = .readTrack x y h k ∧ a = .data e bytes) ∨
    (∃ h sc bytes filler e, c = .formatTrack h sc bytes filler ∧ a = .code e) ∨
    (∃ b, c = .driveStatus ∧ a = .status b) ∨ (∃ r, c = .ready ∧ a = .isReady r) ∨ c = .eject ∧ a = .nothing := by
  cases c <;> cases a <;> simp [Answer.inContract]

/-- Settles O55: an access is one operation of the backends' layer, whose refusals blame one answer; the other operations
refuse by their own test. -/
theorem controllerNeverFaults : Obligations.ControllerNeverFaults := by
  intro s hs contract
  have hcontract : ∀ c a, contract c a ↔ a.inContract c = true := fun c a => (inContract_iff c a).symm
  cases hops : s.hostOps with
  | nil => simp [step_nil hops]
  | cons op rest =>
    obtain ⟨hph, -⟩ := State.inv_iff.1 (takeOp_inv rest hs)
    rw [step_cons hops]
    refine ⟨perform_ne_fault op hph, fun r hr => ?_⟩
    cases perform_refused hph hr with
    | contract used a rest' u c blames =>
      refine .inl ⟨rfl, used, a, rest', u, c, blames.answers, by simp [hcontract, blames.breaks], fun a' ha' => ?_⟩
      rw [step_cons (s := { s with hostOps := op :: rest, answers := used ++ [a'] }) rfl]
      exact blames.completes a' ((hcontract c a').1 ha')
    | swap u operation forbidden =>
      exact .inr (.inl ⟨rfl, u, by simpa using operation, forbidden⟩)
    | statusWrite b operation => exact .inr (.inr (.inl ⟨rfl, b, by simp [operation]⟩))
    | reentrant inner operation => exact .inr (.inr (.inr ⟨rfl, inner, by simp [operation]⟩))

end Sys2Proof.Machine
end

section
/-! SUPPORT. Proofs of the commands' frames and of the status bits' invariant: the state a data command prepares before its phase
opens (`DataPrepared`), the ends of RECALIBRATE and SEEK, and what follows for every step. -/

namespace Sys2Proof.Machine

open Sys2Proof

/-! ### The status bits the block never sets (R20 to R22, R144) -/

theorem State.StatusInv.of_eq {s t : State} (hs : s.StatusInv) (h0 : t.status0 = s.status0) (h1 : t.status1 = s.status1)
    (h2 : t.status2 = s.status2) : t.StatusInv :=
  ⟨h0 ▸ hs.st0, h1 ▸ hs.st1, h2 ▸ hs.st2, h2 ▸ hs.scan⟩

theorem State.StatusInv.of_statusOf {s t : State} (hs : s.StatusInv) (h : statusOf t = statusOf s) : t.StatusInv := by
  simp only [statusOf, Prod.mk.injEq] at h
  exact hs.of_eq h.1 h.2.1 h.2.2

/-- A bit clear in both operands is clear in their OR. -/
theorem or_and_eq_zero {a b m : Byte} (ha : a &&& m = 0) (hb : b &&& m = 0) : (a ||| b) &&& m = 0 := by
  rw [BitVec.and_or_distrib_right, ha, hb, BitVec.or_self]

/-- A value without bits of the mask leaves the masked value. -/
theorem or_and_eq_left {a b m : Byte} (hb : b &&& m = 0) : (a ||| b) &&& m = a &&& m := by
  rw [BitVec.and_or_distrib_right, hb]
  exact BitVec.or_zero

/-- No error code has a bit the block never sets, or one of the scan field (R111). -/
theorem deltasOf_unused (e : ErrorCode) : (deltasOf e).d0 &&& 0x10 = 0 ∧ (deltasOf e).d1 &&& 0x59 = 0 ∧
    (deltasOf e).d2 &&& 0xD0 = 0 ∧ (deltasOf e).d2 &&& 0x0C = 0 := by
  cases e <;> decide

theorem State.StatusInv.applyError {s : State} (e : ErrorCode) (hs : s.StatusInv) : (applyError e s).StatusInv := by
  obtain ⟨h0, h1, h2, hscan⟩ := deltasOf_unused e
  exact ⟨or_and_eq_zero hs.st0 h0, or_and_eq_zero hs.st1 h1, or_and_eq_zero hs.st2 h2, by
    rw [applyError_status2, or_and_eq_left hscan]; exact hs.scan⟩

theorem State.StatusInv.setSeekEnd {s : State} (hs : s.StatusInv) : (setSeekEnd s).StatusInv :=
  ⟨or_and_eq_zero hs.st0 (by decide), hs.st1, hs.st2, hs.scan⟩

theorem State.StatusInv.setAborted {s : State} (hs : s.StatusInv) : (setAborted s).StatusInv :=
  ⟨or_and_eq_zero hs.st0 (by decide), hs.st1, hs.st2, hs.scan⟩

theorem selectionBits_unused (h : HeadNo) (u : UnitNo) : selectionBits h u &&& 0x10 = 0 := by
  revert h u
  decide

theorem State.StatusInv.baseStatus (s : State) : (baseStatus s).StatusInv :=
  ⟨by simpa using selectionBits_unused s.selectedHead s.selectedUnit, by simp, by simp, by simp⟩

theorem scanUnequal_bits (b : Byte) (h : b &&& 0xD0 = 0) :
    (b &&& ~~~0x08) &&& 0xD0 = 0 ∧ (b &&& ~~~0x08) &&& 0x0C ≠ 0x0C ∧
      ((b &&& ~~~0x08) ||| 0x04) &&& 0xD0 = 0 ∧ ((b &&& ~~~0x08) ||| 0x04) &&& 0x0C ≠ 0x0C := by
  revert b
  decide

/-- A compared byte leaves the scan field out of its fourth value (R144). -/
theorem State.StatusInv.scanCompare {s : State} (i : Instr) (hb db : Byte) (hs : s.StatusInv) :
    (scanCompare i hb db s).StatusInv := by
  obtain ⟨hu, hu', hn, hn'⟩ := scanUnequal_bits s.status2 hs.st2
  unfold Machine.scanCompare
  repeat' split
  · exact hs
  · exact hs
  · exact ⟨hs.st0, hs.st1, hu, hu'⟩
  · exact ⟨hs.st0, hs.st1, hn, hn'⟩

theorem State.StatusInv.takeExecByte {s : State} (i : Instr) (b : Byte) (hs : s.StatusInv) : (takeExecByte i b s).StatusInv := by
  unfold Machine.takeExecByte
  split
  · exact hs.scanCompare i b _
  · exact hs.of_eq rfl rfl rfl

theorem asks_status {u : UnitNo} {s m : State} (h : Asks u s m) : statusOf m = statusOf s := by
  obtain ⟨-, -, -, rfl, -⟩ := h
  rfl

theorem finishAction_statusInv {i : Instr} {s t : State} (h : finishAction i s = .next t) (hs : s.StatusInv) : t.StatusInv := by
  rcases finishAction_next h with ⟨rfl, -⟩ | ⟨m, e, hm, rfl⟩ | ⟨m, e, hm, rfl, -⟩
  · exact hs
  · exact ((hs.of_statusOf (asks_status hm)).applyError e).of_eq rfl rfl rfl
  · exact (hs.of_statusOf (asks_status hm)).applyError e

theorem finalizeExecution_statusInv {i : Instr} {s t : State} (h : finalizeExecution i s = .next t) (hs : s.StatusInv) :
    t.StatusInv := by
  obtain ⟨m, hm, rfl⟩ := finalizeExecution_next h
  exact (finishAction_statusInv hm hs).of_eq rfl rfl rfl

/-! ### What a data command leaves alone before its phase opens -/

/-- The fields no data command writes but by its selection and by the opening of its phase. -/
structure Untouched (s m : State) : Prop where
  cmdBuf : m.cmdBuf = s.cmdBuf
  cmdPosition : m.cmdPosition = s.cmdPosition
  pendingOpcode : m.pendingOpcode = s.pendingOpcode
  spec1 : m.spec1 = s.spec1
  spec2 : m.spec2 = s.spec2
  interruptState : m.interruptState = s.interruptState
  ticksRemaining : m.ticksRemaining = s.ticksRemaining
  irqLine : m.irqLine = s.irqLine
  hostOps : m.hostOps = s.hostOps
  reply : m.reply = s.reply
  status3 : m.status3 = s.status3
  slots : m.slots = s.slots
  unit : m.selectedUnit = s.selectedUnit
  head : m.selectedHead = s.selectedHead
  resBuf : m.resBuf = s.resBuf
  resPosition : m.resPosition = s.resPosition

theorem Untouched.trans {s m t : State} (h : Untouched s m) (h' : Untouched m t) : Untouched s t :=
  ⟨h'.cmdBuf.trans h.cmdBuf, h'.cmdPosition.trans h.cmdPosition, h'.pendingOpcode.trans h.pendingOpcode,
    h'.spec1.trans h.spec1, h'.spec2.trans h.spec2, h'.interruptState.trans h.interruptState,
    h'.ticksRemaining.trans h.ticksRemaining, h'.irqLine.trans h.irqLine, h'.hostOps.trans h.hostOps, h'.reply.trans h.reply,
    h'.status3.trans h.status3, h'.slots.trans h.slots, h'.unit.trans h.unit, h'.head.trans h.head, h'.resBuf.trans h.resBuf,
    h'.resPosition.trans h.resPosition⟩

theorem untouched_asks {u : UnitNo} {s m : State} (h : Asks u s m) : Untouched s m := by
  obtain ⟨-, -, -, rfl, -⟩ := h
  constructor <;> rfl

theorem untouched_applyError (e : ErrorCode) (s : State) : Untouched s (applyError e s) := by constructor <;> rfl

theorem untouched_baseStatus (s : State) : Untouched s (baseStatus s) := by constructor <;> rfl

theorem untouched_scanBegin (s : State) : Untouched s (scanBegin s) := by constructor <;> rfl

theorem untouched_fillExec (bytes : List Byte) (s : State) : Untouched s (fillExec bytes s) := by constructor <;> rfl

theorem untouched_setWriteDeleted (b : Bool) (s : State) : Untouched s (setWriteDeleted b s) := by constructor <;> rfl

theorem untouched_setRotation (n : Nat) (s : State) : Untouched s (setRotation n s) := by constructor <;> rfl

theorem untouched_beginExecution (n : Nat) (s : State) : Untouched s (beginExecution n s) := by constructor <;> rfl

/-- The bytes a data command's dispatch stores in the execution buffer, from index 0 (R106, R108). -/
inductive StoredBytes (i : Instr) (uh : UnitHead) (evs : List Event) : List Byte → Prop where
  | nothing : StoredBytes i uh evs []
  | sector (f : OpFlags) (uh' : UnitHead) (id : SectorId) (dtl : Byte) (deleted : Bool) (bytes : List Byte)
      (instr : readsSector i = some (f, uh', id, dtl, deleted)) (length : bytes.length = sectorLen id.n dtl) :
      StoredBytes i uh evs bytes
  | track (f : OpFlags) (id : SectorId) (eot gpl dtl : Byte) (e : ErrorCode) (bytes : List Byte)
      (instr : i = .readTrack f uh id eot gpl dtl)
      (call : .call uh.us (.readTrack id.c id.h uh.hd Config.execCap) (.data e bytes) ∈ evs) :
      StoredBytes i uh evs (bytes.take Config.execCap)

theorem StoredBytes.append {i : Instr} {uh : UnitHead} {evs bytes} (h : StoredBytes i uh evs bytes) (evs' : List Event) :
    StoredBytes i uh (evs ++ evs') bytes := by
  cases h with
  | nothing => exact .nothing
  | sector f uh' id dtl deleted bytes instr length => exact .sector f uh' id dtl deleted bytes instr length
  | track f id eot gpl dtl e bytes instr call =>
    exact .track f id eot gpl dtl e bytes instr (List.mem_append_left _ call)

/-- What the execution buffer holds after a data command has stored its bytes. -/
def Stores (i : Instr) (uh : UnitHead) (s m : State) : Prop :=
  ∃ bytes evs, m.events = s.events ++ evs ∧ m.execBuf = s.execBuf.writeBytes 0 bytes ∧ StoredBytes i uh evs bytes

/-- The state a data command prepares before its phase opens. -/
structure DataPrepared (i : Instr) (uh : UnitHead) (s m : State) : Prop where
  untouched : Untouched (select uh s) m
  status : m.StatusInv
  stores : Stores i uh s m
  rotation : (∀ f, i ≠ .readId f uh) → m.rotatingSectorIndex = 0
  flag : writesSector i = none → m.writeDeletedFlag = s.writeDeletedFlag

/-- An update that stores nothing. -/
theorem DataPrepared.update {i : Instr} {uh : UnitHead} {s m m' : State} (h : DataPrepared i uh s m) (hu : Untouched m m')
    (hs : m'.StatusInv) (he : m'.events = m.events) (hb : m'.execBuf = m.execBuf)
    (hr : (∀ f, i ≠ .readId f uh) → m'.rotatingSectorIndex = m.rotatingSectorIndex)
    (hf : writesSector i = none → m'.writeDeletedFlag = m.writeDeletedFlag) : DataPrepared i uh s m' := by
  obtain ⟨bytes, evs, hevs, hexec, hbytes⟩ := h.stores
  exact ⟨h.untouched.trans hu, hs, ⟨bytes, evs, he.trans hevs, hb.trans hexec, hbytes⟩,
    fun hi => (hr hi).trans (h.rotation hi), fun hi => (hf hi).trans (h.flag hi)⟩

theorem DataPrepared.asks {i : Instr} {uh : UnitHead} {u : UnitNo} {s m m' : State} (h : DataPrepared i uh s m)
    (ha : Asks u m m') : DataPrepared i uh s m' := by
  obtain ⟨bytes, evs, hevs, hexec, hbytes⟩ := h.stores
  obtain ⟨evs', q, n, rfl, -⟩ := ha
  exact ⟨h.untouched.trans ⟨rfl, rfl, rfl, rfl, rfl, rfl, rfl, rfl, rfl, rfl, rfl, rfl, rfl, rfl, rfl, rfl⟩,
    h.status.of_eq rfl rfl rfl, ⟨bytes, evs ++ evs', by simp [hevs], hexec, hbytes.append evs'⟩, h.rotation, h.flag⟩

theorem DataPrepared.applyError {i : Instr} {uh : UnitHead} {s m : State} (e : ErrorCode) (h : DataPrepared i uh s m) :
    DataPrepared i uh s (applyError e m) :=
  h.update (untouched_applyError e m) (h.status.applyError e) rfl rfl (fun _ => rfl) fun _ => rfl

theorem DataPrepared.beginExecution {i : Instr} {uh : UnitHead} {s m : State} (n : Nat) (h : DataPrepared i uh s m) :
    DataPrepared i uh s (beginExecution n m) :=
  h.update (untouched_beginExecution n m) (h.status.of_eq rfl rfl rfl) rfl rfl (fun _ => rfl) fun _ => rfl

theorem DataPrepared.setWriteDeleted {i : Instr} {uh : UnitHead} {s m : State} (b : Bool) (h : DataPrepared i uh s m)
    (hi : writesSector i ≠ none) : DataPrepared i uh s (setWriteDeleted b m) :=
  h.update (untouched_setWriteDeleted b m) (h.status.of_eq rfl rfl rfl) rfl rfl (fun _ => rfl) fun hn => absurd hn hi

theorem DataPrepared.finishAction {i : Instr} {uh : UnitHead} {s m t : State} (h : DataPrepared i uh s m)
    (hf : finishAction i m = .next t) : DataPrepared i uh s t := by
  cases i
  case writeData | writeDeletedData =>
    obtain ⟨r, hr, ht⟩ := andThen_eq_next.1 hf
    cases ht
    exact ((h.asks (writeSector_next hr)).applyError r.1).setWriteDeleted false (by simp [writesSector])
  case formatTrack =>
    obtain ⟨r, hr, ht⟩ := andThen_eq_next.1 hf
    cases ht
    exact (h.asks (formatWholeTrack_next hr)).applyError r.1
  all_goals
    cases hf
    exact h

/-- Once selection and base status are set, and the rotation restarted but by READ ID. -/
theorem dataPrepared_base (i : Instr) (uh : UnitHead) (s : State) {s' : State}
    (hs' : s' = restartRotation s ∨ s' = s ∧ ∃ f, i = .readId f uh) : DataPrepared i uh s (baseStatus (select uh s')) := by
  rcases hs' with rfl | ⟨rfl, f, rfl⟩
  · exact ⟨⟨rfl, rfl, rfl, rfl, rfl, rfl, rfl, rfl, rfl, rfl, rfl, rfl, rfl, rfl, rfl, rfl⟩, .baseStatus _,
      ⟨[], [], by simp, rfl, .nothing⟩, fun _ => rfl, fun _ => rfl⟩
  · exact ⟨untouched_baseStatus _, .baseStatus _, ⟨[], [], by simp, rfl, .nothing⟩, fun h => absurd rfl (h f), fun _ => rfl⟩

/-! ### The two ways a data command's dispatch ends -/

/-- The two ways a data command's dispatch ends. -/
inductive DataEnd (i : Instr) (uh : UnitHead) (s t : State) : Prop where
  | result (m : State) (bytes : List Byte) (prepared : DataPrepared i uh s m) (length : bytes.length = 7)
      (eq : t = openResult bytes m)
  | execution (m : State) (n : Nat) (prepared : DataPrepared i uh s m) (eq : t = beginExecution n m)

theorem DataPrepared.fail {i : Instr} {uh : UnitHead} {s m : State} (e : ErrorCode) (h : DataPrepared i uh s m) :
    DataEnd i uh s (failCommand i e m) :=
  .result _ _ (h.applyError e) rfl rfl

theorem DataPrepared.openExecution {i : Instr} {uh : UnitHead} {n : Nat} {s m t : State} (h : DataPrepared i uh s m)
    (ho : openExecution i n m = .next t) : DataEnd i uh s t := by
  rcases openExecution_next ho with ⟨-, rfl⟩ | ⟨-, k, hk, rfl⟩
  · exact .execution m n h rfl
  · exact .result k _ ((h.beginExecution 0).finishAction hk) rfl rfl

/-- A call that fails on an unusable slot stores nothing; one that answers fills the execution buffer with its bytes. -/
theorem DataPrepared.fillExec {i : Instr} {uh : UnitHead} {u : UnitNo} {s m m' : State} {bytes : List Byte}
    (h : DataPrepared i uh s m) (hb : m.execBuf = s.execBuf) (ha : Asks u m m')
    (hbytes : ∀ evs, m'.events = s.events ++ evs → StoredBytes i uh evs bytes) :
    DataPrepared i uh s (fillExec bytes m') := by
  obtain ⟨untouched, status, ⟨-, evs, hevs, -, -⟩, rotation, flag⟩ := h.asks ha
  have hb' : m'.execBuf = s.execBuf := by
    obtain ⟨-, -, -, rfl, -⟩ := ha
    exact hb
  exact ⟨untouched.trans (untouched_fillExec bytes m'), status.of_eq rfl rfl rfl,
    ⟨bytes, evs, hevs, by simp [hb'], hbytes evs hevs⟩, rotation, flag⟩

/-- A cleared scan field may be set to "still matching" (R143). -/
theorem State.StatusInv.scanBegin {s : State} (hs : s.StatusInv) (h : s.status2 &&& 0x0C = 0) : (scanBegin s).StatusInv := by
  refine ⟨hs.st0, hs.st1, or_and_eq_zero hs.st2 (by decide), ?_⟩
  rw [scanBegin_status2, BitVec.and_or_distrib_right, h]
  decide

theorem DataPrepared.scanBegin {i : Instr} {uh : UnitHead} {s m : State} (h : DataPrepared i uh s m)
    (hc : m.status2 &&& 0x0C = 0) : DataPrepared i uh s (scanBegin m) :=
  h.update (untouched_scanBegin m) (h.status.scanBegin hc) rfl rfl (fun _ => rfl) fun _ => rfl

theorem asks_execBuf {u : UnitNo} {s m : State} (h : Asks u s m) : m.execBuf = s.execBuf := by
  obtain ⟨-, -, -, rfl, -⟩ := h
  rfl

theorem asks_status2 {u : UnitNo} {s m : State} (h : Asks u s m) : m.status2 = s.status2 := by
  obtain ⟨-, -, -, rfl, -⟩ := h
  rfl

theorem dataEnd_dispatchRead {i : Instr} {deleted : Bool} {begin : State → State} {f : OpFlags} {uh : UnitHead}
    {id : SectorId} {dtl : Byte} {s t : State}
    (h : dispatchRead i deleted begin f uh id dtl (restartRotation s) = .next t)
    (hi : readsSector i = some (f, uh, id, dtl, deleted)) (hb : begin = scanBegin ∨ begin = fun t => t) :
    DataEnd i uh s t := by
  obtain ⟨r, hr, h⟩ := andThen_eq_next.1 h
  obtain ⟨ha, -⟩ := dataSetup_next hr
  have hp : DataPrepared i uh s r.2 := (dataPrepared_base i uh s (.inl rfl)).asks ha
  split at h
  · obtain ⟨q, hq, h⟩ := andThen_eq_next.1 h
    have hq' : DataPrepared i uh s q.2 ∧ q.2.status2 = 0 := by
      rcases readSector_next hq with rfl | ⟨m, bytes, hm, hlen, hq2⟩
      · exact ⟨hp, asks_status2 ha⟩
      · rw [hq2]
        exact ⟨hp.fillExec ((asks_execBuf ha).trans rfl) hm fun _ _ => .sector f uh id dtl deleted bytes hi hlen,
          (asks_status2 hm).trans (asks_status2 ha)⟩
    obtain ⟨hq', hclear⟩ := hq'
    split at h
    · next hok =>
      refine DataPrepared.openExecution ?_ h
      rcases hb with rfl | rfl
      · exact (hq'.applyError q.1).scanBegin (by simp [hok, hclear, deltasOf])
      · exact hq'.applyError q.1
    · cases h
      exact hq'.fail q.1
  · cases h
    exact hp.fail _

theorem dataEnd_dispatchWrite {i : Instr} {deleted : Bool} {uh : UnitHead} {id : SectorId} {dtl : Byte} {s t : State}
    (h : dispatchWrite i deleted uh id dtl (restartRotation s) = .next t) (hi : writesSector i ≠ none) : DataEnd i uh s t := by
  obtain ⟨r, hr, h⟩ := andThen_eq_next.1 h
  obtain ⟨ha, -⟩ := dataSetup_next hr
  have hp : DataPrepared i uh s r.2 := (dataPrepared_base i uh s (.inl rfl)).asks ha
  split at h
  · exact (hp.setWriteDeleted deleted hi).openExecution h
  · cases h
    exact hp.fail _

theorem dataEnd_readId {f : OpFlags} {uh : UnitHead} {s t : State} (h : execReadId f uh s = .next t) :
    DataEnd (.readId f uh) uh s t := by
  obtain ⟨r, hr, h⟩ := andThen_eq_next.1 h
  obtain ⟨ha, -⟩ := dataSetup_next hr
  have hp : DataPrepared (.readId f uh) uh s r.2 := (dataPrepared_base _ uh s (.inr ⟨rfl, f, rfl⟩)).asks ha
  split at h
  · obtain ⟨q, hq, h⟩ := andThen_eq_next.1 h
    have hq' := hp.asks (readSectorHeader_next hq)
    have hrot : DataPrepared (.readId f uh) uh s (setRotation (r.2.rotatingSectorIndex + 1) q.2) :=
      hq'.update (untouched_setRotation _ _) (hq'.status.of_eq rfl rfl rfl) rfl rfl (fun hi => absurd rfl (hi f)) fun _ => rfl
    split at h <;> cases h
    · exact .result _ _ hrot rfl rfl
    · exact hrot.fail q.1.1
  · cases h
    exact hp.fail _

theorem dataEnd_formatTrack {f : OpFlags} {uh : UnitHead} {n sc gpl d : Byte} {s t : State}
    (h : execFormatTrack f uh n sc gpl d s = .next t) : DataEnd (.formatTrack f uh n sc gpl d) uh s t := by
  obtain ⟨r, hr, h⟩ := andThen_eq_next.1 h
  obtain ⟨ha, -⟩ := dataSetup_next hr
  have hp := (dataPrepared_base (.formatTrack f uh n sc gpl d) uh s (.inl rfl)).asks ha
  split at h
  · exact hp.openExecution h
  · cases h
    exact hp.fail _

/-- `ReadTrack` (R108) with its call in the history. -/
theorem readWholeTrack_call {u : UnitNo} {c h : Byte} {hd : HeadNo} {s : State} {r : (ErrorCode × Nat) × State}
    (e : readWholeTrack u c h hd s = .next r) :
    r.2 = s ∨ ∃ m code bytes, Asks u s m ∧ m.events = s.events ++ [.call u (.readTrack c h hd Config.execCap) (.data code bytes)] ∧
      r.2 = fillExec (bytes.take Config.execCap) m := by
  unfold readWholeTrack at e
  split at e
  · next hu =>
    obtain ⟨a, ha, hr⟩ := andThen_eq_next.1 e
    cases hr
    obtain ⟨hcontract, q, n, hm⟩ := ask_next ha
    obtain ⟨code, bytes, hdata⟩ : ∃ code bytes, a.1 = .data code bytes := by
      cases ha' : a.1 <;> simp_all [Answer.inContract]
    refine .inr ⟨a.2, code, bytes, asks_of_ask hu ha, by rw [hm, hdata], by rw [hdata, bytes_data]⟩
  · cases e
    exact .inl rfl

theorem dataEnd_readTrack {f : OpFlags} {uh : UnitHead} {id : SectorId} {eot gpl dtl : Byte} {s t : State}
    (h : execReadTrack f uh id eot gpl dtl s = .next t) : DataEnd (.readTrack f uh id eot gpl dtl) uh s t := by
  obtain ⟨r, hr, h⟩ := andThen_eq_next.1 h
  obtain ⟨ha, -⟩ := dataSetup_next hr
  have hp := (dataPrepared_base (.readTrack f uh id eot gpl dtl) uh s (.inl rfl)).asks ha
  split at h
  · obtain ⟨q, hq, h⟩ := andThen_eq_next.1 h
    have hq' : DataPrepared (.readTrack f uh id eot gpl dtl) uh s q.2 := by
      rcases readWholeTrack_call hq with hq2 | ⟨m, code, bytes, hm, hevents, hq2⟩
      · rwa [hq2]
      · rw [hq2]
        refine hp.fillExec ((asks_execBuf ha).trans rfl) hm fun evs hevs => .track f id eot gpl dtl code bytes rfl ?_
        obtain ⟨-, evs', hevs', -, -⟩ := hp.stores
        rw [hevents, hevs', List.append_assoc, List.append_cancel_left_eq] at hevs
        rw [← hevs]
        simp
    split at h
    · exact (hq'.applyError q.1.1).openExecution h
    · cases h
      exact hq'.fail q.1.1
  · cases h
    exact hp.fail _

/-- What the dispatch of a data command can do. -/
theorem dataEnd_of_exec {i : Instr} {uh : UnitHead} {s t : State} (hd : isDataCommand i = true) (hu : unitHeadOf i = some uh)
    (h : exec i s = .next t) : DataEnd i uh s t := by
  cases i <;> cases hd <;> cases hu
  case readTrack => exact dataEnd_readTrack h
  case readId => exact dataEnd_readId h
  case formatTrack => exact dataEnd_formatTrack h
  case writeData | writeDeletedData => exact dataEnd_dispatchWrite h (by simp [writesSector])
  case readData | readDeletedData => exact dataEnd_dispatchRead (begin := fun t => t) h rfl (.inr rfl)
  all_goals exact dataEnd_dispatchRead (begin := scanBegin) h rfl (.inl rfl)

/-! ### The frame of the data commands -/

theorem DataPrepared.frame {i : Instr} {uh : UnitHead} {s m : State} (h : DataPrepared i uh s m) : DataFrame uh s m := by
  obtain ⟨cmdBuf, cmdPosition, pendingOpcode, spec1, spec2, pending, ticks, line, hostOps, reply, status3, slots, unit, head,
    resBuf, -⟩ := h.untouched
  exact ⟨⟨fun a => by rw [cmdBuf]; rfl, cmdPosition, pendingOpcode⟩, ⟨spec1, spec2⟩, ⟨pending, ticks, line⟩, ⟨hostOps, reply⟩,
    status3, slots, unit, head, fun a _ => by rw [resBuf]; rfl⟩

theorem keepsResFrom_openResult {n : Nat} (bytes : List Byte) (s : State) (h : bytes.length ≤ n) :
    KeepsResFrom n s (openResult bytes s) :=
  fun a ha => Memory.read_writeBytes_outside bytes s.resBuf (by omega)

/-- The opening of a phase leaves the frame. -/
theorem DataEnd.frame {i : Instr} {uh : UnitHead} {s t : State} (h : DataEnd i uh s t) : DataFrame uh s t := by
  cases h with
  | result m bytes prepared length eq =>
    subst eq
    obtain ⟨⟨cmdBuf, cmdPosition, opcode⟩, ⟨spec1, spec2⟩, ⟨pending, ticks, line⟩, ⟨hostOps, reply⟩, status3, slots, unit, head,
      result⟩ := prepared.frame
    refine ⟨⟨cmdBuf, cmdPosition, opcode⟩, ⟨spec1, spec2⟩, ⟨pending, ticks, line⟩, ⟨hostOps, reply⟩, status3, slots, unit, head,
      fun a ha => ?_⟩
    rw [keepsResFrom_openResult bytes m length.le a ha, result a ha]
  | execution m n prepared eq =>
    subst eq
    exact (prepared.beginExecution n).frame

/-- The prepared state tells what an ended dispatch stored, its rotation and its deleted flag. -/
theorem DataEnd.stores {i : Instr} {uh : UnitHead} {s t : State} (h : DataEnd i uh s t) :
    Stores i uh s t ∧ ((∀ f, i ≠ .readId f uh) → t.rotatingSectorIndex = 0) ∧
      (writesSector i = none → t.writeDeletedFlag = s.writeDeletedFlag) := by
  cases h with
  | result m bytes prepared length eq => subst eq; exact ⟨prepared.stores, prepared.rotation, prepared.flag⟩
  | execution m n prepared eq => subst eq; exact ⟨prepared.stores, prepared.rotation, prepared.flag⟩

theorem DataEnd.of_execution {i : Instr} {uh : UnitHead} {s t : State} (h : DataEnd i uh s t) (hp : t.phase = .execution) :
    t.resBuf = s.resBuf ∧ t.resPosition = s.resPosition := by
  cases h with
  | result m bytes prepared length eq =>
    rw [eq] at hp
    cases hp
  | execution m n prepared eq =>
    subst eq
    exact ⟨prepared.untouched.resBuf, prepared.untouched.resPosition⟩

/-- Every byte beyond those stored is as it was. -/
theorem Stores.read_beyond {i : Instr} {uh : UnitHead} {s m : State} (h : Stores i uh s m) (a : Nat)
    (ha : ∀ bytes, StoredBytes i uh (m.events.drop s.events.length) bytes → bytes.length ≤ a) :
    m.execBuf.read a = s.execBuf.read a := by
  obtain ⟨bytes, evs, hevs, hexec, hbytes⟩ := h
  rw [hevs, List.drop_left] at ha
  have hlen := ha bytes hbytes
  rw [hexec, Memory.read_writeBytes_outside bytes s.execBuf (by omega)]

/-- Settles O24: the prepared state keeps the frame, and its stored bytes are those a read's answer delivered. -/
theorem dataCommandFrame : Obligations.DataCommandFrame := by
  intro i uh s t hd hu h
  have hend := dataEnd_of_exec hd hu h
  obtain ⟨hstores, hrotation, hflag⟩ := hend.stores
  refine ⟨hend.frame, hend.of_execution, fun htrack hsector a => hstores.read_beyond a fun bytes hb => ?none,
    fun f uh' id dtl del hi a ha => hstores.read_beyond a fun bytes hb => ?sector,
    fun f id eot gpl dtl hi a ha => hstores.read_beyond a fun bytes hb => ?track, hrotation, hflag⟩
  case none =>
    cases hb with
    | nothing => exact Nat.zero_le a
    | sector f uh' id dtl deleted bytes instr length => simp [hsector] at instr
    | track f id eot gpl dtl e bytes instr call => exact absurd instr (htrack f id eot gpl dtl)
  case sector =>
    cases hb with
    | nothing => exact Nat.zero_le a
    | sector f uh' id dtl deleted bytes instr length =>
      rw [hi] at instr
      cases instr
      exact length.trans_le ha
    | track f id eot gpl dtl e bytes instr call => simp [instr, readsSector] at hi
  case track =>
    cases hb with
    | nothing => exact Nat.zero_le a
    | sector f uh' id dtl deleted bytes instr length => simp [hi, readsSector] at instr
    | track f' id' eot' gpl' dtl' e bytes instr call =>
      rw [hi] at instr
      cases instr
      have hmin := ha e bytes call
      rw [List.length_take, Nat.min_comm]
      exact hmin

/-! ### RECALIBRATE and SEEK -/

/-- RECALIBRATE and SEEK are one seek with their own target (R122, R123). -/
theorem exec_of_seekTarget {i : Instr} {n : Byte} {uh : UnitHead} (hn : seekTarget i = some n) (hu : unitHeadOf i = some uh)
    (s : State) : exec i s = seekCommon n (baseStatus (select uh (restartRotation s))) := by
  cases i <;> cases hn <;> cases hu <;> rfl

/-- A seek ends in Idle with SeekEnd armed; its drive is asked, and moves at most to the target (R124). -/
theorem seek_next {i : Instr} {n : Byte} {uh : UnitHead} {s t : State} (hn : seekTarget i = some n)
    (hu : unitHeadOf i = some uh) (h : exec i s = .next t) :
    ∃ m m' e, Asks uh.us (baseStatus (select uh (restartRotation s))) m ∧ (m' = m ∨ m' = setCylinder uh.us n m) ∧
      t = endCommand (armSeekEnd (applyError e (setSeekEnd m'))) := by
  rw [exec_of_seekTarget hn hu] at h
  obtain ⟨r, hr, h⟩ := andThen_eq_next.1 h
  obtain ⟨ha, -⟩ := driveReady_next hr
  obtain ⟨q, hq, h⟩ := andThen_eq_next.1 h
  cases h
  split at hq
  · obtain ⟨m, hm, ⟨-, hq2⟩ | ⟨-, hq2⟩⟩ := seekTo_next hq
    · exact ⟨m, q.2, q.1, ha.trans hm, .inr hq2, rfl⟩
    · exact ⟨m, q.2, q.1, ha.trans hm, .inl hq2, rfl⟩
  · cases hq
    exact ⟨r.2, r.2, .notReady, ha, .inl rfl, rfl⟩

theorem drive_setCylinder (u v : UnitNo) (n : Byte) (s : State) :
    (setCylinder u n s).drive v =
      if u = v then (s.drive v).map fun d => { d with currentCylinder := n.toNat } else s.drive v := by
  unfold setCylinder
  split
  · next h =>
    split
    · next hv => simp [← hv, h]
    · rfl
  · next d h =>
    rw [drive_setDrive]
    split
    · next hv => simp [← hv, h]
    · rfl

/-- What a seek leaves of the drives. -/
theorem seek_drives {uh : UnitHead} {n : Byte} {s m m' : State} (hm : Asks uh.us (baseStatus (select uh (restartRotation s))) m)
    (hm' : m' = m ∨ m' = setCylinder uh.us n m) :
    (∀ v, v ≠ uh.us → m'.drive v = s.drive v) ∧ (m'.drive uh.us = s.drive uh.us ∨
      ∃ d, s.drive uh.us = some d ∧ m'.drive uh.us = some { d with currentCylinder := n.toNat }) := by
  have hdrive : ∀ v, m.drive v = s.drive v := fun v => drive_of_slots (untouched_asks hm).slots v
  rcases hm' with rfl | rfl
  · exact ⟨fun v _ => hdrive v, .inl (hdrive _)⟩
  · refine ⟨fun v hv => ?_, ?_⟩
    · rw [drive_setCylinder, if_neg (Ne.symm hv), hdrive]
    · rw [drive_setCylinder, if_pos rfl, hdrive]
      cases s.drive uh.us with
      | none => exact .inl rfl
      | some d => exact .inr ⟨d, rfl, rfl⟩

/-! ### The frame of the status-only commands -/

/-- What a seek leaves alone or sets whatever its drive answers. -/
structure SeekFrame (uh : UnitHead) (s t : State) : Prop where
  hostOps : t.hostOps = s.hostOps
  reply : t.reply = s.reply
  cmdBuf : t.cmdBuf = s.cmdBuf
  cmdPosition : t.cmdPosition = s.cmdPosition
  execBuf : t.execBuf = s.execBuf
  execPosition : t.execPosition = s.execPosition
  resBuf : t.resBuf = s.resBuf
  resPosition : t.resPosition = s.resPosition
  flag : t.writeDeletedFlag = s.writeDeletedFlag
  rotation : t.rotatingSectorIndex = 0
  phase : t.phase = .idle
  spec1 : t.spec1 = s.spec1
  spec2 : t.spec2 = s.spec2
  status3 : t.status3 = s.status3
  unit : t.selectedUnit = uh.us
  head : t.selectedHead = uh.hd
  line : t.irqLine = s.irqLine

theorem seekFrame {uh : UnitHead} {n : Byte} {s m m' : State} (e : ErrorCode)
    (hm : Asks uh.us (baseStatus (select uh (restartRotation s))) m) (hm' : m' = m ∨ m' = setCylinder uh.us n m) :
    SeekFrame uh s (endCommand (armSeekEnd (applyError e (setSeekEnd m')))) := by
  obtain ⟨evs, q, k, rfl, -⟩ := hm
  rcases hm' with rfl | rfl
  · constructor <;> rfl
  · constructor <;> simp

/-- A result of one byte that only the rotation's restart precedes: INVALID's, and SENSE INTERRUPT STATUS's with no SeekEnd. -/
theorem exec_oneByte_next {i : Instr} {s t : State} (hi : (∃ f code, i = .invalid f code) ∨ ∃ f, i = .senseInterruptStatus f)
    (hs : s.interruptState ≠ .seekEnd ∨ ∃ f code, i = .invalid f code) (h : exec i s = .next t) :
    t = openResult [0x80] (restartRotation s) := by
  rcases hi with ⟨f, code, rfl⟩ | ⟨f, rfl⟩
  · cases h
    rfl
  · have hpending : s.interruptState ≠ .seekEnd := hs.elim id fun ⟨_, _, heq⟩ => by cases heq
    rw [exec_senseInterruptStatus_of_not_seekEnd f hpending] at h
    cases h
    rfl

/-- With a SeekEnd pending its two bytes are the result, and it is cleared (R120). -/
theorem exec_senseInterruptStatus_of_seekEnd (f : OpFlags) {s : State} (h : s.interruptState = .seekEnd) :
    exec (.senseInterruptStatus f) s =
      .next (openResult [s.status0, s.reportedCylinder s.selectedUnit] (clearInterrupt (restartRotation s))) :=
  if_pos h

/-- SENSE DRIVE STATUS is one call at most, and the byte it composes (R119). -/
theorem exec_senseDriveStatus_next {f : OpFlags} {uh : UnitHead} {s t : State} (h : exec (.senseDriveStatus f uh) s = .next t) :
    ∃ m b, Asks uh.us (select uh (restartRotation s)) m ∧ t = openResult [b] (setStatus3 b m) := by
  obtain ⟨r, hr, h⟩ := andThen_eq_next.1 h
  cases h
  exact ⟨r.2, r.1, (driveStatusByte_next hr).1, rfl⟩

/-- Settles O25: each command's end is one chain of named updates, and each update keeps what the frame names. -/
theorem statusCommandFrame : Obligations.StatusCommandFrame := by
  intro i s t hd h
  have hres1 : ∀ b m, KeepsResFrom 1 m (openResult [b] m) := fun b m => keepsResFrom_openResult [b] m (le_refl 1)
  have hres2 : ∀ b b' m, KeepsResFrom 2 m (openResult [b, b'] m) := fun b b' m => keepsResFrom_openResult [b, b'] m (le_refl 2)
  cases i <;> cases hd
  case recalibrate | seek =>
    obtain ⟨m, m', e, hm, hm', rfl⟩ := seek_next rfl rfl h
    have hframe := seekFrame e hm hm'
    obtain ⟨hothers, hown⟩ := seek_drives hm hm'
    refine ⟨⟨hframe.hostOps, hframe.reply⟩, hframe.cmdBuf, hframe.cmdPosition,
      ⟨fun _ => by rw [hframe.execBuf], hframe.execPosition⟩, fun _ _ => by rw [hframe.resBuf],
      fun _ _ _ => by rw [hframe.resBuf], fun _ => ⟨hframe.resBuf, hframe.resPosition⟩, hframe.flag, hframe.rotation, nofun,
      fun _ => ⟨hframe.spec1, hframe.spec2⟩, nofun, ?others, ?own, fun _ => hframe.status3, nofun, ?selection,
      fun _ => hframe.line, nofun⟩
    case others =>
      intro uh' v huh hv
      cases huh
      exact hothers v hv
    case own =>
      intro uh' huh
      cases huh
      exact hown.imp id fun ⟨d, hd, hd'⟩ => ⟨d, _, hd, rfl, hd'⟩
    case selection =>
      intro uh' huh
      cases huh
      exact ⟨hframe.unit, hframe.head⟩
  case specify f a b =>
    cases h
    exact ⟨⟨rfl, rfl⟩, rfl, rfl, ⟨fun _ => rfl, rfl⟩, fun _ _ => rfl, fun _ _ _ => rfl, fun _ => ⟨rfl, rfl⟩, rfl, rfl,
      nofun, fun h => absurd rfl (h f a b), fun _ => ⟨rfl, rfl⟩, fun _ _ _ _ => rfl, nofun, fun _ => rfl, fun _ => ⟨rfl, rfl⟩,
      nofun, fun _ => rfl, fun _ _ => ⟨rfl, rfl, rfl⟩⟩
  case senseDriveStatus f uh =>
    obtain ⟨m, b, ⟨evs, q, n, rfl, -⟩, rfl⟩ := exec_senseDriveStatus_next h
    refine ⟨⟨rfl, rfl⟩, rfl, rfl, ⟨fun _ => rfl, rfl⟩, fun a ha => hres1 b _ a (by omega), fun _ => hres1 b _, ?noResult, rfl, rfl,
      fun _ => rfl, fun _ => ⟨rfl, rfl⟩, fun _ => ⟨rfl, rfl⟩, fun _ _ _ _ => rfl, fun _ _ => .inl rfl,
      fun h => absurd rfl (h f uh), nofun, ?selection, fun _ => rfl, fun _ _ => ⟨rfl, rfl, rfl⟩⟩
    case noResult => simp [seekTarget]
    case selection =>
      intro uh' huh
      cases huh
      exact ⟨rfl, rfl⟩
  case senseInterruptStatus f =>
    by_cases hs : s.interruptState = .seekEnd
    · rw [exec_senseInterruptStatus_of_seekEnd f hs] at h
      cases h
      refine ⟨⟨by simp, by simp⟩, by simp, by simp, ⟨by simp, by simp⟩, fun a ha => ?result, ?oneByte, ?noResult, by simp,
        by simp, by simp, fun _ => ⟨by simp, by simp⟩, fun _ => ⟨by simp [statusOf], by simp⟩, nofun, nofun, by simp, by simp,
        nofun, fun h => absurd rfl (h f), fun _ h => absurd rfl (h f)⟩
      case result =>
        rw [hres2 _ _ _ a ha]
        simp
      case oneByte => simp [hs]
      case noResult => simp [seekTarget]
    · obtain rfl := exec_oneByte_next (.inr ⟨f, rfl⟩) (.inl hs) h
      refine ⟨⟨rfl, rfl⟩, rfl, rfl, ⟨fun _ => rfl, rfl⟩, fun a ha => hres1 _ _ a (by omega), fun _ => hres1 _ _, ?noResult, rfl,
        rfl, fun _ => rfl, fun _ => ⟨rfl, rfl⟩, fun _ => ⟨rfl, rfl⟩, nofun, nofun, fun _ => rfl, fun _ => ⟨rfl, rfl⟩, nofun,
        fun _ => rfl, fun _ _ => ⟨rfl, rfl, rfl⟩⟩
      case noResult => simp [seekTarget]
  case invalid f code =>
    obtain rfl := exec_oneByte_next (.inl ⟨f, code, rfl⟩) (.inr ⟨f, code, rfl⟩) h
    refine ⟨⟨rfl, rfl⟩, rfl, rfl, ⟨fun _ => rfl, rfl⟩, fun a ha => hres1 _ _ a (by omega), fun _ => hres1 _ _, ?noResult, rfl,
      rfl, fun _ => rfl, fun _ => ⟨rfl, rfl⟩, fun _ => ⟨rfl, rfl⟩, nofun, nofun, fun _ => rfl, fun _ => ⟨rfl, rfl⟩, nofun,
      fun _ => rfl, fun _ _ => ⟨rfl, rfl, rfl⟩⟩
    case noResult => simp [seekTarget]

/-! ### Every step keeps the unused status bits clear -/

theorem setCylinder_statusInv {u : UnitNo} {n : Byte} {s : State} (hs : s.StatusInv) : (setCylinder u n s).StatusInv :=
  hs.of_eq (by simp) (by simp) (by simp)

theorem unitHeadOf_of_isDataCommand {i : Instr} (h : isDataCommand i = true) : ∃ uh, unitHeadOf i = some uh := by
  cases i <;> cases h <;> exact ⟨_, rfl⟩

/-- A data command starts from the base status (R40, R127). -/
theorem exec_statusInv_of_data {i : Instr} {s t : State} (hd : isDataCommand i = true) (h : exec i s = .next t) :
    t.StatusInv := by
  obtain ⟨uh, hu⟩ := unitHeadOf_of_isDataCommand hd
  cases dataEnd_of_exec hd hu h with
  | result m bytes prepared length eq => subst eq; exact prepared.status.of_eq rfl rfl rfl
  | execution m n prepared eq => subst eq; exact prepared.status.of_eq rfl rfl rfl

/-- A seek starts from the base status too, and the other status-only commands write none of the three registers. -/
theorem exec_statusInv_of_statusOnly {i : Instr} {s t : State} (hd : isDataCommand i = false) (h : exec i s = .next t)
    (hs : s.StatusInv) : t.StatusInv := by
  cases i <;> cases hd
  case recalibrate | seek =>
    obtain ⟨m, m', e, hm, hm', rfl⟩ := seek_next rfl rfl h
    have hmoved : m'.StatusInv := by
      have hbase := (State.StatusInv.baseStatus _).of_statusOf (asks_status hm)
      rcases hm' with rfl | rfl
      · exact hbase
      · exact setCylinder_statusInv hbase
    exact (hmoved.setSeekEnd.applyError e).of_eq rfl rfl rfl
  case specify => cases h; exact hs.of_eq rfl rfl rfl
  case senseDriveStatus =>
    obtain ⟨m, b, hm, rfl⟩ := exec_senseDriveStatus_next h
    have hm' : m.StatusInv := hs.of_statusOf ((asks_status hm).trans rfl)
    exact hm'.of_eq rfl rfl rfl
  case senseInterruptStatus f =>
    by_cases hpending : s.interruptState = .seekEnd
    · rw [exec_senseInterruptStatus_of_seekEnd f hpending] at h
      cases h
      exact hs.of_eq (by simp) (by simp) (by simp)
    · obtain rfl := exec_oneByte_next (.inr ⟨f, rfl⟩) (.inl hpending) h
      exact hs.of_eq rfl rfl rfl
  case invalid => cases h; exact hs.of_eq rfl rfl rfl

theorem exec_statusInv {i : Instr} {s t : State} (h : exec i s = .next t) (hs : s.StatusInv) : t.StatusInv := by
  cases hd : isDataCommand i with
  | true => exact exec_statusInv_of_data hd h
  | false => exact exec_statusInv_of_statusOnly hd h hs

theorem WriteEnd.statusInv {b : Byte} {s m : State} (h : WriteEnd b s m) (hs : s.StatusInv) : m.StatusInv := by
  cases h with
  | opcode phase more eq => subst eq; exact hs.of_eq rfl rfl rfl
  | oneByte i phase one instr run => exact exec_statusInv run (hs.of_eq rfl rfl rfl)
  | operand phase bound more eq => subst eq; exact hs.of_eq rfl rfl rfl
  | lastByte i phase bound last instr run => exact exec_statusInv run (hs.of_eq rfl rfl rfl)
  | execByte i phase direction instr bound more eq => subst eq; exact (hs.takeExecByte i b).of_eq rfl rfl rfl
  | execLast i phase direction instr bound last run =>
    exact finalizeExecution_statusInv run ((hs.takeExecByte i b).of_eq rfl rfl rfl)
  | stray phase eq => subst eq; exact hs

theorem ReadEnd.statusInv {s m : State} (h : ReadEnd s m) (hs : s.StatusInv) : m.StatusInv := by
  cases h with
  | execByte i phase direction instr bound more eq => subst eq; exact hs.of_eq rfl rfl rfl
  | execLast i phase direction instr bound last run => exact finalizeExecution_statusInv run (hs.of_eq rfl rfl rfl)
  | result phase bound eq => subst eq; exact hs.of_eq (by simp) (by simp) (by simp)
  | stray phase eq => subst eq; exact hs.of_eq rfl rfl rfl

theorem perform_statusInv {op : HostOp} {s t : State} (h : perform op s = .next t) (hs : s.StatusInv) : t.StatusInv := by
  have hack : (ackOnAccess s).StatusInv := hs.of_eq (by simp) (by simp) (by simp)
  cases op with
  | readStatus => cases h; exact hs.of_eq rfl rfl rfl
  | readData =>
    obtain ⟨m, hend, rfl⟩ := readData_next h
    exact (hend.statusInv hack).of_eq (by simp) (by simp) (by simp)
  | writeData b =>
    obtain ⟨m, hend, rfl⟩ := writeData_next h
    exact (hend.statusInv hack).of_eq (by simp) (by simp) (by simp)
  | setMotor mask =>
    have hmotors : (setMotors mask s).StatusInv := hs.of_eq rfl rfl rfl
    rcases setMotor_next h with ⟨-, i, -, rfl⟩ | ⟨-, rfl⟩
    · exact hmotors.setAborted.of_eq (by simp [motorAbort, openResult7]) (by simp [motorAbort, openResult7])
        (by simp [motorAbort, openResult7])
    · exact hmotors.of_eq (by simp) (by simp) (by simp)
  | tick => cases h; exact hs.of_eq (by simp) (by simp) (by simp)
  | reset => cases h; exact .of_clear rfl rfl rfl
  | insert u => rw [insertMedia_next h]; exact hs.of_eq (by simp) (by simp) (by simp)
  | eject u => rw [ejectMedia_next h]; exact hs.of_eq (by simp) (by simp) (by simp)
  | writeStatus b => cases h
  | reenter op => cases h

/-- Settles O52: every write of a status register is the base status, an OR with clear unused bits, or a compared byte's. -/
theorem stepKeepsUnusedStatusBitsClear : Obligations.StepKeepsUnusedStatusBitsClear := by
  intro s t hs h
  rcases step_next h with ⟨-, rfl⟩ | ⟨op, rest, -, hop⟩
  · exact hs
  · exact perform_statusInv hop (hs.of_eq rfl rfl rfl)

end Sys2Proof.Machine
end

section
/-! SUPPORT. The formulas of the statements in the fields they speak of, and the status-only commands: what each answers,
asks and leaves, from the scripted answers of its calls (41_drive_interface.md, 42_status_commands.md). -/

namespace Sys2Proof.Machine

open Sys2Proof

/-! ### The formulas -/

/-- Settles O58: a shift is a product with a power of two. -/
theorem sectorLengthFormula : Obligations.SectorLengthFormula := by
  refine ⟨fun dtl => rfl, fun n dtl hn => ?_⟩
  rw [sectorLen, if_neg hn, Nat.shiftLeft_eq]
  rfl

/-- The sector length in one formula (R68). -/
theorem sectorLen_eq (n dtl : Byte) : sectorLen n dtl = if n = 0 then dtl.toNat else min (128 * 2 ^ n.toNat) 8192 := by
  split
  · next hn => rw [hn, sectorLengthFormula.1]
  · next hn => exact sectorLengthFormula.2 n dtl hn

/-- Settles O59: the three conditions are the fields of the slot's Drive, and an empty slot meets none. -/
theorem driveConditions : Obligations.DriveConditions := by
  intro s u
  cases h : s.drive u with
  | none => simp [State.usable, State.spinning, State.writeProtected, h]
  | some d => simp [State.usable, State.spinning, State.writeProtected, h]

theorem usable_iff {s : State} {u : UnitNo} :
    s.usable u = true ↔ ∃ d, s.drive u = some d ∧ d.kind ≠ .none ∧ d.attached = true :=
  (driveConditions s u).1

theorem spinning_iff {s : State} {u : UnitNo} :
    s.spinning u = true ↔ ∃ d, s.drive u = some d ∧ (d.motorOn = true ∨ d.kind = .inch5quarter) :=
  (driveConditions s u).2.1

/-- What makes a slot not ready without a call (R102, R103). -/
theorem notReady_of_conditions {s : State} {u : UnitNo}
    (h : ∀ d, s.drive u = some d → d.kind = .none ∨ d.attached = false ∨ d.motorOn = false ∧ d.kind ≠ .inch5quarter) :
    (s.usable u && s.spinning u) = false := by
  rw [Bool.and_eq_false_iff, ← Bool.not_eq_true, ← Bool.not_eq_true, usable_iff, spinning_iff, ← not_and_or]
  rintro ⟨⟨d, hd, hkind, hattached⟩, d', hd', hspin⟩
  obtain rfl : d = d' := Option.some.inj (hd.symm.trans hd')
  rcases h d hd with hnone | hdetached | ⟨hstopped, hother⟩
  · exact hkind hnone
  · simp [hdetached] at hattached
  · simp [hstopped, hother] at hspin

theorem selectionBits_eq_ofNat : ∀ (h : HeadNo) (u : UnitNo), selectionBits h u = BitVec.ofNat 8 (4 * h.toNat + u.toNat) := by
  decide

theorem reportedCylinder_of_usable {s : State} {u : UnitNo} {d : Drive} (hd : s.drive u = some d) (hu : s.usable u = true) :
    s.reportedCylinder u = BitVec.ofNat 8 d.currentCylinder := by
  simp [State.reportedCylinder, hd, hu]

theorem reportedCylinder_of_not_usable {s : State} {u : UnitNo} (hu : s.usable u = false) : s.reportedCylinder u = 0 := by
  simp [State.reportedCylinder, hu]

/-- The commands that name a sector report it (R130). -/
theorem resultHeader_of_sector {i : Instr} {f : OpFlags} {uh : UnitHead} {id : SectorId} {dtl : Byte} {deleted : Bool}
    (s : State) (h : readsSector i = some (f, uh, id, dtl, deleted) ∨ writesSector i = some (f, uh, id, dtl, deleted)) :
    resultHeader i s = id := by
  rcases h with h | h <;> cases i <;> cases h <;> rfl

/-- Settles O60: each formula is read off the operand or the slot it names. -/
theorem resultFormulas : Obligations.ResultFormulas :=
  ⟨selectionBits_eq_ofNat, fun s => ⟨fun _ _ _ _ _ _ h => resultHeader_of_sector s h, fun _ _ _ _ _ _ => rfl, fun _ _ => rfl,
    fun _ _ _ _ _ _ => rfl, fun _ _ hd hu => reportedCylinder_of_usable hd hu, fun _ hu => reportedCylinder_of_not_usable hu⟩⟩

/-! ### INVALID and SENSE INTERRUPT STATUS -/

/-- Settles O9: INVALID is the rotation's restart and the opening of the one-byte result. -/
theorem invalidCommandAnswers0x80 : Obligations.InvalidCommandAnswers0x80 := by
  intro f code s hwf
  refine ⟨openResult [0x80] (restartRotation s), rfl, resultHolds_openResult hwf.res (by decide), ⟨rfl, rfl, rfl⟩, rfl,
    keepsResFrom_openResult [0x80] (restartRotation s) le_rfl, ⟨fun _ => rfl, rfl⟩, ⟨fun _ => rfl, rfl, rfl⟩, ⟨rfl, rfl, rfl⟩,
    ⟨rfl, rfl⟩, rfl, ?registers⟩
  case registers => constructor <;> rfl

theorem reportedCylinder_of_empty {s : State} {u : UnitNo} (hd : s.drive u = none) : s.reportedCylinder u = 0 := by
  simp [State.reportedCylinder, hd]

theorem reportedCylinder_of_drive {s : State} {u : UnitNo} {d : Drive} (hd : s.drive u = some d) :
    s.reportedCylinder u = if s.usable u then BitVec.ofNat 8 d.currentCylinder else 0 := by
  simp [State.reportedCylinder, hd]

/-- Settles O10: the two bytes are composed before the interrupt is cleared, and clearing it touches the interrupt and the
history alone. -/
theorem senseInterruptReportsSeekEnd : Obligations.SenseInterruptReportsSeekEnd := by
  intro f s hwf hi
  have hframe := keepsResFrom_openResult [s.status0, s.reportedCylinder s.selectedUnit] (clearInterrupt (restartRotation s))
    le_rfl
  refine ⟨_, exec_senseInterruptStatus_of_seekEnd f hi, ?holds, by simp, by simp, by simp, ?events, by simp, by simp, ?result,
    ⟨by simp, by simp⟩, ⟨by simp, by simp, by simp⟩, ⟨by simp, by simp⟩, ?registers⟩
  case holds =>
    have hholds := resultHolds_openResult (s := clearInterrupt (restartRotation s))
      (bytes := [s.status0, s.reportedCylinder s.selectedUnit]) (by simpa using hwf.res) (by simp [Config.resCap])
    cases hd : s.drive s.selectedUnit with
    | none =>
      rw [reportedCylinder_of_empty hd] at hholds ⊢
      exact hholds
    | some d =>
      rw [reportedCylinder_of_drive hd] at hholds ⊢
      exact hholds
  case events => cases hline : s.irqLine <;> simp [clearInterrupt_events, hline]
  case result =>
    intro a ha
    rw [hframe a ha]
    simp
  case registers => constructor <;> simp [statusOf]

/-! ### SENSE DRIVE STATUS -/

/-- The byte composed with the selection (R110), with the constants of the statement. -/
theorem status3Byte_eq (b : Byte) (h : HeadNo) (u : UnitNo) (forced : Bool) :
    status3Byte b h u forced =
      if forced then (((b &&& 0xF8) ||| (h.setWidth 8 <<< 2) ||| u.setWidth 8) &&& 0xDF) ||| 0x40
      else (b &&& 0xF8) ||| (h.setWidth 8 <<< 2) ||| u.setWidth 8 := by
  rw [status3Byte, selectionBits, ← BitVec.or_assoc]
  rfl

/-- The byte of a slot without a usable drive (R110). -/
theorem status3Byte_zero : ∀ (h : HeadNo) (u : UnitNo) (forced : Bool),
    status3Byte 0x00 h u forced =
      if forced then 0x40 ||| (h.setWidth 8 <<< 2) ||| u.setWidth 8 else (h.setWidth 8 <<< 2) ||| u.setWidth 8 := by
  decide

/-- The call of a usable slot (R110). -/
theorem driveStatusByte_scripted {u : UnitNo} {h : HeadNo} {s : State} {b : Byte} {q : List Answer} (hu : s.usable u = true)
    (ha : s.answers = .status b :: q) :
    driveStatusByte u h s =
      .next (status3Byte b h u (s.status3Forced u), record (.call u .driveStatus (.status b)) (takeAnswer q s)) := by
  rw [driveStatusByte, if_pos hu, ask_scripted _ _ ha rfl]
  rfl

theorem driveStatusByte_of_not_usable {u : UnitNo} (h : HeadNo) {s : State} (hu : s.usable u = false) :
    driveStatusByte u h s = .next (status3Byte 0x00 h u (s.status3Forced u), s) := by
  rw [driveStatusByte, if_neg (by simp [hu])]

/-- SENSE DRIVE STATUS answers the byte its drive gives (R119). -/
theorem exec_senseDriveStatus_of_byte {f : OpFlags} {uh : UnitHead} {s m : State} {b : Byte}
    (h : driveStatusByte uh.us uh.hd (select uh (restartRotation s)) = .next (b, m)) :
    exec (.senseDriveStatus f uh) s = .next (openResult [b] (setStatus3 b m)) := by
  change andThen (driveStatusByte uh.us uh.hd (select uh (restartRotation s))) _ = _
  rw [h, andThen_next]

theorem resultHolds_oneByte (b : Byte) {s : State} (h : Memory.wf Config.resCap s.resBuf = true) :
    ResultHolds [b] (openResult [b] s) :=
  resultHolds_openResult h (by simp [Config.resCap])

/-- Settles O12: one scripted call gives the byte, and the drive's motor and kind decide the forcing. -/
theorem senseDriveStatusOfUsableSlot : Obligations.SenseDriveStatusOfUsableSlot := by
  intro f uh s d b q hwf hd hkind hattached ha
  have hu : (select uh (restartRotation s)).usable uh.us = true := usable_iff.2 ⟨d, hd, hkind, hattached⟩
  have hforced : (select uh (restartRotation s)).status3Forced uh.us = true ↔ d.kind ≠ .inch5quarter ∧ d.motorOn = false := by
    change (!s.spinning uh.us) = true ↔ _
    simp [State.spinning, hd, and_comm]
  refine ⟨_, _, exec_senseDriveStatus_of_byte (driveStatusByte_scripted hu ha), ?byte, rfl,
    resultHolds_oneByte _ hwf.res, rfl, rfl, rfl, rfl⟩
  case byte =>
    rw [status3Byte_eq]
    exact if_congr hforced rfl rfl

/-- Settles O13: without a usable drive the backend's byte counts as zero, and only the selection and the forcing are left. -/
theorem senseDriveStatusOfUnusableSlot : Obligations.SenseDriveStatusOfUnusableSlot := by
  intro f uh s hwf hd
  have hu : (select uh (restartRotation s)).usable uh.us = false := by
    rw [← Bool.not_eq_true, usable_iff]
    rintro ⟨d, hslot, hkind, hattached⟩
    rcases hd d hslot with hnone | hdetached
    · exact hkind hnone
    · simp [hdetached] at hattached
  have hforced : (select uh (restartRotation s)).status3Forced uh.us = !s.spinning uh.us := rfl
  refine ⟨_, _, exec_senseDriveStatus_of_byte (driveStatusByte_of_not_usable uh.hd hu), ?byte, rfl,
    resultHolds_oneByte _ hwf.res, ⟨rfl, rfl, rfl⟩, rfl, rfl⟩
  case byte =>
    rw [status3Byte_zero, hforced]
    cases s.spinning uh.us <;> rfl

/-! ### RECALIBRATE and SEEK -/

/-- The state once `ready()` was asked and answered (R103, R127). -/
def readyAsked (uh : UnitHead) (ready : Bool) (q : List Answer) (s : State) : State :=
  record (.call uh.us .ready (.isReady ready)) (takeAnswer q (baseStatus (select uh s)))

theorem dataSetup_eq_readyAsked {uh : UnitHead} {s : State} {ready : Bool} {q : List Answer} (hu : s.usable uh.us = true)
    (hs : s.spinning uh.us = true) (ha : s.answers = .isReady ready :: q) :
    dataSetup uh s = .next (ready, readyAsked uh ready q s) :=
  dataSetup_scripted hu hs ha

/-- The end of a seek (R124). -/
def seekEnds (e : ErrorCode) (s : State) : State := endCommand (armSeekEnd (applyError e (setSeekEnd s)))

/-- Once the drive's readiness is known, a seek asks it or not (R124). -/
theorem exec_seek_of_setup {i : Instr} {n : Byte} {uh : UnitHead} {s m : State} {ready : Bool} (hn : seekTarget i = some n)
    (hu : unitHeadOf i = some uh) (h : dataSetup uh (restartRotation s) = .next (ready, m)) :
    exec i s = andThen (if ready then seekTo uh.us n m else .next (.notReady, m)) fun q => .next (seekEnds q.1 q.2) := by
  rw [exec_of_seekTarget hn hu]
  change andThen (dataSetup uh (restartRotation s)) _ = _
  rw [h, andThen_next]
  rfl

theorem exec_seek_of_notReady {i : Instr} {n : Byte} {uh : UnitHead} {s m : State} (hn : seekTarget i = some n)
    (hu : unitHeadOf i = some uh) (h : dataSetup uh (restartRotation s) = .next (false, m)) :
    exec i s = .next (seekEnds .notReady m) :=
  exec_seek_of_setup hn hu h

/-- The call of a usable slot, and the cylinder it records on Ok (R104). -/
theorem seekTo_scripted {u : UnitNo} {n : Byte} {s : State} {e : ErrorCode} {q : List Answer} (hu : s.usable u = true)
    (ha : s.answers = .code e :: q) :
    seekTo u n s = .next (e,
      if e = .ok then setCylinder u n (record (.call u (.seekCylinder n) (.code e)) (takeAnswer q s))
      else record (.call u (.seekCylinder n) (.code e)) (takeAnswer q s)) := by
  rw [seekTo, if_pos hu, ask_scripted _ _ ha rfl, andThen_next]
  simp only [errorCode_code]
  split <;> rfl

/-- The status a seek ends with: the base value, the code's bits and SE (R40, R124). -/
theorem statusOf_seekEnds (uh : UnitHead) (e : ErrorCode) {s : State}
    (h : statusOf s = (selectionBits uh.hd uh.us, 0x00, 0x00)) :
    statusOf (seekEnds e s) = ((baseWith uh e).1 ||| 0x20, (baseWith uh e).2.1, (baseWith uh e).2.2) := by
  simp only [statusOf, Prod.mk.injEq] at h
  obtain ⟨h0, h1, h2⟩ := h
  simp [statusOf, seekEnds, baseWith, applyError, setSeekEnd, h0, h1, h2, BitVec.or_assoc, BitVec.or_comm 0x20#8]

/-- Settles O14: the two scripted calls, then the end of the seek; on Ok the selected drive alone is moved. -/
theorem seekOnReadyDrive : Obligations.SeekOnReadyDrive := by
  intro i uh n s d e q hn hu hd husable hspin ha
  have hasked : seekTo uh.us n (readyAsked uh true (.code e :: q) (restartRotation s)) = _ := seekTo_scripted husable rfl
  have hexec := exec_seek_of_setup hn hu (dataSetup_eq_readyAsked (s := restartRotation s) husable hspin ha)
  rw [if_pos rfl, hasked, andThen_next] at hexec
  refine ⟨_, hexec, backInIdle_endCommand _, statusOf_seekEnds uh e ?base, ?own, ?others, rfl, rfl, ?line, ?answers, ?events,
    ?unit, ?head⟩
  case own =>
    show State.drive (ite _ _ _) uh.us = _
    split
    · rw [drive_setCylinder, if_pos rfl]
      exact congrArg (Option.map _) hd
    · exact hd
  case others =>
    intro v hv
    show State.drive (ite _ _ _) v = _
    split
    · rw [drive_setCylinder, if_neg (Ne.symm hv)]
      rfl
    · rfl
  all_goals split <;> simp [seekEnds, readyAsked, statusOf, baseStatus]

/-- Settles O15: a drive that is not ready ends the seek with NotReady, whether or not `ready()` was asked. -/
theorem seekOnDriveNotReady : Obligations.SeekOnDriveNotReady := by
  intro i uh n s hn hu
  refine ⟨fun hcond => ?unasked, fun q husable hspin ha => ?asked⟩
  case unasked =>
    have hsetup := dataSetup_of_not (uh := uh) (s := restartRotation s) (notReady_of_conditions hcond)
    exact ⟨_, exec_seek_of_notReady hn hu hsetup, backInIdle_endCommand _, statusOf_seekEnds uh .notReady rfl, rfl,
      ⟨rfl, rfl, rfl⟩, rfl, rfl, rfl, rfl, rfl⟩
  case asked =>
    have hsetup := dataSetup_eq_readyAsked (s := restartRotation s) husable hspin ha
    exact ⟨_, exec_seek_of_notReady hn hu hsetup, backInIdle_endCommand _, statusOf_seekEnds uh .notReady rfl, rfl, rfl, rfl, rfl,
      rfl, rfl, rfl, rfl⟩

end Sys2Proof.Machine
end

section
/-! SUPPORT. The data commands at their dispatch (43_data_commands.md): what each asks, stores and opens, from the scripted
answers of its calls, and the finish actions of the writes and of the format. -/

namespace Sys2Proof.Machine

open Sys2Proof

/-! ### Status, header and result of a data command -/

theorem andThen_of_next {α β : Type} {o : Result α} {a : α} (f : α → Result β) (h : o = .next a) : andThen o f = f a := by
  rw [h, andThen_next]

/-- An error code's bits over the base status (R40, R112). -/
theorem statusOf_applyError_base {uh : UnitHead} {s : State} (e : ErrorCode)
    (h : statusOf s = (selectionBits uh.hd uh.us, 0x00, 0x00)) : statusOf (applyError e s) = baseWith uh e := by
  simp only [statusOf, Prod.mk.injEq] at h
  obtain ⟨h0, h1, h2⟩ := h
  simp [statusOf, applyError, baseWith, h0, h1, h2]

theorem applyError_ok (s : State) : applyError .ok s = s := (errorCodesSetTableBits.2 s).1

theorem baseWith_ok (uh : UnitHead) : baseWith uh .ok = (selectionBits uh.hd uh.us, 0x00, 0x00) := by
  simp [baseWith, deltasOf]

/-- The seven-byte result opens with the status and the header of the state it is opened in (R130). -/
theorem resultHolds_openResult7 {i : Instr} {s : State} {st : Byte × Byte × Byte} {hdr : SectorId}
    (hwf : Memory.wf Config.resCap s.resBuf = true) (hst : statusOf s = st) (hhdr : resultHeader i s = hdr) :
    ResultHolds (sevenBytes st hdr) (openResult7 i s) := by
  subst hst hhdr
  exact resultHolds_openResult hwf (by simp [sevenBytes, Config.resCap])

/-- A failed command's result: the code's bits over the base status (R113). -/
theorem resultHolds_failCommand {i : Instr} {uh : UnitHead} {s : State} {hdr : SectorId} (e : ErrorCode)
    (hwf : Memory.wf Config.resCap s.resBuf = true) (hst : statusOf s = (selectionBits uh.hd uh.us, 0x00, 0x00))
    (hhdr : resultHeader i (applyError e s) = hdr) :
    ResultHolds (sevenBytes (baseWith uh e) hdr) (failCommand i e s) :=
  resultHolds_openResult7 (s := applyError e s) hwf (statusOf_applyError_base e hst) hhdr

theorem statusOf_failCommand {uh : UnitHead} {s : State} (i : Instr) (e : ErrorCode)
    (hst : statusOf s = (selectionBits uh.hd uh.us, 0x00, 0x00)) : statusOf (failCommand i e s) = baseWith uh e :=
  statusOf_applyError_base e hst

/-! ### The drive is not ready -/

/-- A data command whose drive is not ready fails at once; only READ ID leaves the rotation where it was (R127, R139). -/
theorem exec_of_notReady {i : Instr} {uh : UnitHead} {s m : State} (hd : isDataCommand i = true) (hu : unitHeadOf i = some uh)
    (h : dataSetup uh (setRotation (if i.commandId = .readId then s.rotatingSectorIndex else 0) s) = .next (false, m)) :
    exec i s = .next (failCommand i .notReady m) := by
  cases i <;> cases hd <;> cases hu <;> exact andThen_of_next _ h

/-- Settles O16: with the readiness settled, the failed command's result is that of the state the setup left. -/
theorem dataCommandOnDriveNotReady : Obligations.DataCommandOnDriveNotReady := by
  intro i uh s hd hu hwf
  have hheader : ∀ m : State, m.slots = s.slots → m.selectedUnit = uh.us → m.selectedHead = uh.hd →
      resultHeader i (applyError .notReady m) = resultHeader i (select uh s) := fun _ hs hu hh => resultHeader_congr hs hu hh
  refine ⟨fun hcond => ?unasked, fun q husable hspin ha => ?asked⟩
  case unasked =>
    exact ⟨_, exec_of_notReady hd hu (dataSetup_of_not (s := setRotation _ s) (notReady_of_conditions hcond)),
      resultHolds_failCommand _ hwf.res rfl (hheader _ rfl rfl rfl), statusOf_failCommand _ _ rfl, ⟨rfl, rfl, rfl⟩,
      ⟨fun _ => rfl, rfl⟩, rfl, rfl⟩
  case asked =>
    exact ⟨_, exec_of_notReady hd hu (dataSetup_eq_readyAsked (s := setRotation _ s) husable hspin ha),
      resultHolds_failCommand _ hwf.res rfl (hheader _ rfl rfl rfl), statusOf_failCommand _ _ rfl, rfl, rfl,
      ⟨fun _ => rfl, rfl⟩, rfl, rfl⟩

/-! ### The commands that read a sector -/

/-- A SCAN starts as "still matching" (R143). -/
def scanStarts (i : Instr) (s : State) : State := if isScan i then scanBegin s else s

theorem scanStarts_eq (i : Instr) (s : State) :
    scanStarts i s = { s with status2 := s.status2 ||| if isScan i then 0x08 else 0x00 } := by
  unfold scanStarts
  split <;> simp [scanBegin]

theorem exec_of_readsSector {i : Instr} {f : OpFlags} {uh : UnitHead} {id : SectorId} {dtl : Byte} {deleted : Bool}
    (h : readsSector i = some (f, uh, id, dtl, deleted)) (s : State) :
    exec i s = dispatchRead i deleted (scanStarts i) f uh id dtl (restartRotation s) := by
  cases i <;> cases h <;> rfl

/-- The call of a usable slot, and the bytes it delivers (R106). -/
theorem readSector_scripted {u : UnitNo} {args : SectorArgs} {s : State} {e : ErrorCode} {bytes : List Byte} {q : List Answer}
    (hu : s.usable u = true) (ha : s.answers = .data e bytes :: q) (hl : bytes.length = args.len) :
    readSector u args s =
      .next (e, fillExec bytes (record (.call u (.readSector args) (.data e bytes)) (takeAnswer q s))) := by
  rw [readSector, if_pos hu, ask_scripted _ _ ha (by simp [Answer.inContract, hl])]
  rfl

/-- The state once a ready drive has answered `readSector` (R106, R132). -/
def sectorRead (uh : UnitHead) (args : SectorArgs) (e : ErrorCode) (bytes : List Byte) (q : List Answer) (s : State) : State :=
  fillExec bytes (record (.call uh.us (.readSector args) (.data e bytes))
    (takeAnswer q (readyAsked uh true (.data e bytes :: q) s)))

/-- The end of a read from its two scripted answers (R132, R133, R143). -/
theorem exec_readsSector_scripted {i : Instr} {f : OpFlags} {uh : UnitHead} {id : SectorId} {dtl : Byte} {deleted : Bool}
    {s : State} {e : ErrorCode} {bytes : List Byte} {q : List Answer} (h : readsSector i = some (f, uh, id, dtl, deleted))
    (hu : s.usable uh.us = true) (hs : s.spinning uh.us = true) (ha : s.answers = .isReady true :: .data e bytes :: q)
    (hl : bytes.length = sectorLen id.n dtl) :
    ∃ m, m = sectorRead uh ⟨id.c, id.h, uh.hd, id.r, bytes.length, deleted, f.sk, f.mf, f.mt⟩ e bytes q (restartRotation s) ∧
      exec i s = if e = .ok then openExecution i bytes.length (scanStarts i (applyError e m))
        else .next (failCommand i e m) := by
  refine ⟨_, rfl, ?_⟩
  rw [exec_of_readsSector h, dispatchRead, dataSetup_eq_readyAsked (s := restartRotation s) hu hs ha, andThen_next, if_pos rfl,
    ← hl]
  exact andThen_of_next _ (readSector_scripted (s := readyAsked uh true (.data e bytes :: q) (restartRotation s))
    (args := ⟨id.c, id.h, uh.hd, id.r, bytes.length, deleted, f.sk, f.mf, f.mt⟩) hu rfl rfl)

/-- An Execution phase opened for `n` bytes by a command without finish action; with no byte it ends at once (R86, R94). -/
def opened (i : Instr) (n : Nat) (s : State) : State :=
  if n = 0 then openResult7 i (beginExecution 0 s) else beginExecution n s

section opened
variable (i : Instr) (n : Nat) (s : State)

@[simp] theorem opened_statusOf : statusOf (opened i n s) = statusOf s := by unfold opened; split <;> rfl
@[simp] theorem opened_execBuf : (opened i n s).execBuf = s.execBuf := by unfold opened; split <;> rfl
@[simp] theorem opened_answers : (opened i n s).answers = s.answers := by unfold opened; split <;> rfl
@[simp] theorem opened_events : (opened i n s).events = s.events := by unfold opened; split <;> rfl
@[simp] theorem opened_writeDeletedFlag : (opened i n s).writeDeletedFlag = s.writeDeletedFlag := by
  unfold opened; split <;> rfl

end opened

theorem executionOpen_opened {n : Nat} (i : Instr) (s : State) (hn : n ≠ 0) : ExecutionOpen n (opened i n s) := by
  rw [opened, if_neg hn]
  exact ⟨rfl, rfl, rfl, rfl⟩

theorem resultHolds_opened {i : Instr} {n : Nat} {s : State} {hdr : SectorId} (hwf : Memory.wf Config.resCap s.resBuf = true)
    (hhdr : resultHeader i s = hdr) (hn : n = 0) : ResultHolds (sevenBytes (statusOf s) hdr) (opened i n s) := by
  rw [opened, if_pos hn]
  exact resultHolds_openResult7 hwf rfl ((resultHeader_congr rfl rfl rfl).trans hhdr)

/-- Only a write and a format have a finish action (R89). -/
theorem openExecution_eq_opened {i : Instr} (hi : ∀ s, finishAction i s = .next s) (n : Nat) (s : State) :
    openExecution i n s = .next (opened i n s) := by
  rw [opened]
  split
  · next hn => rw [hn, openExecution_zero, finalizeExecution, hi, andThen_next]
  · next hn => rw [openExecution_nonzero s hn]

theorem finishAction_of_readsSector {i : Instr} {p : OpFlags × UnitHead × SectorId × Byte × Bool} (h : readsSector i = some p)
    (s : State) : finishAction i s = .next s := by
  cases i <;> cases h <;> rfl

/-- Settles O17: after the two calls the delivered bytes stand in the execution buffer, and their number opens the phase. -/
theorem readCommandsOpenExecution : Obligations.ReadCommandsOpenExecution := by
  intro i f uh id dtl deleted s bytes q h hwf hu hs ha hl
  rw [← sectorLen_eq] at hl
  obtain ⟨m, hm, hexec⟩ := exec_readsSector_scripted h hu hs ha hl
  rw [if_pos rfl, openExecution_eq_opened (finishAction_of_readsSector h), applyError_ok, scanStarts_eq] at hexec
  have hbytes : m.execBuf.firstBytes bytes.length = bytes := by
    rw [hm]
    exact Memory.firstBytes_writeBytes bytes hwf.exec (hl ▸ sectorLen_le id.n dtl)
  have hresult : Memory.wf Config.resCap m.resBuf = true := by rw [hm]; exact hwf.res
  refine ⟨_, hexec, ?status, by simpa using hbytes, ?answers, ?events, ?flag, executionOpen_opened i _, fun h0 => ?result⟩
  case result =>
    rw [opened_statusOf]
    exact resultHolds_opened hresult (resultHeader_of_sector _ (.inl h)) h0
  case status =>
    have hbase : statusOf m = (selectionBits uh.hd uh.us, 0x00, 0x00) := by rw [hm]; rfl
    simp only [statusOf, Prod.mk.injEq] at hbase
    obtain ⟨h0, h1, h2⟩ := hbase
    rw [opened_statusOf]
    simp [statusOf, h0, h1, h2]
  all_goals simp [hm, sectorRead, readyAsked]

/-- Settles O18: an error fails the command with what the two calls left. -/
theorem readCommandsReportErrors : Obligations.ReadCommandsReportErrors := by
  intro i f uh id dtl deleted s e bytes q h hwf hu hs ha hl he
  obtain ⟨m, rfl, hexec⟩ := exec_readsSector_scripted h hu hs ha hl
  rw [if_neg he] at hexec
  refine ⟨_, hexec, resultHolds_failCommand e hwf.res rfl (resultHeader_of_sector _ (.inl h)), statusOf_failCommand _ e rfl, rfl,
    ?events, rfl⟩
  case events => simp [failCommand, openResult7, sectorRead, readyAsked]

/-! ### The commands that write a sector -/

theorem exec_of_writesSector {i : Instr} {f : OpFlags} {uh : UnitHead} {id : SectorId} {dtl : Byte} {deleted : Bool}
    (h : writesSector i = some (f, uh, id, dtl, deleted)) (s : State) :
    exec i s = dispatchWrite i deleted uh id dtl (restartRotation s) := by
  cases i <;> cases h <;> rfl

/-- A write on a ready drive opens its Execution phase (R134, R135). -/
theorem exec_writesSector_ready {i : Instr} {f : OpFlags} {uh : UnitHead} {id : SectorId} {dtl : Byte} {deleted : Bool}
    {s : State} {q : List Answer} (h : writesSector i = some (f, uh, id, dtl, deleted)) (hu : s.usable uh.us = true)
    (hs : s.spinning uh.us = true) (ha : s.answers = .isReady true :: q) :
    exec i s = openExecution i (sectorLen id.n dtl) (setWriteDeleted deleted (readyAsked uh true q (restartRotation s))) := by
  rw [exec_of_writesSector h, dispatchWrite, dataSetup_eq_readyAsked (s := restartRotation s) hu hs ha, andThen_next, if_pos rfl]

/-- Settles O19: only `ready()` is asked before the Execution phase opens. -/
theorem writeCommandsOpenExecution : Obligations.WriteCommandsOpenExecution := by
  intro i f uh id dtl deleted s q len h hu hs ha hl hlen
  rw [← sectorLen_eq] at hl
  have hexec := exec_writesSector_ready h hu hs ha
  rw [openExecution_nonzero _ (hl ▸ hlen), ← hl] at hexec
  exact ⟨_, hexec, ⟨rfl, rfl, rfl, rfl⟩, rfl, rfl, rfl, rfl, fun _ => rfl⟩

theorem finishAction_of_writesSector {i : Instr} {f : OpFlags} {uh : UnitHead} {id : SectorId} {dtl : Byte} {deleted : Bool}
    (h : writesSector i = some (f, uh, id, dtl, deleted)) (s : State) : finishAction i s = finishWrite f id dtl s := by
  cases i <;> cases h <;> rfl

/-- The call of a usable slot that may be written (R107). -/
theorem writeSector_scripted {u : UnitNo} {args : SectorArgs} {s : State} {e : ErrorCode} {q : List Answer}
    (hu : s.usable u = true) (hp : s.writeProtected u = false) (ha : s.answers = .code e :: q) :
    writeSector u args s = .next (e,
      record (.call u (.writeSector args (s.execBuf.firstBytes args.len)) (.code e)) (takeAnswer q s)) := by
  rw [writeSector, if_pos hu, if_neg (by simp [hp]), ask_scripted _ _ ha rfl]
  rfl

theorem writeSector_of_writeProtected {u : UnitNo} {s : State} (args : SectorArgs) (hu : s.usable u = true)
    (hp : s.writeProtected u = true) : writeSector u args s = .next (.readOnly, s) := by
  rw [writeSector, if_pos hu, if_pos hp]

/-- The end of a write whose sector is written (R89, R134). -/
theorem finalizeExecution_writesSector {i : Instr} {f : OpFlags} {uh : UnitHead} {id : SectorId} {dtl : Byte} {deleted : Bool}
    {s : State} {e : ErrorCode} {q : List Answer} (h : writesSector i = some (f, uh, id, dtl, deleted))
    (hu : s.usable s.selectedUnit = true) (hp : s.writeProtected s.selectedUnit = false) (ha : s.answers = .code e :: q) :
    finalizeExecution i s = .next (openResult7 i (setWriteDeleted false (applyError e
      (record (.call s.selectedUnit (.writeSector (writeArgs f id (sectorLen id.n dtl) s)
        (s.execBuf.firstBytes (sectorLen id.n dtl))) (.code e)) (takeAnswer q s))))) := by
  rw [finalizeExecution, finishAction_of_writesSector h, finishWrite, writeSector_scripted hu hp ha]
  rfl

/-- The end of a write on a read-only Drive (R89, R107, R134). -/
theorem finalizeExecution_writesSector_of_writeProtected {i : Instr} {f : OpFlags} {uh : UnitHead} {id : SectorId} {dtl : Byte}
    {deleted : Bool} {s : State} (h : writesSector i = some (f, uh, id, dtl, deleted)) (hu : s.usable s.selectedUnit = true)
    (hp : s.writeProtected s.selectedUnit = true) :
    finalizeExecution i s = .next (openResult7 i (setWriteDeleted false (applyError .readOnly s))) := by
  rw [finalizeExecution, finishAction_of_writesSector h, finishWrite, writeSector_of_writeProtected _ hu hp]
  rfl

/-- Settles O20: the Execution phase of no byte ends within the dispatch, so its finish action is asked there. -/
theorem writeOfLengthZeroWritesAtOnce : Obligations.WriteOfLengthZeroWritesAtOnce := by
  intro i f uh id dtl deleted s q h hwf hu hs ha hlen
  have hexec := exec_writesSector_ready h hu hs ha
  rw [hlen, openExecution_zero] at hexec
  refine ⟨fun e q' hp hq => ?written, fun hp => ?readOnly⟩
  case written =>
    rw [finalizeExecution_writesSector h hu hp hq, hlen] at hexec
    refine ⟨_, hexec, resultHolds_openResult7 hwf.res (statusOf_applyError_base e rfl) (resultHeader_of_sector _ (.inr h)),
      statusOf_applyError_base e rfl, rfl, rfl, ?events⟩
    case events => simp [openResult7, readyAsked, writeArgs, Memory.firstBytes]
  case readOnly =>
    rw [finalizeExecution_writesSector_of_writeProtected h hu hp] at hexec
    exact ⟨_, hexec, resultHolds_openResult7 hwf.res (statusOf_applyError_base _ rfl) (resultHeader_of_sector _ (.inr h)),
      statusOf_applyError_base .readOnly rfl, rfl, rfl, rfl⟩

/-! ### READ TRACK, READ ID and FORMAT TRACK -/

/-- The call of a usable slot, and the bytes it delivers, clamped to the buffer (R108). -/
theorem readWholeTrack_scripted {u : UnitNo} {c h : Byte} {hd : HeadNo} {s : State} {e : ErrorCode} {bytes : List Byte}
    {q : List Answer} (hu : s.usable u = true) (ha : s.answers = .data e bytes :: q) :
    readWholeTrack u c h hd s = .next ((e, min bytes.length 8192),
      fillExec (bytes.take 8192) (record (.call u (.readTrack c h hd 8192) (.data e bytes)) (takeAnswer q s))) := by
  rw [readWholeTrack, if_pos hu, ask_scripted _ _ ha rfl]
  rfl

/-- The state once a ready drive has answered `readTrack` (R108, R136). -/
def trackRead (uh : UnitHead) (id : SectorId) (e : ErrorCode) (bytes : List Byte) (q : List Answer) (s : State) : State :=
  fillExec (bytes.take 8192) (record (.call uh.us (.readTrack id.c id.h uh.hd 8192) (.data e bytes))
    (takeAnswer q (readyAsked uh true (.data e bytes :: q) s)))

theorem exec_readTrack_scripted {f : OpFlags} {uh : UnitHead} {id : SectorId} {eot gpl dtl : Byte} {s : State} {e : ErrorCode}
    {bytes : List Byte} {q : List Answer} (hu : s.usable uh.us = true) (hs : s.spinning uh.us = true)
    (ha : s.answers = .isReady true :: .data e bytes :: q) :
    ∃ m, m = trackRead uh id e bytes q (restartRotation s) ∧
      exec (.readTrack f uh id eot gpl dtl) s = .next (if e = .ok then
          opened (.readTrack f uh id eot gpl dtl) (min bytes.length 8192) (applyError e m)
        else failCommand (.readTrack f uh id eot gpl dtl) e m) := by
  refine ⟨_, rfl, ?_⟩
  refine (andThen_of_next _ (dataSetup_eq_readyAsked (s := restartRotation s) hu hs ha)).trans ?_
  refine (andThen_of_next _ (readWholeTrack_scripted (s := readyAsked uh true (.data e bytes :: q) (restartRotation s))
    hu rfl)).trans ?_
  split
  · exact openExecution_eq_opened (i := .readTrack f uh id eot gpl dtl) (fun _ => rfl) _ _
  · rfl

/-- Settles O21: both ends of the dispatch, the opened phase and the failed command, keep what the answered call stored. -/
theorem readTrackOpensExecution : Obligations.ReadTrackOpensExecution := by
  intro f uh id eot gpl dtl s e bytes q hwf hu hs ha
  obtain ⟨m, hm, hexec⟩ := exec_readTrack_scripted (f := f) (id := id) (eot := eot) (gpl := gpl) (dtl := dtl) hu hs ha
  have hbase : statusOf m = (selectionBits uh.hd uh.us, 0x00, 0x00) := by rw [hm]; rfl
  have hresult : Memory.wf Config.resCap m.resBuf = true := by rw [hm]; exact hwf.res
  have hstored : m.execBuf.firstBytes (bytes.take 8192).length = bytes.take 8192 := by
    rw [hm]
    exact Memory.firstBytes_writeBytes _ hwf.exec (List.length_take_le _ _)
  have hbeyond : ∀ a, min bytes.length 8192 ≤ a → m.execBuf.read a = s.execBuf.read a := by
    intro a ha
    rw [hm]
    exact Memory.read_writeBytes_outside _ _ (.inr (by rw [List.length_take]; omega))
  have hevents : m.events = s.events ++ [.call uh.us .ready (.isReady true),
      .call uh.us (.readTrack id.c id.h uh.hd 8192) (.data e bytes)] := by
    simp [hm, trackRead, readyAsked]
  have hanswers : m.answers = q := by rw [hm]; rfl
  by_cases he : e = .ok
  · subst he
    rw [if_pos rfl, applyError_ok] at hexec
    refine ⟨_, hexec, ?status, by simpa using hanswers, by simpa using hevents, by rwa [opened_execBuf],
      by simpa using hbeyond, ?opens, ?empty⟩
    case status => rw [opened_statusOf, hbase, baseWith_ok]
    case opens =>
      rintro ⟨-, hne⟩
      have hpos := List.length_pos_iff.2 hne
      exact executionOpen_opened _ _ (by omega)
    case empty =>
      intro hempty
      rw [baseWith_ok, ← hbase]
      exact resultHolds_opened hresult rfl (by simp_all)
  · rw [if_neg he] at hexec
    exact ⟨_, hexec, statusOf_failCommand _ e hbase, hanswers, hevents, hstored, hbeyond, fun h => absurd h.1 he,
      fun _ => resultHolds_failCommand e hresult hbase rfl⟩

/-- The call of a usable slot, and the header it returns (R105). -/
theorem readSectorHeader_scripted {u : UnitNo} {hd : HeadNo} {seq : Nat} {s : State} {e : ErrorCode} {hdr : SectorId}
    {q : List Answer} (hu : s.usable u = true) (ha : s.answers = .header e hdr :: q) :
    readSectorHeader u hd seq s =
      .next ((e, hdr), record (.call u (.readSectorId hd seq) (.header e hdr)) (takeAnswer q s)) := by
  rw [readSectorHeader, if_pos hu, ask_scripted _ _ ha rfl]
  rfl

/-- The state once a ready drive has answered `readSectorId`, with the index advanced (R105, R139). -/
def headerRead (uh : UnitHead) (e : ErrorCode) (hdr : SectorId) (q : List Answer) (s : State) : State :=
  setRotation (s.rotatingSectorIndex + 1)
    (record (.call uh.us (.readSectorId uh.hd s.rotatingSectorIndex) (.header e hdr))
      (takeAnswer q (readyAsked uh true (.header e hdr :: q) s)))

theorem exec_readId_scripted {f : OpFlags} {uh : UnitHead} {s : State} {e : ErrorCode} {hdr : SectorId} {q : List Answer}
    (hu : s.usable uh.us = true) (hs : s.spinning uh.us = true) (ha : s.answers = .isReady true :: .header e hdr :: q) :
    exec (.readId f uh) s = .next (if e = .ok then
        openResult (result7 hdr (headerRead uh e hdr q s)) (headerRead uh e hdr q s)
      else failCommand (.readId f uh) e (headerRead uh e hdr q s)) := by
  refine (andThen_of_next _ (dataSetup_eq_readyAsked hu hs ha)).trans ?_
  refine (andThen_of_next _ (readSectorHeader_scripted (s := readyAsked uh true (.header e hdr :: q) s) hu rfl)).trans ?_
  split <;> rfl

/-- Settles O22: on Ok the returned header is the result, with no status bit; else the failed command's. -/
theorem readIdReturnsHeader : Obligations.ReadIdReturnsHeader := by
  intro f uh s e hdr q hwf hu hs ha
  have hexec := exec_readId_scripted (f := f) hu hs ha
  have hevents : (headerRead uh e hdr q s).events = s.events ++ [.call uh.us .ready (.isReady true),
      .call uh.us (.readSectorId uh.hd s.rotatingSectorIndex) (.header e hdr)] := by
    simp [headerRead, readyAsked]
  by_cases he : e = .ok
  · rw [if_pos he] at hexec ⊢
    subst he
    rw [baseWith_ok]
    exact ⟨_, hexec, resultHolds_openResult hwf.res (by simp [sevenBytes, Config.resCap]), rfl, rfl, hevents, rfl⟩
  · rw [if_neg he] at hexec ⊢
    exact ⟨_, hexec, resultHolds_failCommand e hwf.res rfl rfl, statusOf_failCommand _ e rfl, rfl, hevents, rfl⟩

/-- A format on a ready drive opens its Execution phase (R140, R141). -/
theorem exec_formatTrack_ready {f : OpFlags} {uh : UnitHead} {n sc gpl d : Byte} {s : State} {q : List Answer}
    (hu : s.usable uh.us = true) (hs : s.spinning uh.us = true) (ha : s.answers = .isReady true :: q) :
    exec (.formatTrack f uh n sc gpl d) s =
      openExecution (.formatTrack f uh n sc gpl d) (formatLen sc) (readyAsked uh true q (restartRotation s)) :=
  (andThen_of_next _ (dataSetup_eq_readyAsked (s := restartRotation s) hu hs ha)).trans (if_pos rfl)

/-- The call of a usable slot that may be written (R109). -/
theorem formatWholeTrack_scripted {u : UnitNo} {hd : HeadNo} {sc d : Byte} {s : State} {e : ErrorCode} {q : List Answer}
    (hu : s.usable u = true) (hp : s.writeProtected u = false) (ha : s.answers = .code e :: q) :
    formatWholeTrack u hd sc d s = .next (e,
      record (.call u (.formatTrack hd sc (s.execBuf.firstBytes (formatLen sc)) d) (.code e)) (takeAnswer q s)) := by
  rw [formatWholeTrack, if_pos hu, if_neg (by simp [hp]), ask_scripted _ _ ha rfl]
  rfl

theorem formatWholeTrack_of_writeProtected {u : UnitNo} {s : State} (hd : HeadNo) (sc d : Byte) (hu : s.usable u = true)
    (hp : s.writeProtected u = true) : formatWholeTrack u hd sc d s = .next (.readOnly, s) := by
  rw [formatWholeTrack, if_pos hu, if_pos hp]

/-- The end of a format whose track is formatted (R89, R142). -/
theorem finalizeExecution_formatTrack {f : OpFlags} {uh : UnitHead} {n sc gpl d : Byte} {s : State} {e : ErrorCode}
    {q : List Answer} (hu : s.usable s.selectedUnit = true) (hp : s.writeProtected s.selectedUnit = false)
    (ha : s.answers = .code e :: q) :
    finalizeExecution (.formatTrack f uh n sc gpl d) s = .next (openResult7 (.formatTrack f uh n sc gpl d) (applyError e
      (record (.call s.selectedUnit (.formatTrack s.selectedHead sc (s.execBuf.firstBytes (formatLen sc)) d) (.code e))
        (takeAnswer q s)))) := by
  rw [finalizeExecution, finishAction, finishFormat, formatWholeTrack_scripted hu hp ha]
  rfl

/-- The end of a format on a read-only Drive (R89, R109, R142). -/
theorem finalizeExecution_formatTrack_of_writeProtected {f : OpFlags} {uh : UnitHead} {n sc gpl d : Byte} {s : State}
    (hu : s.usable s.selectedUnit = true) (hp : s.writeProtected s.selectedUnit = true) :
    finalizeExecution (.formatTrack f uh n sc gpl d) s =
      .next (openResult7 (.formatTrack f uh n sc gpl d) (applyError .readOnly s)) := by
  rw [finalizeExecution, finishAction, finishFormat, formatWholeTrack_of_writeProtected _ _ _ hu hp]
  rfl

/-- Settles O23: with sectors to describe the phase opens, with none its finish action is asked within the dispatch. -/
theorem formatTrackOpensExecution : Obligations.FormatTrackOpensExecution := by
  intro f uh n sc gpl d s q hwf hu hs ha
  have hexec := exec_formatTrack_ready (f := f) (n := n) (sc := sc) (gpl := gpl) (d := d) hu hs ha
  refine ⟨fun hsc => ?opens, fun e q' hsc hp hq => ?formatted, fun hsc hp => ?readOnly⟩
  case opens =>
    have hlen : formatLen sc ≠ 0 := by
      have hsc' : sc.toNat ≠ 0 := fun h => hsc (BitVec.eq_of_toNat_eq h)
      rw [formatLen]
      omega
    rw [openExecution_nonzero _ hlen] at hexec
    exact ⟨_, hexec, ⟨rfl, rfl, rfl, rfl⟩, rfl, rfl, rfl, fun _ => rfl⟩
  case formatted =>
    subst hsc
    rw [show formatLen 0 = 0 from rfl, openExecution_zero, finalizeExecution_formatTrack hu hp hq] at hexec
    refine ⟨_, hexec, resultHolds_openResult7 hwf.res (statusOf_applyError_base e rfl) rfl, statusOf_applyError_base e rfl, rfl,
      ?events⟩
    case events => simp [openResult7, readyAsked, formatLen, Memory.firstBytes]
  case readOnly =>
    subst hsc
    rw [show formatLen 0 = 0 from rfl, openExecution_zero, finalizeExecution_formatTrack_of_writeProtected hu hp] at hexec
    exact ⟨_, hexec, resultHolds_openResult7 hwf.res (statusOf_applyError_base .readOnly rfl) rfl,
      statusOf_applyError_base .readOnly rfl, rfl, rfl⟩

end Sys2Proof.Machine
end

section
/-! SUPPORT. The accesses of the Command and Execution phases as steps (40_protocol.md sections 3 and 5): the command decoded
from the bytes received, the byte a host writes stored or compared, and the last one's finish action and Result. -/

namespace Sys2Proof.Machine

open Sys2Proof

/-! ### The command of the bytes received -/

@[simp] theorem Memory.firstBytes_getD {m : Memory} {n k : Nat} (h : k < n) : (m.firstBytes n).getD k 0 = m.read k := by
  rw [List.getD_eq_getElem _ _ (by simpa using h), Memory.firstBytes_getElem]

/-- The bytes of a whole command in the command buffer decode to the pending command (R57, R83). -/
theorem decode_firstBytes (m : Memory) :
    decode (m.firstBytes (cmdCount (commandId (op5 (m.read 0))))) =
      .ok (assemble (commandId (op5 (m.read 0))) m.read, []) := by
  have hpos := cmdCount_pos (commandId (op5 (m.read 0)))
  obtain ⟨k, hk⟩ : ∃ k, cmdCount (commandId (op5 (m.read 0))) = k + 1 := ⟨_, (Nat.sub_add_cancel hpos).symm⟩
  have hbytes : m.firstBytes (k + 1) = m.read 0 :: (List.range k).map (fun j => m.read (j + 1)) := by
    simp [Memory.firstBytes, List.range_succ_eq_map]
  have hassemble : assemble (commandId (op5 (m.read 0))) (fun j => (m.firstBytes (k + 1)).getD j 0) =
      assemble (commandId (op5 (m.read 0))) m.read :=
    assemble_congr _ fun j hj => Memory.firstBytes_getD (hk ▸ hj)
  rw [hbytes] at hassemble
  rw [hk, hbytes, decode_of_enough (by simp [hk]), hassemble, hk, ← hbytes, List.drop_of_length_le (by simp)]

theorem pendingInstr_of_decode {s : State} {i : Instr} {n : Nat}
    (hid : s.pendingOpcode = some (commandId (op5 (s.cmdBuf.read 0)))) (hn : n = cmdCount (commandId (op5 (s.cmdBuf.read 0))))
    (h : decode (s.cmdBuf.firstBytes n) = .ok (i, [])) : s.pendingInstr = some i := by
  rw [hn, decode_firstBytes] at h
  cases h
  exact pendingInstr_of_pendingOpcode hid

/-- A one-byte command is the one its byte decodes to (R57, R83). -/
theorem cmdCount_eq_one_of_decode {b : Byte} {i : Instr} (h : decode [b] = .ok (i, [])) :
    cmdCount (commandId (op5 b)) = 1 ∧ i = assemble (commandId (op5 b)) (fun k => [b].getD k 0) := by
  have hpos := cmdCount_pos (commandId (op5 b))
  by_cases hmore : 1 < cmdCount (commandId (op5 b))
  · rw [decode_of_tooFew (bytes := []) hmore] at h
    cases h
  · rw [decode_of_enough (bytes := []) (by simpa using hmore)] at h
    exact ⟨by omega, (Prod.mk.inj (Except.ok.inj h)).1.symm⟩

/-- Settles O5: the bytes the decoder reads are those the pending command is assembled from. -/
theorem stepRunsDecodedCommand : Obligations.StepRunsDecodedCommand := by
  refine ⟨fun s b rest i hs hop hp hlast hdecode => ?operand, fun s b rest i hwf hop hp hdecode => ?opcode⟩
  case operand =>
    obtain ⟨hfirst, -, hcount, -, -⟩ := hs.command hp
    have hlatched := hs.latched (by simp [hp])
    have hbound : (ackOnAccess (takeOp rest s)).cmdPosition < Config.cmdCap := by
      simpa using (State.inv_iff.1 hs).1.cmdPosition_lt hp
    have hread : (s.cmdBuf.write s.cmdPosition b).read 0 = s.cmdBuf.read 0 := Memory.read_write_other _ (by omega)
    have hpending : (acceptOperand b (ackOnAccess (takeOp rest s))).pendingInstr = some i := by
      refine pendingInstr_of_decode (n := s.cmdPosition + 1) ?_ ?_ (by simpa using hdecode)
      · simpa [hread] using hlatched
      · simp only [acceptOperand_cmdBuf, ackOnAccess_cmdBuf, ackOnAccess_cmdPosition, takeOp_cmdBuf, takeOp_cmdPosition, hread]
        omega
    rw [step_writeData hop, writePhase_of_command (by simpa using hp), appendCommand_of_bound hbound,
      dispatchIfComplete_of_complete (by simp [hlast]), dispatch, withPending_of_some hpending]
  case opcode =>
    obtain ⟨hone, rfl⟩ := cmdCount_eq_one_of_decode hdecode
    have hcmd : Memory.wf Config.cmdCap (ackOnAccess (takeOp rest s)).cmdBuf = true := by simpa using hwf.cmd
    have hbyte : (acceptOpcode b (ackOnAccess (takeOp rest s))).cmdBuf.read 0 = b := Memory.read_write_same hcmd
    rw [step_writeData_of_oneByte hop hp hone]
    congr 2
    refine assemble_congr _ fun k hk => ?_
    obtain rfl : k = 0 := by omega
    exact hbyte

/-- The step of a first byte that asks for more (R80, R81). -/
theorem step_writeData_opens {s : State} {b : Byte} {rest : List HostOp} (hop : s.hostOps = .writeData b :: rest)
    (hp : s.phase = .idle) (hmore : 1 < cmdCount (commandId (op5 b))) :
    step s = .next (armOnCompletion (acceptOpcode b (ackOnAccess (takeOp rest s)))) := by
  have hlength : (acceptOpcode b (ackOnAccess (takeOp rest s))).cmdLength ≠ 0 := by
    simpa using (by omega : cmdCount (commandId (op5 b)) - 1 ≠ 0)
  rw [step_writeData hop, writePhase_of_idle (by simpa using hp), startCommand, dispatchIfComplete_of_more hlength, andThen_next]

theorem mainStatus_of_command {s : State} (h : s.phase = .command) : s.mainStatus = 0x90 := by
  simp [State.mainStatus, h, msrRqm, msrCb]

/-- Settles O7: the opcode is latched and stored at index 0, and the completed access arms nothing in Command phase. -/
theorem opcodeOpensCommandPhase : Obligations.OpcodeOpensCommandPhase := by
  intro s b rest hwf hop hp hmore
  have hphase : (armOnCompletion (acceptOpcode b (ackOnAccess (takeOp rest s)))).phase = .command := by simp
  have hregisters : KeepsRegisters (ackOnAccess (takeOp rest s)) (acceptOpcode b (ackOnAccess (takeOp rest s))) := by
    constructor <;> rfl
  refine ⟨_, step_writeData_opens hop hp hmore, hphase, mainStatus_of_command hphase, by simp, ?stored, fun a ha => ?others,
    by simp, ?count, ?armed, by simp, by simp, by simp, hregisters.of_access, ⟨by simp, by simp⟩, by simp, by simp⟩
  case stored => simpa using Memory.read_write_same hwf.cmd
  case others => simpa using Memory.read_write_other s.cmdBuf ha
  case count =>
    simp only [armOnCompletion_cmdPosition, armOnCompletion_cmdLength, acceptOpcode_cmdPosition, acceptOpcode_cmdLength]
    omega
  case armed => simp [armOnCompletion_interruptState]

/-! ### The direction of an Execution phase -/

theorem direction_toHost_iff {s : State} : s.direction = some .controllerToHost ↔
    s.pendingOpcode = some .readData ∨ s.pendingOpcode = some .readDeletedData ∨ s.pendingOpcode = some .readTrack := by
  cases h : s.pendingOpcode with
  | none => simp [State.direction, h]
  | some id => cases id <;> simp [State.direction, h, transferDirection]

theorem direction_toController_iff {s : State} : s.direction = some .hostToController ↔
    s.pendingOpcode = some .writeData ∨ s.pendingOpcode = some .writeDeletedData ∨ s.pendingOpcode = some .formatTrack ∨
      s.pendingOpcode = some .scanEqual ∨ s.pendingOpcode = some .scanLowOrEqual ∨
      s.pendingOpcode = some .scanHighOrEqual := by
  cases h : s.pendingOpcode with
  | none => simp [State.direction, h]
  | some id => cases id <;> simp [State.direction, h, transferDirection]

theorem direction_of_pendingInstr {s : State} {i : Instr} (h : s.pendingInstr = some i) :
    s.direction = transferDirection i.commandId := by
  simp [State.direction, pendingOpcode_of_pendingInstr h]

theorem isScan_iff {i : Instr} : isScan i = true ↔
    i.commandId = .scanEqual ∨ i.commandId = .scanLowOrEqual ∨ i.commandId = .scanHighOrEqual := by
  cases i <;> simp [isScan, Instr.commandId]

/-! ### A host byte in Execution -/

theorem keepsProtocol_access (rest : List HostOp) (s : State) : KeepsProtocol s (ackOnAccess (takeOp rest s)) :=
  (keepsProtocol_takeOp rest s).trans (keepsProtocol_ackOnAccess _)

theorem finalizeIfDone_of_more {i : Instr} {s : State} (h : s.execLength ≠ 0) : finalizeIfDone i s = .next s :=
  if_neg h

theorem finalizeIfDone_of_done {i : Instr} {s : State} (h : s.execLength = 0) : finalizeIfDone i s = finalizeExecution i s :=
  if_pos h

/-- The step of a host byte in a host-to-controller Execution (R78, R87). -/
theorem step_execWrite {s : State} {b : Byte} {rest : List HostOp} {i : Instr} (hs : s.Inv)
    (hop : s.hostOps = .writeData b :: rest) (hp : s.phase = .execution) (hi : s.pendingInstr = some i)
    (hd : transferDirection i.commandId = some .hostToController) :
    step s = andThen (finalizeIfDone i (advanceExec (takeExecByte i b (ackOnAccess (takeOp rest s)))))
      fun m => .next (armOnCompletion m) := by
  have hkeeps := keepsProtocol_access rest s
  have hbound : (ackOnAccess (takeOp rest s)).execPosition < Config.execCap := by
    simpa using (State.inv_iff.1 hs).1.execPosition_lt hp
  rw [step_writeData hop, writePhase_of_toController (hkeeps.phase.trans hp)
      (hkeeps.direction.trans ((direction_of_pendingInstr hi).trans hd)),
    execWrite_of_bound (hkeeps.pendingInstr.trans hi) hbound]

theorem step_execWrite_of_more {s : State} {b : Byte} {rest : List HostOp} {i : Instr} (hs : s.Inv)
    (hop : s.hostOps = .writeData b :: rest) (hp : s.phase = .execution) (hi : s.pendingInstr = some i)
    (hd : transferDirection i.commandId = some .hostToController) (hmore : s.execLength ≠ 1) :
    step s = .next (armOnCompletion (advanceExec (takeExecByte i b (ackOnAccess (takeOp rest s))))) := by
  obtain ⟨-, hleft, -, -, -⟩ := hs.execution hp
  have hlength : (advanceExec (takeExecByte i b (ackOnAccess (takeOp rest s)))).execLength ≠ 0 := by
    simpa using (by omega : s.execLength - 1 ≠ 0)
  rw [step_execWrite hs hop hp hi hd, finalizeIfDone_of_more hlength, andThen_next]

theorem step_execWrite_of_last {s : State} {b : Byte} {rest : List HostOp} {i : Instr} (hs : s.Inv)
    (hop : s.hostOps = .writeData b :: rest) (hp : s.phase = .execution) (hi : s.pendingInstr = some i)
    (hd : transferDirection i.commandId = some .hostToController) (hlast : s.execLength = 1) :
    step s = andThen (finalizeExecution i (advanceExec (takeExecByte i b (ackOnAccess (takeOp rest s)))))
      fun m => .next (armOnCompletion m) := by
  rw [step_execWrite hs hop hp hi hd, finalizeIfDone_of_done (by simp [hlast])]

/-- Outside a SCAN the byte is stored at the current index (R87). -/
theorem takeExecByte_of_not_scan {i : Instr} (h : isScan i = false) (b : Byte) (s : State) :
    takeExecByte i b s = { s with execBuf := s.execBuf.write s.execPosition b } :=
  if_neg (by simp [h])

/-- In a SCAN the byte is compared with the one at the current index (R87, R144). -/
theorem takeExecByte_of_scan {i : Instr} (h : isScan i = true) (b : Byte) (s : State) :
    takeExecByte i b s = scanCompare i b (s.execBuf.read s.execPosition) s :=
  if_pos h

/-- Arming on completion in Execution (R157). -/
theorem armed_of_execution {s m : State} (hi : m.interruptState = if s.interruptState = .seekEnd then .seekEnd else .none)
    (hp : m.phase = .execution) (hs : s.interruptState ≠ .seekEnd) :
    (armOnCompletion m).interruptState = .execByteReady ∧ (armOnCompletion m).ticksRemaining = Config.shortDelay := by
  rw [if_neg hs] at hi
  simp [armOnCompletion_interruptState, armOnCompletion_ticksRemaining, hi, hp]

/-- Settles O28: outside the SCANs the taken byte is a store, and every other field of the step is kept or counted. -/
theorem executionStoresHostByte : Obligations.ExecutionStoresHostByte := by
  intro s b rest i hs hop hp hid hi hmore
  rw [pendingOpcode_of_pendingInstr hi, Option.some_inj, Option.some_inj, Option.some_inj] at hid
  have hd : transferDirection i.commandId = some .hostToController := by
    rcases hid with hid | hid | hid <;> rw [hid] <;> rfl
  have hscan : isScan i = false := by
    rw [← Bool.not_eq_true, isScan_iff]
    rcases hid with hid | hid | hid <;> simp [hid]
  have hstep := step_execWrite_of_more hs hop hp hi hd hmore
  rw [takeExecByte_of_not_scan hscan] at hstep
  have hregisters : ∀ u : State, KeepsRegisters u (advanceExec { u with execBuf := u.execBuf.write u.execPosition b }) := by
    intro u
    constructor <;> rfl
  refine ⟨_, hstep, ?stored, fun a ha => ?others, by simp, by simp, by simpa using hp, by simp, by simp, by simp,
    (hregisters _).of_access, ⟨by simp, by simp, by simp⟩, by simp, by simp, armed_of_execution (by simp) (by simpa using hp)⟩
  case stored => simpa using Memory.read_write_same hs.buffers.exec
  case others => simpa using Memory.read_write_other s.execBuf ha

/-! ### The frame of an Execution access -/

/-- What an access of an Execution phase leaves alone before its Result opens (R87 to R89). -/
structure ExecutionKept (s m : State) : Prop where
  cmdBuf : m.cmdBuf = s.cmdBuf
  cmdPosition : m.cmdPosition = s.cmdPosition
  pendingOpcode : m.pendingOpcode = s.pendingOpcode
  spec1 : m.spec1 = s.spec1
  spec2 : m.spec2 = s.spec2
  status3 : m.status3 = s.status3
  slots : m.slots = s.slots
  unit : m.selectedUnit = s.selectedUnit
  head : m.selectedHead = s.selectedHead
  rotation : m.rotatingSectorIndex = s.rotatingSectorIndex
  resBuf : m.resBuf = s.resBuf

theorem ExecutionKept.trans {s m u : State} (h : ExecutionKept s m) (h' : ExecutionKept m u) : ExecutionKept s u :=
  ⟨h'.cmdBuf.trans h.cmdBuf, h'.cmdPosition.trans h.cmdPosition, h'.pendingOpcode.trans h.pendingOpcode,
    h'.spec1.trans h.spec1, h'.spec2.trans h.spec2, h'.status3.trans h.status3, h'.slots.trans h.slots, h'.unit.trans h.unit,
    h'.head.trans h.head, h'.rotation.trans h.rotation, h'.resBuf.trans h.resBuf⟩

theorem executionKept_write (i : Instr) (b : Byte) (rest : List HostOp) (s : State) :
    ExecutionKept s (advanceExec (takeExecByte i b (ackOnAccess (takeOp rest s)))) := by
  constructor <;> simp

/-- Arming leaves the frame. -/
theorem ExecutionKept.frame {s m : State} (h : ExecutionKept s m) : ExecutionFrame s (armOnCompletion m) := by
  obtain ⟨cmdBuf, cmdPosition, pendingOpcode, spec1, spec2, status3, slots, unit, head, rotation, resBuf⟩ := h
  exact ⟨⟨by simp [cmdBuf], by simpa using cmdPosition, by simpa using pendingOpcode⟩, ⟨by simpa using spec1, by simpa using spec2⟩,
    by simpa using status3, by simpa using slots, by simpa using unit, by simpa using head, by simpa using rotation,
    fun a _ => by simp [resBuf]⟩

/-- The opening of the Result and arming leave the frame. -/
theorem ExecutionKept.frame_openResult7 {s m : State} (i : Instr) (h : ExecutionKept s m) :
    ExecutionFrame s (armOnCompletion (openResult7 i m)) := by
  obtain ⟨command, params, status3, slots, unit, head, rotation, -⟩ := h.frame
  obtain ⟨cmdBuf, cmdPosition, pendingOpcode⟩ := command
  obtain ⟨spec1, spec2⟩ := params
  refine ⟨⟨by simpa [openResult7] using cmdBuf, by simpa [openResult7] using cmdPosition,
    by simpa [openResult7] using pendingOpcode⟩, ⟨by simpa [openResult7] using spec1, by simpa [openResult7] using spec2⟩,
    by simpa [openResult7] using status3, by simpa [openResult7] using slots, by simpa [openResult7] using unit,
    by simpa [openResult7] using head, by simpa [openResult7] using rotation, fun a ha => ?_⟩
  rw [armOnCompletion_resBuf, openResult7, keepsResFrom_openResult _ m (result7_length _ _).le a ha, h.resBuf]

/-- The Result after the last byte holds the seven bytes of the state the finish action left (R89, R130). -/
theorem ExecutionKept.resultHolds {s m : State} {i : Instr} {hdr : SectorId} (h : ExecutionKept s m) (hs : s.Inv)
    (hhdr : resultHeader i m = hdr) :
    ResultHolds (sevenBytes (statusOf (armOnCompletion (openResult7 i m))) hdr) (armOnCompletion (openResult7 i m)) := by
  have hstatus : statusOf (armOnCompletion (openResult7 i m)) = statusOf m := by simp [statusOf, openResult7]
  rw [hstatus]
  exact (resultHolds_openResult7 (h.resBuf ▸ hs.buffers.res) rfl hhdr).of_armOnCompletion

/-! ### The last byte of a WRITE and of a FORMAT -/

theorem writeProtected_of_slots {s t : State} (h : t.slots = s.slots) (u : UnitNo) :
    t.writeProtected u = s.writeProtected u := by
  simp [State.writeProtected, drive_of_slots h]

/-- The state in which a stored last byte's finish action runs. -/
def byteStored (b : Byte) (rest : List HostOp) (s : State) : State :=
  advanceExec { ackOnAccess (takeOp rest s) with
    execBuf := (ackOnAccess (takeOp rest s)).execBuf.write (ackOnAccess (takeOp rest s)).execPosition b }

theorem byteStored_eq {i : Instr} (h : isScan i = false) (b : Byte) (rest : List HostOp) (s : State) :
    advanceExec (takeExecByte i b (ackOnAccess (takeOp rest s))) = byteStored b rest s := by
  rw [takeExecByte_of_not_scan h]
  rfl

section byteStored
variable (b : Byte) (rest : List HostOp) (s : State)

@[simp] theorem byteStored_status0 : (byteStored b rest s).status0 = s.status0 := by simp [byteStored]
@[simp] theorem byteStored_status1 : (byteStored b rest s).status1 = s.status1 := by simp [byteStored]
@[simp] theorem byteStored_status2 : (byteStored b rest s).status2 = s.status2 := by simp [byteStored]
@[simp] theorem byteStored_execBuf : (byteStored b rest s).execBuf = s.execBuf.write s.execPosition b := by simp [byteStored]
@[simp] theorem byteStored_execPosition : (byteStored b rest s).execPosition = s.execPosition + 1 := by simp [byteStored]
@[simp] theorem byteStored_selectedUnit : (byteStored b rest s).selectedUnit = s.selectedUnit := by simp [byteStored]
@[simp] theorem byteStored_selectedHead : (byteStored b rest s).selectedHead = s.selectedHead := by simp [byteStored]
@[simp] theorem byteStored_writeDeletedFlag : (byteStored b rest s).writeDeletedFlag = s.writeDeletedFlag := by
  simp [byteStored]
@[simp] theorem byteStored_slots : (byteStored b rest s).slots = s.slots := by simp [byteStored]
@[simp] theorem byteStored_answers : (byteStored b rest s).answers = s.answers := by simp [byteStored]
@[simp] theorem byteStored_events : (byteStored b rest s).events = s.events ++ ackEvents s := by simp [byteStored]

theorem executionKept_byteStored : ExecutionKept s (byteStored b rest s) := by
  constructor <;> simp [byteStored]

/-- A stored byte stays stored where the execution buffer and its position are kept. -/
theorem storesExecByte_of_byteStored {b : Byte} {rest : List HostOp} {s t : State} (hs : s.Inv)
    (hbuf : t.execBuf = (byteStored b rest s).execBuf) (hposition : t.execPosition = (byteStored b rest s).execPosition) :
    StoresExecByte b s t := by
  rw [byteStored_execBuf] at hbuf
  rw [byteStored_execPosition] at hposition
  exact ⟨hbuf ▸ Memory.read_write_same hs.buffers.exec, fun a ha => hbuf ▸ Memory.read_write_other _ ha, hposition⟩

end byteStored

/-- The first bytes up to a byte just written. -/
theorem Memory.firstBytes_write {cap n : Nat} {b : Byte} {m : Memory} (hm : m.wf cap = true) :
    (m.write n b).firstBytes (n + 1) = m.firstBytes n ++ [b] := by
  have hread : (m.write n b).read n = b := Memory.read_write_same hm
  simp only [Memory.firstBytes, List.range_succ, List.map_append, List.map_cons, List.map_nil, hread]
  congr 1
  exact List.map_congr_left fun k hk => Memory.read_write_other _ (List.mem_range.1 hk).ne

section lastWrite
variable {i : Instr} {f : OpFlags} {uh : UnitHead} {id : SectorId} {dtl : Byte} {deleted : Bool}

theorem isScan_of_writesSector (h : writesSector i = some (f, uh, id, dtl, deleted)) : isScan i = false := by
  cases i <;> cases h <;> rfl

theorem direction_of_writesSector (h : writesSector i = some (f, uh, id, dtl, deleted)) :
    transferDirection i.commandId = some .hostToController := by
  cases i <;> cases h <;> rfl

theorem fixedTransfer_of_writesSector (h : writesSector i = some (f, uh, id, dtl, deleted)) :
    fixedTransfer i = some (sectorLen id.n dtl) := by
  cases i <;> cases h <;> rfl

theorem commandId_of_writesSector (h : writesSector i = some (f, uh, id, dtl, deleted)) :
    i.commandId = .writeDeletedData ↔ deleted = true := by
  cases i <;> cases h <;> simp [Instr.commandId]

/-- During the Execution of a write the deleted flag is the command's (R32). -/
theorem writeDeletedFlag_of_writesSector {s : State} (hs : s.Inv) (hp : s.phase = .execution) (hi : s.pendingInstr = some i)
    (h : writesSector i = some (f, uh, id, dtl, deleted)) : s.writeDeletedFlag = deleted := by
  rw [Bool.eq_iff_iff, hs.deleted, pendingOpcode_of_pendingInstr hi, Option.some_inj, commandId_of_writesSector h]
  simp [hp]

end lastWrite

/-- The slot conditions a last byte's finish action meets are those before the access. -/
theorem usable_byteStored (b : Byte) (rest : List HostOp) (s : State) :
    (byteStored b rest s).usable (byteStored b rest s).selectedUnit = s.usable s.selectedUnit := by
  rw [byteStored_selectedUnit, usable_of_slots (byteStored_slots b rest s)]

theorem writeProtected_byteStored (b : Byte) (rest : List HostOp) (s : State) :
    (byteStored b rest s).writeProtected (byteStored b rest s).selectedUnit = s.writeProtected s.selectedUnit := by
  rw [byteStored_selectedUnit, writeProtected_of_slots (byteStored_slots b rest s)]

/-- Settles O29: the stored byte completes the sector, and the finish action of the write runs on the state it left. -/
theorem lastWriteByteWritesSector : Obligations.LastWriteByteWritesSector := by
  intro s b rest i f uh id dtl deleted hs hop hp hlast hi h hu
  have hu' := (usable_byteStored b rest s).trans hu
  have hlen : sectorLen id.n dtl = s.execPosition + 1 := by
    rw [← hs.transfer hp i _ hi (fixedTransfer_of_writesSector h), hlast]
  have hstep := step_execWrite_of_last hs hop hp hi (direction_of_writesSector h) hlast
  rw [byteStored_eq (isScan_of_writesSector h)] at hstep
  refine ⟨fun e q hfree ha => ?written, fun hprot => ?readOnly⟩
  case written =>
    rw [finalizeExecution_writesSector h hu' ((writeProtected_byteStored b rest s).trans hfree)
      ((byteStored_answers b rest s).trans ha), andThen_next] at hstep
    have hkept : ∀ ev, ExecutionKept s (setWriteDeleted false (applyError e (record ev (takeAnswer q (byteStored b rest s))))) :=
      fun _ => (executionKept_byteStored b rest s).trans (by constructor <;> rfl)
    refine ⟨_, hstep, ?status, (hkept _).resultHolds hs (resultHeader_of_sector _ (.inr h)), by simp [openResult7],
      by simp [openResult7], storesExecByte_of_byteStored (rest := rest) hs (by simp [openResult7]) (by simp [openResult7]),
      (hkept _).frame_openResult7 i, ?events⟩
    case status => simp [statusOf, openResult7, applyError]
    case events =>
      simp [openResult7, writeArgs, hlen, Memory.firstBytes_write hs.buffers.exec,
        writeDeletedFlag_of_writesSector hs hp hi h]
  case readOnly =>
    rw [finalizeExecution_writesSector_of_writeProtected h hu' ((writeProtected_byteStored b rest s).trans hprot), andThen_next]
      at hstep
    have hkept : ExecutionKept s (setWriteDeleted false (applyError .readOnly (byteStored b rest s))) :=
      (executionKept_byteStored b rest s).trans (by constructor <;> rfl)
    refine ⟨_, hstep, ?status, hkept.resultHolds hs (resultHeader_of_sector _ (.inr h)), by simp [openResult7],
      by simp [openResult7], storesExecByte_of_byteStored (rest := rest) hs (by simp [openResult7]) (by simp [openResult7]),
      hkept.frame_openResult7 i, by simp [openResult7]⟩
    case status => simp [statusOf, openResult7, applyError, deltasOf]

/-- The fallback header of a format's result is that before the access (R131). -/
theorem ExecutionKept.resultHeader {s m : State} (h : ExecutionKept s m) (i : Instr) : resultHeader i m = resultHeader i s :=
  resultHeader_congr h.slots h.unit h.head

/-- Settles O30: the stored byte completes the descriptors, and the finish action of the format runs on the state it left. -/
theorem lastFormatByteFormats : Obligations.LastFormatByteFormats := by
  intro s b rest f uh n sc gpl d hs hop hp hlast hi hu
  have hu' := (usable_byteStored b rest s).trans hu
  have hlen : formatLen sc = s.execPosition + 1 := by rw [← hs.transfer hp _ (formatLen sc) hi rfl, hlast]
  have hstep := step_execWrite_of_last hs hop hp hi rfl hlast
  rw [byteStored_eq rfl] at hstep
  refine ⟨fun e q hfree ha => ?formatted, fun hprot => ?readOnly⟩
  case formatted =>
    rw [finalizeExecution_formatTrack hu' ((writeProtected_byteStored b rest s).trans hfree)
      ((byteStored_answers b rest s).trans ha), andThen_next] at hstep
    have hkept : ∀ ev, ExecutionKept s (applyError e (record ev (takeAnswer q (byteStored b rest s)))) :=
      fun _ => (executionKept_byteStored b rest s).trans (by constructor <;> rfl)
    refine ⟨_, hstep, ?status, (hkept _).resultHolds hs ((hkept _).resultHeader _), by simp [openResult7],
      by simp [openResult7], storesExecByte_of_byteStored (rest := rest) hs (by simp [openResult7]) (by simp [openResult7]),
      (hkept _).frame_openResult7 _, ?events⟩
    case status => simp [statusOf, openResult7, applyError]
    case events => simp [openResult7, hlen, Memory.firstBytes_write hs.buffers.exec]
  case readOnly =>
    rw [finalizeExecution_formatTrack_of_writeProtected hu' ((writeProtected_byteStored b rest s).trans hprot), andThen_next]
      at hstep
    have hkept : ExecutionKept s (applyError .readOnly (byteStored b rest s)) :=
      (executionKept_byteStored b rest s).trans (by constructor <;> rfl)
    refine ⟨_, hstep, ?status, hkept.resultHolds hs (hkept.resultHeader _), by simp [openResult7], by simp [openResult7],
      storesExecByte_of_byteStored (rest := rest) hs (by simp [openResult7]) (by simp [openResult7]),
      hkept.frame_openResult7 _, by simp [openResult7]⟩
    case status => simp [statusOf, openResult7, applyError, deltasOf]

/-! ### The scans -/

theorem scanAccepts_iff {i : Instr} {hb db : Byte} : scanAccepts i hb db = true ↔
    i.commandId = .scanLowOrEqual ∧ db < hb ∨ i.commandId = .scanHighOrEqual ∧ hb < db := by
  cases i <;> simp [scanAccepts, Instr.commandId]

/-- What one comparison makes of status2 (R144). -/
theorem scanCompare_status2 (i : Instr) (hb db : Byte) (s : State) :
    (scanCompare i hb db s).status2 =
      if hb = 0xFF ∨ db = 0xFF ∨ db = hb then s.status2
      else if i.commandId = .scanLowOrEqual ∧ db < hb ∨ i.commandId = .scanHighOrEqual ∧ hb < db then s.status2 &&& 0xF7
      else (s.status2 &&& 0xF7) ||| 0x04 := by
  rw [scanCompare]
  by_cases hwild : hb = 0xFF ∨ db = 0xFF
  · rw [if_pos hwild, if_pos (hwild.imp_right .inl)]
  · rw [if_neg hwild]
    by_cases heq : db = hb
    · rw [if_pos heq, if_pos (.inr (.inr heq))]
    · have hother : ¬(hb = 0xFF ∨ db = 0xFF ∨ db = hb) := fun h => hwild (h.imp_right fun h' => h'.resolve_right heq)
      rw [if_neg heq, if_neg hother]
      by_cases haccept : scanAccepts i hb db = true
      · rw [if_pos haccept, if_pos (scanAccepts_iff.1 haccept)]
        rfl
      · rw [if_neg haccept, if_neg (mt scanAccepts_iff.2 haccept)]
        rfl

theorem direction_of_isScan {i : Instr} (h : isScan i = true) : transferDirection i.commandId = some .hostToController := by
  rcases isScan_iff.1 h with hid | hid | hid <;> rw [hid] <;> rfl

/-- A scan's byte leaves the execution buffer, and status2 is as the comparison with the byte at the index says (R144). -/
theorem takeExecByte_of_access {i : Instr} (h : isScan i = true) (b : Byte) (rest : List HostOp) {s : State}
    (hi : s.pendingInstr = some i) :
    (takeExecByte i b (ackOnAccess (takeOp rest s))).execBuf = s.execBuf ∧
    (takeExecByte i b (ackOnAccess (takeOp rest s))).status2 =
      (if b = 0xFF ∨ s.execBuf.read s.execPosition = 0xFF ∨ s.execBuf.read s.execPosition = b then s.status2
       else if s.pendingOpcode = some .scanLowOrEqual ∧ s.execBuf.read s.execPosition < b ∨
           s.pendingOpcode = some .scanHighOrEqual ∧ b < s.execBuf.read s.execPosition then s.status2 &&& 0xF7
       else (s.status2 &&& 0xF7) ||| 0x04) := by
  rw [takeExecByte_of_scan h, scanCompare_status2, pendingOpcode_of_pendingInstr hi]
  simp

/-- Settles O31: the taken byte is a comparison, which touches status2 alone. -/
theorem scanComparesHostByte : Obligations.ScanComparesHostByte := by
  intro s b rest i hs hop hp hi h hmore
  obtain ⟨hbuf, hstatus2⟩ := takeExecByte_of_access h b rest hi
  exact ⟨_, step_execWrite_of_more hs hop hp hi (direction_of_isScan h) hmore, by simpa using hbuf, by simp, by simp,
    by simpa using hp, by simp, by simp, (executionKept_write i b rest s).frame, by simp, by simp, by simp, by simp, by simp,
    by simpa using hstatus2⟩

theorem finalizeExecution_of_no_finish {i : Instr} {s : State} (h : finishAction i s = .next s) :
    finalizeExecution i s = .next (openResult7 i s) := by
  rw [finalizeExecution, h, andThen_next]

/-- Settles O32: a scan has no finish action, so the last comparison's state opens the Result. -/
theorem lastScanByteOpensResult : Obligations.LastScanByteOpensResult := by
  intro s b rest i f uh id dtl deleted hs hop hp hlast hi h hsector
  obtain ⟨hbuf, hstatus2⟩ := takeExecByte_of_access h b rest hi
  have hkept := executionKept_write i b rest s
  have hstep := step_execWrite_of_last hs hop hp hi (direction_of_isScan h) hlast
  rw [finalizeExecution_of_no_finish (finishAction_of_readsSector hsector _), andThen_next] at hstep
  exact ⟨_, hstep, hkept.resultHolds hs (resultHeader_of_sector _ (.inl hsector)), by simp [openResult7], by simp [openResult7],
    by simpa [openResult7] using hstatus2, by simpa [openResult7] using hbuf, by simp [openResult7], hkept.frame_openResult7 i,
    by simp [openResult7], by simp [openResult7], by simp [openResult7]⟩

/-- A pair of a host byte and a sector byte matches: equal, or a wildcard on either side (R144). -/
abbrev PairMatches (p : Byte × Byte) : Prop := p.1 = 0xFF ∨ p.2 = 0xFF ∨ p.1 = p.2

/-- A pair differs in the direction the command accepts (R146, R147). -/
abbrev PairAccepted (i : Instr) (p : Byte × Byte) : Prop :=
  i.commandId = .scanLowOrEqual ∧ p.2 < p.1 ∨ i.commandId = .scanHighOrEqual ∧ p.1 < p.2

theorem scanField_unequal (x : Byte) : x &&& 0xF7 &&& 0x0C = x &&& 0x0C &&& 0x04 ∧ x &&& 0xF7 &&& 0xF3 = x &&& 0xF3 := by
  revert x
  decide

theorem scanField_notSatisfied (x : Byte) :
    ((x &&& 0xF7) ||| 0x04) &&& 0x0C = 0x04 ∧ ((x &&& 0xF7) ||| 0x04) &&& 0xF3 = x &&& 0xF3 := by
  revert x
  decide

/-- What one comparison makes of the scan field and of the other bits of status2 (R144). -/
theorem scanField_step (i : Instr) (p : Byte × Byte) (s : State) :
    (scanCompare i p.1 p.2 s).status2 &&& 0x0C =
      (if PairMatches p then s.status2 &&& 0x0C else if PairAccepted i p then s.status2 &&& 0x0C &&& 0x04 else 0x04) ∧
    (scanCompare i p.1 p.2 s).status2 &&& 0xF3 = s.status2 &&& 0xF3 := by
  have hmatches : (p.1 = 0xFF ∨ p.2 = 0xFF ∨ p.2 = p.1) ↔ PairMatches p := by simp [PairMatches, eq_comm]
  rw [scanCompare_status2, if_congr hmatches rfl rfl]
  split
  · exact ⟨rfl, rfl⟩
  · split
    · exact scanField_unequal _
    · exact scanField_notSatisfied _

/-- The scan field after all pairs, from any start: each comparison keeps it, clears "still matching", or sets "not satisfied"
for good. -/
theorem scanField_fold (i : Instr) (pairs : List (Byte × Byte)) (s : State) :
    (pairs.foldl (fun u p => scanCompare i p.1 p.2 u) s).status2 &&& 0x0C =
      (if ∀ p ∈ pairs, PairMatches p then s.status2 &&& 0x0C
       else if ∀ p ∈ pairs, PairMatches p ∨ PairAccepted i p then s.status2 &&& 0x0C &&& 0x04 else 0x04) ∧
    (pairs.foldl (fun u p => scanCompare i p.1 p.2 u) s).status2 &&& 0xF3 = s.status2 &&& 0xF3 := by
  induction pairs generalizing s with
  | nil => simp
  | cons p pairs ih =>
    obtain ⟨hfield, hrest⟩ := scanField_step i p s
    obtain ⟨ihfield, ihrest⟩ := ih (scanCompare i p.1 p.2 s)
    refine ⟨?_, ihrest.trans hrest⟩
    rw [List.foldl_cons, ihfield, hfield]
    simp only [List.forall_mem_cons]
    by_cases hm : PairMatches p
    · simp [hm]
    · by_cases ha : PairAccepted i p
      · have hkept : (∀ q ∈ pairs, PairMatches q) → ∀ q ∈ pairs, PairMatches q ∨ PairAccepted i q := fun h q hq => .inl (h q hq)
        have hfirst : PairMatches p ∨ PairAccepted i p := .inr ha
        have hnot : ¬(PairMatches p ∧ ∀ q ∈ pairs, PairMatches q) := fun h => hm h.1
        rw [if_neg hm, if_pos ha, if_neg hnot]
        simp only [hfirst, true_and]
        by_cases hall : ∀ q ∈ pairs, PairMatches q
        · rw [if_pos hall, if_pos (hkept hall)]
        · rw [if_neg hall, BitVec.and_assoc (s.status2 &&& 0x0C), BitVec.and_self]
      · simp [hm, ha]

/-- Settles O33: the general fold, from a field that stands at "still matching". -/
theorem scanFieldOfAllBytes : Obligations.ScanFieldOfAllBytes := by
  intro i pairs s _ hstart
  have hfold := scanField_fold i pairs s
  rwa [hstart] at hfold

end Sys2Proof.Machine
end

section
/-! SUPPORT. The main status register, the reads of the Execution and Result phases one at a time and all in order, and the
accesses in the wrong direction (10_state.md sections 1 and 2, 40_protocol.md sections 5 to 7). -/

namespace Sys2Proof.Machine

open Sys2Proof

/-! ### The main status register -/

theorem mainStatus_of_toHost {s : State} (hp : s.phase = .execution) (hd : s.direction = some .controllerToHost) :
    s.mainStatus = 0xF0 := by
  simp [State.mainStatus, hp, hd, msrRqm, msrDio, msrExm, msrCb]

theorem mainStatus_of_not_toHost {s : State} (hp : s.phase = .execution) (hd : s.direction ≠ some .controllerToHost) :
    s.mainStatus = 0xB0 := by
  simp [State.mainStatus, hp, hd, msrRqm, msrExm, msrCb]

theorem mainStatus_of_toController {s : State} (hp : s.phase = .execution) (hd : s.direction = some .hostToController) :
    s.mainStatus = 0xB0 :=
  mainStatus_of_not_toHost hp (by simp [hd])

theorem mainStatus_of_result {s : State} (h : s.phase = .result) : s.mainStatus = 0xD0 := by
  simp [State.mainStatus, h, msrRqm, msrDio, msrCb]

/-- The five values of the main status register (R18). -/
theorem mainStatus_mem (s : State) : s.phase = .idle ∧ s.mainStatus = 0x80 ∨ s.phase = .command ∧ s.mainStatus = 0x90 ∨
    s.phase = .execution ∧ (s.mainStatus = 0xF0 ∨ s.mainStatus = 0xB0) ∨ s.phase = .result ∧ s.mainStatus = 0xD0 := by
  cases hp : s.phase with
  | idle => exact .inl ⟨rfl, mainStatus_of_idle hp⟩
  | command => exact .inr (.inl ⟨rfl, mainStatus_of_command hp⟩)
  | execution =>
    by_cases hd : s.direction = some .controllerToHost
    · exact .inr (.inr (.inl ⟨rfl, .inl (mainStatus_of_toHost hp hd)⟩))
    · exact .inr (.inr (.inl ⟨rfl, .inr (mainStatus_of_not_toHost hp hd)⟩))
  | result => exact .inr (.inr (.inr ⟨rfl, mainStatus_of_result hp⟩))

/-- The phase a value of the main status register stands for (R16). -/
def phaseOfStatus (b : Byte) : Phase :=
  if b = 0x80 then .idle else if b = 0x90 then .command else if b = 0xD0 then .result else .execution

theorem phaseOfStatus_mainStatus (s : State) : phaseOfStatus s.mainStatus = s.phase := by
  rcases mainStatus_mem s with ⟨hp, hm⟩ | ⟨hp, hm⟩ | ⟨hp, hm | hm⟩ | ⟨hp, hm⟩ <;> rw [hp, hm] <;> rfl

/-- Settles O39: each phase's value is computed, and the phase is read back from the value. -/
theorem mainStatusOfEachPhase : Obligations.MainStatusOfEachPhase := by
  refine ⟨fun s => ⟨direction_toHost_iff, direction_toController_iff,
    fun hp hid => mainStatus_of_toHost hp (direction_toHost_iff.2 hid),
    fun hp hid => mainStatus_of_toController hp (direction_toController_iff.2 hid), mainStatus_of_idle, mainStatus_of_command,
    mainStatus_of_result, mainStatus_of_toHost, mainStatus_of_toController, ?busy⟩, fun s t h => ?phase⟩
  case busy => rcases mainStatus_mem s with ⟨-, hm⟩ | ⟨-, hm⟩ | ⟨-, hm | hm⟩ | ⟨-, hm⟩ <;> rw [hm] <;> decide
  case phase => rw [← phaseOfStatus_mainStatus s, h, phaseOfStatus_mainStatus]

/-! ### One read of an Execution phase -/

/-- The state after one Execution byte was read, before arming (R88). -/
def byteRead (rest : List HostOp) (s : State) : State :=
  advanceExec (deliver (s.execBuf.read s.execPosition) (ackOnAccess (takeOp rest s)))

/-- The step of a read in a controller-to-host Execution (R79, R88). -/
theorem step_execRead {s : State} {rest : List HostOp} {i : Instr} (hs : s.Inv) (hop : s.hostOps = .readData :: rest)
    (hp : s.phase = .execution) (hi : s.pendingInstr = some i) (hd : s.direction = some .controllerToHost) :
    step s = andThen (finalizeIfDone i (byteRead rest s)) fun m => .next (armOnCompletion m) := by
  have hkeeps := keepsProtocol_access rest s
  have hbound : (ackOnAccess (takeOp rest s)).execPosition < Config.execCap := by
    simpa using (State.inv_iff.1 hs).1.execPosition_lt hp
  rw [step_readData hop, readPhase_of_toHost (hkeeps.phase.trans hp) (hkeeps.direction.trans hd),
    execRead_of_bound (hkeeps.pendingInstr.trans hi) hbound, hkeeps.execBuf, hkeeps.execPosition]
  rfl

theorem step_execRead_of_more {s : State} {rest : List HostOp} {i : Instr} (hs : s.Inv) (hop : s.hostOps = .readData :: rest)
    (hp : s.phase = .execution) (hi : s.pendingInstr = some i) (hd : s.direction = some .controllerToHost)
    (hmore : s.execLength ≠ 1) : step s = .next (armOnCompletion (byteRead rest s)) := by
  obtain ⟨-, hleft, -, -, -⟩ := hs.execution hp
  have hlength : (byteRead rest s).execLength ≠ 0 := by
    simpa [byteRead] using (by omega : s.execLength - 1 ≠ 0)
  rw [step_execRead hs hop hp hi hd, finalizeIfDone_of_more hlength, andThen_next]

theorem finishAction_of_toHost {i : Instr} (h : transferDirection i.commandId = some .controllerToHost) (s : State) :
    finishAction i s = .next s := by
  cases i <;> cases h <;> rfl

theorem step_execRead_of_last {s : State} {rest : List HostOp} {i : Instr} (hs : s.Inv) (hop : s.hostOps = .readData :: rest)
    (hp : s.phase = .execution) (hi : s.pendingInstr = some i) (hd : s.direction = some .controllerToHost)
    (hlast : s.execLength = 1) : step s = .next (armOnCompletion (openResult7 i (byteRead rest s))) := by
  have hfinish := finishAction_of_toHost ((direction_of_pendingInstr hi).symm.trans hd) (byteRead rest s)
  rw [step_execRead hs hop hp hi hd, finalizeIfDone_of_done (by simp [byteRead, hlast]), finalizeExecution_of_no_finish hfinish,
    andThen_next]

/-! ### All reads of an Execution phase -/

/-- After an access no acknowledgement is left to record: only a SeekEnd keeps the line (R160). -/
theorem ackEvents_of_access {s m : State} (hs : s.Inv) (hi : m.interruptState = if s.interruptState = .seekEnd then .seekEnd else .none)
    (hl : m.irqLine = (ackOnAccess s).irqLine) : ackEvents (armOnCompletion m) = [] := by
  by_cases hseek : s.interruptState = .seekEnd
  · rw [if_pos hseek] at hi
    simp [ackEvents, armOnCompletion_interruptState, hi]
  · have hline : m.irqLine = false := by
      rw [hl, ackOnAccess_irqLine]
      split
      · next h => simpa [h.resolve_left hseek] using hs.line
      · rfl
    simp [ackEvents, hline]

/-- What the reads of a whole Execution phase leave, before the last one opens the Result (R88, R89). -/
structure DeliveredAll (rest : List HostOp) (s m : State) : Prop where
  kept : ExecutionKept s m
  status : statusOf m = statusOf s
  hostOps : m.hostOps = rest
  execBuf : m.execBuf = s.execBuf
  execPosition : m.execPosition = s.execPosition + s.execLength
  flag : m.writeDeletedFlag = s.writeDeletedFlag
  answers : m.answers = s.answers
  events : m.events = s.events ++ ackEvents s

theorem executionKept_byteRead (rest : List HostOp) (s : State) : ExecutionKept s (byteRead rest s) := by
  constructor <;> simp [byteRead]

theorem executionKept_armed {s m : State} (h : ExecutionKept s m) : ExecutionKept s (armOnCompletion m) :=
  h.trans (by constructor <;> simp)

theorem deliveredAll_of_last {s : State} (rest : List HostOp) (hlast : s.execLength = 1) : DeliveredAll rest s (byteRead rest s) :=
  ⟨executionKept_byteRead rest s, by simp [statusOf, byteRead], by simp [byteRead], by simp [byteRead], by simp [byteRead, hlast],
    by simp [byteRead], by simp [byteRead], by simp [byteRead]⟩

/-- One more byte read first. -/
theorem DeliveredAll.cons {rest rest' : List HostOp} {s m : State} (hs : s.Inv) (hleft : 1 ≤ s.execLength)
    (h : DeliveredAll rest (armOnCompletion (byteRead rest' s)) m) : DeliveredAll rest s m := by
  obtain ⟨kept, status, hostOps, execBuf, execPosition, flag, answers, events⟩ := h
  have hack : ackEvents (armOnCompletion (byteRead rest' s)) = [] :=
    ackEvents_of_access hs (by simp [byteRead]) (by simp [byteRead, ackOnAccess_irqLine])
  refine ⟨(executionKept_armed (executionKept_byteRead rest' s)).trans kept, status.trans (by simp [statusOf, byteRead]), hostOps,
    execBuf.trans (by simp [byteRead]), execPosition.trans ?_, flag.trans (by simp [byteRead]),
    answers.trans (by simp [byteRead]), ?_⟩
  · simp only [byteRead, armOnCompletion_execPosition, armOnCompletion_execLength, advanceExec_execPosition,
      advanceExec_execLength, deliver_execPosition, deliver_execLength, ackOnAccess_execPosition, ackOnAccess_execLength,
      takeOp_execPosition, takeOp_execLength]
    omega
  · rw [events, hack, List.append_nil]
    simp [byteRead]

theorem observe_succ {k : Nat} {s t u : State} {rs : List (Option Byte)} (h : step s = .next t)
    (h' : observe k t = some (rs, u)) : observe (k + 1) s = some (t.reply :: rs, u) := by
  simp [observe, h, h']

theorem map_range_succ {α : Type} (f : Nat → α) (n : Nat) :
    (List.range (n + 1)).map f = f 0 :: (List.range n).map fun k => f (k + 1) := by
  simp [List.range_succ_eq_map]

/-- As many reads as bytes are to come return them in order (R88, R89). -/
theorem observe_execRead {i : Instr} {rest : List HostOp} (n : Nat) {s : State} (hs : s.Inv) (hp : s.phase = .execution)
    (hi : s.pendingInstr = some i) (hd : s.direction = some .controllerToHost) (hlen : s.execLength = n + 1)
    (hop : s.hostOps = List.replicate (n + 1) .readData ++ rest) :
    ∃ m, observe (n + 1) s = some ((List.range (n + 1)).map (fun k => some (s.execBuf.read (s.execPosition + k))),
        armOnCompletion (openResult7 i m)) ∧ DeliveredAll rest s m := by
  induction n generalizing s with
  | zero =>
    have hstep := step_execRead_of_last hs hop hp hi hd hlen
    refine ⟨byteRead rest s, ?_, deliveredAll_of_last rest hlen⟩
    rw [observe_succ hstep rfl]
    simp [openResult7, byteRead]
  | succ n ih =>
    have hstep := step_execRead_of_more hs hop hp hi hd (by omega)
    obtain ⟨m, hobserve, hall⟩ := ih (stepKeepsInvariant _ _ hs hstep) (by simpa [byteRead] using hp)
      (by simpa [State.pendingInstr, byteRead] using hi) (by simpa [State.direction, byteRead] using hd)
      (by simp [byteRead, hlen]) (by simp [byteRead])
    refine ⟨m, ?_, hall.cons hs (by omega)⟩
    rw [observe_succ hstep hobserve, map_range_succ (n := n + 1)]
    simp [byteRead, Nat.add_assoc, Nat.add_comm 1]

/-- Settles O34: one read is a step of its own; all of them together follow by induction on the bytes to come. -/
theorem executionDeliversItsBytes : Obligations.ExecutionDeliversItsBytes := by
  refine ⟨fun s rest hs hop hp hid hmore => ?one, fun s rest i hs hp hid hi hop => ?all⟩
  case one =>
    obtain ⟨-, hleft, -, -, -⟩ := hs.execution hp
    have hi := pendingInstr_of_pendingOpcode (hs.latched (by simp [hp]))
    have hd := direction_toHost_iff.2 hid
    have hphase : (armOnCompletion (byteRead rest s)).phase = .execution := by simpa [byteRead] using hp
    have hcount : s.execLength - 1 + 1 = s.execLength := by omega
    have hregisters : ∀ (v : Byte) (u : State), KeepsRegisters u (advanceExec (deliver v u)) := by
      intro v u
      constructor <;> rfl
    refine ⟨_, step_execRead_of_more hs hop hp hi hd hmore, by simp [byteRead], hphase,
      mainStatus_of_toHost hphase (by simpa [State.direction, byteRead] using hd), by simp [byteRead], by simpa [byteRead],
      ?more, by simp [byteRead], by simp [byteRead], by simp [byteRead], by simp [byteRead], by simp [byteRead],
      (hregisters _ _).of_access, ⟨by simp [byteRead], by simp [byteRead], by simp [byteRead]⟩, by simp [byteRead],
      by simp [byteRead], by simp [byteRead], by simp [byteRead],
      armed_of_execution (by simp [byteRead]) (by simpa [byteRead] using hp)⟩
    case more => simpa [byteRead] using (by omega : s.execLength - 1 ≠ 0)
  case all =>
    obtain ⟨-, hleft, -, -, -⟩ := hs.execution hp
    obtain ⟨n, hn⟩ : ∃ n, s.execLength = n + 1 := ⟨_, (Nat.sub_add_cancel hleft).symm⟩
    obtain ⟨m, hobserve, kept, status, hostOps, execBuf, execPosition, flag, answers, events⟩ :=
      observe_execRead n hs hp hi (direction_toHost_iff.2 hid) hn (hn ▸ hop)
    have hstatus : statusOf (armOnCompletion (openResult7 i m)) = statusOf s := by
      rw [← status]
      simp [statusOf, openResult7]
    have hholds := kept.resultHolds hs (kept.resultHeader i)
    rw [hstatus] at hholds
    refine ⟨_, hn ▸ hobserve, hholds, hstatus, mainStatus_of_result (by simp [openResult7]), by simpa [openResult7] using hostOps,
      kept.frame_openResult7 i, by simpa [openResult7] using execBuf, by simpa [openResult7] using execPosition,
      by simpa [openResult7] using flag, by simpa [openResult7] using answers, by simpa [openResult7] using events⟩

/-! ### The reads of a Result phase -/

theorem hostOps_of_step {s t : State} {op : HostOp} {rest : List HostOp} (hop : s.hostOps = op :: rest) (h : step s = .next t) :
    t.hostOps = rest := by
  obtain ⟨hops, -, -⟩ := historyGrowsByCallsOnUsableSlots s t h
  rw [hops, hop, List.tail_cons]

/-- As many reads as bytes are due return them in order and end the command (R90, R91). -/
theorem observe_resultRead {rest : List HostOp} (n : Nat) {s : State} (hs : s.Inv) (hp : s.phase = .result)
    (hlen : s.resLength = n + 1) (hop : s.hostOps = List.replicate (n + 1) .readData ++ rest) :
    ∃ t, observe (n + 1) s = some ((List.range (n + 1)).map (fun k => some (s.resBuf.read (s.resPosition + k))), t) ∧
      BackInIdle t ∧ t.mainStatus = 0x80 ∧ t.hostOps = rest := by
  induction n generalizing s with
  | zero =>
    obtain ⟨t, hstep, hreply, -, -, -, hdone, -⟩ :=
      resultReadDeliversOneByte s rest hop hp ((State.inv_iff.1 hs).1.resPosition_lt hp)
    obtain ⟨hidle, hmsr, -⟩ := hdone (by omega)
    refine ⟨t, ?_, hidle, hmsr, hostOps_of_step hop hstep⟩
    rw [observe_succ hstep rfl, hreply]
    rfl
  | succ n ih =>
    have hop' : s.hostOps = .readData :: (List.replicate (n + 1) .readData ++ rest) := hop
    obtain ⟨t, hstep, hreply, hposition, hlength, hbuf, -, hmore, -⟩ :=
      resultReadDeliversOneByte s _ hop' hp ((State.inv_iff.1 hs).1.resPosition_lt hp)
    obtain ⟨hphase, -⟩ := hmore (by omega)
    obtain ⟨u, hobserve, hend⟩ :=
      ih (stepKeepsInvariant _ _ hs hstep) hphase (by omega) (hostOps_of_step hop' hstep)
    refine ⟨u, ?_, hend⟩
    rw [observe_succ hstep hobserve, hreply, map_range_succ (n := n + 1), hposition, hbuf]
    simp [Nat.add_assoc, Nat.add_comm 1]

/-- Settles O36: the invariant keeps at least one byte due, so the induction is on the others. -/
theorem resultPhaseDeliversAndEnds : Obligations.ResultPhaseDeliversAndEnds := by
  intro s rest hs hp hop
  obtain ⟨hleft, -, -, -⟩ := hs.result hp
  obtain ⟨n, hn⟩ : ∃ n, s.resLength = n + 1 := ⟨_, (Nat.sub_add_cancel hleft).symm⟩
  rw [hn] at hop ⊢
  exact observe_resultRead n hs hp hn hop

/-! ### Accesses in the wrong direction -/

/-- Settles O37: a stray access is its acknowledgement and arming, and at most the delivery of 0xFF between them. -/
theorem strayAccessesTransferNothing : Obligations.StrayAccessesTransferNothing := by
  refine ⟨fun s rest hop hp => ?read, fun s b rest hop hp => ?write⟩
  case read =>
    have hkeeps := keepsProtocol_access rest s
    have hstray : (ackOnAccess (takeOp rest s)).phase = .idle ∨ (ackOnAccess (takeOp rest s)).phase = .command ∨
        (ackOnAccess (takeOp rest s)).phase = .execution ∧
          (ackOnAccess (takeOp rest s)).direction ≠ some .controllerToHost := by
      rw [hkeeps.phase, hkeeps.direction, ne_eq, direction_toHost_iff]
      simpa [not_or] using hp
    have hstep := step_readData hop
    rw [readPhase_of_stray hstray, andThen_next] at hstep
    have hregisters : ∀ u : State, KeepsRegisters u (deliver Config.strayReadValue u) := by
      intro u
      constructor <;> rfl
    exact ⟨_, hstep, by simp [Config.strayReadValue],
      (hkeeps.trans (keepsProtocol_deliver _ _)).trans (keepsProtocol_armOnCompletion _), (hregisters _).of_access, by simp,
      by simp, by simp⟩
  case write =>
    have hkeeps := keepsProtocol_access rest s
    have hstray : (ackOnAccess (takeOp rest s)).phase = .result ∨
        (ackOnAccess (takeOp rest s)).phase = .execution ∧
          (ackOnAccess (takeOp rest s)).direction ≠ some .hostToController := by
      rw [hkeeps.phase, hkeeps.direction, ne_eq, direction_toController_iff]
      simpa [not_or] using hp
    have hstep := step_writeData hop
    rw [writePhase_of_stray hstray, andThen_next] at hstep
    have hregisters : ∀ u : State, KeepsRegisters u u := by
      intro u
      constructor <;> rfl
    exact ⟨_, hstep, by simp, hkeeps.trans (keepsProtocol_armOnCompletion _), (hregisters _).of_access, by simp, by simp, by simp⟩

end Sys2Proof.Machine
end

section
/-! SUPPORT. The operations that are not accesses (60_exceptions.md, 70_reset_and_hazards.md) and the construction state: the
tick, the motor control, the reset, the media swap and the host behaviour that is refused. -/

namespace Sys2Proof.Machine

open Sys2Proof

/-! ### The tick and the excluded host behaviour -/

/-- Settles O41: the three cases of the countdown are those of `tick`. -/
theorem tickCountsDown : Obligations.TickCountsDown := by
  intro s rest hop
  have hstep : step s = .next (tick (takeOp rest s)) := step_cons hop
  refine ⟨fun h => ?zero, fun h => ?one, fun k h => ?more⟩
  case zero =>
    rw [hstep, tick_of_zero (by simpa using h)]
    rfl
  case one =>
    rw [hstep, tick_of_one (by simpa using h)]
    rfl
  case more =>
    rw [hstep, tick_of_more (k := k) (by simpa using h)]
    rfl

/-- Settles O48: neither operation has an outcome but its refusal. -/
theorem excludedHostBehaviourIsRefused : Obligations.ExcludedHostBehaviourIsRefused :=
  fun _ _ => ⟨fun _ hop => step_cons hop, fun _ hop => step_cons hop⟩

/-! ### Motor control -/

/-- The step of a motor change that aborts the command (R162, R165). -/
theorem step_setMotor_of_abort {s : State} {mask : Byte} {rest : List HostOp} {i : Instr} (hop : s.hostOps = .setMotor mask :: rest)
    (ha : motorStopAborts mask s = true) (hi : s.pendingInstr = some i) :
    step s = .next (armMotorChange (motorsChanged mask s) (motorAbort i (setMotors mask (takeOp rest s)))) := by
  have hpending : (setMotors mask (takeOp rest s)).pendingInstr = some i := hi
  have habort : motorStopAborts mask (takeOp rest s) = true := ha
  rw [step_cons hop]
  change setMotor mask (takeOp rest s) = _
  rw [setMotor, if_pos habort, withPending_of_some hpending]
  rfl

/-- The step of a motor change that aborts nothing (R162). -/
theorem step_setMotor_of_no_abort {s : State} {mask : Byte} {rest : List HostOp} (hop : s.hostOps = .setMotor mask :: rest)
    (ha : motorStopAborts mask s = false) :
    step s = .next (armMotorChange (motorsChanged mask s) (setMotors mask (takeOp rest s))) := by
  have habort : ¬motorStopAborts mask (takeOp rest s) = true := by
    rw [Bool.not_eq_true]
    exact ha
  rw [step_cons hop]
  change setMotor mask (takeOp rest s) = _
  rw [setMotor, if_neg habort]
  rfl

theorem armMotorChange_of_changed {s : State} (hs : s.interruptState ≠ .seekEnd) :
    (armMotorChange true s).interruptState = .resultReady ∧ (armMotorChange true s).ticksRemaining = Config.longDelay := by
  simp [armMotorChange, arm_interruptState, arm_ticksRemaining, hs]

theorem armMotorChange_of_unchanged (s : State) : armMotorChange false s = s := rfl

theorem ResultHolds.of_armMotorChange {bytes : List Byte} {s : State} (changed : Bool) (h : ResultHolds bytes s) :
    ResultHolds bytes (armMotorChange changed s) := by
  obtain ⟨phase, position, length, stored, cmdLength, execLength⟩ := h
  exact ⟨by simpa using phase, by simpa using position, by simpa using length, by simpa using stored, by simpa using cmdLength,
    by simpa using execLength⟩

/-- The drives after a step that set the motors (R162). -/
theorem drive_of_setMotors {s t : State} {mask : Byte} {rest : List HostOp} (h : t.slots = (setMotors mask (takeOp rest s)).slots)
    (u : UnitNo) : t.drive u = (s.drive u).map fun d => { d with motorOn := mask.getLsbD u.toNat } :=
  (drive_of_slots h u).trans (drive_setMotors mask (takeOp rest s) u)

/-- The header an abort reports is that before the motors were set: they are no part of it (R131). -/
theorem resultHeader_setMotors (i : Instr) (mask : Byte) (s : State) : resultHeader i (setMotors mask s) = resultHeader i s := by
  have hcylinder : ∀ u, (setMotors mask s).reportedCylinder u = s.reportedCylinder u := by
    intro u
    have hdrive := drive_setMotors mask s u
    cases hd : s.drive u with
    | none =>
      rw [hd] at hdrive
      rw [reportedCylinder_of_empty hd, reportedCylinder_of_empty hdrive]
    | some d =>
      rw [hd] at hdrive
      have husable : (setMotors mask s).usable u = s.usable u := by simp [State.usable, hd, hdrive]
      rw [reportedCylinder_of_drive hd, reportedCylinder_of_drive hdrive, husable]
  have hfallback : ∀ n, fallbackHeader n (setMotors mask s) = fallbackHeader n s := by
    intro n
    simp [fallbackHeader, hcylinder]
  cases i <;> simp [resultHeader, hfallback]

/-- Settles O44: the abort is the opening of the seven-byte result over the set motors, with no finish action. -/
theorem motorStopAbortsExecution : Obligations.MotorStopAbortsExecution := by
  intro s mask rest i d hwf hop hp hi hd hon hoff
  have hchanged : motorsChanged mask s = true := motorsChanged_iff.2 ⟨_, d, hd, by rw [hon, hoff]; decide⟩
  have hstep := step_setMotor_of_abort hop (motorStopAborts_iff.2 ⟨hp, d, hd, hon, hoff⟩) hi
  rw [hchanged] at hstep
  have hheader : resultHeader i (setWriteDeleted false (setAborted (setMotors mask (takeOp rest s)))) = resultHeader i s :=
    (resultHeader_congr rfl rfl rfl).trans ((resultHeader_setMotors i mask _).trans (resultHeader_congr rfl rfl rfl))
  have hdrives := fun u => drive_of_setMotors (s := s) (mask := mask) (rest := rest)
    (t := armMotorChange true (motorAbort i (setMotors mask (takeOp rest s)))) (by simp [motorAbort, openResult7]) u
  refine ⟨_, hstep, ?holds, by simp [statusOf, motorAbort, openResult7, setAborted], by simp [motorAbort, openResult7],
    ⟨by simp [motorAbort, openResult7], by simp [motorAbort, openResult7], by simp [motorAbort, openResult7]⟩, ?registers,
    ⟨by simp [motorAbort, openResult7], by simp [motorAbort, openResult7], by simp [motorAbort, openResult7]⟩,
    by simp [motorAbort, openResult7], by simp [motorAbort, openResult7], ?result, by simp [motorAbort, openResult7], hdrives,
    ?own, fun hseek => ?kept, fun hseek => ?armed⟩
  case holds => exact (resultHolds_openResult7 (s := setWriteDeleted false (setAborted (setMotors mask (takeOp rest s))))
    hwf.res rfl hheader).of_armMotorChange true
  case registers => constructor <;> simp [statusOf, motorAbort, openResult7, setAborted]
  case result =>
    intro a ha
    rw [armMotorChange_resBuf, motorAbort, openResult7, keepsResFrom_openResult _ _ (result7_length _ _).le a ha]
    rfl
  case own => rw [hdrives, hd, Option.map_some, hoff]
  case kept =>
    rw [armMotorChange_of_seekEnd (by simpa [motorAbort, openResult7] using hseek)]
    exact ⟨rfl, rfl, rfl⟩
  case armed =>
    obtain ⟨hpending, hticks⟩ := armMotorChange_of_changed
      (s := motorAbort i (setMotors mask (takeOp rest s))) (by simpa [motorAbort, openResult7] using hseek)
    exact ⟨hpending, hticks, by simp [motorAbort, openResult7]⟩

/-- Settles O45: without an abort the motors are set and a change arms, whatever the phase. -/
theorem setMotorWithoutAbort : Obligations.SetMotorWithoutAbort := by
  intro s mask rest hop hno
  have hnoAbort : motorStopAborts mask s = false := by
    rw [← Bool.not_eq_true, motorStopAborts_iff]
    rintro ⟨hp, d, hd, hon, hoff⟩
    exact hno d hd hon hoff hp
  have hprotocol : KeepsProtocol s (armMotorChange (motorsChanged mask s) (setMotors mask (takeOp rest s))) :=
    ((keepsProtocol_takeOp rest s).trans (keepsProtocol_setMotors mask _)).trans (keepsProtocol_armMotorChange _ _)
  refine ⟨_, step_setMotor_of_no_abort hop hnoAbort, fun u => drive_of_setMotors (rest := rest) (by simp) u, hprotocol, ?registers,
    ⟨by simp, by simp, by simp⟩, by simp, fun hkept => ?kept, fun hchange hseek => ?armed⟩
  case registers => constructor <;> simp [statusOf]
  case kept =>
    have hsame : armMotorChange (motorsChanged mask s) (setMotors mask (takeOp rest s)) = setMotors mask (takeOp rest s) := by
      rcases hkept with hsame | hseek
      · have hunchanged : motorsChanged mask s = false := by
          rw [← Bool.not_eq_true, motorsChanged_iff]
          rintro ⟨u, d, hd, hne⟩
          exact hne (hsame u d hd)
        rw [hunchanged, armMotorChange_of_unchanged]
      · exact armMotorChange_of_seekEnd (by simpa using hseek)
    rw [hsame]
    exact ⟨rfl, rfl, rfl⟩
  case armed =>
    rw [motorsChanged_iff.2 hchange]
    exact armMotorChange_of_changed (by simpa using hseek)

/-! ### Reset and construction -/

/-- Settles O46: the reset state is the construction state but for the slots, the history and the model's own scripts. -/
theorem resetRestoresDefaults : Obligations.ResetRestoresDefaults := by
  intro s rest hop
  have hstep : step s = .next (resetMachine (takeOp rest s)) := step_cons hop
  have hevents : (resetMachine (takeOp rest s)).events = s.events ++ (if s.irqLine then [.irq false] else []) := by
    change (lowerLine (takeOp rest s)).events = _
    rw [lowerLine_events]
    cases hline : s.irqLine <;> simp [hline]
  refine ⟨_, hstep, rfl, ?_, fun u => drive_resetMachine (takeOp rest s) u⟩
  rw [← hevents]
  rfl

/-- Settles O49: each field of the construction state is written in its definition. -/
theorem constructionValues : Obligations.ConstructionValues := by
  intro cfg
  refine ⟨_, rfl, ⟨rfl, rfl, rfl, rfl, rfl⟩, rfl, rfl, rfl, rfl, rfl, fun _ => ⟨rfl, rfl, rfl⟩, rfl, rfl, rfl, rfl, rfl, rfl, rfl,
    rfl, rfl, rfl, rfl, fun u => ?_⟩
  rw [drive_construct]
  rfl

/-! ### Media swap -/

theorem insertMedia_of_allowed {u : UnitNo} {s : State} (h : swapAllowed u s = true) :
    insertMedia u s = .next (setAttached u true s) :=
  if_pos h

theorem ejectMedia_of_allowed {u : UnitNo} {s : State} (h : swapAllowed u s = true) :
    ejectMedia u s = .next (setAttached u false (record (.call u .eject .nothing) s)) :=
  if_pos h

theorem swap_of_refused {u : UnitNo} {s : State} (h : swapAllowed u s = false) :
    insertMedia u s = .refused .mediaSwap ∧ ejectMedia u s = .refused .mediaSwap :=
  ⟨if_neg (by simp [h]), if_neg (by simp [h])⟩

/-- Attaching or detaching touches the slots alone (R171). -/
theorem setAttached_eq (u : UnitNo) (b : Bool) (s : State) : setAttached u b s = { s with slots := (setAttached u b s).slots } := by
  unfold setAttached
  split <;> rfl

/-- Settles O47: the rule's condition is `swapAllowed`, and either swap sets one slot's backend. -/
theorem mediaSwapOnlyWhereAllowed : Obligations.MediaSwapOnlyWhereAllowed := by
  intro s u rest
  refine ⟨fun d hd hp => ?allowed, fun hcond hop => ?refused⟩
  case allowed =>
    have hallowed : swapAllowed u (takeOp rest s) = true := swapAllowed_iff.2 ⟨⟨d, hd⟩, hp⟩
    have hown : ∀ (b : Bool) (t : State), t.drive u = some d →
        (setAttached u b t).drive u = some { d with attached := b } := by
      intro b t ht
      rw [drive_setAttached, if_pos rfl, ht, Option.map_some]
    have hothers : ∀ (b : Bool) (t : State) (v : UnitNo), v ≠ u → (setAttached u b t).drive v = t.drive v := by
      intro b t v hv
      rw [drive_setAttached, if_neg (Ne.symm hv)]
    refine ⟨fun hop => ?insert, fun hop => ?eject⟩
    case insert =>
      exact ⟨_, (step_cons hop).trans (insertMedia_of_allowed hallowed), hown true _ hd, hothers true _, setAttached_eq _ _ _⟩
    case eject =>
      exact ⟨_, (step_cons hop).trans (ejectMedia_of_allowed hallowed), hown false _ hd, hothers false _, setAttached_eq _ _ _⟩
  case refused =>
    obtain ⟨hinsert, heject⟩ := swap_of_refused (s := takeOp rest s) (swapAllowed_eq_false_iff.2 hcond)
    rcases hop with hop | hop
    · exact (step_cons hop).trans hinsert
    · exact (step_cons hop).trans heject

end Sys2Proof.Machine
end
